-- ==== Sys2Proof/Word.lean ====
section
/-!
DEFINITION. The plain words of the model: bytes, the two platforms, and the four zones or channels with the records kept for each.
-/

namespace Sys2Proof

/-- A byte of a frame body or of the store image. -/
abbrev Byte := BitVec 8

/-- One of four: a local zone Z0..Z3 or a render channel 0..3 (00_scope.md, "Nodes, zones and platforms"; R133). -/
inductive Idx4 where
  | i0
  | i1
  | i2
  | i3
deriving DecidableEq, Repr

/-- A local zone. -/
abbrev ZoneId := Idx4

/-- A render channel. -/
abbrev ChanId := Idx4

/-- The number of a zone or channel, as frames and the store image count them. -/
def Idx4.toNat : Idx4 → Nat
  | .i0 => 0
  | .i1 => 1
  | .i2 => 2
  | .i3 => 3

/-- The four in ascending order. -/
def Idx4.all : List Idx4 := [.i0, .i1, .i2, .i3]

/-- The zone or channel a number names, if it names one. -/
def Idx4.ofNat? : Nat → Option Idx4
  | 0 => some .i0
  | 1 => some .i1
  | 2 => some .i2
  | 3 => some .i3
  | _ => none

/-- The other member of the pair a zone may be configured in: Z0 with Z1, Z2 with Z3 (R124). -/
def Idx4.partner : Idx4 → Idx4
  | .i0 => .i1
  | .i1 => .i0
  | .i2 => .i3
  | .i3 => .i2

/-- The zone that stands first of a zone and its partner. -/
def Idx4.lead : Idx4 → Idx4
  | .i0 => .i0
  | .i1 => .i0
  | .i2 => .i2
  | .i3 => .i2

/-- The channel after a channel, from 3 round to 0 (R140). -/
def Idx4.next : Idx4 → Idx4
  | .i0 => .i1
  | .i1 => .i2
  | .i2 => .i3
  | .i3 => .i0

/-- Four values of one kind, one for each zone or channel. -/
structure Quad (α : Type) where
  q0 : α
  q1 : α
  q2 : α
  q3 : α
deriving DecidableEq, Repr

/-- The value kept for one of the four. -/
def Quad.get {α : Type} (q : Quad α) : Idx4 → α
  | .i0 => q.q0
  | .i1 => q.q1
  | .i2 => q.q2
  | .i3 => q.q3

/-- The four with one value replaced. -/
def Quad.set {α : Type} (q : Quad α) (i : Idx4) (v : α) : Quad α :=
  match i with
  | .i0 => { q with q0 := v }
  | .i1 => { q with q1 := v }
  | .i2 => { q with q2 := v }
  | .i3 => { q with q3 := v }

/-- The same value four times. -/
def Quad.const {α : Type} (v : α) : Quad α := ⟨v, v, v, v⟩

/-- Each of the four changed by the same function. -/
def Quad.map {α β : Type} (f : α → β) (q : Quad α) : Quad β := ⟨f q.q0, f q.q1, f q.q2, f q.q3⟩

/-- Four values made from their indexes. -/
def Quad.tabulate {α : Type} (f : Idx4 → α) : Quad α := ⟨f .i0, f .i1, f .i2, f .i3⟩

@[simp] theorem Quad.get_set_self {α : Type} (q : Quad α) (i : Idx4) (v : α) : (q.set i v).get i = v := by
  cases i <;> rfl

theorem Quad.get_set_ne {α : Type} (q : Quad α) {i j : Idx4} (v : α) (h : j ≠ i) :
    (q.set i v).get j = q.get j := by
  cases i <;> cases j <;> first | rfl | exact absurd rfl h

theorem Quad.get_set {α : Type} (q : Quad α) (i j : Idx4) (v : α) :
    (q.set i v).get j = if j = i then v else q.get j := by
  by_cases h : j = i
  · subst h; simp
  · simp [h, Quad.get_set_ne q v h]

@[simp] theorem Quad.get_const {α : Type} (v : α) (i : Idx4) : (Quad.const v).get i = v := by
  cases i <;> rfl

@[simp] theorem Quad.get_map {α β : Type} (f : α → β) (q : Quad α) (i : Idx4) :
    (q.map f).get i = f (q.get i) := by
  cases i <;> rfl

@[simp] theorem Quad.get_tabulate {α : Type} (f : Idx4 → α) (i : Idx4) : (Quad.tabulate f).get i = f i := by
  cases i <;> rfl

@[ext] theorem Quad.ext_get {α : Type} {q r : Quad α} (h : ∀ i, q.get i = r.get i) : q = r := by
  cases q; cases r
  have h0 := h .i0; have h1 := h .i1; have h2 := h .i2; have h3 := h .i3
  simp only [Quad.get] at h0 h1 h2 h3
  simp [h0, h1, h2, h3]

/-- A local platform (00_scope.md, "Nodes, zones and platforms"). -/
inductive PlatId where
  | p0
  | p1
deriving DecidableEq, Repr

/-- Two values of one kind, one for each local platform. -/
structure Duo (α : Type) where
  d0 : α
  d1 : α
deriving DecidableEq, Repr

/-- The value kept for one platform. -/
def Duo.get {α : Type} (d : Duo α) : PlatId → α
  | .p0 => d.d0
  | .p1 => d.d1

/-- The two with one value replaced. -/
def Duo.set {α : Type} (d : Duo α) (p : PlatId) (v : α) : Duo α :=
  match p with
  | .p0 => { d with d0 := v }
  | .p1 => { d with d1 := v }

/-- Both values changed by the same function. -/
def Duo.map {α β : Type} (f : α → β) (d : Duo α) : Duo β := ⟨f d.d0, f d.d1⟩

@[simp] theorem Duo.get_set_self {α : Type} (d : Duo α) (p : PlatId) (v : α) : (d.set p v).get p = v := by
  cases p <;> rfl

theorem Duo.get_set_ne {α : Type} (d : Duo α) {p r : PlatId} (v : α) (h : r ≠ p) :
    (d.set p v).get r = d.get r := by
  cases p <;> cases r <;> first | rfl | exact absurd rfl h

@[simp] theorem Duo.get_map {α β : Type} (f : α → β) (d : Duo α) (p : PlatId) :
    (d.map f).get p = f (d.get p) := by
  cases p <;> rfl

end Sys2Proof
end

