-- ==== Sys2Proof/Syntax.lean ====
section
/-!
DEFINITION. The commands of the block: one constructor of Instr for each row of spec/opcode_table.json, with the operands of each.
-/

namespace Sys2Proof

/-- A claim id: the pair of its origin node and sequence number (00_scope.md, "Phrases, claims and audio"; R90). -/
structure ClaimId where
  origin : Nat
  seq : Nat
deriving DecidableEq, Repr

/-- A frame heard whole on the station link, as its header and body give it (R162). The kind is the command's own, the body
length is the length of the list, and the check has been found right: a frame for which it has not is FRAME_REJECTED. -/
structure RxFrame where
  src : Byte
  dst : Byte
  body : List Byte
deriving DecidableEq, Repr

/-- The commands of the block. Frames, pin events, completions and instants reached, each whole and indivisible
(95_what_each_step_holds.md). -/
inductive Instr where
  /-- Power-on, or RESET going active (R178). -/
  | reset
  /-- RESET released with the six strap pins reading `strap` (R179). -/
  | leaveReset (strap : BitVec 6)
  /-- The loader's header read completes with the eight header bytes (R177, R182). -/
  | headerReadDone (bytes : List Byte)
  /-- A loader read of the configuration area completes with the next bytes (R181). -/
  | configReadDone (bytes : List Byte)
  /-- 1,000 ms of running time have elapsed since the last boundary or CLOCK frame (R6). -/
  | secondBoundary
  /-- A CLOCK frame (R7). -/
  | clock (f : RxFrame)
  /-- A CALLSET frame (R11). -/
  | callset (f : RxFrame)
  /-- A CALLAMEND frame (R56). -/
  | callamend (f : RxFrame)
  /-- A CALLPLAN frame (R57). -/
  | callplan (f : RxFrame)
  /-- A CALLDROP frame (R13). -/
  | calldrop (f : RxFrame)
  /-- A TRIGGER frame (R33). -/
  | trigger (f : RxFrame)
  /-- A HANDOFF frame (R70). -/
  | handoff (f : RxFrame)
  /-- An ANSWER frame (R69, R175). -/
  | answer (f : RxFrame)
  /-- The 2,000 ms handoff timer of the call `key` runs out (R69). -/
  | handoffTimeout (key : Nat)
  /-- A QUERY frame, with the level of the MAINT input at its frame end (R173, R185). -/
  | query (f : RxFrame) (maint : Bool)
  /-- A REPORT frame (R164). -/
  | report (f : RxFrame)
  /-- A ZATTR frame, with the level of the MAINT input at its frame end (R129, R185). -/
  | zattr (f : RxFrame) (maint : Bool)
  /-- A CLAIM frame (R96). -/
  | claim (f : RxFrame)
  /-- A CEDE frame (R99). -/
  | cede (f : RxFrame)
  /-- A ZSTAT frame (R102). -/
  | zstat (f : RxFrame)
  /-- A frame that fails a test of reception: the bytes heard from the kind byte on, and whether the link went idle before its
  declared end (R163). -/
  | frameRejected (bytes : List Byte) (truncated : Bool)
  /-- The OCC level of a platform changes (R42). -/
  | occChange (p : PlatId)
  /-- The debounce wait of a platform runs out (R42). -/
  | debounceWaitExpiry (p : PlatId)
  /-- DOORS rises (R44). -/
  | doorsRise (p : PlatId)
  /-- DOORS falls (R43). -/
  | doorsFall (p : PlatId)
  /-- APPROACH rises (R52). -/
  | approachRise (p : PlatId)
  /-- APPROACH falls (R43). -/
  | approachFall (p : PlatId)
  /-- EVAC rises (R38). -/
  | evacRise
  /-- The evacuation timer runs out (R38). -/
  | evacTimerExpiry
  /-- EVAC falls (R39). -/
  | evacFall
  /-- AMP_FAULT of a zone rises (R127). -/
  | ampFaultRise (z : ZoneId)
  /-- AMP_FAULT of a zone falls (R127). -/
  | ampFaultFall (z : ZoneId)
  /-- The head origination is composed (R77, R78). -/
  | compose
  /-- The call `key` swaps (R61, R63). -/
  | swap (key : Nat)
  /-- The call `key`, awaiting removal, leaves the call table (R17). -/
  | callRemoval (key : Nat)
  /-- The entry `id` is removed from the claim table (R106). -/
  | entryRemoval (id : ClaimId)
  /-- Running time reaches the coverage window end of the entry `id` (R103, R104). -/
  | coverageWindowClose (id : ClaimId)
  /-- A LEAD_IN zone reaches its current claim's start instant (R118). -/
  | startInstant (z : ZoneId)
  /-- A CUTTING zone's stop instant is reached (R121). -/
  | stopInstant (z : ZoneId)
  /-- The JOINT claim `id` in a zone's wait list reaches its start instant (R119). -/
  | jointWaiterStart (z : ZoneId) (id : ClaimId)
  /-- The LOOSE claim `id` in a zone's wait list passes its latest start (R119). -/
  | looseWaiterExpiry (z : ZoneId) (id : ClaimId)
  /-- A CUTTING zone's LOOSE next claim passes its latest start (R123). -/
  | nextClaimExpiry (z : ZoneId)
  /-- A channel has delivered the last sample of a held phrase or tone segment (R138, R142). -/
  | phraseBoundary (c : ChanId)
  /-- The store port's block read completes with the bytes read (R140). -/
  | storeReadComplete (bytes : List Byte)
  /-- A zone's hangover ends (R146). -/
  | hangoverExpiry (z : ZoneId)
  /-- A zone's tracker window has reached 500 samples (R148). -/
  | trackerWindowComplete (z : ZoneId)
  /-- A zone's staged attributes are applied (R130). -/
  | stagedAttrApply (z : ZoneId)
  /-- The pair of the REJOINING zone `z` re-forms (R126). -/
  | pairReform (z : ZoneId)
  /-- The link has been idle for `idle` bit times and the head frame's gap has elapsed (R169). -/
  | attemptStart (idle : Nat)
  /-- A delimiter of another station is heard when the link has been idle for `idle` bit times (R169). -/
  | delimiterHeard (idle : Nat)
  /-- The attempt under way reaches its frame end (R168). -/
  | frameSent
  /-- The attempt under way ends in a collision at bit `bit` of the frame, counted from the delimiter's first (R170). -/
  | collision (bit : Nat)
  /-- Running time advances by one millisecond, with the ladder reference at `vref` and the envelopes at `envelope`, all in one
  unit of voltage (R8, R145). -/
  | samplingInstant (vref : Nat) (envelope : Quad Nat)
  /-- The next sample of a bound channel falls due (R137). -/
  | sampleDue (c : ChanId)
deriving DecidableEq, Repr

end Sys2Proof
end

