-- ==== Sys2Proof/Machine/Types.lean ====
section
/-!
DEFINITION. The records the blocks of the node hold, as plain data, with the names the spec gives their values.
-/

namespace Sys2Proof.Machine

open Sys2Proof

/-! ### Announcements -/

/-- Sync of a claim: all zones together at the start instant, or a zone may begin later (00_scope.md, "Terms"). -/
inductive Sync where
  | joint
  | loose
deriving DecidableEq, Repr

/-- The class of an announcement, 0..7; a lower number is more urgent (00_scope.md, "Announcement classes"). -/
abbrev AnnClass := Nat

/-- A set of the groups G0..G31: bit g stands for group Gg (R176). -/
abbrev GroupSet := BitVec 32

/-! ### Calls (R2, R4, R20, R21, R55, R68) -/

/-- Call kind (R2). -/
inductive CallKind where
  | arrival
  | departure
  | turn
deriving DecidableEq, Repr

/-- The reason of FINISHED (R4). -/
inductive FinishReason where
  | departed
  | arrived
  | expired
deriving DecidableEq, Repr

/-- The state of a call (R4). -/
inductive CallState where
  | waiting
  | bound
  | finished (r : FinishReason)
  | dropping
  | handingOff
deriving DecidableEq, Repr

/-- Step mode (R20). -/
inductive StepMode where
  | atTime
  | every
  | onArrive
  | onDispatch
  | manual
deriving DecidableEq, Repr

/-- The reference of a step: the expected arrival or the expected departure (R20). -/
inductive RefTime where
  | arr
  | dep
deriving DecidableEq, Repr

/-- The fields of a plan step (R20). -/
structure StepSpec where
  mode : StepMode
  ref : RefTime
  offset : Int
  period : Nat
  windowEnd : Int
  gate : Bool
  limit : Nat
  cls : AnnClass
  sync : Sync
  template : Nat
  target : Nat
  retry : Bool
deriving DecidableEq, Repr

/-- The reason of SKIPPED (R21). -/
inductive SkipReason where
  | busy
  | full
  | late
deriving DecidableEq, Repr

/-- Step state (R21). -/
inductive StepState where
  | idle
  | counting
  | held
  | fired
  | skipped (r : SkipReason)
  | done
deriving DecidableEq, Repr

/-- The outcome of a step's most recent own firing (R21). -/
inductive LastFiring where
  | none
  | originated
  | skippedBusy
  | skippedFull
  | skippedLate
deriving DecidableEq, Repr

/-- Step timer state (R21). -/
structure StepTimer where
  state : StepState
  last : LastFiring
  remaining : Option Nat
  fires : Nat
  notLoaded : Bool
  lastClaim : Option ClaimId
deriving DecidableEq, Repr

/-- The timer state a started step takes before its mode's row of R23 (R21, last column). -/
def StepTimer.fresh : StepTimer :=
  { state := .idle, last := .none, remaining := none, fires := 0, notLoaded := false, lastClaim := none }

/-- A step of a plan with its timer (R20, R21). -/
structure Step where
  spec : StepSpec
  timer : StepTimer
deriving DecidableEq, Repr

/-- The plan part of a staged amendment (R55). A revision is a step index with every field of R20. -/
inductive PlanPart where
  | replace (steps : List StepSpec)
  | revise (revs : List (Nat × StepSpec))
deriving DecidableEq, Repr

/-- A staged amendment: every part present or absent (R55). The times part is present when either time is. -/
structure Amendment where
  arr : Option Nat
  dep : Option Nat
  platform : Option Nat
  coaches : Option Nat
  points : Option (List Nat)
  plan : Option PlanPart
deriving DecidableEq, Repr

/-- An amendment with no part. -/
def Amendment.empty : Amendment :=
  { arr := none, dep := none, platform := none, coaches := none, points := none, plan := none }

/-- The phase of a handoff (R69). -/
inductive HandoffPhase where
  | sending
  | awaiting
  | settled
deriving DecidableEq, Repr

/-- The handoff context (R68), with the handoff timer of R69 in ms remaining. -/
structure HandoffCtx where
  server : Nat
  newPlatform : Nat
  prePlatform : PlatId
  preChanged : Bool
  phase : HandoffPhase
  timer : Option Nat
deriving DecidableEq, Repr

/-- A call record (R2). -/
structure Call where
  key : Nat
  kind : CallKind
  platform : PlatId
  schArr : Option Nat
  schDep : Option Nat
  expArr : Option Nat
  expDep : Option Nat
  dest : Option Nat
  origin : Option Nat
  coaches : Option Nat
  points : List Nat
  changed : Bool
  steps : List Step
  state : CallState
  staged : Option Amendment
  handoffFailed : Bool
  handoff : Option HandoffCtx
deriving DecidableEq, Repr

/-! ### The evacuation repeat and the platforms (R38, R40) -/

/-- Evacuation state of the STU (R38). -/
structure Evac where
  timer : Option Nat
  lastClaim : Option ClaimId
  level : Bool
deriving DecidableEq, Repr

/-- Platform state (R40). -/
inductive PlatState where
  | empty
  | occupied
  | dispatch
deriving DecidableEq, Repr

/-- Last approach outcome (R40). -/
inductive ApproachOutcome where
  | none
  | originated
  | skippedBusy
  | skippedFull
deriving DecidableEq, Repr

/-- A platform record (R40). Station platform number 0 is none. -/
structure Plat where
  stationNo : Nat
  occ : Bool
  doors : Bool
  approach : Bool
  accOcc : Bool
  wait : Option Nat
  state : PlatState
  bound : Option Nat
  hold : Option Nat
  lastOutcome : ApproachOutcome
  lastClaim : Option ClaimId
deriving DecidableEq, Repr

/-! ### The composer (R73, R79) -/

/-- The source of an origination (R73). -/
inductive OrigSource where
  | step (key idx : Nat)
  | approach (p : PlatId)
  | evac
  | retry (id : ClaimId)
deriving DecidableEq, Repr

/-- The target of an origination (R73). -/
inductive OrigTarget where
  | set (t : Nat)
  | groups (g : GroupSet)
deriving DecidableEq, Repr

/-- An origination (R73). `own` is the model's mark of a STEP origination made by the step's own firing, which R75 tells from one
made by a TRIGGER of a step that is not MANUAL (log 18). -/
structure Orig where
  source : OrigSource
  cls : AnnClass
  sync : Sync
  template : Nat
  target : OrigTarget
  call : Option (Nat × Nat)
  queuedAt : Nat
  own : Bool
deriving DecidableEq, Repr

/-- A template slot (R79). -/
inductive Slot where
  | phrase (code : Nat)
  | dest
  | origin
  | platform
  | timeArr
  | timeDep
  | delay
  | coaches
  | calling
  | ifLate (n : Nat)
  | ifChanged (n : Nat)
deriving DecidableEq, Repr

/-- The number-phrase bases (R79). -/
structure Bases where
  hour : Nat
  minute : Nat
  oclock : Nat
  delay : Nat
  platform : Nat
  coaches : Nat
  andOthers : Nat
deriving DecidableEq, Repr

/-- The composer (R74, R79, R88). -/
structure Cmp where
  queue : List Orig
  seq : Nat
  templates : List (List Slot)
  bases : Bases
deriving DecidableEq, Repr

/-! ### The claim table (R90, R91, R94, R101) -/

/-- Disposition of a claim in a local zone (R90, R94). -/
inductive Disp where
  | notTarget
  | pending
  | played
  | preempted
  | missed
  | refusedAttr
  | refusedBusy
  | withdrawn
  | fault
  | evicted
deriving DecidableEq, Repr

/-- ZSTAT state (R101). -/
inductive ZstatState where
  | notNeeded
  | pending
  | queued
  | sent
  | failed
deriving DecidableEq, Repr

/-- Send state (R91). -/
inductive SendState where
  | queued
  | sent
  | failed
deriving DecidableEq, Repr

/-- Coverage outcome (R91). -/
inductive Outcome where
  | unknown
  | played
  | partly
  | missed
deriving DecidableEq, Repr

/-- A line of the coverage record: a target node, its outcome and which of its zones are retry zones (R91). -/
structure CoverLine where
  node : Nat
  outcome : Outcome
  retryZones : Quad Bool
deriving DecidableEq, Repr

/-- The origin part of an entry (R91). `cutNow` is the cut-now flag of the withdrawal ordered, which R14 and R39 need when the CEDE
is queued later than the order (log 24). -/
structure OriginPart where
  send : SendState
  lines : List CoverLine
  windowEnd : Option Nat
  windowOpen : Bool
  retryUsed : Bool
  isRetry : Bool
  noRetry : Bool
  ceded : Bool
  cutNow : Bool
deriving DecidableEq, Repr

/-- A claim entry (R90). `settled` records that the settling of R94 has been taken (log 23). -/
structure Entry where
  id : ClaimId
  cls : AnnClass
  sync : Sync
  groups : GroupSet
  phrases : List Nat
  call : Option (Nat × Nat)
  missing : Bool
  truncated : Bool
  localOnly : Bool
  start : Option Nat
  latest : Option Nat
  plannedEnd : Option Nat
  disp : Quad Disp
  zstat : ZstatState
  settled : Bool
  origin : Option OriginPart
deriving DecidableEq, Repr

/-! ### The zone arbiter (R109) -/

/-- Zone state (R109, R110). -/
inductive ZoneState where
  | outOfService
  | fault
  | rejoining
  | idle
  | leadIn
  | playing
  | cutting
deriving DecidableEq, Repr

/-- Acceptance code (R109). -/
inductive AccCode where
  | accept
  | quiet
  | refuse
deriving DecidableEq, Repr

/-- A claim as a zone holds it: its id, the facts about it the arbiter works from (class, sync, start instant, latest start), its
zone arrival instant, and a copy of its phrase list for the channel (R109, R117; log 22). -/
structure Held where
  id : ClaimId
  cls : AnnClass
  sync : Sync
  start : Nat
  latest : Option Nat
  arrival : Nat
  phrases : List Nat
deriving DecidableEq, Repr

/-- The part of a zone record that the two members of a WHOLE pair share (R109, R124). -/
structure Arb where
  state : ZoneState
  current : Option Held
  next : Option Held
  wait : List Held
  phraseEnd : Bool
  stopAt : Option Nat
  wdPending : Bool
deriving DecidableEq, Repr

/-- A zone that holds nothing, in a state. -/
def Arb.bare (st : ZoneState) : Arb :=
  { state := st, current := none, next := none, wait := [], phraseEnd := false, stopAt := none, wdPending := false }

/-- An acceptance row: one code for each class (R109). -/
structure AccRow where
  c0 : AccCode
  c1 : AccCode
  c2 : AccCode
  c3 : AccCode
  c4 : AccCode
  c5 : AccCode
  c6 : AccCode
  c7 : AccCode
deriving DecidableEq, Repr

/-- The code of a row for a class. -/
def AccRow.code (r : AccRow) : AnnClass → AccCode
  | 0 => r.c0
  | 1 => r.c1
  | 2 => r.c2
  | 3 => r.c3
  | 4 => r.c4
  | 5 => r.c5
  | 6 => r.c6
  | _ => r.c7

/-- The row of all REFUSE that a zone holds after reset (R109). -/
def AccRow.allRefuse : AccRow :=
  ⟨.refuse, .refuse, .refuse, .refuse, .refuse, .refuse, .refuse, .refuse⟩

/-- Staged attributes of a zone (R109, R129). -/
structure StagedAttr where
  row : AccRow
  base : Nat
  floor : Nat
deriving DecidableEq, Repr

/-- Pair state (R109). -/
inductive PairState where
  | whole
  | broken
deriving DecidableEq, Repr

/-- A zone record (R109). The partner of a paired zone is `Idx4.partner` of the zone. `reformDue` says that the partner of this
REJOINING member has chosen what follows after its current claim ended (R126; log 21). -/
structure Zone where
  arb : Arb
  row : AccRow
  base : Nat
  floor : Nat
  service : Bool
  ampFault : Bool
  staged : Option StagedAttr
  pair : Option PairState
  neighbours : Quad Bool
  reformDue : Bool
deriving DecidableEq, Repr

/-! ### Render channels and store port (R133, R139, R140) -/

/-- A read-ahead slot that holds samples: up to 128 samples of one held phrase from a sample position on (R133, R139). -/
structure Block where
  idx : Nat
  pos : Nat
  samples : List Int
deriving DecidableEq, Repr

/-- A BOUND render channel (R133). The bind instant is in sixteenths of a millisecond; `delivered` is the n of R137; `unread` is the
next unread block of R139 as a phrase index and sample position; in tone mode the cursor counts tone segments (log 31). -/
structure Chan where
  claim : ClaimId
  bind16 : Nat
  phrases : List Nat
  cursor : Option Nat
  pos : Nat
  delivered : Nat
  attached : Quad Bool
  slots : List Block
  unread : Option (Nat × Nat)
  request : Bool
  tone : Bool
deriving DecidableEq, Repr

/-- A block read under way: its channel, the block, the samples asked for, the store address, and whether the channel was freed
since the read began (R139, R140). -/
structure ReadOp where
  chan : ChanId
  idx : Nat
  pos : Nat
  count : Nat
  addr : Nat
  stale : Bool
deriving DecidableEq, Repr

/-- The store port: IDLE when nothing is being read (R140). -/
structure Port where
  pointer : ChanId
  reading : Option ReadOp
deriving DecidableEq, Repr

/-! ### The level unit (R144) -/

/-- A running tracker window: samples taken and samples high (R144). -/
structure TrackWindow where
  taken : Nat
  high : Nat
deriving DecidableEq, Repr

/-- The level unit's record of a zone (R144). -/
structure LuZone where
  k : Nat
  window : Option TrackWindow
  lastPlayEnd : Option Nat
  level : Nat
  mult : Nat
  initK : Nat
  q : Nat
  slope : Nat
  cmax : Nat
  dnight : Nat
  dspill : Nat
deriving DecidableEq, Repr

/-- The level unit (R144). `pclass` holds the class boosts in class order. -/
structure Lu where
  zones : Quad LuZone
  pclass : List Nat
  eFloor : Nat
  nightStart : Nat
  nightEnd : Nat
deriving DecidableEq, Repr

/-! ### The link controller (R162, R166, R173, R176) -/

/-- The fields a CLAIM frame carries (R89, R176). The offset is in units of 10 ms, the LOOSE window in seconds. -/
structure ClaimFrame where
  seq : Nat
  cls : AnnClass
  sync : Sync
  missing : Bool
  truncated : Bool
  groups : GroupSet
  offset10 : Nat
  window : Option Nat
  call : Option (Nat × Nat)
  phrases : List Nat
deriving DecidableEq, Repr

/-- The fields a HANDOFF frame carries (R68, R176). -/
structure HandoffFrame where
  key : Nat
  kind : CallKind
  platform : Nat
  schArr : Option Nat
  schDep : Option Nat
  expArr : Option Nat
  expDep : Option Nat
  dest : Option Nat
  origin : Option Nat
  coaches : Option Nat
  points : List Nat
  steps : List StepSpec
deriving DecidableEq, Repr

/-- The code of an ANSWER (R175). -/
inductive AnswerCode where
  | done
  | staged
  | full
  | duplicate
  | unknownKey
  | badValue
  | locked
  | notOwner
  | busy
  | storeFault
deriving DecidableEq, Repr

/-- A frame the node sends (R162). -/
inductive TxBody where
  | claim (c : ClaimFrame)
  | cede (id : ClaimId) (cutNow : Bool)
  | zstat (id : ClaimId) (zones : List (ZoneId × Disp))
  | answer (kind key : Nat) (code : AnswerCode)
  | handoff (h : HandoffFrame)
  | report (kind index count leftOut : Nat) (key : Option Nat) (content : List Byte)
deriving DecidableEq, Repr

/-- A frame in the transmit queue (R166), with its destination, whether an attempt for it is under way (R170) and whether its owner's
request to take it back is held (R171). -/
structure TxFrame where
  body : TxBody
  dst : Nat
  tier : Nat
  queuedAt : Nat
  fails : Nat
  underWay : Bool
  takeBack : Bool
deriving DecidableEq, Repr

/-- The kinds of QUERY (R173). -/
inductive QueryKind where
  | node
  | zones
  | claims
  | calls
  | call
deriving DecidableEq, Repr

/-- The node state of the loader (R182). -/
inductive NodeMode where
  | loading
  | running
  | storeFault
  | listenOnly
deriving DecidableEq, Repr

/-- The load outcome (R182). -/
inductive LoadOutcome where
  | good
  | format
  | length
  | sum
deriving DecidableEq, Repr

/-- A claim entry as the REPORT to QUERY CLAIMS shows it: the entry with its instants taken from the QUERY's arrival (R108). -/
structure ClaimLine where
  id : ClaimId
  cls : AnnClass
  sync : Sync
  groups : GroupSet
  call : Option (Nat × Nat)
  missing : Bool
  truncated : Bool
  localOnly : Bool
  start : Option Int
  latest : Option Int
  plannedEnd : Option Int
  disp : Quad Disp
  zstat : ZstatState
  origin : Option OriginPart
  windowEnd : Option Int
deriving DecidableEq, Repr

/-- A zone line (R131). -/
structure ZoneLine where
  state : ZoneState
  current : Option ClaimId
  next : Option ClaimId
  wait : List ClaimId
  phraseEnd : Bool
  stopAt : Option Nat
  wdPending : Bool
  service : Bool
  ampFault : Bool
  row : AccRow
  base : Nat
  floor : Nat
  staged : Option StagedAttr
  pair : Option (ZoneId × PairState)
  k : Nat
  level : Nat
deriving DecidableEq, Repr

/-- A channel line (R143): for a BOUND channel its claim, the ms since its bind instant, its cursor, sample position and attached
zones; whether it is in tone mode. -/
structure ChannelLine where
  bound : Option (ClaimId × Nat × Option Nat × Nat × Quad Bool)
  tone : Bool
deriving DecidableEq, Repr

/-- The node's own line in the REPORT to QUERY NODE (R6, R166, R173, R179, R182). -/
structure NodeLine where
  mode : NodeMode
  outcome : Option LoadOutcome
  clockSet : Bool
  time : Nat
  maint : Bool
  strap : Nat
  evacLevel : Bool
  lastEvac : Option ClaimId
  txTiers : List Nat
deriving DecidableEq, Repr

/-- One item of a snapshot (R173): what each chapter lists for the console (R18, R54, R74, R108, R131, R143). -/
inductive ReportItem where
  | callLine (key : Nat) (kind : CallKind) (stationNo : Nat) (state : CallState) (ref : Option Nat) (staged failed : Bool)
  | callCount (n : Nat)
  | callRecord (c : Call) (stationNo liveCount : Nat)
  | callNotHeld (key : Nat)
  | claimLine (l : ClaimLine)
  | claimCount (n : Nat)
  | zoneLine (z : ZoneId) (l : ZoneLine)
  | platformLine (p : PlatId) (l : Plat)
  | origLine (source : OrigSource) (cls : AnnClass) (age : Nat)
  | sequence (n : Nat)
  | channelLine (c : ChanId) (l : ChannelLine)
  | portLine (p : Port)
  | nodeLine (l : NodeLine)
deriving DecidableEq, Repr

/-- The report buffer while HOLDING (R173): the query kind, the source of the QUERY, the snapshot, the contents of the report's
frames, the count of items left out and the index 1..8 of the frame now in the transmit queue. -/
structure ReportBuf where
  kind : QueryKind
  key : Nat
  source : Nat
  snapshot : List ReportItem
  contents : List (List Byte)
  leftOut : Nat
  index : Nat
deriving DecidableEq, Repr

/-- The link controller (R163, R166, R173). `rx` says that the receive buffer is taking a frame. -/
structure Lc where
  tx : List TxFrame
  rx : Bool
  report : Option ReportBuf
deriving DecidableEq, Repr

/-! ### Clock, loader, configuration, pins -/

/-- The service clock and the running time (R6, R8). `secMs` counts the ms since the last second boundary, `sub` the sixteenths of the
present ms (log 7). -/
structure Sck where
  time : Nat
  isSet : Bool
  running : Nat
  secMs : Nat
  sub : Nat
deriving DecidableEq, Repr

/-- What the loader is reading (R181). -/
inductive LoadPhase where
  | header
  | config
  | over
deriving DecidableEq, Repr

/-- The start-up loader (R178, R179, R181, R182). -/
structure Sul where
  mode : NodeMode
  resetHeld : Bool
  strap : BitVec 6
  phase : LoadPhase
  headerSum : Nat
  sum : Nat
  image : List Byte
  outcome : Option LoadOutcome
deriving DecidableEq, Repr

/-- A record of the phrase directory: store address and length in samples (R136). -/
structure DirEntry where
  addr : Nat
  len : Nat
deriving DecidableEq, Repr

/-- Configuration the loader keeps that no block above holds (R180, R181). Times in ms where their name says so. The platform map holds
the two station platform numbers of each node section, node 1 first (R59). -/
structure Cfg where
  debounceMs : Nat
  jointOffset10 : Nat
  looseOffset10 : Nat
  looseWindow : Nat
  approach : Duo (Nat × Nat)
  evacTemplate : Nat
  evacTarget : Nat
  evacPeriod : Nat
  groupMap : List (BitVec 192)
  targetSets : List GroupSet
  directory : List (Option DirEntry)
  platformMap : List (Nat × Nat)
deriving DecidableEq, Repr

/-- Pins that no block's record holds: EVAC, and MAINT as last read (R38, R185). -/
structure Pins where
  evac : Bool
  maint : Bool
deriving DecidableEq, Repr

end Sys2Proof.Machine
end

