-- ==== Sys2Proof/Config.lean ====
section
/-!
DEFINITION. The constants the spec fixes, by name, and the one value it leaves open.
-/

namespace Sys2Proof.Config

open Sys2Proof

/-- The bytes that stand for one item of a snapshot in the content of REPORT frames. R173 says what items a report holds and R176 says
that "The items follow"; no rule gives an item's layout, so it is a FREE VALUE (log 8). -/
opaque encodeItem : Sys2Proof.Machine.ReportItem → List Byte

/-- The highest service time (R6). -/
def maxServiceTime : Nat := 107999

/-- The running time at which the count holds (R8). -/
def maxRunning : Nat := 1099511627775

/-- Places in the call table (R1). -/
def maxCalls : Nat := 64

/-- Places in the claim table (R90). -/
def maxClaims : Nat := 16

/-- Places in the transmit queue (R166). -/
def maxTx : Nat := 8

/-- Places in the origination queue (R74). -/
def maxOrigs : Nat := 4

/-- Places in a zone's wait list (R109). -/
def maxWait : Nat := 4

/-- Failed attempts at which a frame fails (R170). -/
def maxAttempts : Nat := 8

/-- The handoff timer, in ms (R69). -/
def handoffMs : Nat := 2000

/-- The coverage window after the planned end or a CEDE, in ms (R95, R98, R100). -/
def coverageMs : Nat := 10000

/-- The hangover, in ms (R146). -/
def hangoverMs : Nat := 1000

/-- Samples of a tracker window (R147). -/
def windowSamples : Nat := 500

/-- Samples of a block (R139). -/
def blockSamples : Nat := 128

/-- Samples of a tone segment (R141). -/
def segmentSamples : Nat := 16000

/-- Bytes of the configuration area in format 2 (R180). -/
def configBytes : Nat := 20359

/-- The debounce time in STORE_FAULT, in ms (R40). -/
def faultDebounceMs : Nat := 2000

/-- The planned length in STORE_FAULT, in ms (R93). -/
def faultPlannedMs : Nat := 10000

/-- The level of every zone in STORE_FAULT (R158). -/
def faultLevel : Nat := 108

end Sys2Proof.Config
end

