-- ==== Sys2Proof/Machine/State.lean ====
section
/-!
DEFINITION. The state of the node, the machine right after reset, and the reasons a step can stop.
-/

namespace Sys2Proof.Machine

open Sys2Proof

/-- The state of the node, block by block (00_scope.md, "Blocks of the node"), and the queue of commands. -/
structure State where
  /-- The link controller. -/
  lc : Lc
  /-- The service clock and the running time. -/
  sck : Sck
  /-- The call table, in ascending key order (R1). -/
  ct : List Call
  /-- The evacuation state of the step timer unit. -/
  evac : Evac
  /-- The platform records. -/
  pm : Duo Plat
  /-- The composer. -/
  cmp : Cmp
  /-- The claim table, in arrival order (R90). -/
  clt : List Entry
  /-- The zone records. -/
  za : Quad Zone
  /-- The render channels, `none` for FREE (R133). -/
  rch : Quad (Option Chan)
  /-- The sample each zone's audio output last carried (R157). -/
  audio : Quad Int
  /-- The store port. -/
  sp : Port
  /-- The level unit. -/
  lu : Lu
  /-- The start-up loader. -/
  sul : Sul
  /-- The loaded configuration no other block holds. -/
  cfg : Cfg
  /-- The pins no other record holds. -/
  pins : Pins
  /-- The commands waiting, first in, first out (log 4). -/
  pending : List Instr
deriving DecidableEq, Repr

/-- Why the block stops with a fault: never. STORE_FAULT is a mode, AMP_FAULT a zone state and FAULT a disposition; no rule of the spec
stops the node. -/
inductive Fault where
deriving DecidableEq, Repr

/-- Why a command is refused. -/
inductive Refusal where
  /-- A command that has no meaning yet; raised by an arm of exec alone, and safe: nothing is claimed of the command. No arm raises
  it. -/
  | notModelled (mnemonic : String)
deriving DecidableEq, Repr

/-- The state with `lc` replaced. -/
def State.setLc (s : State) (v : Lc) : State := { s with lc := v }

/-- The state with `sck` replaced. -/
def State.setSck (s : State) (v : Sck) : State := { s with sck := v }

/-- The state with `ct` replaced. -/
def State.setCt (s : State) (v : List Call) : State := { s with ct := v }

/-- The state with `evac` replaced. -/
def State.setEvac (s : State) (v : Evac) : State := { s with evac := v }

/-- The state with `pm` replaced. -/
def State.setPm (s : State) (v : Duo Plat) : State := { s with pm := v }

/-- The state with `cmp` replaced. -/
def State.setCmp (s : State) (v : Cmp) : State := { s with cmp := v }

/-- The state with `clt` replaced. -/
def State.setClt (s : State) (v : List Entry) : State := { s with clt := v }

/-- The state with `za` replaced. -/
def State.setZa (s : State) (v : Quad Zone) : State := { s with za := v }

/-- The state with `rch` replaced. -/
def State.setRch (s : State) (v : Quad (Option Chan)) : State := { s with rch := v }

/-- The state with `audio` replaced. -/
def State.setAudio (s : State) (v : Quad Int) : State := { s with audio := v }

/-- The state with `sp` replaced. -/
def State.setSp (s : State) (v : Port) : State := { s with sp := v }

/-- The state with `lu` replaced. -/
def State.setLu (s : State) (v : Lu) : State := { s with lu := v }

/-- The state with `sul` replaced. -/
def State.setSul (s : State) (v : Sul) : State := { s with sul := v }

/-- The state with `cfg` replaced. -/
def State.setCfg (s : State) (v : Cfg) : State := { s with cfg := v }

/-- The state with `pins` replaced. -/
def State.setPins (s : State) (v : Pins) : State := { s with pins := v }

/-- The state with `pending` replaced. -/
def State.setPending (s : State) (v : List Instr) : State := { s with pending := v }

/-- The link controller after reset: queue and buffers empty (R178). -/
def Lc.init : Lc := { tx := [], rx := false, report := none }

/-- The clocks after reset: UNSET, service time 0, running time 0 (R6, R8). -/
def Sck.init : Sck := { time := 0, isSet := false, running := 0, secMs := 0, sub := 0 }

/-- Evacuation state after reset (R38). -/
def Evac.init : Evac := { timer := none, lastClaim := none, level := false }

/-- A platform record after reset, its input levels as the pins stand (R40). -/
def Plat.init (occ doors approach : Bool) : Plat :=
  { stationNo := 0, occ := occ, doors := doors, approach := approach, accOcc := false, wait := none, state := .empty,
    bound := none, hold := none, lastOutcome := .none, lastClaim := none }

/-- The composer after reset: queue empty, counter 0, no templates (R178); the bases are DESIGN CHOICE 0 (log 5). -/
def Cmp.init : Cmp :=
  { queue := [], seq := 0, templates := [],
    bases := { hour := 0, minute := 0, oclock := 0, delay := 0, platform := 0, coaches := 0, andOthers := 0 } }

/-- A zone record after reset, its AMP_FAULT level as the pin stands (R109). -/
def Zone.init (amp : Bool) : Zone :=
  { arb := Arb.bare .outOfService, row := AccRow.allRefuse, base := 0, floor := 0, service := false, ampFault := amp,
    staged := none, pair := none, neighbours := Quad.const false, reformDue := false }

/-- The store port after reset: IDLE, the pointer on channel 3 (R140). -/
def Port.init : Port := { pointer := .i3, reading := none }

/-- The level unit's record of a zone after reset (R144). -/
def LuZone.init : LuZone :=
  { k := 0, window := none, lastPlayEnd := none, level := 0, mult := 32, initK := 0, q := 0, slope := 0, cmax := 0,
    dnight := 0, dspill := 0 }

/-- The level unit after reset (R144). -/
def Lu.init : Lu :=
  { zones := Quad.const LuZone.init, pclass := List.replicate 8 0, eFloor := 0, nightStart := 0, nightEnd := 0 }

/-- The loader after reset: LOADING, RESET still held (R178); the strap value, the sums and the bytes read are DESIGN CHOICE 0 and empty, and
the load outcome DESIGN CHOICE absent (log 5). -/
def Sul.init : Sul :=
  { mode := .loading, resetHeld := true, strap := 0, phase := .header, headerSum := 0, sum := 0, image := [],
    outcome := none }

/-- The configuration after reset: nothing loaded, DESIGN CHOICE (log 5); the evac period is 0 and not R38's default of 30, DESIGN CHOICE (log 57). -/
def Cfg.init : Cfg :=
  { debounceMs := 0, jointOffset10 := 0, looseOffset10 := 0, looseWindow := 0, approach := ⟨(0, 0), (0, 0)⟩, evacTemplate := 0,
    evacTarget := 0, evacPeriod := 0, groupMap := [], targetSets := [], directory := [], platformMap := [] }

/-- The machine right after reset (R178): RESET has gone active and is still held, every block holds its reset values, the input pins
are low (DESIGN CHOICE, log 5), and no command waits. -/
def State.reset : State :=
  { lc := Lc.init, sck := Sck.init, ct := [], evac := Evac.init,
    pm := ⟨Plat.init false false false, Plat.init false false false⟩, cmp := Cmp.init, clt := [],
    za := Quad.const (Zone.init false), rch := Quad.const none, audio := Quad.const 0, sp := Port.init, lu := Lu.init,
    sul := Sul.init, cfg := Cfg.init, pins := { evac := false, maint := false }, pending := [] }

end Sys2Proof.Machine
end

