-- ==== Sys2Proof/Machine/Operands.lean ====
section
/-!
DEFINITION. The layouts of frame bodies (R176): what each received body says, what each sent body is, the frame about it with its check
(R162), and the tests of reception (R163).
-/

namespace Sys2Proof.Machine

open Sys2Proof

/-! ### Bytes -/

/-- The number that bytes spell, most significant byte first (R176). -/
def beNat (bs : List Byte) : Nat := bs.foldl (fun acc b => acc * 256 + b.toNat) 0

/-- The number spelt by `w` bytes of a body from byte `i` on; a byte beyond the body reads as 0. -/
def field (body : List Byte) (i w : Nat) : Nat := beNat ((List.range w).map (fun k => body.getD (i + k) 0))

/-- One byte of a body as a number. -/
def field8 (body : List Byte) (i : Nat) : Nat := (body.getD i 0).toNat

/-- A number as two bytes. -/
def bytes16 (n : Nat) : List Byte := [BitVec.ofNat 8 (n / 256), BitVec.ofNat 8 n]

/-- A number as three bytes. -/
def bytes24 (n : Nat) : List Byte := [BitVec.ofNat 8 (n / 65536), BitVec.ofNat 8 (n / 256), BitVec.ofNat 8 n]

/-- A number as four bytes. -/
def bytes32 (n : Nat) : List Byte :=
  [BitVec.ofNat 8 (n / 16777216), BitVec.ofNat 8 (n / 65536), BitVec.ofNat 8 (n / 256), BitVec.ofNat 8 n]

/-- Two-byte numbers one after another; a byte left over at the end is not read. -/
def codes16 : List Byte → List Nat
  | a :: b :: rest => (a.toNat * 256 + b.toNat) :: codes16 rest
  | _ => []

/-- A time field: all ones is absent (R176). -/
def timeField (n : Nat) : Option Nat := if n = 0xFFFFFF then none else some n

/-- A time as three bytes. -/
def timeBytes : Option Nat → List Byte
  | none => bytes24 0xFFFFFF
  | some t => bytes24 t

/-- A code or count field: 0 is absent (R176). -/
def zeroAbsent (n : Nat) : Option Nat := if n = 0 then none else some n

/-- A two-byte number in two's complement. -/
def int16 (n : Nat) : Int := if n < 32768 then (n : Int) else (n : Int) - 65536

/-- A number in two's complement as two bytes. -/
def int16Bytes (i : Int) : List Byte := bytes16 (i % 65536).toNat

/-- Whether a bit of a number is set. -/
def bitSet (n i : Nat) : Bool := n / 2 ^ i % 2 == 1

/-! ### Small codes -/

/-- Call kind codes (R176). -/
def callKindOf : Nat → Option CallKind
  | 0 => some .arrival
  | 1 => some .departure
  | 2 => some .turn
  | _ => none

/-- A call kind as its code. -/
def callKindCode : CallKind → Nat
  | .arrival => 0
  | .departure => 1
  | .turn => 2

/-- Step mode codes (R176). -/
def stepModeOf : Nat → Option StepMode
  | 0 => some .atTime
  | 1 => some .every
  | 2 => some .onArrive
  | 3 => some .onDispatch
  | 4 => some .manual
  | _ => none

/-- A step mode as its code. -/
def stepModeCode : StepMode → Nat
  | .atTime => 0
  | .every => 1
  | .onArrive => 2
  | .onDispatch => 3
  | .manual => 4

/-- Disposition codes of a ZSTAT (R176). -/
def dispOf : Nat → Option Disp
  | 1 => some .played
  | 2 => some .preempted
  | 3 => some .missed
  | 4 => some .refusedAttr
  | 5 => some .refusedBusy
  | 6 => some .withdrawn
  | 7 => some .fault
  | 8 => some .evicted
  | _ => none

/-- A final disposition as its code; the two that are not final have none and are sent as 0. -/
def dispCode : Disp → Nat
  | .notTarget => 0
  | .pending => 0
  | .played => 1
  | .preempted => 2
  | .missed => 3
  | .refusedAttr => 4
  | .refusedBusy => 5
  | .withdrawn => 6
  | .fault => 7
  | .evicted => 8

/-- ANSWER codes (R176). -/
def answerCode : AnswerCode → Nat
  | .done => 0
  | .staged => 1
  | .full => 2
  | .duplicate => 3
  | .unknownKey => 4
  | .badValue => 5
  | .locked => 6
  | .notOwner => 7
  | .busy => 8
  | .storeFault => 9

/-- Query kind codes (R176). -/
def queryKindOf : Nat → Option QueryKind
  | 0 => some .node
  | 1 => some .zones
  | 2 => some .claims
  | 3 => some .calls
  | 4 => some .call
  | _ => none

/-- A query kind as its code. -/
def queryKindCode : QueryKind → Nat
  | .node => 0
  | .zones => 1
  | .claims => 2
  | .calls => 3
  | .call => 4

/-- Acceptance codes; the reserved 3 is read as none (R176, R180). -/
def accCodeOf : Nat → Option AccCode
  | 0 => some .accept
  | 1 => some .quiet
  | 2 => some .refuse
  | _ => none

/-- The code of a class in the 16 bits of an acceptance row (R176). -/
def rowBits (n c : Nat) : Nat := n / 4 ^ c % 4

/-- The acceptance row in 16 bits, a reserved code read as REFUSE (R181). -/
def accRowOf (n : Nat) : AccRow :=
  let g := fun c => (accCodeOf (rowBits n c)).getD .refuse
  ⟨g 0, g 1, g 2, g 3, g 4, g 5, g 6, g 7⟩

/-- Frame kind codes (R176). -/
def kindClaim : Nat := 1
/-- CEDE. -/
def kindCede : Nat := 2
/-- ZSTAT. -/
def kindZstat : Nat := 3
/-- CALLSET. -/
def kindCallset : Nat := 4
/-- CALLAMEND. -/
def kindCallamend : Nat := 5
/-- CALLPLAN. -/
def kindCallplan : Nat := 6
/-- CALLDROP. -/
def kindCalldrop : Nat := 7
/-- TRIGGER. -/
def kindTrigger : Nat := 8
/-- HANDOFF. -/
def kindHandoff : Nat := 9
/-- QUERY. -/
def kindQuery : Nat := 10
/-- REPORT. -/
def kindReport : Nat := 11
/-- CLOCK. -/
def kindClock : Nat := 12
/-- ZATTR. -/
def kindZattr : Nat := 13
/-- ANSWER. -/
def kindAnswer : Nat := 14

/-! ### Lengths and body values the LC tests (R163, tests 5 and 7) -/

/-- Whether the body length is in the range its kind allows; for CLAIM and ZSTAT it must agree with the count declared (R163, R176). -/
def lengthOk (kind : Nat) (body : List Byte) : Bool :=
  let n := body.length
  if kind = kindClaim then 15 ≤ n && n ≤ 77 && n == 13 + 2 * field8 body 12
  else if kind = kindCede then n == 3
  else if kind = kindZstat then 3 ≤ n && n ≤ 7 && n == 3 + field8 body 2
  else if kind = kindCallset then 16 ≤ n && n ≤ 160
  else if kind = kindCallamend then 12 ≤ n && n ≤ 160
  else if kind = kindCallplan then 4 ≤ n && n ≤ 160
  else if kind = kindCalldrop then n == 2
  else if kind = kindTrigger then n == 3
  else if kind = kindHandoff then 23 ≤ n && n ≤ 160
  else if kind = kindQuery then n == 3
  else if kind = kindReport then 3 ≤ n && n ≤ 80
  else if kind = kindClock then n == 4
  else if kind = kindZattr then 6 ≤ n && n ≤ 160
  else if kind = kindAnswer then n == 4
  else false

/-- A phrase code 1..2047. -/
def codeOk (c : Nat) : Bool := 1 ≤ c && c ≤ 2047

/-- What a CLAIM body says, when its length agrees with its count and every field is within its values (R163, R176). -/
def decodeClaim (body : List Byte) : Option ClaimFrame :=
  let flags := field8 body 1
  let win := field body 7 2
  let key := field body 9 2
  let step := field8 body 11
  let sync := if bitSet flags 3 then Sync.loose else Sync.joint
  let phrases := codes16 (body.drop 13)
  let winOk := match sync with
    | .joint => win == 65535
    | .loose => win ≤ 600
  let callOk := (key == 0 && step == 255) || (1 ≤ key && step ≤ 5)
  if lengthOk kindClaim body && winOk && callOk && phrases.all codeOk && 1 ≤ field8 body 12 && field8 body 12 ≤ 32 then
    some { seq := field8 body 0, cls := flags % 8, sync := sync, missing := bitSet flags 4, truncated := bitSet flags 5,
           groups := BitVec.ofNat 32 (field body 2 4), offset10 := field8 body 6,
           window := match sync with
             | .joint => none
             | .loose => some win,
           call := if key = 0 then none else some (key, step), phrases := phrases }
  else none

/-- What a CEDE body says: the claim id and the cut-now flag (R176). -/
def decodeCede (body : List Byte) : Option (ClaimId × Bool) :=
  let o := field8 body 0
  if lengthOk kindCede body && 1 ≤ o && o ≤ 48 then some (⟨o, field8 body 1⟩, bitSet (field8 body 2) 0) else none

/-- The zone and disposition in one byte of a ZSTAT (R176). -/
def zstatByte (b : Byte) : Option (ZoneId × Disp) := do
  let z ← Idx4.ofNat? (b.toNat % 4)
  let d ← dispOf (b.toNat / 16)
  pure (z, d)

/-- Whether numbers stand in strictly ascending order. -/
def ascending : List Nat → Bool
  | a :: b :: rest => decide (a < b) && ascending (b :: rest)
  | _ => true

/-- What a ZSTAT body says: the claim id and the zones listed with their dispositions, distinct and in ascending order (R176). -/
def decodeZstat (body : List Byte) : Option (ClaimId × List (ZoneId × Disp)) := do
  let o := field8 body 0
  let zones ← (body.drop 3).mapM zstatByte
  if lengthOk kindZstat body && 1 ≤ o && o ≤ 48 && ascending (zones.map (fun p => p.1.toNat)) then
    some (⟨o, field8 body 1⟩, zones)
  else none

/-- What a QUERY body says: the kind and, for CALL, a train key of 1..65535, 0 for the others (R176; log 10). -/
def decodeQuery (body : List Byte) : Option (QueryKind × Nat) := do
  let k ← queryKindOf (field8 body 0)
  let key := field body 1 2
  if lengthOk kindQuery body && (if k = .call then 1 ≤ key else key = 0) then some (k, key) else none

/-- The body-value test of reception, made for CLAIM, CEDE, ZSTAT and QUERY alone (R163, test 7). -/
def valuesOk (kind : Nat) (body : List Byte) : Bool :=
  if kind = kindClaim then (decodeClaim body).isSome
  else if kind = kindCede then (decodeCede body).isSome
  else if kind = kindZstat then (decodeZstat body).isSome
  else if kind = kindQuery then (decodeQuery body).isSome
  else true

/-! ### Call frames -/

/-- A step record as the bytes give it (R176). -/
structure StepRec where
  index : Nat
  mode : Nat
  ref : RefTime
  gate : Bool
  retry : Bool
  sync : Sync
  offset : Int
  period : Nat
  windowEnd : Int
  limit : Nat
  cls : Nat
  template : Nat
  target : Nat
deriving DecidableEq, Repr

/-- A step record read from 12 bytes (R176). -/
def stepRec (b : List Byte) : StepRec :=
  let f := field8 b 1
  { index := field8 b 0, mode := f % 8, ref := if bitSet f 3 then .dep else .arr, gate := bitSet f 4, retry := bitSet f 5,
    sync := if bitSet f 6 then .loose else .joint, offset := int16 (field b 2 2), period := field b 4 2,
    windowEnd := int16 (field b 6 2), limit := field8 b 8, cls := field8 b 9, template := field8 b 10, target := field8 b 11 }

/-- `n` step records one after another. -/
def stepRecs : Nat → List Byte → List StepRec
  | 0, _ => []
  | n + 1, b => stepRec (b.take 12) :: stepRecs n (b.drop 12)

/-- A signed number of seconds within -7,200..+7,200 (R20). -/
def offsetOk (i : Int) : Bool := -7200 ≤ i && i ≤ 7200

/-- The fields of R20 that a step record holds, when each is within its values (R57). -/
def StepRec.spec? (r : StepRec) : Option StepSpec := do
  let m ← stepModeOf r.mode
  if offsetOk r.offset && offsetOk r.windowEnd && 60 ≤ r.period && r.period ≤ 1800 && r.limit ≤ 255 && r.cls ≤ 7 &&
      r.template ≤ 31 && r.target ≤ 31 then
    some { mode := m, ref := r.ref, offset := r.offset, period := r.period, windowEnd := r.windowEnd, gate := r.gate,
           limit := r.limit, cls := r.cls, sync := r.sync, template := r.template, target := r.target, retry := r.retry }
  else none

/-- The 12 bytes of a step record (R176). -/
def stepBytes (index : Nat) (p : StepSpec) : List Byte :=
  let b := fun (c : Bool) (v : Nat) => if c then v else 0
  let flags := stepModeCode p.mode + b (p.ref == .dep) 8 + b p.gate 16 + b p.retry 32 + b (p.sync == .loose) 64
  [BitVec.ofNat 8 index, BitVec.ofNat 8 flags] ++ int16Bytes p.offset ++ bytes16 p.period ++ int16Bytes p.windowEnd ++
    [BitVec.ofNat 8 p.limit, BitVec.ofNat 8 p.cls, BitVec.ofNat 8 p.template, BitVec.ofNat 8 p.target]

/-- What a CALLSET or HANDOFF body says of a call, before its values are tested (R176). -/
structure CallBody where
  key : Nat
  kind : Nat
  platform : Nat
  schArr : Option Nat
  schDep : Option Nat
  expArr : Option Nat
  expDep : Option Nat
  dest : Nat
  origin : Nat
  coaches : Nat
  points : List Nat
  steps : List StepRec
  lengthFits : Bool
deriving DecidableEq, Repr

/-- What a CALLSET body says (R176); the expected times are equal to the scheduled ones (R2). -/
def readCallset (b : List Byte) : CallBody :=
  let arr := timeField (field b 4 3)
  let dep := timeField (field b 7 3)
  let n := field8 b 15
  { key := field b 0 2, kind := field8 b 2, platform := field8 b 3, schArr := arr, schDep := dep, expArr := arr, expDep := dep,
    dest := field b 10 2, origin := field b 12 2, coaches := field8 b 14, points := (codes16 (b.drop 16)).take n, steps := [],
    lengthFits := b.length == 16 + 2 * n }

/-- What a HANDOFF body says (R176). -/
def readHandoff (b : List Byte) : CallBody :=
  let n := field8 b 21
  let m := field8 b 22
  { key := field b 0 2, kind := field8 b 2, platform := field8 b 3, schArr := timeField (field b 4 3),
    schDep := timeField (field b 7 3), expArr := timeField (field b 10 3), expDep := timeField (field b 13 3),
    dest := field b 16 2, origin := field b 18 2, coaches := field8 b 20, points := (codes16 (b.drop 23)).take n,
    steps := stepRecs m (b.drop (23 + 2 * n)), lengthFits := b.length == 23 + 2 * n + 12 * m }

/-- A time that is absent or within the service day. -/
def timeOk : Option Nat → Bool
  | none => true
  | some t => t ≤ Config.maxServiceTime

/-- Whether the times a kind requires are present (R3). -/
def requiredTimes (k : CallKind) (arr dep : Option Nat) : Bool :=
  match k with
  | .arrival => arr.isSome
  | .departure => dep.isSome
  | .turn => arr.isSome && dep.isSome

/-- Whether a departure does not fall before an arrival, both present (R3). -/
def departsAfter (arr dep : Option Nat) : Bool :=
  match arr, dep with
  | some a, some d => a ≤ d
  | _, _ => true

/-- The value tests of R11: the call kind when every test passes. They ask for the scheduled times the kind needs and not for the expected times, so
a HANDOFF whose expected times are absent passes (R15, R70; the model's choice, log 44). -/
def CallBody.values? (c : CallBody) : Option CallKind := do
  let k ← callKindOf c.kind
  if c.key != 0 && requiredTimes k c.schArr c.schDep && timeOk c.schArr && timeOk c.schDep && timeOk c.expArr && timeOk c.expDep &&
      (k != .turn || departsAfter c.schArr c.schDep) && c.coaches ≤ 16 && c.dest ≤ 2047 && c.origin ≤ 2047 &&
      c.points.length ≤ 20 && c.points.all codeOk && c.lengthFits then
    some k
  else none

/-- What a CALLAMEND body says (R56, R176). -/
structure AmendBody where
  key : Nat
  parts : Amendment
  countFits : Bool
deriving DecidableEq, Repr

/-- What a CALLAMEND body says: a time of all ones is not carried, the other parts are read when their bits are set (R176). -/
def readCallamend (b : List Byte) : AmendBody :=
  let p := field8 b 2
  let n := field8 b 11
  { key := field b 0 2,
    parts :=
      { arr := if bitSet p 0 then timeField (field b 3 3) else none, dep := if bitSet p 0 then timeField (field b 6 3) else none,
        platform := if bitSet p 1 then some (field8 b 9) else none, coaches := if bitSet p 2 then some (field8 b 10) else none,
        points := if bitSet p 3 then some ((codes16 (b.drop 12)).take n) else none, plan := none },
    countFits := b.length == 12 + 2 * n && (bitSet p 3 || n == 0) }

/-- What a CALLPLAN body says (R57, R176). -/
structure PlanBody where
  key : Nat
  form : Nat
  recs : List StepRec
  lengthFits : Bool
deriving DecidableEq, Repr

/-- What a CALLPLAN body says (R176). -/
def readCallplan (b : List Byte) : PlanBody :=
  let n := field8 b 3
  { key := field b 0 2, form := field8 b 2, recs := stepRecs n (b.drop 4), lengthFits := b.length == 4 + 12 * n }

/-- What a ZATTR body says (R129, R176): none where a value is not acceptable or the length is not 6. -/
def readZattr (b : List Byte) : Option (ZoneId × StagedAttr × Bool) := do
  let z ← Idx4.ofNat? (field8 b 0)
  let bits := field b 1 2
  if b.length == 6 && (List.range 8).all (fun c => rowBits bits c != 3) && field8 b 3 ≤ 120 && field8 b 4 ≤ 120 then
    some (z, { row := accRowOf bits, base := field8 b 3, floor := field8 b 4 }, bitSet (field8 b 5) 0)
  else none

/-! ### Sent bodies -/

/-- The kind code of a frame the node sends (R176). -/
def TxBody.kindCode : TxBody → Nat
  | .claim _ => kindClaim
  | .cede _ _ => kindCede
  | .zstat _ _ => kindZstat
  | .answer _ _ _ => kindAnswer
  | .handoff _ => kindHandoff
  | .report _ _ _ _ _ _ => kindReport

/-- The body of a CLAIM (R176). -/
def claimBytes (c : ClaimFrame) : List Byte :=
  let b := fun (x : Bool) (v : Nat) => if x then v else 0
  let flags := c.cls + b (c.sync == .loose) 8 + b c.missing 16 + b c.truncated 32
  [BitVec.ofNat 8 c.seq, BitVec.ofNat 8 flags] ++ bytes32 c.groups.toNat ++ [BitVec.ofNat 8 c.offset10] ++
    bytes16 (c.window.getD 65535) ++
    (match c.call with
      | none => bytes16 0 ++ [BitVec.ofNat 8 255]
      | some (key, idx) => bytes16 key ++ [BitVec.ofNat 8 idx]) ++
    [BitVec.ofNat 8 c.phrases.length] ++ c.phrases.flatMap bytes16

/-- The body of a CEDE (R176). -/
def cedeBytes (id : ClaimId) (cutNow : Bool) : List Byte :=
  [BitVec.ofNat 8 id.origin, BitVec.ofNat 8 id.seq, if cutNow then 1 else 0]

/-- The body of a ZSTAT (R176). -/
def zstatBytes (id : ClaimId) (zones : List (ZoneId × Disp)) : List Byte :=
  [BitVec.ofNat 8 id.origin, BitVec.ofNat 8 id.seq, BitVec.ofNat 8 zones.length] ++
    zones.map (fun p => BitVec.ofNat 8 (p.1.toNat + 16 * dispCode p.2))

/-- Step records in index order, the first with index `i` (R176). -/
def stepListBytes : Nat → List StepSpec → List Byte
  | _, [] => []
  | i, p :: rest => stepBytes i p ++ stepListBytes (i + 1) rest

/-- The body of a HANDOFF (R176). -/
def handoffBytes (h : HandoffFrame) : List Byte :=
  bytes16 h.key ++ [BitVec.ofNat 8 (callKindCode h.kind), BitVec.ofNat 8 h.platform] ++ timeBytes h.schArr ++ timeBytes h.schDep ++
    timeBytes h.expArr ++ timeBytes h.expDep ++ bytes16 (h.dest.getD 0) ++ bytes16 (h.origin.getD 0) ++
    [BitVec.ofNat 8 (h.coaches.getD 0), BitVec.ofNat 8 h.points.length, BitVec.ofNat 8 h.steps.length] ++
    h.points.flatMap bytes16 ++ stepListBytes 0 h.steps

/-- The body of a frame the node sends (R176). -/
def TxBody.bytes : TxBody → List Byte
  | .claim c => claimBytes c
  | .cede id cut => cedeBytes id cut
  | .zstat id zones => zstatBytes id zones
  | .answer kind key code => [BitVec.ofNat 8 kind] ++ bytes16 key ++ [BitVec.ofNat 8 (answerCode code)]
  | .handoff h => handoffBytes h
  | .report kind index count leftOut key content =>
    [BitVec.ofNat 8 kind, BitVec.ofNat 8 (16 * index + count), BitVec.ofNat 8 leftOut] ++
      (match key with
        | none => []
        | some k => bytes16 k) ++ content

/-! ### The frame and its check -/

/-- One bit of the check: polynomial x^16 + x^12 + x^5 + 1, most significant bit first (R176). -/
def crcBit (c : BitVec 16) : BitVec 16 := if c.msb then (c <<< 1) ^^^ 0x1021#16 else c <<< 1

/-- One byte of the check. -/
def crcByte (c : BitVec 16) (b : Byte) : BitVec 16 :=
  (List.range 8).foldl (fun acc _ => crcBit acc) (c ^^^ (b.zeroExtend 16 <<< 8))

/-- The check over the bytes from the kind to the last byte of the body, from all ones, not inverted (R176). -/
def crc (bs : List Byte) : BitVec 16 := bs.foldl crcByte 0xFFFF#16

/-- The start delimiter (R176). -/
def delimiter : Byte := 0xA5

/-- A frame from the kind byte to the end of its check (R162). -/
def frameBytes (src : Nat) (f : TxFrame) : List Byte :=
  let body := f.body.bytes
  let head := [BitVec.ofNat 8 f.body.kindCode, BitVec.ofNat 8 src, BitVec.ofNat 8 f.dst, BitVec.ofNat 8 body.length]
  head ++ body ++ bytes16 (crc (head ++ body)).toNat

/-- Whether a bit of a frame, counted from the first bit of the delimiter, releases the link (value 1); most significant bit of each
byte first (R161, R162). -/
def frameBit (src : Nat) (f : TxFrame) (i : Nat) : Option Bool :=
  ((delimiter :: frameBytes src f)[i / 8]?).map (fun b => b.getLsbD (7 - i % 8))

/-- The tests of reception, in order (R163). -/
inductive RejectReason where
  | truncation
  | lengthRange
  | check
  | kind
  | lengthForKind
  | destination
  | values
deriving DecidableEq, Repr

/-- The first test of R163 that a frame heard fails, from its bytes after the delimiter; `own` is the node's number where it has one. -/
def receptionTest (own : Option Nat) (bytes : List Byte) (truncated : Bool) : Option RejectReason :=
  let len := field8 bytes 3
  let kind := field8 bytes 0
  let body := (bytes.drop 4).take len
  let dst := field8 bytes 2
  if truncated || bytes.length < 4 + len + 2 then some .truncation
  else if 160 < len then some .lengthRange
  else if field bytes (4 + len) 2 != (crc (bytes.take (4 + len))).toNat then some .check
  else if !(1 ≤ kind && kind ≤ 14) then some .kind
  else if !lengthOk kind body then some .lengthForKind
  else if !(dst == 0 || own == some dst) then some .destination
  else if !valuesOk kind body then some .values
  else none

end Sys2Proof.Machine
end

