-- ==== Sys2Proof/Machine/Flags.lean ====
section
/-!
DEFINITION. What the rules test of a state: numbers, counts, busy tests, windows, codes and instants, each a function of the state.
-/

namespace Sys2Proof.Machine

open Sys2Proof

/-! ### Time and the node's number -/

/-- The present running time in ms (R8). -/
def State.now (s : State) : Nat := s.sck.running

/-- The present instant in sixteenths of a ms (R137; log 7). -/
def State.now16 (s : State) : Nat := 16 * s.sck.running + s.sck.sub

/-- The node's number, where the strap value gives one (R179). -/
def State.nodeNo (s : State) : Option Nat :=
  let v := s.sul.strap.toNat
  if 1 ≤ v ∧ v ≤ 48 then some v else none

/-- The number of the node section the node takes, its own or the one it shadows (R179). -/
def State.sectionNo (s : State) : Nat :=
  let v := s.sul.strap.toNat
  if v = 0 then 48 else if v ≤ 48 then v else v - 48

/-- Whether the node is in RUNNING. -/
def State.isRunning (s : State) : Bool := s.sul.mode == .running

/-- Whether the node is in STORE_FAULT. -/
def State.inStoreFault (s : State) : Bool := s.sul.mode == .storeFault

/-- Whether loading has ended (R41, R127). -/
def State.loaded (s : State) : Bool := s.sul.mode != .loading

/-- Whether the node sends frames: RUNNING, or STORE_FAULT with a number (R183, R184). -/
def State.sends (s : State) : Bool := s.isRunning || (s.inStoreFault && s.nodeNo.isSome)

/-- The destination test of reception (R163, test 6). -/
def State.forUs (s : State) (f : RxFrame) : Bool := f.dst == 0 || s.nodeNo == some f.dst.toNat

/-- Whether a frame is addressed to this node's own number. -/
def State.forUsAlone (s : State) (f : RxFrame) : Bool := f.dst != 0 && s.nodeNo == some f.dst.toNat

/-- Whether a frame's source is this node's own number (R9, R95). -/
def State.fromUs (s : State) (f : RxFrame) : Bool := s.nodeNo == some f.src.toNat

/-! ### Calls -/

/-- The call with a train key (R1). -/
def State.findCall (s : State) (key : Nat) : Option Call := s.ct.find? (fun c => c.key == key)

/-- The step of a call's plan with an index. -/
def State.findStep (s : State) (key idx : Nat) : Option Step := (s.findCall key).bind (fun c => c.steps[idx]?)

/-- Whether a call is in WAITING or BOUND. -/
def Call.live (c : Call) : Bool := c.state == .waiting || c.state == .bound

/-- The reference time of a call (R3). -/
def Call.refTime (c : Call) : Option Nat :=
  match c.expArr with
  | some t => some t
  | none => c.expDep

/-- The expiry limit for a reference time (R15). -/
def expiryLimit (ref : Nat) : Nat := min (ref + 7201) Config.maxServiceTime

/-- Whether a call expires now (R15). -/
def State.expires (s : State) (c : Call) : Bool :=
  c.state == .waiting && s.sck.isSet &&
    (match c.refTime with
      | some r => expiryLimit r ≤ s.sck.time
      | none => false)

/-- The expected time a reference names (R20). -/
def Call.expected (c : Call) : RefTime → Option Nat
  | .arr => c.expArr
  | .dep => c.expDep

/-- The scheduled time a reference names (R83). -/
def Call.scheduled (c : Call) : RefTime → Option Nat
  | .arr => c.schArr
  | .dep => c.schDep

/-- The fire time of an AT step, or the window start of an EVERY step: reference time plus offset, not clamped (R20). -/
def StepSpec.fireTime (p : StepSpec) (c : Call) : Option Int := (c.expected p.ref).map (fun (t : Nat) => (t : Int) + p.offset)

/-- The window end of an EVERY step (R20). -/
def StepSpec.closeTime (p : StepSpec) (c : Call) : Option Int := (c.expected p.ref).map (fun (t : Nat) => (t : Int) + p.windowEnd)

/-- Whether a fire count has reached a repeat limit above 0 (R26, R28). -/
def StepSpec.limitReached (p : StepSpec) (fires : Nat) : Bool := 0 < p.limit && p.limit ≤ fires

/-- The local platform a station platform number names: P0 first (R19); 0 and numbers above 99 name none (R11). -/
def State.localPlat (s : State) (n : Nat) : Option PlatId :=
  if n = 0 ∨ 99 < n then none
  else if s.pm.d0.stationNo = n then some .p0
  else if s.pm.d1.stationNo = n then some .p1
  else none

/-- Who serves a station platform number (R59). -/
inductive Server where
  | here (p : PlatId)
  | node (n : Nat)
deriving DecidableEq, Repr

/-- The lowest-numbered node from `n` on whose section holds a station platform number (R59). -/
def lowestServer (no : Nat) : Nat → List (Nat × Nat) → Option Nat
  | _, [] => none
  | n, (a, b) :: rest => if a = no ∨ b = no then some n else lowestServer no (n + 1) rest

/-- Who serves a station platform number, by the platform map (R59). -/
def State.server (s : State) (n : Nat) : Option Server :=
  if n = 0 ∨ 99 < n then none
  else
    match s.localPlat n with
    | some p => some (.here p)
    | none => (lowestServer n 1 s.cfg.platformMap).map .node

/-! ### Claims -/

/-- The entry with a claim id (R90). -/
def State.findEntry (s : State) (id : ClaimId) : Option Entry := s.clt.find? (fun e => e.id == id)

/-- Whether a zone holds a claim as current, next or waiting (R94). -/
def Arb.holds (a : Arb) (id : ClaimId) : Bool :=
  (match a.current with
    | some h => h.id == id
    | none => false) ||
  (match a.next with
    | some h => h.id == id
    | none => false) ||
  a.wait.any (fun h => h.id == id)

/-- Whether a claim is current, next or waiting in a local zone, or bound to a local render channel (R31, R60). A claim that a member of a re-formed pair
plays on is live though its disposition is final in every local zone: for a step's busy test that is the model's choice (log 62), for the live-claim
count too (log 45). -/
def State.claimLive (s : State) (id : ClaimId) : Bool :=
  Idx4.all.any (fun z => (s.za.get z).arb.holds id) ||
  Idx4.all.any (fun c =>
    match s.rch.get c with
    | some ch => ch.claim == id
    | none => false)

/-- Whether an entry has a call key. -/
def Entry.hasKey (e : Entry) (key : Nat) : Bool :=
  match e.call with
  | some (k, _) => k == key
  | none => false

/-- The claim reference count of a train key (R16). -/
def State.refCount (s : State) (key : Nat) : Nat := (s.clt.filter (fun e => e.origin.isSome && e.hasKey key)).length

/-- The live-claim count of a train key (R60). A settled entry that a zone or channel still holds counts (R94, R106; the model's choice, log 45). -/
def State.liveCount (s : State) (key : Nat) : Nat := (s.clt.filter (fun e => e.hasKey key && s.claimLive e.id)).length

/-- Whether a claim's entry has send state QUEUED (R31). -/
def State.claimQueued (s : State) (id : ClaimId) : Bool :=
  match s.findEntry id with
  | some e =>
    match e.origin with
    | some o => o.send == .queued
    | none => false
  | none => false

/-- Whether a last claim, where there is one, is QUEUED for sending or live (R31, R38, R52). -/
def State.lastBusy (s : State) (last : Option ClaimId) : Bool :=
  match last with
  | some id => s.claimQueued id || s.claimLive id
  | none => false

/-- Whether an origination of a source is queued (R31, R38, R52). -/
def State.origQueued (s : State) (src : OrigSource) : Bool := s.cmp.queue.any (fun o => o.source == src)

/-- Whether a step is busy (R31). -/
def State.stepBusy (s : State) (key idx : Nat) (st : Step) : Bool :=
  s.origQueued (.step key idx) || s.lastBusy st.timer.lastClaim

/-- Whether the evacuation repeat is busy (R38). -/
def State.evacBusy (s : State) : Bool := s.origQueued .evac || s.lastBusy s.evac.lastClaim

/-- Whether a platform's approach warning is busy (R52). -/
def State.approachBusy (s : State) (p : PlatId) : Bool :=
  s.origQueued (.approach p) || s.lastBusy (s.pm.get p).lastClaim

/-- Whether a call awaits removal (R17). -/
def Call.awaitsRemoval (c : Call) : Bool :=
  match c.state with
  | .finished _ => true
  | .dropping => true
  | .handingOff =>
    match c.handoff with
    | some h => h.phase == .settled
    | none => false
  | _ => false

/-- Whether an entry's conditions for removal hold (R106). -/
def Entry.removable (e : Entry) : Bool :=
  e.settled &&
    (match e.origin with
      | some o => (o.send == .sent || o.send == .failed) && !o.windowOpen
      | none => e.zstat == .sent || e.zstat == .failed || e.zstat == .notNeeded)

/-! ### Groups and targets (R91, R92, R105) -/

/-- Whether a group contains the global zone (node, z) (R180). -/
def State.inGroup (s : State) (g node : Nat) (z : ZoneId) : Bool :=
  (s.cfg.groupMap.getD g 0).getLsbD (4 * (node - 1) + z.toNat)

/-- Whether some group of a group set contains the global zone (node, z). -/
def State.named (s : State) (gs : GroupSet) (node : Nat) (z : ZoneId) : Bool :=
  (List.range 32).any (fun g => gs.getLsbD g && s.inGroup g node z)

/-- Whether a zone is configured in a pair (R109). -/
def State.paired (s : State) (z : ZoneId) : Bool := (s.za.get z).pair.isSome

/-- Whether a zone is a local target zone of a group set (R92). -/
def State.isTarget (s : State) (gs : GroupSet) (z : ZoneId) : Bool :=
  if s.inStoreFault then gs != 0
  else s.named gs s.sectionNo z || (s.paired z && s.named gs s.sectionNo z.partner)

/-- The dispositions an entry is made with (R92). -/
def State.startDisp (s : State) (gs : GroupSet) : Quad Disp :=
  Quad.tabulate (fun z => if s.isTarget gs z then Disp.pending else Disp.notTarget)

/-- Whether a group set names some zone of this node (R96, test 2). -/
def State.hasTarget (s : State) (gs : GroupSet) : Bool := Idx4.all.any (fun z => s.isTarget gs z)

/-- The target nodes of a group set, ascending (R91). -/
def State.targetNodes (s : State) (gs : GroupSet) : List Nat :=
  ((List.range 48).map (· + 1)).filter (fun n => Idx4.all.any (fun z => s.named gs n z))

/-! ### Zones (R111, R124, R146) -/

/-- Whether a zone is a member of a WHOLE pair. -/
def State.whole (s : State) (z : ZoneId) : Bool := (s.za.get z).pair == some .whole

/-- The zones that decide as one with a zone: both members of a WHOLE pair, the zone alone otherwise (R124). -/
def State.unit (s : State) (z : ZoneId) : List ZoneId := if s.whole z then [z.lead, z.lead.partner] else [z]

/-- The zone that stands for a unit. -/
def State.leadOf (s : State) (z : ZoneId) : ZoneId := if s.whole z then z.lead else z

/-- The units, each by the zone that stands for it, in ascending order. -/
def State.leads (s : State) : List ZoneId := Idx4.all.filter (fun z => s.leadOf z == z)

/-- The stricter of two codes (R111). -/
def AccCode.stricter : AccCode → AccCode → AccCode
  | .refuse, _ => .refuse
  | _, .refuse => .refuse
  | .quiet, _ => .quiet
  | _, .quiet => .quiet
  | .accept, .accept => .accept

/-- The effective code of a zone for a class (R111). -/
def State.effCode (s : State) (z : ZoneId) (d : AnnClass) : AccCode :=
  if s.inStoreFault then (if d = 0 then .accept else .refuse)
  else if s.whole z then ((s.za.get z).row.code d).stricter ((s.za.get z.partner).row.code d)
  else (s.za.get z).row.code d

/-- Whether a zone state is one in which the tracker may run (R146). -/
def ZoneState.silent : ZoneState → Bool
  | .idle => true
  | .leadIn => true
  | _ => false

/-- Whether a zone state is one in which the zone plays (R110). -/
def ZoneState.plays : ZoneState → Bool
  | .playing => true
  | .cutting => true
  | _ => false

/-- Whether a zone state is one of a zone in service that holds or may take claims (R126, R127). -/
def ZoneState.serves (st : ZoneState) : Bool := st.silent || st.plays

/-- Whether a zone is quiet for tracking, by its own state and its own last play end, in a WHOLE pair too (R146; where its partner's differ, R159: the
model's choice, log 60). -/
def State.quiet (s : State) (z : ZoneId) : Bool :=
  (s.za.get z).arb.state.silent &&
    (match (s.lu.zones.get z).lastPlayEnd with
      | some t => t + Config.hangoverMs < s.now
      | none => true)

/-- Whether a claim's start instant is reached (ch. 7, "Offering a claim"). -/
def Held.reached (h : Held) (now : Nat) : Bool := h.start ≤ now

/-- Whether a claim can no longer begin: a JOINT claim past its start instant, a LOOSE claim past its latest start (R113). A waiting claim that a
zone turns to is tested by `Held.waitedOut` (R119; log 61). -/
def Held.tooLate (h : Held) (now : Nat) : Bool :=
  match h.sync with
  | .joint => h.start < now
  | .loose =>
    match h.latest with
    | some t => t < now
    | none => false

/-- Whether a waiting claim that a zone turns to can no longer begin: a JOINT one past its start instant, a LOOSE one past the first instant after its
latest start. At that one instant a LOOSE waiter still in the list begins, by R119, where R113 and R122 would make it MISSED (the model's choice,
log 61). -/
def Held.waitedOut (h : Held) (now : Nat) : Bool :=
  match h.sync with
  | .joint => h.tooLate now
  | .loose => h.tooLate (now - 1)

/-! ### Phrases (R93, R136) -/

/-- The directory's record for a phrase code (R136). -/
def State.dirEntry (s : State) (code : Nat) : Option DirEntry := if code = 0 then none else s.cfg.directory.getD (code - 1) none

/-- The length of a phrase in samples, 0 for a code not held (R93). -/
def State.phraseLen (s : State) (code : Nat) : Nat :=
  match s.dirEntry code with
  | some d => d.len
  | none => 0

/-- The planned length of a phrase list in ms (R93). -/
def State.plannedMs (s : State) (phrases : List Nat) : Nat :=
  if s.inStoreFault then Config.faultPlannedMs else (phrases.map s.phraseLen).sum / 16

/-! ### The link (R169) -/

/-- The gap of a frame at the head of the queue, in bit times (R169). -/
def TxFrame.gap (own : Nat) (f : TxFrame) : Nat := 40 + 8 * f.tier + (if 0 < f.fails then 2 * own else 0)

/-- Whether an attempt is under way (R169, R170). -/
def Lc.sending (l : Lc) : Bool := l.tx.any (fun f => f.underWay)

end Sys2Proof.Machine
end

