-- ==== Sys2Proof/Machine/Ops.lean ====
section
/-!
DEFINITION. The shared operations over the tables and queues: updating a record, the transmit queue, the origination queue, timing an entry,
and the settling of entries.
-/

namespace Sys2Proof.Machine

open Sys2Proof

/-! ### Updating a record -/

/-- Change the call with a key. -/
def State.modCall (s : State) (key : Nat) (f : Call → Call) : State :=
  s.setCt (s.ct.map (fun c => if c.key == key then f c else c))

/-- Change one step of a call's plan. -/
def Call.modStep (c : Call) (idx : Nat) (f : Step → Step) : Call := { c with steps := c.steps.modify idx f }

/-- Change one step of the plan of the call with a key. -/
def State.modStep (s : State) (key idx : Nat) (f : Step → Step) : State := s.modCall key (fun c => c.modStep idx f)

/-- Change the timer of one step. -/
def State.modTimer (s : State) (key idx : Nat) (f : StepTimer → StepTimer) : State :=
  s.modStep key idx (fun st => { st with timer := f st.timer })

/-- Insert a call in ascending key order (R1). -/
def insertCall (c : Call) : List Call → List Call
  | [] => [c]
  | d :: rest => if c.key < d.key then c :: d :: rest else d :: insertCall c rest

/-- Change the platform record of one platform. -/
def State.modPlat (s : State) (p : PlatId) (f : Plat → Plat) : State := s.setPm (s.pm.set p (f (s.pm.get p)))

/-- Change one zone record. -/
def State.modZone (s : State) (z : ZoneId) (f : Zone → Zone) : State := s.setZa (s.za.set z (f (s.za.get z)))

/-- Change the level unit's record of one zone. -/
def State.modLu (s : State) (z : ZoneId) (f : LuZone → LuZone) : State :=
  s.setLu { s.lu with zones := s.lu.zones.set z (f (s.lu.zones.get z)) }

/-- Change the entry with a claim id. -/
def State.modEntry (s : State) (id : ClaimId) (f : Entry → Entry) : State :=
  s.setClt (s.clt.map (fun e => if e.id == id then f e else e))

/-- Change the origin part of the entry with a claim id, where it has one. -/
def State.modOrigin (s : State) (id : ClaimId) (f : OriginPart → OriginPart) : State :=
  s.modEntry id (fun e => { e with origin := e.origin.map f })

/-- Write a disposition of a claim in a zone: a final disposition stays as it is (R94). -/
def State.writeDisp (s : State) (id : ClaimId) (z : ZoneId) (d : Disp) : State :=
  s.modEntry id (fun e => if e.disp.get z == .pending then { e with disp := e.disp.set z d } else e)

/-- Write a disposition of a claim in several zones. -/
def State.writeDisps (s : State) (id : ClaimId) (zs : List ZoneId) (d : Disp) : State :=
  zs.foldl (fun s z => s.writeDisp id z d) s

/-! ### The transmit queue (R166, R167) -/

/-- The tier of a frame, fixed when it is queued (R166). -/
def TxBody.tier : TxBody → Nat
  | .claim c => if c.cls = 0 then 0 else if c.cls = 1 then 1 else 2
  | .cede _ _ => 1
  | .answer _ _ _ => 3
  | .handoff _ => 4
  | .zstat _ _ => 5
  | .report _ _ _ _ _ _ => 6

/-- A frame as its owner hands it to the LC. -/
def State.newFrame (s : State) (b : TxBody) (dst : Nat) : TxFrame :=
  { body := b, dst := dst, tier := b.tier, queuedAt := s.now, fails := 0, underWay := false, takeBack := false }

/-- A frame takes its place: behind every frame of its tier or a lower one (R166). -/
def txInsert (q : List TxFrame) (f : TxFrame) : List TxFrame :=
  q.takeWhile (fun g => g.tier ≤ f.tier) ++ f :: q.dropWhile (fun g => g.tier ≤ f.tier)

/-- The worst frame: the last with no attempt under way (R166). -/
def txWorst (q : List TxFrame) : Option TxFrame := q.reverse.find? (fun g => !g.underWay)

/-- The queue without its worst frame. -/
def txDropWorst (q : List TxFrame) : List TxFrame := (q.reverse.eraseP (fun g => !g.underWay)).reverse

/-- A frame handed to the LC: it enters, displaces the worst, or is dropped at its arrival; the frame that fails is answered
(R167). -/
def txOffer (q : List TxFrame) (f : TxFrame) : List TxFrame × Option TxFrame :=
  if q.length < Config.maxTx then (txInsert q f, none)
  else
    match txWorst q with
    | some w => if f.tier < w.tier then (txInsert (txDropWorst q) f, some w) else (q, some f)
    | none => (q, some f)

/-- Replace the transmit queue. -/
def State.setTx (s : State) (q : List TxFrame) : State := s.setLc { s.lc with tx := q }

/-- Replace the report buffer. -/
def State.setReport (s : State) (r : Option ReportBuf) : State := s.setLc { s.lc with report := r }

/-- What the failure of a ZSTAT or REPORT does at its owner (R101, R168, R174). A ZSTAT is matched to its entry by the claim id and the state QUEUED
(the model's choice, log 47). -/
def State.lowFail (s : State) (f : TxFrame) : State :=
  match f.body with
  | .zstat id _ => s.modEntry id (fun e => if e.zstat == .queued then { e with zstat := .failed } else e)
  | .report _ _ _ _ _ _ => s.setReport none
  | _ => s

/-- Place a ZSTAT in the transmit queue. Its tier 5 can displace nothing but a REPORT (R166, R167). -/
def State.enqueueLow (s : State) (b : TxBody) (dst : Nat) : State :=
  let r := txOffer s.lc.tx (s.newFrame b dst)
  match r.2 with
  | none => s.setTx r.1
  | some f => (s.setTx r.1).lowFail f

/-! ### Timing and settling of entries (R93, R94, R101, R102) -/

/-- Fix an entry's start instant, latest start and planned end from its anchor (R93). The offset is in units of 10 ms, the LOOSE window
in seconds. -/
def Entry.anchor (e : Entry) (anchor offset10 : Nat) (window : Nat) (plannedMs : Nat) : Entry :=
  let start := anchor + 10 * offset10
  { e with
    start := some start,
    latest := match e.sync with
      | .joint => none
      | .loose => some (start + 1000 * window),
    plannedEnd := some (start + plannedMs) }

/-- The outcome a list of dispositions gives a coverage line (R102). -/
def outcomeOf (ds : List Disp) : Outcome :=
  if ds.all (fun d => d != .played) then .missed
  else if ds.all (fun d => d == .played) then .played
  else .partly

/-- Whether a disposition makes its zone a retry zone (R91). -/
def Disp.callsForRetry : Disp → Bool
  | .preempted => true
  | .missed => true
  | .refusedBusy => true
  | .evicted => true
  | _ => false

/-- A coverage line as a list of zones and dispositions rewrites it (R102). -/
def rewriteLine (l : CoverLine) (zones : List (ZoneId × Disp)) : CoverLine :=
  { l with
    outcome := outcomeOf (zones.map (·.2)),
    retryZones := Quad.tabulate (fun z => zones.any (fun p => p.1 == z && p.2.callsForRetry)) }

/-- Rewrite the line of one node in a coverage record; a node with no line leaves it as it is (R102). -/
def rewriteLines (ls : List CoverLine) (node : Nat) (zones : List (ZoneId × Disp)) : List CoverLine :=
  ls.map (fun l => if l.node == node then rewriteLine l zones else l)

/-- The local target zones of an entry with their dispositions, in zone order (R101). Each zone stands with its own disposition: of a re-formed pair the
member that rejoined with FAULT, its partner with its own outcome (the model's choice beside R126, log 63). -/
def Entry.zoneList (e : Entry) : List (ZoneId × Disp) :=
  (Idx4.all.map (fun z => (z, e.disp.get z))).filter (fun p => p.2 != .notTarget)

/-- Whether some local target zone still holds PENDING (R94). -/
def Entry.pendingSomewhere (e : Entry) : Bool := Idx4.all.any (fun z => e.disp.get z == .pending)

/-- Whether an entry has reached its settling: no zone PENDING, and its anchor fixed or its CLAIM never to be sent (R94, R14;
log 23). -/
def Entry.settles (e : Entry) : Bool :=
  !e.settled && !e.pendingSomewhere &&
    (e.start.isSome ||
      (match e.origin with
        | some o => o.send == .failed
        | none => false))

/-- Take the settling of one entry, if it has been reached: a received entry starts its ZSTAT (R101), an origin entry fills its own line
(R102). -/
def State.settleEntry (s : State) (id : ClaimId) : State :=
  match s.findEntry id with
  | none => s
  | some e =>
    if e.settles then
      let s := s.modEntry id (fun e => { e with settled := true })
      match e.origin with
      | some _ =>
        match s.nodeNo with
        | some n => s.modOrigin id (fun o => { o with lines := rewriteLines o.lines n e.zoneList })
        | none => s
      | none =>
        if e.zstat == .pending then
          (s.modEntry id (fun e => { e with zstat := .queued })).enqueueLow (.zstat id e.zoneList) id.origin
        else s
    else s

/-- Take every settling that has been reached, in arrival order (R94). -/
def State.settle (s : State) : State := (s.clt.map (·.id)).foldl State.settleEntry s

/-! ### The origination queue (R74, R75, R76) -/

/-- Replace the origination queue. -/
def State.setQueue (s : State) (q : List Orig) : State := s.setCmp { s.cmp with queue := q }

/-- An origination takes its place: behind every one of its class or a better (R74). -/
def origInsert (q : List Orig) (o : Orig) : List Orig :=
  q.takeWhile (fun p => p.cls ≤ o.cls) ++ o :: q.dropWhile (fun p => p.cls ≤ o.cls)

/-- Whether an origination of a class would be dropped at its arrival (R75). -/
def State.origRefused (s : State) (cls : AnnClass) : Bool :=
  Config.maxOrigs ≤ s.cmp.queue.length &&
    (match s.cmp.queue.getLast? with
      | some w => w.cls ≤ cls
      | none => true)

/-- What a step's state becomes when its origination is dropped for a full queue (R32). -/
def fullTimer (m : StepMode) (t : StepTimer) : StepTimer :=
  { t with last := .skippedFull, state := if t.state = .fired ∧ m ≠ .every then .skipped .full else t.state }

/-- What the owner does with an origination that is dropped (R75). The step's note is made in a frozen step of a call in HANDING_OFF too (R36; the
model's choice, log 56). -/
def State.origDropped (s : State) (o : Orig) : State :=
  match o.source with
  | .step key idx =>
    if o.own then s.modStep key idx (fun st => { st with timer := fullTimer st.spec.mode st.timer }) else s
  | .approach p => s.modPlat p (fun r => { r with lastOutcome := .skippedFull })
  | .evac => s
  | .retry _ => s

/-- Hand an origination to the composer (R75). -/
def State.pushOrig (s : State) (o : Orig) : State :=
  if s.cmp.queue.length < Config.maxOrigs then s.setQueue (origInsert s.cmp.queue o)
  else
    match s.cmp.queue.getLast? with
    | some w =>
      if o.cls < w.cls then (s.setQueue (origInsert s.cmp.queue.dropLast o)).origDropped w else s.origDropped o
    | none => s.origDropped o

/-- Remove originations without composing them (R76). -/
def State.removeOrigs (s : State) (p : Orig → Bool) : State := s.setQueue (s.cmp.queue.filter (fun o => !p o))

/-- Whether an origination is a STEP or RETRY origination of a call (R76). -/
def Orig.ofCall (key : Nat) (o : Orig) : Bool :=
  match o.call with
  | some (k, _) => k == key
  | none => false

/-- Mark every origin entry of a call so that its window ends without a retry (R5 item 3, R66, R71). -/
def State.markNoRetry (s : State) (key : Nat) : State :=
  s.setClt (s.clt.map (fun e => if e.hasKey key then { e with origin := e.origin.map (fun o => { o with noRetry := true }) } else e))

end Sys2Proof.Machine
end

