-- ==== Sys2Proof/Machine/Level.lean ====
section
/-!
DEFINITION. The level unit's arithmetic: the noise figure, the eight stages of the level, the multiplier and the scaling of a sample
(R150 to R158), and the comparator and the ladder's rise and fall (R145, R148).
-/

namespace Sys2Proof.Machine

open Sys2Proof

/-! ### From ladder step to level (R150 to R156) -/

/-- The noise figure table (R150). -/
def noiseTable : List Nat :=
  [0, 12, 19, 24, 28, 31, 34, 36, 38, 40, 41, 43, 44, 46, 47, 48,
   49, 50, 51, 52, 53, 53, 54, 55, 56, 56, 57, 58, 58, 59, 59, 60]

/-- The noise figure N(k) (R150). -/
def noiseFigure (k : Nat) : Nat := noiseTable.getD k 60

/-- The ambient compensation C (R152). Subtraction on natural numbers is max(0, N - Q). -/
def compensation (u : LuZone) : Nat := min u.cmax ((noiseFigure u.k - u.q) * u.slope / 4)

/-- Whether a time of day lies in the night window (R153). -/
def inNight (start stop tod : Nat) : Bool :=
  if start < stop then start ≤ tod && tod < stop
  else if stop < start then start ≤ tod || tod < stop
  else false

/-- The night reduction Dn (R153). -/
def State.nightReduction (s : State) (z : ZoneId) (c : AnnClass) : Nat :=
  if s.sck.isSet && inNight s.lu.nightStart s.lu.nightEnd (s.sck.time % 86400) && 2 ≤ c then (s.lu.zones.get z).dnight else 0

/-- Whether a neighbour of a zone plays another claim than `id` (R154). -/
def State.spilled (s : State) (z : ZoneId) (id : ClaimId) : Bool :=
  Idx4.all.any (fun y =>
    (s.za.get z).neighbours.get y && (s.za.get y).arb.state.plays &&
      (match (s.za.get y).arb.current with
        | some h => h.id != id
        | none => false))

/-- The spill reduction Ds (R154). -/
def State.spillReduction (s : State) (z : ZoneId) (h : Held) : Nat :=
  if 3 ≤ h.cls && s.spilled z h.id then (s.lu.zones.get z).dspill else 0

/-- The floor F of a zone for a class (R155, stage 2). -/
def State.floorFor (s : State) (z : ZoneId) (c : AnnClass) : Nat :=
  if c = 0 then max (s.za.get z).floor s.lu.eFloor else (s.za.get z).floor

/-- The raw level (R155, stage 1). -/
def State.rawLevel (s : State) (z : ZoneId) (h : Held) : Int :=
  ((s.za.get z).base : Int) + (compensation (s.lu.zones.get z) : Int) + (s.lu.pclass.getD h.cls 0 : Int)
    - (s.nightReduction z h.cls : Int) - (s.spillReduction z h : Int)

/-- The level L of a zone for the claim it plays (R155, R158). -/
def State.levelFor (s : State) (z : ZoneId) (h : Held) : Nat :=
  if s.inStoreFault then Config.faultLevel
  else
    let f := s.floorFor z h.cls
    if (s.za.get z).row.code h.cls = .quiet then f else (min 120 (max (f : Int) (s.rawLevel z h))).toNat

/-- The gain table T (R156). -/
def gainTable : List Nat := [32768, 30935, 29205, 27571, 26029, 24573, 23198, 21900, 20675, 19519, 18427, 17396]

/-- The multiplier M of a level (R156). -/
def multiplier (level : Nat) : Nat :=
  let a := 120 - level
  gainTable.getD (a % 12) 0 / 2 ^ (a / 12)

/-- Compute and apply the level of a zone for its current claim (R151). -/
def State.applyLevel (s : State) (z : ZoneId) : State :=
  match (s.za.get z).arb.current with
  | some h => s.modLu z (fun u => { u with level := s.levelFor z h, mult := multiplier (s.levelFor z h) })
  | none => s

/-- Compute and apply the levels of several zones, each from the state all of them stand in (R159). -/
def State.applyLevels (s : State) (zs : List ZoneId) : State := zs.foldl State.applyLevel s

/-- A sample as it leaves a zone (R157): division on integers floors for a positive divisor. -/
def scaleSample (v : Int) (m : Nat) : Int := v * (m : Int) / 32768

/-! ### The tracker (R145, R147, R148) -/

/-- The comparator output of a zone: high while the envelope exceeds the threshold Vref x (k + 1)/32 (R145). -/
def comparator (vref envelope k : Nat) : Bool := vref * (k + 1) < 32 * envelope

/-- The ambient estimate after a window with `n` samples high (R148). -/
def nextK (k n : Nat) : Nat :=
  if 250 ≤ n then min 31 (k + 1)
  else if n ≤ 50 then k - 1
  else k

/-- One comparator sample of a zone at a sampling instant (R147). A window that has its 500 samples waits for its completion and takes no
more (log 38). -/
def countSample (w : Option TrackWindow) (high : Bool) : Option TrackWindow :=
  let h := if high then 1 else 0
  match w with
  | none => some { taken := 1, high := h }
  | some w => if w.taken < Config.windowSamples then some { taken := w.taken + 1, high := w.high + h } else some w

/-- Sample one zone: the sample counts when the zone is quiet for tracking (R145, R147). A member of a WHOLE pair goes on in the window it has (R159;
the model's choice, log 60). -/
def State.sampleZone (s : State) (vref : Nat) (env : Quad Nat) (z : ZoneId) : State :=
  if s.quiet z then
    s.modLu z (fun u => { u with window := countSample u.window (comparator vref (env.get z) u.k) })
  else s

end Sys2Proof.Machine
end

