-- ==== Sys2Proof/Machine/Channels.lean ====
section
/-!
DEFINITION. Render channels and the store port: walking the phrase list, binding and attaching, detaching and freeing, blocks and grants
(R133 to R142).
-/

namespace Sys2Proof.Machine

open Sys2Proof

/-! ### Walking the phrase list (R136, R138, R142) -/

/-- The first index from `i` on whose phrase code the directory holds (R136). -/
def State.nextHeld (s : State) (phrases : List Nat) (i : Nat) : Option Nat :=
  ((List.range phrases.length).drop i).find? (fun k => (s.dirEntry (phrases.getD k 0)).isSome)

/-- The length in samples of the phrase or tone segment at an index (R136, R141). -/
def State.partLen (s : State) (ch : Chan) (i : Nat) : Nat :=
  if ch.tone then Config.segmentSamples else s.phraseLen (ch.phrases.getD i 0)

/-- Where the cursor goes after the phrase or segment at `i`: the next held code, or the next of the ten segments (R136, R141). -/
def State.cursorAfter (s : State) (ch : Chan) (i : Nat) : Option Nat :=
  if ch.tone then (if i < 9 then some (i + 1) else none) else s.nextHeld ch.phrases (i + 1)

/-- Whether the phrase or segment being delivered is the claim's last; a claim with no held code has none left (R138). -/
def State.atLast (s : State) (ch : Chan) : Bool :=
  match ch.cursor with
  | some i => (s.cursorAfter ch i).isNone
  | none => true

/-- Whether every sample of the phrase or segment at the cursor has been delivered (R138). -/
def State.partDone (s : State) (ch : Chan) : Bool :=
  match ch.cursor with
  | some i => s.partLen ch i ≤ ch.pos
  | none => true

/-- The instant, in sixteenths of a ms, at which the channel's next sample or boundary is due (R137, R138). -/
def Chan.due16 (ch : Chan) : Nat := ch.bind16 + ch.delivered

/-- The channel a zone is attached to (R133). -/
def State.chanOf (s : State) (z : ZoneId) : Option ChanId :=
  Idx4.all.find? (fun c =>
    match s.rch.get c with
    | some ch => ch.attached.get z
    | none => false)

/-- Whether the last sample of the last phrase of a zone's current claim has been delivered: every sample has been handed over and the instant of
the last boundary is reached (R121, R138). -/
def State.zoneDelivered (s : State) (z : ZoneId) : Bool :=
  match s.chanOf z with
  | some c =>
    match s.rch.get c with
    | some ch => s.atLast ch && s.partDone ch && ch.due16 ≤ s.now16
    | none => false
  | none => false

/-- The tone sample at a position of a segment: segments 0, 2, 4, 6 and 8 sound (R141). -/
def toneSample (segment pos : Nat) : Int :=
  if segment % 2 = 0 then (if pos % 16 < 8 then 8192 else -8192) else 0

/-- The sample at the cursor from the read-ahead, 0 when its block has not arrived (R137, R139). -/
def Chan.sample (ch : Chan) : Int :=
  match ch.cursor with
  | none => 0
  | some i =>
    if ch.tone then toneSample i ch.pos
    else
      match ch.slots.find? (fun b => b.idx == i && b.pos ≤ ch.pos && ch.pos < b.pos + b.samples.length) with
      | some b => b.samples.getD (ch.pos - b.pos) 0
      | none => 0

/-! ### Blocks and grants (R139, R140) -/

/-- The samples of the block at a position of a phrase: 128, or those that remain (R139). -/
def State.blockCount (s : State) (ch : Chan) (b : Nat × Nat) : Nat :=
  min Config.blockSamples (s.phraseLen (ch.phrases.getD b.1 0) - b.2)

/-- The block after a block in cursor order (R139). -/
def State.blockAfter (s : State) (ch : Chan) (b : Nat × Nat) : Option (Nat × Nat) :=
  if b.2 + Config.blockSamples < s.phraseLen (ch.phrases.getD b.1 0) then some (b.1, b.2 + Config.blockSamples)
  else (s.nextHeld ch.phrases (b.1 + 1)).map (fun j => (j, 0))

/-- Whether a read is under way for a channel as it is now bound. -/
def State.readingFor (s : State) (c : ChanId) : Bool :=
  match s.sp.reading with
  | some r => r.chan == c && !r.stale
  | none => false

/-- A channel has a request pending whenever it has an empty slot, a block not yet read and no read under way (R139). -/
def Chan.refresh (ch : Chan) (reading : Bool) : Chan :=
  if !ch.tone && ch.slots.length < 2 && ch.unread.isSome && !reading then { ch with request := true } else ch

/-- Replace a channel. -/
def State.setChan (s : State) (c : ChanId) (ch : Option Chan) : State := s.setRch (s.rch.set c ch)

/-- The channels in the order of the rotation after a channel (R140). -/
def rotation (p : ChanId) : List ChanId := [p.next, p.next.next, p.next.next.next, p]

/-- Whether a channel has a request pending. -/
def State.requests (s : State) (c : ChanId) : Bool :=
  match s.rch.get c with
  | some ch => ch.request && ch.unread.isSome
  | none => false

/-- Grant a read when the port is IDLE and some channel has a request pending (R140). -/
def State.grant (s : State) : State :=
  match s.sp.reading with
  | some _ => s
  | none =>
    match (rotation s.sp.pointer).find? s.requests with
    | none => s
    | some c =>
      match s.rch.get c with
      | none => s
      | some ch =>
        match ch.unread with
        | none => s
        | some b =>
          let addr :=
            match s.dirEntry (ch.phrases.getD b.1 0) with
            | some d => d.addr + 2 * b.2
            | none => 0
          s.setSp { pointer := c,
                    reading := some { chan := c, idx := b.1, pos := b.2, count := s.blockCount ch b, addr := addr, stale := false } }

/-! ### Binding and attaching, detaching and freeing (R134, R135) -/

/-- Bind a FREE channel to a claim for one zone, at the present instant (R134, R141). In tone mode its cursor counts the tone segments from 0 (log 31). -/
def State.bindChan (s : State) (c : ChanId) (h : Held) (z : ZoneId) : State :=
  let tone := s.inStoreFault
  let cur := if tone then some 0 else s.nextHeld h.phrases 0
  let ch : Chan :=
    { claim := h.id, bind16 := s.now16, phrases := h.phrases, cursor := cur, pos := 0, delivered := 0,
      attached := (Quad.const false).set z true, slots := [],
      unread := if tone then none else cur.map (fun i => (i, 0)), request := !tone && cur.isSome, tone := tone }
  (s.setChan c (some ch)).grant

/-- The channel that a zone starting a claim now shares: bound to that claim at this same instant (R134). -/
def State.sharedChan (s : State) (id : ClaimId) : Option ChanId :=
  Idx4.all.find? (fun c =>
    match s.rch.get c with
    | some ch => ch.claim == id && ch.bind16 == s.now16
    | none => false)

/-- The lowest-numbered FREE channel (R134). -/
def State.freeChan (s : State) : Option ChanId := Idx4.all.find? (fun c => (s.rch.get c).isNone)

/-- Attach a zone entering PLAYING to a channel for its current claim (R134). It shares a channel bound at this instant even where the channel's first
sample, due at the same instant, has been taken before it (the model's choice, log 55). That no channel is FREE cannot come about (R134); the zone
would then stay unattached (log 25). -/
def State.attachZone (s : State) (z : ZoneId) : State :=
  match (s.za.get z).arb.current with
  | none => s
  | some h =>
    match s.sharedChan h.id with
    | some c =>
      match s.rch.get c with
      | some ch => s.setChan c (some { ch with attached := ch.attached.set z true })
      | none => s
    | none =>
      match s.freeChan with
      | some c => s.bindChan c h z
      | none => s

/-- Attach a zone to the channel another zone is attached to (R126). -/
def State.joinZone (s : State) (z y : ZoneId) : State :=
  match s.chanOf y with
  | some c =>
    match s.rch.get c with
    | some ch => s.setChan c (some { ch with attached := ch.attached.set z true })
    | none => s
  | none => s

/-- Whether any zone is attached. -/
def anyAttached (a : Quad Bool) : Bool := Idx4.all.any (fun z => a.get z)

/-- Free a channel: its record is lost, and a read begun for it brings nothing (R135, R139). -/
def State.freeChannel (s : State) (c : ChanId) : State :=
  (s.setChan c none).setSp
    { s.sp with reading := s.sp.reading.map (fun r => if r.chan == c then { r with stale := true } else r) }

/-- Take a zone off one channel, if it is attached there (R135). -/
def State.detachFrom (s : State) (z : ZoneId) (c : ChanId) : State :=
  match s.rch.get c with
  | none => s
  | some ch =>
    if ch.attached.get z then
      let a := ch.attached.set z false
      if anyAttached a then s.setChan c (some { ch with attached := a }) else s.freeChannel c
    else s

/-- Detach a zone: it receives no further sample, and its output is zero (R110, R135, R157). -/
def State.detachZone (s : State) (z : ZoneId) : State :=
  let s := Idx4.all.foldl (fun s c => s.detachFrom z c) s
  s.setAudio (s.audio.set z 0)

/-- Detach several zones. -/
def State.detachZones (s : State) (zs : List ZoneId) : State := zs.foldl State.detachZone s

/-! ### Samples and arrivals (R137, R139) -/

/-- The signed 16-bit samples that bytes hold, most significant byte first; a byte that did not come reads as all ones (R139; log 26). -/
def samplesOf : Nat → List Byte → List Int
  | 0, _ => []
  | n + 1, bs => int16 ((bs.getD 0 255).toNat * 256 + (bs.getD 1 255).toNat) :: samplesOf n (bs.drop 2)

/-- The block a completed read brings, less the samples that have fallen due (R139). -/
def Chan.keep (ch : Chan) (idx pos : Nat) (samples : List Int) : Block :=
  match ch.cursor with
  | none => { idx := idx, pos := pos, samples := [] }
  | some i =>
    if idx < i then { idx := idx, pos := pos, samples := [] }
    else if idx = i then { idx := idx, pos := max pos ch.pos, samples := samples.drop (ch.pos - pos) }
    else { idx := idx, pos := pos, samples := samples }

/-- A channel takes the block read for it: the block fills a slot and the request clears; a new request may become pending (R139). -/
def State.takeBlock (s : State) (ch : Chan) (idx pos : Nat) (samples : List Int) : Chan :=
  let b := ch.keep idx pos samples
  let ch := { ch with
    slots := if b.samples = [] then ch.slots else ch.slots ++ [b],
    unread := s.blockAfter ch (idx, pos), request := false }
  ch.refresh false

/-- A channel after one sample: the position advances and a slot whose last sample this was is empty (R137, R139). After the last sample of a phrase
the position stands at the phrase's length until its boundary is taken (R133; the model's choice, log 54). -/
def Chan.advance (ch : Chan) : Chan :=
  match ch.cursor with
  | none => ch
  | some i =>
    { ch with
      pos := ch.pos + 1, delivered := ch.delivered + 1,
      slots := ch.slots.filter (fun b => !(b.idx == i && b.pos + b.samples.length ≤ ch.pos + 1)) }

/-- The samples that the attached zones put out for a sample value (R157). -/
def State.output (s : State) (ch : Chan) (v : Int) : Quad Int :=
  Quad.tabulate (fun z => if ch.attached.get z then scaleSample v (s.lu.zones.get z).mult else s.audio.get z)

/-- Move the present instant on to a due instant within the present millisecond (log 7). -/
def State.reach16 (s : State) (t : Nat) : State :=
  if t / 16 = s.now then s.setSck { s.sck with sub := max s.sck.sub (t % 16) } else s

end Sys2Proof.Machine
end

