-- ==== Sys2Proof/Machine/Zones.lean ====
section
/-!
DEFINITION. The zone arbiter: entering a state, choosing what follows, stops, offers, the wait list, withdrawal and eviction in a zone, pairs,
faults and service (R109 to R130). An operation acts on a unit: a single zone, or both members of a WHOLE pair (R124).
-/

namespace Sys2Proof.Machine

open Sys2Proof

/-! ### Entering a state (R110, R118, R146, R147) -/

/-- Write the shared part of one zone record. A zone that leaves play marks its last play end (R146); one that stops being silent loses a
running window (R147). -/
def State.putZoneArb (s : State) (a : Arb) (z : ZoneId) : State :=
  let old := (s.za.get z).arb.state
  let s := s.modZone z (fun r => { r with arb := a })
  let s := if old.plays && !a.state.plays then s.modLu z (fun u => { u with lastPlayEnd := some s.now }) else s
  if old.silent && !a.state.silent then s.modLu z (fun u => { u with window := none }) else s

/-- Write the shared part of the members of a unit. -/
def State.putArb (s : State) (zs : List ZoneId) (a : Arb) : State := zs.foldl (fun s z => s.putZoneArb a z) s

/-- Walk the wait list from its head: the waiters that can no longer begin are MISSED, the first that can is taken (R122). At the first instant after
its latest start a LOOSE waiter can still begin (R119; the model's choice, log 61). -/
def takeFirst (now : Nat) : List Held → List ClaimId × Option (Held × List Held)
  | [] => ([], none)
  | h :: rest =>
    if h.waitedOut now then
      let r := takeFirst now rest
      (h.id :: r.1, r.2)
    else ([], some (h, rest))

/-- A zone takes a claim that can still begin, the rest of its wait list kept: LEAD_IN while its start instant lies ahead, PLAYING once it is reached
(R113). -/
def Held.begun (h : Held) (rest : List Held) (now : Nat) : Arb :=
  { Arb.bare (if h.reached now then .playing else .leadIn) with current := some h, wait := rest }

/-- A zone turns to its wait list: the first waiter that can begin, or IDLE. Answered with the claims MISSED on the way (R122). -/
def turnToWait (w : List Held) (now : Nat) : Arb × List ClaimId :=
  let r := takeFirst now w
  match r.2 with
  | some (h, rest) => (h.begun rest now, r.1)
  | none => (Arb.bare .idle, r.1)

/-- What a zone turns to: its next claim, by the table of R113, then its wait list, then IDLE (R122). Answered with the claims MISSED on the way. A
next claim that can no longer begin is MISSED and the wait list follows (log 20). -/
def Arb.choose (a : Arb) (now : Nat) : Arb × List ClaimId :=
  match a.next with
  | some n =>
    if n.tooLate now then
      let r := turnToWait a.wait now
      (r.1, n.id :: r.2)
    else (n.begun a.wait now, [])
  | none => turnToWait a.wait now

/-- Enter the chosen state: the claims passed over are MISSED, and members that enter PLAYING are attached to a channel and take their
levels (R113, R118, R151). -/
def State.enter (s : State) (zs : List ZoneId) (r : Arb × List ClaimId) : State :=
  let s := s.putArb zs r.1
  let s := r.2.foldl (fun s id => s.writeDisps id zs .missed) s
  if r.1.state.plays then (zs.foldl State.attachZone s).applyLevels zs else s

/-- Note for a REJOINING partner that this zone has chosen what follows (R122, R126; log 21). -/
def State.markReform (s : State) (z : ZoneId) : State :=
  let y := z.partner
  if (s.za.get z).pair = some .broken ∧ (s.za.get y).arb.state = .rejoining then
    s.modZone y (fun r => { r with reformDue := true })
  else s

/-- A zone chooses what follows when its current claim has left it (R122). -/
def State.chooseNext (s : State) (zs : List ZoneId) (a : Arb) : State :=
  zs.foldl State.markReform (s.enter zs (a.choose s.now))

/-! ### The stop (R115, R121) -/

/-- What causes a stop (R121). -/
inductive StopCause where
  | boundary
  | instant
  | cutNow
  | eviction
deriving DecidableEq, Repr

/-- The disposition a stopped claim takes (R121). -/
def State.stopDisp (s : State) (z : ZoneId) (a : Arb) (cause : StopCause) : Disp :=
  if a.wdPending ∨ cause = .cutNow then .withdrawn
  else if cause = .eviction then .evicted
  else if s.zoneDelivered z then .played
  else .preempted

/-- The current claim of a unit stops: the members are detached, the disposition is written, and the unit chooses what follows (R121,
R122). -/
def State.stopUnit (s : State) (z : ZoneId) (cause : StopCause) : State :=
  let a := (s.za.get z).arb
  let zs := s.unit z
  match a.current with
  | none => s
  | some h => (((s.detachZones zs).writeDisps h.id zs (s.stopDisp z a cause))).chooseNext zs a

/-- CUTTING towards a claim: the stop conditions set from it, a pending withdrawal keeping its phrase-end stop (R115). -/
def Arb.aim (a : Arb) (b : Held) (now : Nat) : Arb :=
  { a with
    state := .cutting, next := some b,
    phraseEnd := a.wdPending || 2 ≤ b.cls,
    stopAt := if b.cls ≤ 1 ∨ b.sync = .joint then some (max b.start now) else none }

/-- Whether a CUTTING zone's stop instant is reached. -/
def Arb.stopDue (a : Arb) (now : Nat) : Bool :=
  a.state == .cutting &&
    (match a.stopAt with
      | some t => t ≤ now
      | none => false)

/-- Write the shared part of a unit, and stop its current claim at once if its stop instant is reached (R115, R123). -/
def State.putCutting (s : State) (z : ZoneId) (a : Arb) : State :=
  let s := s.putArb (s.unit z) a
  if a.stopDue s.now then s.stopUnit z .instant else s

/-! ### The wait list (R116, R117) -/

/-- Whether a waiting claim stands ahead of a new offer: by class, and every equal class arrived earlier (R117). -/
def Held.aheadOfOffer (g h : Held) : Bool := g.cls ≤ h.cls

/-- Whether a waiting claim stands ahead of a displaced next claim: by class, then by zone arrival instant (R116, R117). -/
def Held.aheadOfDisplaced (g h : Held) : Bool := g.cls < h.cls || (g.cls == h.cls && g.arrival < h.arrival)

/-- A claim meets the wait list: the list after, and the claim that does not stay, if one does not (R117). -/
def waitEnter (ahead : Held → Held → Bool) (w : List Held) (h : Held) : List Held × Option Held :=
  let place := fun (l : List Held) => l.takeWhile (fun g => ahead g h) ++ h :: l.dropWhile (fun g => ahead g h)
  if w.length < Config.maxWait then (place w, none)
  else
    match w.getLast? with
    | some worst => if ahead worst h then (w, some h) else (place w.dropLast, some worst)
    | none => (w, some h)

/-- An offered claim goes to the wait list: one that does not enter is REFUSED_BUSY, one pushed out is MISSED (R117). -/
def State.offerWait (s : State) (z : ZoneId) (a : Arb) (h : Held) : State :=
  let zs := s.unit z
  let r := waitEnter Held.aheadOfOffer a.wait h
  let s := s.putArb zs { a with wait := r.1 }
  match r.2 with
  | none => s
  | some x => s.writeDisps x.id zs (if x.id = h.id then .refusedBusy else .missed)

/-- A CUTTING zone takes a better next claim; the old one goes to the wait list, and whichever claim does not stay there is MISSED
(R116, R117). -/
def State.displaceNext (s : State) (z : ZoneId) (a : Arb) (old h : Held) : State :=
  let zs := s.unit z
  let r := waitEnter Held.aheadOfDisplaced a.wait old
  let s := match r.2 with
    | none => s
    | some x => s.writeDisps x.id zs .missed
  s.putCutting z ({ a with wait := r.1 }.aim h s.now)

/-! ### Offers (R112 to R116) -/

/-- Decide the offer of a claim to a unit (R112). -/
def State.offerUnit (s : State) (h : Held) (z : ZoneId) : State :=
  let zs := s.unit z
  let a := (s.za.get z).arb
  if s.effCode z h.cls = .refuse then s.writeDisps h.id zs .refusedAttr
  else
    match a.state with
    | .fault => s.writeDisps h.id zs .fault
    | .outOfService => s.writeDisps h.id zs .fault
    | .rejoining => s.writeDisps h.id zs .fault
    | .idle => s.enter zs ({ a with next := some h }.choose s.now)
    | .leadIn =>
      match a.current with
      | some c =>
        if h.cls < c.cls then
          (s.writeDisps c.id zs .preempted).enter zs ({ a with next := some h }.choose s.now)
        else s.offerWait z a h
      | none => s.offerWait z a h
    | .playing =>
      match a.current with
      | some c => if h.cls < c.cls then s.putCutting z (a.aim h s.now) else s.offerWait z a h
      | none => s.offerWait z a h
    | .cutting =>
      match a.next with
      | some n => if h.cls < n.cls then s.displaceNext z a n h else s.offerWait z a h
      | none => s.offerWait z a h

/-- The facts about an entry that a zone holds once it is offered. -/
def Entry.held (e : Entry) (now : Nat) : Held :=
  { id := e.id, cls := e.cls, sync := e.sync, start := e.start.getD now, latest := e.latest, arrival := now, phrases := e.phrases }

/-- Whether some member of a zone's unit holds PENDING for a claim. -/
def State.unitPending (s : State) (id : ClaimId) (z : ZoneId) : Bool :=
  match s.findEntry id with
  | some e => (s.unit z).any (fun y => e.disp.get y == .pending)
  | none => false

/-- Offer an entry to its local target zones: one offer to each unit (R96, R112). -/
def State.offerEntry (s : State) (id : ClaimId) : State :=
  match s.findEntry id with
  | none => s
  | some e => s.leads.foldl (fun s z => if s.unitPending id z then s.offerUnit (e.held s.now) z else s) s

/-! ### Withdrawal and eviction in a zone (R99, R123) -/

/-- A CUTTING zone's next claim has left: the head of the wait list becomes next if it is better than the current claim; otherwise the zone
returns to PLAYING (R123). -/
def State.nextLeft (s : State) (z : ZoneId) (a : Arb) : State :=
  let back := s.putArb (s.unit z)
    { a with state := .playing, next := none, stopAt := none, phraseEnd := a.wdPending }
  match a.wait, a.current with
  | w :: rest, some c => if w.cls < c.cls then s.putCutting z ({ a with wait := rest }.aim w s.now) else back
  | _, _ => back

/-- Whether an optional held claim is the claim `id`. -/
def heldIs (o : Option Held) (id : ClaimId) : Bool :=
  match o with
  | some h => h.id == id
  | none => false

/-- Carry out a withdrawal in a unit (R99, R123). -/
def State.withdrawUnit (s : State) (id : ClaimId) (cutNow : Bool) (z : ZoneId) : State :=
  let zs := s.unit z
  let a := (s.za.get z).arb
  if a.wait.any (fun h => h.id == id) then
    (s.putArb zs { a with wait := a.wait.filter (fun h => h.id != id) }).writeDisps id zs .withdrawn
  else if heldIs a.next id then (s.writeDisps id zs .withdrawn).nextLeft z a
  else if heldIs a.current id then
    if a.state.plays then
      if cutNow then s.stopUnit z .cutNow else s.putArb zs { a with wdPending := true, phraseEnd := true }
    else (s.writeDisps id zs .withdrawn).chooseNext zs a
  else s

/-- Withdraw a claim from each local target zone whose disposition is PENDING (R99). -/
def State.withdrawZones (s : State) (id : ClaimId) (cutNow : Bool) : State :=
  s.leads.foldl (fun s z => if s.unitPending id z then s.withdrawUnit id cutNow z else s) s

/-- Remove an evicted claim from a unit (R97, R123). -/
def State.evictUnit (s : State) (id : ClaimId) (z : ZoneId) : State :=
  let zs := s.unit z
  let a := (s.za.get z).arb
  if a.wait.any (fun h => h.id == id) then s.putArb zs { a with wait := a.wait.filter (fun h => h.id != id) }
  else if heldIs a.next id then s.nextLeft z a
  else if heldIs a.current id then
    if a.state.plays then s.stopUnit z .eviction else s.chooseNext zs a
  else s

/-- Remove an evicted claim from every zone (R97). -/
def State.evictZones (s : State) (id : ClaimId) : State := s.leads.foldl (fun s z => s.evictUnit id z) s

/-! ### Waiters and next claims watched against time (R119, R123) -/

/-- A waiting claim of a unit is MISSED and leaves the list (R119). -/
def State.missWaiter (s : State) (z : ZoneId) (id : ClaimId) : State :=
  let zs := s.unit z
  let a := (s.za.get z).arb
  (s.putArb zs { a with wait := a.wait.filter (fun h => h.id != id) }).writeDisps id zs .missed

/-! ### Faults, service and pairs (R125 to R128, R130) -/

/-- A pair becomes BROKEN (R125). -/
def State.breakPair (s : State) (z : ZoneId) : State :=
  if s.whole z then
    (s.modZone z (fun r => { r with pair := some .broken })).modZone z.partner (fun r => { r with pair := some .broken })
  else s

/-- The claims a zone holds. -/
def Arb.held (a : Arb) : List Held := a.current.toList ++ a.next.toList ++ a.wait

/-- Clear a zone into FAULT or OUT_OF_SERVICE: every claim it holds takes FAULT in its record, it is detached, and it holds nothing
(R125, R127, R128). -/
def State.clearZone (s : State) (z : ZoneId) (st : ZoneState) : State :=
  let s := s.breakPair z
  let s := (s.za.get z).arb.held.foldl (fun s h => s.writeDisp h.id z .fault) s
  let s := (s.detachZone z).putZoneArb (Arb.bare st) z
  (s.modZone z (fun r => { r with reformDue := false })).modZone z.partner (fun r => { r with reformDue := false })

/-- A pair becomes WHOLE. Each member keeps its own window and last play end (R159; the model's choice, log 60). -/
def State.makeWhole (s : State) (z : ZoneId) : State :=
  (s.modZone z (fun r => { r with pair := some .whole, reformDue := false })).modZone z.partner
    (fun r => { r with pair := some .whole, reformDue := false })

/-- A zone returns to service: IDLE if single; a member of a BROKEN pair by its partner's state (R126, R127, R128). A pair that becomes WHOLE by it has
the windows its members had (log 60). -/
def State.returnZone (s : State) (z : ZoneId) : State :=
  match (s.za.get z).pair with
  | none => s.putZoneArb (Arb.bare .idle) z
  | some _ =>
    match (s.za.get z.partner).arb.state with
    | .idle => (s.putZoneArb (Arb.bare .idle) z).makeWhole z
    | .leadIn => s.putZoneArb (Arb.bare .rejoining) z
    | .playing => s.putZoneArb (Arb.bare .rejoining) z
    | .cutting => s.putZoneArb (Arb.bare .rejoining) z
    | _ => s.putZoneArb (Arb.bare .idle) z

/-- Whether a REJOINING member's pair re-forms now: its partner is IDLE, or has chosen what follows after its claim ended (R126). -/
def State.reforms (s : State) (z : ZoneId) : Bool :=
  (s.za.get z).arb.state == .rejoining && (s.za.get z).pair == some .broken &&
    ((s.za.get z.partner).arb.state == .idle || ((s.za.get z).reformDue && (s.za.get z.partner).arb.state.serves))

/-- Re-form a pair: the REJOINING member takes its partner's state and claims, shares its channel and computes its level if it plays
(R126, R151). Its window and last play end stay its own (log 60). -/
def State.reform (s : State) (z : ZoneId) : State :=
  let a := (s.za.get z.partner).arb
  let s := (s.putZoneArb a z).makeWhole z
  if a.state.plays then (s.joinZone z z.partner).applyLevel z else s

/-- Apply a zone's staged attributes, if any are present and the zone is IDLE (R130). -/
def State.applyStaged (s : State) (z : ZoneId) : State :=
  match (s.za.get z).staged with
  | some a =>
    if (s.za.get z).arb.state = .idle then
      s.modZone z (fun r => { r with row := a.row, base := a.base, floor := a.floor, staged := none })
    else s
  | none => s

end Sys2Proof.Machine
end

