-- ==== Sys2Proof/Machine/Steps.lean ====
section
/-!
DEFINITION. The step timer unit: firing, counting, windows, clock jumps, starting, arming, re-planning and stopping steps (R21 to R37,
R64 to R66).
-/

namespace Sys2Proof.Machine

open Sys2Proof

/-! ### Firing (R26, R30, R32) -/

/-- An EVERY step reloads: its remaining seconds become the period as it stands, and the not-loaded flag clears (R26). -/
def StepTimer.reload (t : StepTimer) (p : StepSpec) : StepTimer :=
  { t with state := .counting, remaining := some p.period, notLoaded := false }

/-- A firing found busy (R30, case 1). A SKIPPED step has no remaining seconds (R21; the model's choice, log 52). -/
def busyTimer (p : StepSpec) (t : StepTimer) : StepTimer :=
  match p.mode with
  | .every => ({ t with last := .skippedBusy }).reload p
  | _ => { t with state := .skipped .busy, last := .skippedBusy, remaining := none }

/-- A firing held by a staged amendment (R30, case 2; the remaining seconds of a HELD step, R26 and log 16). -/
def heldTimer (p : StepSpec) (t : StepTimer) : StepTimer :=
  { t with
    state := .held,
    remaining := match p.mode with
      | .manual => none
      | _ => some 0 }

/-- A firing handed over (R30, case 3; R26, R28, R29). -/
def firedTimer (p : StepSpec) (t : StepTimer) : StepTimer :=
  let n := min 255 (t.fires + 1)
  let t := { t with last := .originated, fires := n }
  match p.mode with
  | .every => if p.limitReached n then { t with state := .done, remaining := none } else t.reload p
  | .onDispatch => { t with state := if p.limitReached n then .done else .fired, remaining := none }
  | _ => { t with state := .fired, remaining := none }

/-- The origination of a step as it stands now (R32, R73). -/
def State.stepOrig (s : State) (key idx : Nat) (p : StepSpec) (own : Bool) : Orig :=
  { source := .step key idx, cls := p.cls, sync := p.sync, template := p.template, target := .set p.target,
    call := some (key, idx), queuedAt := s.now, own := own }

/-- A step fires (R30). -/
def State.fireStep (s : State) (key idx : Nat) : State :=
  match s.findCall key, s.findStep key idx with
  | some c, some st =>
    if !c.live then s
    else if s.stepBusy key idx st then s.modTimer key idx (busyTimer st.spec)
    else if c.staged.isSome then s.modTimer key idx (heldTimer st.spec)
    else (s.modTimer key idx (firedTimer st.spec)).pushOrig (s.stepOrig key idx st.spec true)
  | _, _ => s

/-- Every step of every call, by ascending key and index (R22). -/
def State.stepRefs (s : State) : List (Nat × Nat) :=
  s.ct.flatMap (fun c => (List.range c.steps.length).map (fun i => (c.key, i)))

/-- The steps of one call, by ascending index. -/
def State.stepRefsOf (s : State) (key : Nat) : List (Nat × Nat) := s.stepRefs.filter (fun r => r.1 == key)

/-- Take the steps named, in order. -/
def State.eachStep (s : State) (rs : List (Nat × Nat)) (f : State → Nat → Nat → State) : State :=
  rs.foldl (fun s r => f s r.1 r.2) s

/-! ### Windows and fire times (R24, R25) -/

/-- An EVERY step's window opens: it loads its period, and an ungated step fires (R25; log 36). -/
def State.openStep (s : State) (key idx : Nat) (p : StepSpec) : State :=
  let s := s.modTimer key idx (fun t => t.reload p)
  if p.gate then s else s.fireStep key idx

/-- A step becomes DONE, its remaining seconds absent; a held firing is abandoned (R25, R37). -/
def doneTimer (t : StepTimer) : StepTimer := { t with state := .done, remaining := none }

/-- Whether a step still stands before its end: IDLE, COUNTING or HELD (R25, R37). -/
def StepState.unfinished : StepState → Bool
  | .idle => true
  | .counting => true
  | .held => true
  | _ => false

/-- Test an EVERY step's window against the service time: its end closes it, its start opens it (R25, R34). -/
def State.windowTest (s : State) (key idx : Nat) (c : Call) (st : Step) : State :=
  match st.spec.fireTime c, st.spec.closeTime c with
  | some start, some stop =>
    if !st.timer.state.unfinished then s
    else if stop ≤ (s.sck.time : Int) then s.modTimer key idx doneTimer
    else if st.timer.state = .idle ∧ start ≤ (s.sck.time : Int) then s.openStep key idx st.spec
    else s
  | _, _ => s

/-- Test an AT step's fire time: counted to, fired when late by 0..60 s, SKIPPED(LATE) beyond (R23, R34, R64). A SKIPPED step has no remaining
seconds (R21; the model's choice, log 52). -/
def State.atTest (s : State) (key idx : Nat) (c : Call) (st : Step) : State :=
  match st.spec.fireTime c with
  | none => s
  | some ft =>
    let t : Int := s.sck.time
    if t < ft then s.modTimer key idx (fun m => { m with state := .counting, remaining := some (ft - t).toNat })
    else if t - ft ≤ 60 then s.fireStep key idx
    else s.modTimer key idx (fun m => { m with state := .skipped .late, last := .skippedLate, remaining := none })

/-! ### Second boundaries (R22, R24 to R28) -/

/-- One elapsed second of a counting step: at 0 it fires (R22). -/
def State.countDown (s : State) (key idx : Nat) (st : Step) : State :=
  match st.timer.remaining with
  | none => s
  | some r =>
    if r ≤ 1 then (s.modTimer key idx (fun t => { t with remaining := some 0 })).fireStep key idx
    else s.modTimer key idx (fun t => { t with remaining := some (r - 1) })

/-- One step at a second boundary; `advanced` says that the service time has advanced (R22, R24 to R28). -/
def State.tickStep (advanced : Bool) (s : State) (key idx : Nat) : State :=
  match s.findCall key, s.findStep key idx with
  | some c, some st =>
    if !c.live then s
    else
      match st.spec.mode with
      | .atTime =>
        if advanced && st.timer.state == .counting then
          match st.spec.fireTime c with
          | none => s
          | some ft =>
            let t : Int := s.sck.time
            if ft ≤ t then s.fireStep key idx
            else s.modTimer key idx (fun m => { m with remaining := some (ft - t).toNat })
        else s
      | .every =>
        let closed := advanced &&
          (match st.spec.closeTime c with
            | some stop => stop ≤ (s.sck.time : Int)
            | none => false)
        if closed then s.windowTest key idx c st
        else if st.timer.state = .idle then (if advanced then s.windowTest key idx c st else s)
        else if st.timer.state = .counting ∧ (!st.spec.gate || c.state == .bound) then s.countDown key idx st
        else s
      | .onArrive => if st.timer.state = .counting then s.countDown key idx st else s
      | .onDispatch => if st.timer.state = .counting then s.countDown key idx st else s
      | .manual => s
  | _, _ => s

/-! ### Clock jumps and resuming (R34 to R36) -/

/-- One step at a forward jump, or when a reverted call resumes (R34, R36; log 19). -/
def State.forwardStep (s : State) (key idx : Nat) : State :=
  match s.findCall key, s.findStep key idx with
  | some c, some st =>
    if !c.live then s
    else
      match st.spec.mode with
      | .atTime => if st.timer.state = .counting ∨ st.timer.state = .idle then s.atTest key idx c st else s
      | .every => s.windowTest key idx c st
      | _ => s
  | _, _ => s

/-- Whether a step's state is SKIPPED. -/
def StepState.isSkipped : StepState → Bool
  | .skipped _ => true
  | _ => false

/-- One step at a backward jump (R35). -/
def State.backwardStep (s : State) (key idx : Nat) : State :=
  match s.findCall key, s.findStep key idx with
  | some c, some st =>
    if !c.live then s
    else
      match st.spec.mode, st.spec.fireTime c with
      | .atTime, some ft =>
        let t : Int := s.sck.time
        if st.timer.state = .counting ∨ (st.timer.state.isSkipped ∧ st.timer.fires = 0 ∧ t < ft) then
          s.modTimer key idx (fun m => { m with state := .counting, remaining := some (ft - t).toNat })
        else s
      | _, _ => s
  | _, _ => s

/-! ### Starting and arming (R23, R26 to R28) -/

/-- A step counts its delay from now; a delay of 0 or below fires at once (R22, R27, R28). -/
def State.armStep (s : State) (key idx : Nat) (p : StepSpec) : State :=
  if p.offset ≤ 0 then s.fireStep key idx
  else s.modTimer key idx (fun t => { t with state := .counting, remaining := some p.offset.toNat })

/-- Start one step of a newly applied plan, its timer fresh (R23; log 17 for a window that ends before it starts). -/
def State.startStep (s : State) (key idx : Nat) : State :=
  match s.findCall key, s.findStep key idx with
  | some c, some st =>
    match st.spec.mode with
    | .atTime => if s.sck.isSet then s.atTest key idx c st else s
    | .every =>
      match st.spec.fireTime c with
      | some start => if s.sck.isSet ∧ start ≤ (s.sck.time : Int) then s.windowTest key idx c st else s
      | none => s
    | .onArrive => if c.state = .bound then s.armStep key idx st.spec else s
    | _ => s
  | _, _ => s

/-- One step when its call becomes BOUND: an open gated EVERY step reloads, an unfired ON_ARRIVE step that is IDLE or SKIPPED(BUSY) is
armed (R26, R27, R46). -/
def State.bindStep (s : State) (key idx : Nat) : State :=
  match s.findStep key idx with
  | some st =>
    match st.spec.mode with
    | .every =>
      if st.spec.gate ∧ st.timer.state = .counting then s.modTimer key idx (fun t => t.reload st.spec) else s
    | .onArrive =>
      if st.timer.fires = 0 ∧ (st.timer.state = .idle ∨ st.timer.state = .skipped .busy) then s.armStep key idx st.spec else s
    | _ => s
  | none => s

/-- Whether a DOORS edge arms an ON_DISPATCH step in a state (R28). -/
def StepState.armable : StepState → Bool
  | .idle => true
  | .counting => true
  | .fired => true
  | .skipped .busy => true
  | .skipped .full => true
  | _ => false

/-- One step at a DOORS edge reported for its call (R28). -/
def State.doorsStep (s : State) (key idx : Nat) : State :=
  match s.findStep key idx with
  | some st => if st.spec.mode = .onDispatch ∧ st.timer.state.armable then s.armStep key idx st.spec else s
  | none => s

/-! ### Stopping and leaving BOUND (R27, R28, R37) -/

/-- The stop of R37. -/
def stopTimer (t : StepTimer) : StepTimer := if t.state.unfinished then doneTimer t else t

/-- Stop every step of a call (R37). -/
def Call.stopSteps (c : Call) : Call := { c with steps := c.steps.map (fun st => { st with timer := stopTimer st.timer }) }

/-- A step whose call leaves BOUND for WAITING: a counting ON_ARRIVE or ON_DISPATCH step returns to IDLE (R27, R28). -/
def unarmStep (st : Step) : Step :=
  if st.timer.state = .counting ∧ (st.spec.mode = .onArrive ∨ st.spec.mode = .onDispatch) then
    { st with timer := { st.timer with state := .idle, remaining := none } }
  else st

/-! ### Re-planning at a swap (R64 to R66) -/

/-- Bring one AT step into line (R64). A step that was waiting and whose reference time is now absent is IDLE (log 14). -/
def State.replanAt (s : State) (key idx : Nat) (c : Call) (st : Step) : State :=
  if st.timer.fires ≠ 0 then s
  else
    match st.timer.state with
    | .idle => if s.sck.isSet then s.atTest key idx c st else s
    | .counting =>
      if (st.spec.fireTime c).isNone then s.modTimer key idx (fun t => { t with state := .idle, remaining := none })
      else s.atTest key idx c st
    | .held =>
      if (st.spec.fireTime c).isNone then s.modTimer key idx (fun t => { t with state := .idle, remaining := none })
      else s.atTest key idx c st
    | .skipped _ =>
      match st.spec.fireTime c with
      | some ft =>
        let t : Int := s.sck.time
        if s.sck.isSet ∧ t < ft then
          s.modTimer key idx (fun m => { m with state := .counting, remaining := some (ft - t).toNat })
        else s
      | none => s
    | _ => s

/-- Bring one EVERY step into line (R65). A step at its repeat limit is DONE whatever its window; one below it whose reference time is now absent is IDLE
(R25; log 14). While the clock is UNSET neither the window's end nor its start is tested (R25; the model's choice, log 53). -/
def State.replanEvery (s : State) (key idx : Nat) (c : Call) (st : Step) : State :=
  match st.spec.fireTime c, st.spec.closeTime c with
  | some _, some stop =>
    if s.sck.isSet ∧ stop ≤ (s.sck.time : Int) then s.modTimer key idx doneTimer
    else if st.spec.limitReached st.timer.fires then s.modTimer key idx doneTimer
    else
      match st.timer.state with
      | .idle => if s.sck.isSet then s.windowTest key idx c st else s
      | .held => s.fireStep key idx
      | _ => s
  | _, _ =>
    if st.spec.limitReached st.timer.fires then s.modTimer key idx doneTimer
    else s.modTimer key idx (fun t => { t with state := .idle, remaining := none })

/-- Bring one step into line with the amended fields (R63, stage 4). -/
def State.replanStep (s : State) (key idx : Nat) : State :=
  match s.findCall key, s.findStep key idx with
  | some c, some st =>
    if st.timer.state = .done then s
    else
      match st.spec.mode with
      | .atTime => s.replanAt key idx c st
      | .every => s.replanEvery key idx c st
      | .onDispatch =>
        if st.spec.limitReached st.timer.fires then s.modTimer key idx doneTimer
        else if st.timer.state = .held then s.fireStep key idx
        else s
      | _ => if st.timer.state = .held then s.fireStep key idx else s
  | _, _ => s

/-- Replace a revised step's fields; a period that differs from the live one sets the not-loaded flag of an EVERY step (R65, R66). -/
def reviseStep (p : StepSpec) (st : Step) : Step :=
  { spec := p,
    timer := if st.spec.mode = .every ∧ p.period ≠ st.spec.period then { st.timer with notLoaded := true } else st.timer }

end Sys2Proof.Machine
end

