-- ==== Sys2Proof/Machine/Calls.lean ====
section
/-!
DEFINITION. What happens to a call: leaving service, expiry, binding and completion, the end of a handoff, installing a call, staging, and the
stages of a swap that stay on this node (R5, R12, R15, R45 to R50, R55 to R67, R71).
-/

namespace Sys2Proof.Machine

open Sys2Proof

/-! ### Leaving service and expiry (R5, R15) -/

/-- Release the platform a call is bound to; the platform keeps its state (R5 item 4, R49). -/
def Plat.release (key : Nat) (p : Plat) : Plat := if p.bound = some key then { p with bound := none } else p

/-- A call enters FINISHED or DROPPING: its steps stop, its originations are removed, its origin entries are marked, its platform is released
(R5). -/
def State.leaveService (s : State) (key : Nat) (st : CallState) : State :=
  let s := s.modCall key (fun c => ({ c with state := st }).stopSteps)
  let s := s.removeOrigs (Orig.ofCall key)
  let s := s.markNoRetry key
  s.setPm (s.pm.map (Plat.release key))

/-- The expiry test of one call (R15). -/
def State.expiryTest (s : State) (key : Nat) : State :=
  match s.findCall key with
  | some c => if s.expires c then s.leaveService key (.finished .expired) else s
  | none => s

/-- The expiry test of every call, in ascending key order (R1, R15). -/
def State.expiryTests (s : State) : State := (s.ct.map (·.key)).foldl State.expiryTest s

/-! ### Platforms: binding and completion (R43, R45, R46, R48, R50) -/

/-- Whether a call is a candidate at an accepted rise on a platform (R45). -/
def State.candidate (s : State) (p : PlatId) (c : Call) : Bool :=
  c.state == .waiting && c.platform == p &&
    (!s.sck.isSet ||
      (match c.refTime with
        | some r => (s.sck.time : Int) - 1800 ≤ (r : Int) && (r : Int) ≤ (s.sck.time : Int) + 3600
        | none => false))

/-- Of two calls the one with the smaller reference time; the first of two that share it (R45). A call with no reference time, a candidate only while
the clock is UNSET, ranks as one of reference time 0 (the model's choice, log 44). -/
def earlier (a b : Call) : Call := if b.refTime.getD 0 < a.refTime.getD 0 then b else a

/-- The call that an accepted rise binds: the smallest reference time, the lowest key among equals (R45). -/
def State.chosenCall (s : State) (p : PlatId) : Option Call :=
  match s.ct.filter (s.candidate p) with
  | [] => none
  | c :: rest => some (rest.foldl earlier c)

/-- Bind a call to a platform (R46). -/
def State.bindCall (s : State) (p : PlatId) (key : Nat) : State :=
  let s := s.modPlat p (fun r => { r with bound := some key })
  let s := s.modCall key (fun c => { c with state := .bound })
  s.eachStep (s.stepRefsOf key) State.bindStep

/-- An accepted rise of OCC on an EMPTY platform (R43, R45). -/
def State.acceptRise (s : State) (p : PlatId) : State :=
  if (s.pm.get p).state = .empty then
    let s := s.modPlat p (fun r => { r with state := if r.doors then .dispatch else .occupied, bound := none })
    match s.chosenCall p with
    | some c => s.bindCall p c.key
    | none => s
  else s

/-- The reason a call kind finishes with (R48). -/
def CallKind.finish : CallKind → FinishReason
  | .arrival => .arrived
  | .departure => .departed
  | .turn => .departed

/-- An accepted fall of OCC: the platform is EMPTY, a hold is cleared, and the bound call finishes (R43, R48, R50). -/
def State.acceptFall (s : State) (p : PlatId) : State :=
  if (s.pm.get p).state = .empty then s
  else
    let b := (s.pm.get p).bound
    let s := s.modPlat p (fun r => { r with state := .empty, bound := none, hold := none })
    match b with
    | none => s
    | some key =>
      match s.findCall key with
      | some c => s.leaveService key (.finished c.kind.finish)
      | none => s

/-- A new occupancy level is accepted (R42, R43). -/
def State.acceptOcc (s : State) (p : PlatId) : State :=
  let level := (s.pm.get p).occ
  let s := s.modPlat p (fun r => { r with accOcc := level, wait := none })
  if level then s.acceptRise p else s.acceptFall p

/-- What a platform whose OCC level stands as it does begins or discards (R41, R42). With a debounce time of 0 the wait that begins has run out as it
begins: DEBOUNCE_WAIT_EXPIRY accepts the level at that instant, unless the level's reversal is taken first and leaves no wait and no acceptance
(log 50). -/
def State.occMoved (s : State) (p : PlatId) : State :=
  if (s.pm.get p).occ = (s.pm.get p).accOcc then s.modPlat p (fun r => { r with wait := none })
  else s.modPlat p (fun r => { r with wait := some s.cfg.debounceMs })

/-! ### The end of a handoff (R50, R69, R71) -/

/-- Whether a platform holds a binding aside for a call. -/
def Plat.holds (key : Nat) (p : Plat) : Bool := p.hold == some key

/-- The platform takes a held call back (R50). -/
def Plat.restore (key : Nat) (p : Plat) : Plat := if p.hold = some key then { p with hold := none, bound := some key } else p

/-- The platform loses a hold (R50). -/
def Plat.unhold (key : Nat) (p : Plat) : Plat := if p.hold = some key then { p with hold := none } else p

/-- Revert a handoff: the flag noted before the swap returns, handoff failed becomes yes, the call is BOUND again or WAITING and its steps
resume (R36, R50, R71). -/
def State.revertHandoff (s : State) (key : Nat) : State :=
  match s.findCall key with
  | none => s
  | some c =>
    match c.state, c.handoff with
    | .handingOff, some ctx =>
      let held := Plat.holds key s.pm.d0 || Plat.holds key s.pm.d1
      let s := s.setPm (s.pm.map (Plat.restore key))
      let s := s.modCall key (fun c =>
        { c with changed := ctx.preChanged, handoffFailed := true, handoff := none, state := if held then .bound else .waiting })
      let s := if s.sck.isSet then s.eachStep (s.stepRefsOf key) State.forwardStep else s
      if held then s else s.expiryTest key
    | _, _ => s

/-- Settle a handoff by ANSWER DONE (R50, R71). -/
def State.settleHandoff (s : State) (key : Nat) : State :=
  let s := s.setPm (s.pm.map (Plat.unhold key))
  let s := s.removeOrigs (Orig.ofCall key)
  let s := s.markNoRetry key
  s.modCall key (fun c => { c with handoff := c.handoff.map (fun h => { h with phase := .settled, timer := none }) })

/-! ### Installing (R2, R12, R70) -/

/-- The call a CALLSET or HANDOFF body installs, its values tested (R2, R70). -/
def CallBody.call (b : CallBody) (k : CallKind) (p : PlatId) (changed : Bool) (steps : List StepSpec) : Call :=
  { key := b.key, kind := k, platform := p, schArr := b.schArr, schDep := b.schDep, expArr := b.expArr, expDep := b.expDep,
    dest := zeroAbsent b.dest, origin := zeroAbsent b.origin, coaches := zeroAbsent b.coaches, points := b.points, changed := changed,
    steps := steps.map (fun p => { spec := p, timer := StepTimer.fresh }), state := .waiting, staged := none,
    handoffFailed := false, handoff := none }

/-- Install a call, start its steps, and make the expiry test (R12, R23, R70). -/
def State.install (s : State) (c : Call) : State :=
  let s := s.setCt (insertCall c s.ct)
  let s := s.eachStep (s.stepRefsOf c.key) State.startStep
  s.expiryTest c.key

/-! ### Staging (R56 to R58) -/

/-- Merge new revisions into staged ones: those of the same index are replaced, the others stay (R58). -/
def mergeRevs (old new : List (Nat × StepSpec)) : List (Nat × StepSpec) :=
  old.filter (fun r => !new.any (fun q => q.1 == r.1)) ++ new

/-- Write revisions into a step list (R58). -/
def writeRevs (steps : List StepSpec) (revs : List (Nat × StepSpec)) : List StepSpec :=
  revs.foldl (fun l r => l.set r.1 r.2) steps

/-- Merge a frame's plan part into the staged one (R58). -/
def mergePlan : Option PlanPart → Option PlanPart → Option PlanPart
  | old, none => old
  | _, some (.replace l) => some (.replace l)
  | none, some (.revise r) => some (.revise r)
  | some (.revise o), some (.revise r) => some (.revise (mergeRevs o r))
  | some (.replace l), some (.revise r) => some (.replace (writeRevs l r))

/-- The new value of a part where the frame carries one, the staged value otherwise. -/
def pick {α : Type} (new old : Option α) : Option α :=
  match new with
  | some v => some v
  | none => old

/-- Merge a frame's parts into a staged amendment, part by part (R58). -/
def Amendment.merge (old new : Amendment) : Amendment :=
  { arr := pick new.arr old.arr, dep := pick new.dep old.dep, platform := pick new.platform old.platform,
    coaches := pick new.coaches old.coaches, points := pick new.points old.points, plan := mergePlan old.plan new.plan }

/-- Stage a frame's parts (R58). -/
def State.stage (s : State) (key : Nat) (a : Amendment) : State :=
  s.modCall key (fun c => { c with staged := some ((c.staged.getD Amendment.empty).merge a) })

/-- The plan that a REVISE revises: the staged REPLACE list, or the live plan (R57). -/
def Call.revisedPlan (c : Call) : List StepSpec :=
  match c.staged.bind (·.plan) with
  | some (.replace l) => l
  | _ => c.steps.map (·.spec)

/-- A swap is due: the call is WAITING or BOUND, its amendment is present, and its live-claim count is 0 (R61). -/
def State.swapDue (s : State) (c : Call) : Bool := c.live && c.staged.isSome && s.liveCount c.key == 0

/-! ### The swap's stages on this node (R63, R66, R67) -/

/-- Stage 1: the fields (R63). -/
def Call.amend (c : Call) (a : Amendment) : Call :=
  { c with
    expArr := pick a.arr c.expArr, expDep := pick a.dep c.expDep, coaches := pick a.coaches c.coaches,
    points := a.points.getD c.points, staged := none }

/-- Stage 3: the plan (R63, R66). A REPLACE discards the old steps with their originations and marks; the new ones start in index order. A
REVISE replaces fields. Answered with whether the steps were started afresh. -/
def State.applyPlan (s : State) (key : Nat) (a : Amendment) : State × Bool :=
  match a.plan with
  | none => (s, false)
  | some (.replace l) =>
    let s := (s.removeOrigs (Orig.ofCall key)).markNoRetry key
    let s := s.modCall key (fun c => { c with steps := l.map (fun p => { spec := p, timer := StepTimer.fresh }) })
    (s.eachStep (s.stepRefsOf key) State.startStep, true)
  | some (.revise revs) =>
    (revs.foldl (fun s r => s.modStep key r.1 (reviseStep r.2)) s, false)

/-- Stages 3 and 4: the plan, then every step not started afresh brought into line (R63). -/
def State.replan (s : State) (key : Nat) (a : Amendment) : State :=
  let r := s.applyPlan key a
  if r.2 then r.1 else r.1.eachStep (r.1.stepRefsOf key) State.replanStep

end Sys2Proof.Machine
end

