-- ==== Sys2Proof/Machine/Link.lean ====
section
/-!
DEFINITION. The link as its owners meet it: a frame placed in the transmit queue, a frame that fails, the withdrawals an originator orders, the
return of an own CLAIM, eviction, and answers (R10, R14, R95 to R100, R165 to R168).
-/

namespace Sys2Proof.Machine

open Sys2Proof

/-! ### A frame fails (R98, R100, R168) -/

/-- Shorten a coverage window end, never lengthening it (R100). -/
def OriginPart.shorten (o : OriginPart) (t : Nat) : OriginPart :=
  { o with
    windowEnd := some (match o.windowEnd with
      | some e => min e t
      | none => t) }

/-- Whether an entry is an origin entry with send state QUEUED (R95, R98). -/
def Entry.isQueued (e : Entry) : Bool :=
  match e.origin with
  | some o => o.send == .queued
  | none => false

/-- Fix an own entry's timing at its anchor and set its window end (R93, R95, R98). -/
def Entry.fixOwn (e : Entry) (c : ClaimFrame) (now plannedMs : Nat) (send : SendState) (localOnly : Bool) : Entry :=
  let e := e.anchor now c.offset10 (c.window.getD 0) plannedMs
  { e with
    localOnly := e.localOnly || localOnly,
    origin := e.origin.map (fun o => ({ o with send := send }).shorten ((e.plannedEnd.getD now) + Config.coverageMs)) }

/-- An own CLAIM frame has failed: local-only play from now (R98). -/
def State.sendFailed (s : State) (c : ClaimFrame) : State :=
  match s.nodeNo with
  | none => s
  | some n =>
    let id : ClaimId := ⟨n, c.seq⟩
    match s.findEntry id with
    | none => s
    | some e =>
      if e.isQueued then
        ((s.modEntry id (fun e => e.fixOwn c s.now (s.plannedMs e.phrases) .failed true)).offerEntry id).settle
      else s

/-- An own CEDE frame has failed: the withdrawal is applied to the local zones and the window end shortened (R100). -/
def State.cedeFailed (s : State) (id : ClaimId) (cutNow : Bool) : State :=
  ((s.withdrawZones id cutNow).modOrigin id (fun o => o.shorten (s.now + Config.coverageMs))).settle

/-- An own HANDOFF frame has failed while its handoff is SENDING: revert (R69). -/
def State.handoffFailed (s : State) (key : Nat) : State :=
  match s.findCall key with
  | some c =>
    match c.handoff with
    | some h => if h.phase = .sending then s.revertHandoff key else s
    | none => s
  | none => s

/-- A frame fails after 8 attempts, by displacement, or by being dropped at its arrival (R168). -/
def State.failFrame (s : State) (f : TxFrame) : State :=
  match f.body with
  | .claim c => s.sendFailed c
  | .cede id cut => s.cedeFailed id cut
  | .handoff h => s.handoffFailed h.key
  | .answer _ _ _ => s
  | .zstat _ _ => s.lowFail f
  | .report _ _ _ _ _ _ => s.lowFail f

/-- An owner places a frame in the transmit queue (R167). -/
def State.enqueue (s : State) (b : TxBody) (dst : Nat) : State :=
  let r := txOffer s.lc.tx (s.newFrame b dst)
  match r.2 with
  | none => s.setTx r.1
  | some f => (s.setTx r.1).failFrame f

/-! ### Withdrawals an originator orders (R14, R39, R171) -/

/-- Whether a queued frame is the CLAIM with a sequence number. -/
def TxFrame.isClaim (seq : Nat) (f : TxFrame) : Bool :=
  match f.body with
  | .claim c => c.seq == seq
  | _ => false

/-- A CLAIM never to be sent: its pending zones take WITHDRAWN, no ZSTAT is due, its send state is FAILED and its window is closed
(R14, R103). -/
def Entry.unsent (e : Entry) : Entry :=
  { e with
    disp := e.disp.map (fun d => if d = .pending then .withdrawn else d),
    zstat := .notNeeded,
    origin := e.origin.map (fun o => { o with send := .failed, windowOpen := false, ceded := true }) }

/-- The CLAIM frame of an entry is taken back and the entry is settled without play (R14, R171). -/
def State.takeBack (s : State) (id : ClaimId) : State :=
  ((s.setTx (s.lc.tx.filter (fun f => !f.isClaim id.seq))).modEntry id Entry.unsent).settle

/-- The CLAIM is on the link: the request is held by the LC until the attempt ends (R14, R171). -/
def State.holdTakeBack (s : State) (id : ClaimId) (cutNow : Bool) : State :=
  (s.setTx (s.lc.tx.map (fun f => if f.isClaim id.seq then { f with takeBack := true } else f))).modOrigin id
    (fun o => { o with ceded := true, cutNow := cutNow })

/-- Order the withdrawal of one of the node's own claims, once (R14, R39, R91). One that finds its claim sent and past its planned end does nothing and
leaves the ceded flag clear (the model's choice, log 58). -/
def State.withdrawOwn (s : State) (cutNow : Bool) (id : ClaimId) : State :=
  match s.findEntry id with
  | none => s
  | some e =>
    match e.origin with
    | none => s
    | some o =>
      if o.ceded then s
      else
        match o.send with
        | .sent =>
          if s.now ≤ e.plannedEnd.getD 0 then
            (s.modOrigin id (fun o => { o with ceded := true, cutNow := cutNow })).enqueue (.cede id cutNow) 0
          else s
        | .queued =>
          if s.lc.tx.any (fun f => f.isClaim id.seq && f.underWay) then s.holdTakeBack id cutNow else s.takeBack id
        | .failed =>
          ((s.modOrigin id (fun o => { o with ceded := true, cutNow := cutNow })).withdrawZones id cutNow).settle

/-- Withdraw the claims of a dropped call, one after the other in arrival order (R14; the order is the model's choice, log 43). -/
def State.withdrawCall (s : State) (key : Nat) : State :=
  ((s.clt.filter (fun e => e.origin.isSome && e.hasKey key)).map (·.id)).foldl (State.withdrawOwn · false) s

/-! ### Own frames that were sent (R95, R100, R165) -/

/-- An own CLAIM returns through the receive path (R95): its entry is SENT and offered; where its withdrawal was ordered meanwhile, the CEDE
is queued now (R14). -/
def State.ownClaim (s : State) (c : ClaimFrame) : State :=
  match s.nodeNo with
  | none => s
  | some n =>
    let id : ClaimId := ⟨n, c.seq⟩
    match s.findEntry id with
    | none => s
    | some e =>
      if e.isQueued then
        let s := ((s.modEntry id (fun e => e.fixOwn c s.now (s.plannedMs e.phrases) .sent false)).offerEntry id).settle
        match e.origin with
        | some o => if o.ceded then s.enqueue (.cede id o.cutNow) 0 else s
        | none => s
      else s

/-- A CEDE reaches the CLT from a source (R99). -/
def State.takeCede (s : State) (src : Nat) (id : ClaimId) (cutNow : Bool) : State :=
  if src = id.origin then (s.withdrawZones id cutNow).settle else s

/-- An own CEDE was sent: the window end is shortened, and the CEDE acts on the node's own zones (R100). -/
def State.ownCede (s : State) (id : ClaimId) (cutNow : Bool) : State :=
  (s.modOrigin id (fun o => o.shorten (s.now + Config.coverageMs))).takeCede id.origin id cutNow

/-! ### Received claims and eviction (R96, R97) -/

/-- Of two entries the worse: the greater class number, then the later in arrival order, `b` standing after `a` (R97). -/
def worseEntry (a b : Entry) : Entry := if a.cls ≤ b.cls then b else a

/-- The entry that a new claim of a class evicts from a full table (R97). -/
def State.evictee (s : State) (cls : AnnClass) : Option Entry :=
  match s.clt.filter (fun e => cls < e.cls) with
  | [] => none
  | e :: rest => some (rest.foldl worseEntry e)

/-- Evict an entry: the zones let it go, a claim that stops by it taking its disposition in the order of R121, its other pending zones take EVICTED,
a received entry settles by it and queues its ZSTAT, and the entry is removed (R94, R97, R101, R121; log 41). -/
def State.evict (s : State) (id : ClaimId) : State :=
  let s := s.evictZones id
  let s := (s.modEntry id (fun e => { e with disp := e.disp.map (fun d => if d = .pending then .evicted else d) })).settle
  s.setClt (s.clt.filter (fun e => e.id != id))

/-- The received entry that a CLAIM makes (R90, R96). -/
def State.receivedEntry (s : State) (src : Nat) (c : ClaimFrame) : Entry :=
  let zst := if s.sul.mode = .listenOnly ∨ (s.inStoreFault ∧ s.nodeNo = none) then ZstatState.notNeeded else ZstatState.pending
  let e : Entry :=
    { id := ⟨src, c.seq⟩, cls := c.cls, sync := c.sync, groups := c.groups, phrases := c.phrases, call := c.call,
      missing := c.missing, truncated := c.truncated, localOnly := false, start := none, latest := none, plannedEnd := none,
      disp := s.startDisp c.groups, zstat := zst, settled := false, origin := none }
  e.anchor s.now c.offset10 (c.window.getD 0) (s.plannedMs c.phrases)

/-- Make the entry and offer it (R96, test 5). -/
def State.enterClaim (s : State) (src : Nat) (c : ClaimFrame) : State :=
  let e := s.receivedEntry src c
  ((s.setClt (s.clt ++ [e])).offerEntry e.id).settle

/-- A peer's CLAIM (R96). It is known by its entry alone: one whose id a zone still holds from an entry removed is taken like any other (R109; the
model's choice, log 59). -/
def State.peerClaim (s : State) (src : Nat) (c : ClaimFrame) : State :=
  if c.groups = 0 then s
  else if !s.inStoreFault && !s.hasTarget c.groups then s
  else if (s.findEntry ⟨src, c.seq⟩).isSome then s
  else if s.clt.length < Config.maxClaims then s.enterClaim src c
  else
    match s.evictee c.cls with
    | some e => (s.evict e.id).enterClaim src c
    | none => s

/-! ### Reception and answers (R9, R10, R163, R164) -/

/-- The receive buffer is empty again at a frame end (R163). -/
def State.frameEnd (s : State) : State := s.setLc { s.lc with rx := false }

/-- Whether a frame heard whole passes the LC's tests of its length, destination and values outside LOADING (R163). -/
def State.hears (s : State) (kind : Nat) (f : RxFrame) : Bool :=
  s.loaded && lengthOk kind f.body && s.forUs f && valuesOk kind f.body

/-- Whether an answer to a frame is left out: a frame addressed to all nodes whose outcome is NOT_OWNER or UNKNOWN_KEY (R10). -/
def unanswered (f : RxFrame) (code : AnswerCode) : Bool :=
  f.dst == 0 && (code == .notOwner || code == .unknownKey)

/-- Answer a frame, addressed to its source (R10). -/
def State.answer (s : State) (f : RxFrame) (kind key : Nat) (code : AnswerCode) : State :=
  if unanswered f code then s else s.enqueue (.answer kind key code) f.src.toNat

/-- A call frame handed to the CT: discarded when it is the node's own, acted on in RUNNING, refused in STORE_FAULT when addressed to this
node by number, discarded in LISTEN_ONLY (R9, R10, R184). -/
def State.callFrame (s : State) (kind : Nat) (f : RxFrame) (act : State → State) : State :=
  let s := s.frameEnd
  if !s.hears kind f || s.fromUs f then s
  else
    match s.sul.mode with
    | .running => act s
    | .storeFault => if s.forUsAlone f then s.answer f kind (field f.body 0 2) .storeFault else s
    | _ => s

end Sys2Proof.Machine
end

