-- ==== Sys2Proof/Machine/Compose.lean ====
section
/-!
DEFINITION. The composer: the context of an expansion, the slots, the length limit, the group set, the sequence number, the origin entry and
the CLAIM frame (R77 to R89).
-/

namespace Sys2Proof.Machine

open Sys2Proof

/-! ### Context (R80, R83) -/

/-- What an expansion reads: the call, the reference of the step, the station platform number to speak (R80). -/
structure Context where
  call : Option Call
  ref : RefTime
  stationNo : Nat
deriving DecidableEq, Repr

/-- The station platform number that a PLATFORM slot speaks for a call: the new one while the call is HANDING_OFF (R80). -/
def State.spokenPlatform (s : State) (c : Call) : Nat :=
  match c.state, c.handoff with
  | .handingOff, some h => h.newPlatform
  | _, _ => (s.pm.get c.platform).stationNo

/-- The context of an origination's expansion (R80). -/
def State.context (s : State) (o : Orig) : Context :=
  match o.call with
  | none => { call := none, ref := .arr, stationNo := 0 }
  | some (key, idx) =>
    match s.findCall key with
    | none => { call := none, ref := .arr, stationNo := 0 }
    | some c =>
      { call := some c,
        ref := match c.steps[idx]? with
          | some st => st.spec.ref
          | none => .arr,
        stationNo := s.spokenPlatform c }

/-- How many seconds a call is late for an expansion, when it is late (R83). -/
def Context.late (x : Context) : Option Nat :=
  match x.call with
  | none => none
  | some c =>
    match c.scheduled x.ref, c.expected x.ref with
    | some sch, some ex => if sch + 60 ≤ ex then some (ex - sch) else none
    | _, _ => none

/-- Minutes late (R83). -/
def minutesLate (late : Nat) : Nat := min 180 ((late + 59) / 60)

/-! ### Expansion (R81 to R85) -/

/-- A code in a list being composed, and whether it is a calling-point code (R81). -/
structure Spoken where
  code : Nat
  calling : Bool
deriving DecidableEq, Repr

/-- The codes a slot appends and whether it sets MISSING_FIELD (R81). -/
abbrev SlotText := List Spoken × Bool

/-- A code spoken as it stands. -/
def plainCode (c : Nat) : Spoken := { code := c, calling := false }

/-- A field's code, or its absence (R81). -/
def fieldText : Option Nat → SlotText
  | some c => ([plainCode c], false)
  | none => ([], true)

/-- A number code worked out from a base: a base of 0 appends nothing, a code above 2047 is not appended and sets MISSING_FIELD (R85). -/
def numberText (base add : Nat) : SlotText :=
  if base = 0 then ([], false)
  else if 2047 < base + add then ([], true)
  else ([plainCode (base + add)], false)

/-- The number code of a field worked out from a base: an absent field appends nothing and sets MISSING_FIELD, unless the base is 0, when the slot
sets no mark (R81, R85; log 51). -/
def numberField (base : Nat) : Option Nat → SlotText
  | some n => numberText base n
  | none => ([], base != 0)

/-- Two texts one after the other. -/
def SlotText.append (a b : SlotText) : SlotText := (a.1 ++ b.1, a.2 || b.2)

/-- The two codes of a time slot. An absent time appends nothing and sets MISSING_FIELD, unless every base of the slot is 0 (R82, R85; log 51). -/
def timeText (b : Bases) : Option Nat → SlotText
  | none => ([], b.hour != 0 || b.minute != 0 || b.oclock != 0)
  | some t =>
    let day := t % 86400
    let m := day % 3600 / 60
    (numberText b.hour (day / 3600)).append (if m = 0 then numberText b.oclock 0 else numberText b.minute m)

/-- What a slot that speaks appends (R80 to R85). Without a call every field slot appends nothing and sets no mark. -/
def slotText (b : Bases) (x : Context) : Slot → SlotText
  | .phrase c => (if c = 0 then [] else [plainCode c], false)
  | .dest => x.call.elim ([], false) (fun c => fieldText c.dest)
  | .origin => x.call.elim ([], false) (fun c => fieldText c.origin)
  | .platform => x.call.elim ([], false) (fun _ => numberText b.platform x.stationNo)
  | .timeArr => x.call.elim ([], false) (fun c => timeText b c.expArr)
  | .timeDep => x.call.elim ([], false) (fun c => timeText b c.expDep)
  | .delay => x.late.elim ([], false) (fun l => numberText b.delay (minutesLate l))
  | .coaches => x.call.elim ([], false) (fun c => numberField b.coaches c.coaches)
  | .calling => x.call.elim ([], false) (fun c => (c.points.map (fun p => { code := p, calling := true }), false))
  | .ifLate _ => ([], false)
  | .ifChanged _ => ([], false)

/-- How many slots after this one are passed over (R84). -/
def slotSkips (x : Context) : Slot → Nat
  | .ifLate n => if x.late.isSome then 0 else n
  | .ifChanged n => if x.call.any (fun c => c.changed) then 0 else n
  | _ => 0

/-- Expand a template's slots in order, the first `skip` of them passed over (R78 stage 2, R84). -/
def expand (b : Bases) (x : Context) : Nat → List Slot → SlotText
  | _, [] => ([], false)
  | skip + 1, _ :: rest => expand b x skip rest
  | 0, slot :: rest => (slotText b x slot).append (expand b x (slotSkips x slot) rest)

/-! ### The length limit (R86) -/

/-- Replace the calling-point code nearest the end of a list by other codes; none when no calling-point code remains. -/
def replaceLastCalling (with_ : List Spoken) : List Spoken → Option (List Spoken)
  | [] => none
  | c :: rest =>
    match replaceLastCalling with_ rest with
    | some r => some (c :: r)
    | none => if c.calling then some (with_ ++ rest) else none

/-- Remove calling-point codes from the end while the list is over 32 codes, at most `fuel` times (R86, stage 1). -/
def trimCalling : Nat → List Spoken → List Spoken
  | 0, l => l
  | fuel + 1, l =>
    if l.length ≤ 32 then l
    else
      match replaceLastCalling [] l with
      | some r => trimCalling fuel r
      | none => l

/-- The "and other stations" code, when the store has one (R86). -/
def andOthers (b : Bases) : List Spoken := if b.andOthers = 0 then [] else [plainCode b.andOthers]

/-- Bring a list within 32 codes: the first removal puts the "and other stations" code in the removed code's place, later ones remove, and a list
still over the limit is cut and marked TRUNCATED (R86). -/
def limitLength (b : Bases) (l : List Spoken) : List Spoken × Bool :=
  let l1 :=
    if l.length ≤ 32 then l
    else
      match replaceLastCalling (andOthers b) l with
      | some r => trimCalling r.length r
      | none => l
  (l1.take 32, 32 < l1.length)

/-! ### Group set, number, entry and frame (R87 to R89) -/

/-- The group set of an origination (R87). -/
def State.groupsOf (s : State) (o : Orig) : GroupSet :=
  match o.target with
  | .set t => s.cfg.targetSets.getD t 0
  | .groups g => g

/-- Whether a sequence number of this node is free (R88). -/
def State.seqFree (s : State) (own n : Nat) : Bool :=
  (s.findEntry ⟨own, n⟩).isNone && !s.lc.tx.any (fun f => f.isClaim n)

/-- The sequence number the claim takes: the first free one from the counter on, from 255 round to 0 (R88). -/
def State.nextSeq (s : State) (own : Nat) : Nat :=
  (((List.range 256).map (fun k => (s.cmp.seq + k) % 256)).find? (s.seqFree own)).getD s.cmp.seq

/-- Whether an origination is a RETRY. -/
def Orig.isRetry (o : Orig) : Bool :=
  match o.source with
  | .retry _ => true
  | _ => false

/-- The CLAIM frame of a composed claim (R89). -/
def State.claimFrame (s : State) (o : Orig) (seq : Nat) (gs : GroupSet) (phrases : List Nat) (missing truncated : Bool) : ClaimFrame :=
  { seq := seq, cls := o.cls, sync := o.sync, missing := missing, truncated := truncated, groups := gs,
    offset10 := match o.sync with
      | .joint => s.cfg.jointOffset10
      | .loose => s.cfg.looseOffset10,
    window := match o.sync with
      | .joint => none
      | .loose => some s.cfg.looseWindow,
    call := o.call, phrases := phrases }

/-- The origin entry of a composed claim (R89, R91). -/
def State.originEntry (s : State) (own : Nat) (o : Orig) (c : ClaimFrame) : Entry :=
  { id := ⟨own, c.seq⟩, cls := c.cls, sync := c.sync, groups := c.groups, phrases := c.phrases, call := c.call,
    missing := c.missing, truncated := c.truncated, localOnly := false, start := none, latest := none, plannedEnd := none,
    disp := s.startDisp c.groups, zstat := .notNeeded, settled := false,
    origin := some
      { send := .queued,
        lines := (s.targetNodes c.groups).map (fun n => { node := n, outcome := .unknown, retryZones := Quad.const false }),
        windowEnd := none, windowOpen := true, retryUsed := false, isRetry := o.isRetry, noRetry := false, ceded := false,
        cutNow := false } }

/-- The claim id written back to the source (R89, stage 8), also to a frozen step of a call in HANDING_OFF (R36, R68; the model's choice, log 56). -/
def State.writeBack (s : State) (src : OrigSource) (id : ClaimId) : State :=
  match src with
  | .step key idx => s.modTimer key idx (fun t => { t with lastClaim := some id })
  | .approach p => s.modPlat p (fun r => { r with lastClaim := some id })
  | .evac => s.setEvac { s.evac with lastClaim := some id }
  | .retry _ => s

/-- The text of an origination's template, brought within 32 codes, with the marks MISSING_FIELD and TRUNCATED (R78, stages 1 to 3). -/
def State.compositionText (s : State) (o : Orig) : List Nat × Bool × Bool :=
  let t := expand s.cmp.bases (s.context o) 0 (s.cmp.templates.getD o.template [])
  let l := limitLength s.cmp.bases t.1
  (l.1.map (·.code), t.2, l.2)

/-- Compose an origination that has left the queue (R78, stages 1 to 8). -/
def State.composeOrig (s : State) (own : Nat) (o : Orig) : State :=
  let text := s.compositionText o
  let gs := s.groupsOf o
  if text.1 = [] ∨ gs = 0 then s
  else
    let seq := s.nextSeq own
    let c := s.claimFrame o seq gs text.1 text.2.1 text.2.2
    let s := s.setCmp { s.cmp with seq := (seq + 1) % 256 }
    let s := s.setClt (s.clt ++ [s.originEntry own o c])
    let s := s.enqueue (.claim c) 0
    s.writeBack o.source ⟨own, seq⟩

/-- Whether the head of the origination queue can be composed (R77). -/
def State.composable (s : State) : Bool :=
  !s.cmp.queue.isEmpty && s.clt.length < Config.maxClaims && s.lc.tx.length < Config.maxTx

end Sys2Proof.Machine
end

