-- ==== Sys2Proof/Machine/StartUp.lean ====
section
/-!
DEFINITION. The start-up loader: reset, leaving reset, the header, the configuration area and its fields with their clamps, and the end of
loading (R40, R41, R109, R133, R140, R144, R177 to R182); with them the evacuation repeat's firing, which entry to RUNNING may bring (R38).
-/

namespace Sys2Proof.Machine

open Sys2Proof

/-! ### The evacuation repeat (R38) -/

/-- The origination of the evacuation repeat (R38). -/
def State.evacOrig (s : State) : Orig :=
  { source := .evac, cls := 0, sync := .loose, template := s.cfg.evacTemplate, target := .set s.cfg.evacTarget, call := none,
    queuedAt := s.now, own := true }

/-- The evacuation repeat fires, and its timer is set to the full period (R38). -/
def State.fireEvac (s : State) : State :=
  let busy := s.evacBusy
  let s := s.setEvac { s.evac with timer := some (1000 * s.cfg.evacPeriod) }
  if busy then s else s.pushOrig s.evacOrig

/-! ### Parts of the configuration area (R180, R181) -/

/-- A list cut into `n` parts of `w` bytes each. -/
def parts (w : Nat) : Nat → List Byte → List (List Byte)
  | 0, _ => []
  | n + 1, b => b.take w :: parts w n (b.drop w)

/-- A value clamped to a range (R181). -/
def clamp (lo hi v : Nat) : Nat := max lo (min hi v)

/-- A station platform number as it is loaded: 0 is none, above 99 is 99 (R181). -/
def loadPlatform (v : Nat) : Nat := min 99 v

/-- The level unit's parameters of a zone from its 11 bytes (R144, R180). -/
def loadLuZone (b : List Byte) : LuZone :=
  { LuZone.init with
    q := min 60 (field8 b 2), slope := min 8 (field8 b 3), cmax := min 40 (field8 b 4), dnight := min 40 (field8 b 5),
    dspill := min 20 (field8 b 6), initK := min 31 (field8 b 7), k := min 31 (field8 b 7) }

/-- The neighbour set of a zone as it is loaded: the zone itself and its partner in a present pair are dropped (R124, R181). -/
def loadNeighbours (v : Nat) (z : ZoneId) (paired : Bool) : Quad Bool :=
  Quad.tabulate (fun y => bitSet v y.toNat && y != z && !(paired && y == z.partner))

/-- Whether the pair setting of a node section pairs a zone (R180). -/
def loadPaired (v : Nat) (z : ZoneId) : Bool := bitSet v (z.lead.toNat / 2)

/-- A zone record at the end of loading, whose row, levels, neighbours and pair come from its 11 bytes (R109, R124). -/
def loadZone (b : List Byte) (z : ZoneId) (paired amp ampPartner : Bool) : Zone :=
  { arb := Arb.bare (if amp then .fault else .idle), row := accRowOf (field b 8 2), base := min 120 (field8 b 0),
    floor := min 120 (field8 b 1), service := true, ampFault := amp, staged := none,
    pair := if paired then some (if amp || ampPartner then .broken else .whole) else none,
    neighbours := loadNeighbours (field8 b 10) z paired, reformDue := false }

/-- The 11 bytes of a zone in a node section. -/
def zoneBytes (sec : List Byte) (z : ZoneId) : List Byte := (sec.drop (2 + 11 * z.toNat)).take 11

/-- A slot record (R79, R180). An unknown kind is a PHRASE of code 0. -/
def loadSlot (b : List Byte) : Slot :=
  let v := field b 1 2
  match field8 b 0 with
  | 0 => .phrase (min 2047 v)
  | 1 => .dest
  | 2 => .origin
  | 3 => .platform
  | 4 => .timeArr
  | 5 => .timeDep
  | 6 => .delay
  | 7 => .coaches
  | 8 => .calling
  | 9 => .ifLate (min 15 v)
  | 10 => .ifChanged (min 15 v)
  | _ => .phrase 0

/-- A template from its 49 bytes (R79, R180). -/
def loadTemplate (b : List Byte) : List Slot := (parts 3 (min 16 (field8 b 0)) (b.drop 1)).map loadSlot

/-- The number-phrase bases from their 14 bytes (R79, R180). -/
def loadBases (b : List Byte) : Bases :=
  let g := fun i => min 2047 (field b (2 * i) 2)
  { hour := g 0, minute := g 1, oclock := g 2, delay := g 3, platform := g 4, coaches := g 5, andOthers := g 6 }

/-- A directory record (R136, R180, R181). -/
def loadDirEntry (b : List Byte) : Option DirEntry :=
  let len := field b 4 3
  if len = 0 then none else some { addr := field b 0 4, len := min 160000 len }

/-- A group of the group map from its 24 bytes (R180). -/
def loadGroup (b : List Byte) : BitVec 192 := BitVec.ofNat 192 (beNat b)

/-- A target set from its 4 bytes (R180). -/
def loadTargetSet (b : List Byte) : GroupSet := BitVec.ofNat 32 (beNat b)

/-- The configuration no other block holds, from the image and the section selected (R180, R181). The evac period is what the store gives, clamped; the
default of 30 that R38 names is never used (the model's choice, log 57). -/
def loadCfg (image sec : List Byte) : Cfg :=
  { debounceMs := 1000 * min 10 (field8 sec 47), jointOffset10 := field8 sec 63, looseOffset10 := field8 sec 64,
    looseWindow := min 600 (field sec 65 2),
    approach := ⟨(min 31 (field8 sec 67), min 31 (field8 sec 68)), (min 31 (field8 sec 69), min 31 (field8 sec 70))⟩,
    evacTemplate := min 31 (field8 sec 71), evacTarget := min 31 (field8 sec 72), evacPeriod := clamp 10 120 (field8 sec 73),
    groupMap := (parts 24 32 (image.drop 3552)).map loadGroup,
    targetSets := (parts 4 32 (image.drop 4320)).map loadTargetSet,
    directory := (parts 7 2047 (image.drop 6030)).map loadDirEntry,
    platformMap := (parts 74 48 image).map (fun b => (loadPlatform (field8 b 0), loadPlatform (field8 b 1))) }

/-- The level unit from the section selected (R144, R180). -/
def loadLu (sec : List Byte) : Lu :=
  { zones := Quad.tabulate (fun z => loadLuZone (zoneBytes sec z)),
    pclass := (List.range 8).map (fun c => min 20 (field8 sec (48 + c))), eFloor := min 120 (field8 sec 56),
    nightStart := min 86399 (field sec 57 3), nightEnd := min 86399 (field sec 60 3) }

/-- The composer from the image: templates and bases (R79, R180). -/
def loadCmp (image : List Byte) : Cmp :=
  { Cmp.init with templates := (parts 49 32 (image.drop 4448)).map loadTemplate, bases := loadBases (image.drop 6016) }

/-- The zones from the section selected (R109, R124). -/
def State.loadZones (s : State) (sec : List Byte) : Quad Zone :=
  Quad.tabulate (fun z =>
    loadZone (zoneBytes sec z) z (loadPaired (field8 sec 46) z) (s.za.get z).ampFault (s.za.get z.partner).ampFault)

/-! ### The end of loading (R38, R40, R41, R109, R182, R184) -/

/-- Take the values of a good image (R181). -/
def State.loadImage (s : State) (image : List Byte) : State :=
  let sec := (image.drop (74 * (s.sectionNo - 1))).take 74
  let s := (s.setCfg (loadCfg image sec)).setLu (loadLu sec)
  let s := (s.setCmp (loadCmp image)).setZa (s.loadZones sec)
  s.setPm
    ⟨{ s.pm.d0 with stationNo := loadPlatform (field8 sec 0) }, { s.pm.d1 with stationNo := loadPlatform (field8 sec 1) }⟩

/-- Take the fixed values of STORE_FAULT: debounce 2 s, no pairs, parameters 0; what the store would give stays as reset left it (R184;
log 13). -/
def State.faultValues (s : State) : State :=
  let s := s.setCfg { Cfg.init with debounceMs := Config.faultDebounceMs }
  s.setZa (s.za.map (fun r => { Zone.init r.ampFault with arb := Arb.bare (if r.ampFault then .fault else .idle), service := true }))

/-- The platform monitor starts: each platform whose OCC is high begins its debounce wait (R41). -/
def State.startPm (s : State) : State := (s.occMoved .p0).occMoved .p1

/-- Entry to RUNNING: the accepted EVAC level takes the input's level, and EVAC already high fires the repeat (R38, R182). -/
def State.enterRunning (s : State) : State :=
  let s := s.setEvac { s.evac with level := s.pins.evac }
  if s.pins.evac then s.fireEvac else s

/-- The mode an outcome brings (R182). -/
def State.modeFor (s : State) (o : LoadOutcome) : NodeMode :=
  match o with
  | .good => if s.nodeNo.isSome then .running else .listenOnly
  | _ => .storeFault

/-- Loading ends with an outcome: one event, at which the node enters its mode and every block takes its values (R182). The loader's
working copy of the area is let go; its fields are kept in the blocks. -/
def State.endLoading (s : State) (o : LoadOutcome) : State :=
  let image := s.sul.image
  let m := s.modeFor o
  let s := s.setSul { s.sul with mode := m, phase := .over, outcome := some o, image := [] }
  let s := (if o = .good then s.loadImage image else s.faultValues).startPm
  if m = .running then s.enterRunning else s

/-! ### The commands -/

/-- Whether the loader is in a phase of loading (R181). -/
def State.loadsNow (s : State) (p : LoadPhase) : Bool := !s.sul.resetHeld && s.sul.mode == .loading && s.sul.phase == p

/-- RESET (R178). Every block takes its reset values; the levels of the input pins stand as they are, and the commands waiting wait on
(log 6). -/
def execReset (s : State) : Host.Outcome State Fault Refusal :=
  .next
    { State.reset with
      pm := s.pm.map (fun p => Plat.init p.occ p.doors p.approach), za := s.za.map (fun r => Zone.init r.ampFault), pins := s.pins,
      pending := s.pending }

/-- LEAVE_RESET (R178, R179, R181): the straps are read and loading begins at the header. -/
def execLeaveReset (strap : BitVec 6) (s : State) : Host.Outcome State Fault Refusal :=
  .next (if s.sul.resetHeld then s.setSul { Sul.init with resetHeld := false, strap := strap } else s)

/-- The big-endian number in `w` header bytes from byte `i` on; a byte the store does not give reads as all ones (R182; log 26). R177
states no byte order for the header: most significant first is the model's choice (log 49). -/
def headerField (b : List Byte) (i w : Nat) : Nat := beNat ((List.range w).map (fun k => b.getD (i + k) 255))

/-- HEADER_READ_DONE (R177, R182): the format test, the length test, and the area's reading begins. -/
def execHeaderReadDone (bytes : List Byte) (s : State) : Host.Outcome State Fault Refusal :=
  .next
    (if s.loadsNow .header then
      if headerField bytes 0 2 ≠ 2 then s.endLoading .format
      else if headerField bytes 4 4 ≠ Config.configBytes then s.endLoading .length
      else s.setSul { s.sul with phase := .config, headerSum := headerField bytes 2 2, sum := 0, image := [] }
    else s)

/-- The sum of bytes added to a running sum modulo 65,536 (R181). -/
def addBytes (sum : Nat) (bytes : List Byte) : Nat := (sum + (bytes.map BitVec.toNat).sum) % 65536

/-- CONFIG_READ_DONE (R181, R182): the bytes join the area read and its sum; the last of the 20,359 decides the sum test. Bytes beyond the
area are not read (log 26). -/
def execConfigReadDone (bytes : List Byte) (s : State) : Host.Outcome State Fault Refusal :=
  .next
    (if s.loadsNow .config then
      let got := bytes.take (Config.configBytes - s.sul.image.length)
      let s := s.setSul { s.sul with sum := addBytes s.sul.sum got, image := s.sul.image ++ got }
      if s.sul.image.length < Config.configBytes then s
      else if s.sul.sum = s.sul.headerSum then s.endLoading .good
      else s.endLoading .sum
    else s)

end Sys2Proof.Machine
end

