-- ==== Sys2Proof/Machine/Clock.lean ====
section
/-!
DEFINITION. What time does: second boundaries, CLOCK frames, sampling instants, samples and tracker windows (R6 to R8, R15, R22, R34, R35, R137,
R145 to R148, R157).
-/

namespace Sys2Proof.Machine

open Sys2Proof

/-! ### Seconds (R6, R22) -/

/-- The service clock at a second boundary: a SET clock advances, and holds at its highest value (R6). -/
def Sck.tick (k : Sck) : Sck :=
  { k with secMs := k.secMs - 1000, time := if k.isSet then min Config.maxServiceTime (k.time + 1) else k.time }

/-- Whether the service time advances at the next second boundary (R6). -/
def Sck.advances (k : Sck) : Bool := k.isSet && k.time < Config.maxServiceTime

/-- A second boundary is taken: the clock, the steps in key and index order, and on an advance the expiry test of every call (R6, R15, R22;
log 15). -/
def State.second (s : State) : State :=
  let adv := s.sck.advances
  let s := s.setSck s.sck.tick
  let s := s.eachStep s.stepRefs (State.tickStep adv)
  if adv then s.expiryTests else s

/-- SECOND_BOUNDARY (R6): taken once 1,000 ms have elapsed. -/
def execSecondBoundary (s : State) : Host.Outcome State Fault Refusal :=
  .next (if 1000 ≤ s.sck.secMs then s.second else s)

/-! ### CLOCK (R7, R34, R35) -/

/-- The service time that a CLOCK body sets (R7, R176; an order above 1 sets none, log 12). -/
def clockValue (b : List Byte) : Option Nat :=
  match field8 b 0 with
  | 0 => if field b 1 3 ≤ Config.maxServiceTime then some (field b 1 3) else none
  | 1 => some 0
  | _ => none

/-- Set the service clock: a jump is tested once, against the old and the new value, and the expiry test follows (R7, R15, R34, R35). -/
def State.setClock (s : State) (t : Nat) : State :=
  let old := s.sck
  let s := s.setSck { old with time := t, isSet := true, secMs := 0 }
  let s :=
    if !old.isSet || old.time < t then s.eachStep s.stepRefs State.forwardStep
    else if t < old.time then s.eachStep s.stepRefs State.backwardStep
    else s
  s.expiryTests

/-- CLOCK (R7). -/
def execClock (f : RxFrame) (s : State) : Host.Outcome State Fault Refusal :=
  let s := s.frameEnd
  .next
    (if s.hears kindClock f then
      match clockValue f.body with
      | some t => s.setClock t
      | none => s
    else s)

/-! ### Milliseconds (R8, R145, R147) -/

/-- The running time one ms on (R8). -/
def Sck.millisecond (k : Sck) : Sck := { k with running := k.running + 1, secMs := k.secMs + 1, sub := 0 }

/-- Remaining ms one ms on; at 0 they wait for their event (log 30). -/
def countMs : Option Nat → Option Nat
  | none => none
  | some n => some (n - 1)

/-- The handoff timer of a call one ms on (R69). -/
def Call.countMs (c : Call) : Call :=
  { c with handoff := c.handoff.map (fun h => { h with timer := Sys2Proof.Machine.countMs h.timer }) }

/-- Every count of running time one ms on: the clocks, the evacuation timer, the debounce waits, the handoff timers (R8). -/
def State.millisecond (s : State) : State :=
  let s := (s.setSck s.sck.millisecond).setEvac { s.evac with timer := countMs s.evac.timer }
  let s := s.setPm (s.pm.map (fun p => { p with wait := countMs p.wait }))
  s.setCt (s.ct.map Call.countMs)

/-- Whether the tracker runs: RUNNING or LISTEN_ONLY (R149, R184). -/
def State.tracks (s : State) : Bool := s.isRunning || s.sul.mode == .listenOnly

/-- SAMPLING_INSTANT (R8, R145, R147): running time advances by one ms, holding at its highest value, and each zone's comparator is
sampled. -/
def execSamplingInstant (vref : Nat) (envelope : Quad Nat) (s : State) : Host.Outcome State Fault Refusal :=
  .next
    (if s.sck.running < Config.maxRunning then
      let s := s.millisecond
      if s.tracks then Idx4.all.foldl (fun s z => s.sampleZone vref envelope z) s else s
    else s)

/-- TRACKER_WINDOW_COMPLETE (R147, R148): a window of 500 samples moves the estimate and is absent again. -/
def execTrackerWindowComplete (z : ZoneId) (s : State) : Host.Outcome State Fault Refusal :=
  .next
    (match (s.lu.zones.get z).window with
      | some w =>
        if Config.windowSamples ≤ w.taken then s.modLu z (fun u => { u with k := nextK u.k w.high, window := none }) else s
      | none => s)

/-- HANGOVER_EXPIRY (R146): the zone is quiet again, which follows from its last play end and running time; no state changes (log 34). -/
def execHangoverExpiry (_z : ZoneId) (s : State) : Host.Outcome State Fault Refusal := .next s

/-! ### Samples (R137, R139, R157) -/

/-- Whether a channel's next sample is due (R137). -/
def State.sampleReady (s : State) (ch : Chan) : Bool :=
  ch.cursor.isSome && !s.partDone ch && ch.due16 ≤ 16 * s.now + 15

/-- A channel hands over its next sample: each attached zone puts it out scaled, the position advances, and an emptied slot asks for its next
block (R137, R139, R157). -/
def State.handSample (s : State) (c : ChanId) (ch : Chan) : State :=
  let s := (s.reach16 ch.due16).setAudio (s.output ch ch.sample)
  (s.setChan c (some (ch.advance.refresh (s.readingFor c)))).grant

/-- SAMPLE_DUE (R137). -/
def execSampleDue (c : ChanId) (s : State) : Host.Outcome State Fault Refusal :=
  .next
    (match s.rch.get c with
      | some ch => if s.sampleReady ch then s.handSample c ch else s
      | none => s)

end Sys2Proof.Machine
end

