-- ==== Sys2Proof/Machine/CallFrames.lean ====
section
/-!
DEFINITION. The call table's commands: CALLSET, CALLAMEND, CALLPLAN, CALLDROP, TRIGGER, HANDOFF, ANSWER, the handoff timeout, the swap and the
removal of a call (R9 to R17, R33, R55 to R72, R175).
-/

namespace Sys2Proof.Machine

open Sys2Proof

/-! ### CALLSET (R11, R12) -/

/-- Test a CALLSET and install its call, with the code of the answer (R11, R12). -/
def State.takeCallset (s : State) (b : CallBody) : State × AnswerCode :=
  match s.localPlat b.platform with
  | none => (s, .notOwner)
  | some p =>
    match b.values? with
    | none => (s, .badValue)
    | some k =>
      if (s.findCall b.key).isSome then (s, .duplicate)
      else if Config.maxCalls ≤ s.ct.length then (s, .full)
      else (s.install (b.call k p false []), .done)

/-- Answer a call frame with the code its outcome gives (R10). -/
def State.answered (f : RxFrame) (kind key : Nat) (r : State × AnswerCode) : State := r.1.answer f kind key r.2

/-- CALLSET (R9 to R12). -/
def execCallset (f : RxFrame) (s : State) : Host.Outcome State Fault Refusal :=
  .next (s.callFrame kindCallset f (fun s =>
    State.answered f kindCallset (field f.body 0 2) (s.takeCallset (readCallset f.body))))

/-! ### CALLAMEND (R56, R58) -/

/-- Whether a part, where it is carried, passes a test. -/
def partOk {α : Type} (t : α → Bool) : Option α → Bool
  | none => true
  | some v => t v

/-- Whether an amendment carries some part. -/
def Amendment.carries (a : Amendment) : Bool :=
  a.arr.isSome || a.dep.isSome || a.platform.isSome || a.coaches.isSome || a.points.isSome || a.plan.isSome

/-- The staged amendment of a call, or one with no part. -/
def Call.stagedParts (c : Call) : Amendment := c.staged.getD Amendment.empty

/-- For a TURN call the expected departure would not fall before the expected arrival: the times as the frame carries them, then as staged, then
as live (R56). -/
def Call.turnOk (c : Call) (a : Amendment) : Bool :=
  c.kind != .turn ||
    departsAfter (pick a.arr (pick c.stagedParts.arr c.expArr)) (pick a.dep (pick c.stagedParts.dep c.expDep))

/-- The value tests of R56. -/
def AmendBody.valuesOk (b : AmendBody) (c : Call) : Bool :=
  b.parts.carries && timeOk b.parts.arr && timeOk b.parts.dep && partOk (fun n => 1 ≤ n && n ≤ 16) b.parts.coaches &&
    partOk (fun l => l.length ≤ 20 && l.all codeOk) b.parts.points && partOk (fun n => 1 ≤ n && n ≤ 99) b.parts.platform &&
    b.countFits && c.turnOk b.parts

/-- Whether a carried platform is served by no node (R56, test 4). -/
def State.unserved (s : State) (a : Amendment) : Bool :=
  match a.platform with
  | some n => (s.server n).isNone
  | none => false

/-- The answer of the key and state tests that a frame for a call must pass before it is staged (R56, R57). -/
def stateRefusal (c : Call) : Option AnswerCode :=
  match c.state with
  | .handingOff => some .busy
  | .finished _ => some .badValue
  | .dropping => some .badValue
  | _ => none

/-- Test a CALLAMEND and stage it (R56). -/
def State.takeAmend (s : State) (b : AmendBody) : State × AnswerCode :=
  match s.findCall b.key with
  | none => (s, .unknownKey)
  | some c =>
    match stateRefusal c with
    | some code => (s, code)
    | none =>
      if !b.valuesOk c then (s, .badValue)
      else if s.unserved b.parts then (s, .notOwner)
      else (s.stage b.key b.parts, .staged)

/-- CALLAMEND (R9, R10, R56). -/
def execCallamend (f : RxFrame) (s : State) : Host.Outcome State Fault Refusal :=
  .next (s.callFrame kindCallamend f (fun s =>
    State.answered f kindCallamend (field f.body 0 2) (s.takeAmend (readCallamend f.body))))

/-! ### CALLPLAN (R57, R58) -/

/-- Whether numbers are distinct. -/
def distinct : List Nat → Bool
  | [] => true
  | a :: rest => !rest.contains a && distinct rest

/-- The revisions that step records hold: each within its values, on an index of the plan revised, of the same mode (R57). -/
def revisionOf (plan : List StepSpec) (r : StepRec) : Option (Nat × StepSpec) := do
  let p ← r.spec?
  let old ← plan[r.index]?
  if p.mode = old.mode then some (r.index, p) else none

/-- The plan part a CALLPLAN carries, when its values pass; a form above 1 passes none (R57; log 12). -/
def PlanBody.part? (b : PlanBody) (plan : List StepSpec) : Option PlanPart :=
  if !b.lengthFits then none
  else
    match b.form with
    | 0 => if b.recs.length ≤ 6 then (b.recs.mapM StepRec.spec?).map .replace else none
    | 1 =>
      if 1 ≤ b.recs.length && distinct (b.recs.map (·.index)) then (b.recs.mapM (revisionOf plan)).map .revise else none
    | _ => none

/-- Test a CALLPLAN and stage it (R57). -/
def State.takePlan (s : State) (b : PlanBody) : State × AnswerCode :=
  match s.findCall b.key with
  | none => (s, .unknownKey)
  | some c =>
    match stateRefusal c with
    | some code => (s, code)
    | none =>
      match b.part? c.revisedPlan with
      | none => (s, .badValue)
      | some p => (s.stage b.key { Amendment.empty with plan := some p }, .staged)

/-- CALLPLAN (R9, R10, R57). -/
def execCallplan (f : RxFrame) (s : State) : Host.Outcome State Fault Refusal :=
  .next (s.callFrame kindCallplan f (fun s =>
    State.answered f kindCallplan (field f.body 0 2) (s.takePlan (readCallplan f.body))))

/-! ### CALLDROP (R13, R14) -/

/-- Drop a call (R5, R13, R14). -/
def State.takeDrop (s : State) (key : Nat) : State × AnswerCode :=
  match s.findCall key with
  | none => (s, .unknownKey)
  | some c =>
    match c.state with
    | .dropping => (s, .done)
    | .handingOff => (s, .busy)
    | _ => ((s.leaveService key .dropping).withdrawCall key, .done)

/-- CALLDROP (R9, R10, R13). The ANSWER enters the transmit queue after the CEDEs and take-backs of the drop (the model's choice, log 42). -/
def execCalldrop (f : RxFrame) (s : State) : Host.Outcome State Fault Refusal :=
  .next (s.callFrame kindCalldrop f (fun s =>
    State.answered f kindCalldrop (field f.body 0 2) (s.takeDrop (field f.body 0 2))))

/-! ### TRIGGER (R33) -/

/-- The triggered firing of a step that is neither busy nor held back by a staged amendment (R32, R33). -/
def State.triggerFire (s : State) (key idx : Nat) (st : Step) : State × AnswerCode :=
  let code := if s.origRefused st.spec.cls then AnswerCode.full else .done
  match st.spec.mode with
  | .manual => ((s.modTimer key idx (firedTimer st.spec)).pushOrig (s.stepOrig key idx st.spec true), code)
  | _ => (s.pushOrig (s.stepOrig key idx st.spec false), code)

/-- The rows of R33 for a step of a live call. -/
def State.triggerStep (s : State) (key idx : Nat) (c : Call) (st : Step) : State × AnswerCode :=
  let manual := st.spec.mode == .manual
  if st.timer.state = .done then (s, .badValue)
  else if manual && st.timer.state == .held then (s, .staged)
  else if s.stepBusy key idx st then (if manual then s.modTimer key idx (busyTimer st.spec) else s, .busy)
  else if c.staged.isSome then
    (if manual then (s.modTimer key idx (heldTimer st.spec), .staged) else (s, .busy))
  else s.triggerFire key idx st

/-- Take a TRIGGER (R33). -/
def State.takeTrigger (s : State) (key idx : Nat) : State × AnswerCode :=
  match s.findCall key with
  | none => (s, .unknownKey)
  | some c =>
    match stateRefusal c with
    | some code => (s, code)
    | none =>
      match c.steps[idx]? with
      | none => (s, .badValue)
      | some st => s.triggerStep key idx c st

/-- TRIGGER (R9, R10, R33). -/
def execTrigger (f : RxFrame) (s : State) : Host.Outcome State Fault Refusal :=
  .next (s.callFrame kindTrigger f (fun s =>
    State.answered f kindTrigger (field f.body 0 2) (s.takeTrigger (field f.body 0 2) (field8 f.body 2))))

/-! ### HANDOFF received (R70) -/

/-- The plan a HANDOFF carries: 0..6 step records, each within its values (R20, R70; log 11). -/
def CallBody.plan? (b : CallBody) : Option (List StepSpec) := if b.steps.length ≤ 6 then b.steps.mapM StepRec.spec? else none

/-- Test a HANDOFF whose values pass and install its call (R70). -/
def State.takeHandoff (s : State) (b : CallBody) (k : CallKind) (plan : List StepSpec) : State × AnswerCode :=
  match s.localPlat b.platform with
  | none => (s, .notOwner)
  | some p =>
    if (s.findCall b.key).isSome then (s, .duplicate)
    else if Config.maxCalls ≤ s.ct.length then (s, .full)
    else (s.install (b.call k p true plan), .done)

/-- A HANDOFF in RUNNING: addressed to all nodes, or failing the value tests, it is discarded unanswered (R70). -/
def State.handoffFrame (s : State) (f : RxFrame) : State :=
  let b := readHandoff f.body
  match b.values?, b.plan? with
  | some k, some plan =>
    if s.forUsAlone f then State.answered f kindHandoff (field f.body 0 2) (s.takeHandoff b k plan) else s
  | _, _ => s

/-- HANDOFF (R9, R10, R70). -/
def execHandoff (f : RxFrame) (s : State) : Host.Outcome State Fault Refusal :=
  .next (s.callFrame kindHandoff f (fun s => s.handoffFrame f))

/-! ### ANSWER and the handoff timer (R69, R71, R175) -/

/-- The handoff of a call that waits for its answer. -/
def State.awaitingHandoff (s : State) (key : Nat) : Option HandoffCtx :=
  match s.findCall key with
  | some c =>
    match c.state, c.handoff with
    | .handingOff, some h => if h.phase = .awaiting then some h else none
    | _, _ => none
  | none => none

/-- What an ANSWER of a kind, key and code from a source does to a handoff in progress (R69, R175). -/
def State.takeAnswer (s : State) (src kind key code : Nat) : State :=
  match s.awaitingHandoff key with
  | some h =>
    if kind = kindHandoff ∧ src = h.server then (if code = answerCode .done then s.settleHandoff key else s.revertHandoff key) else s
  | none => s

/-- ANSWER (R69, R164, R175). -/
def execAnswer (f : RxFrame) (s : State) : Host.Outcome State Fault Refusal :=
  let s := s.frameEnd
  .next
    (if s.hears kindAnswer f && s.isRunning then
      s.takeAnswer f.src.toNat (field8 f.body 0) (field f.body 1 2) (field8 f.body 3)
    else s)

/-- HANDOFF_TIMEOUT (R69, R71): the timer of an AWAITING handoff has run out. -/
def execHandoffTimeout (key : Nat) (s : State) : Host.Outcome State Fault Refusal :=
  .next
    (match s.awaitingHandoff key with
      | some h => if h.timer = some 0 then s.revertHandoff key else s
      | none => s)

/-! ### SWAP (R61 to R68) -/

/-- What a swap's platform part changes (R63, stage 2). -/
inductive PlatChange where
  | stay
  | toLocal (p : PlatId)
  | handOver (server newPlatform : Nat)
deriving DecidableEq, Repr

/-- The platform change of an amendment, by the platform map (R59, R63). -/
def State.platChange (s : State) (c : Call) (a : Amendment) : PlatChange :=
  match a.platform with
  | none => .stay
  | some n =>
    match s.server n with
    | some (.here p) => if p = c.platform then .stay else .toLocal p
    | some (.node k) => .handOver k n
    | none => .stay

/-- Stage 2: the platform, or the handoff context (R67, R68). -/
def State.swapPlatform (s : State) (c : Call) : PlatChange → State
  | .stay => s
  | .toLocal p =>
    (s.modCall c.key (fun d => { d with platform := p, changed := true })).setPm (s.pm.map (Plat.release c.key))
  | .handOver k n =>
    s.modCall c.key (fun d =>
      { d with
        changed := true, handoffFailed := false,
        handoff := some { server := k, newPlatform := n, prePlatform := c.platform, preChanged := c.changed, phase := .sending, timer := none } })

/-- The HANDOFF frame of a call as it stands (R68). -/
def Call.handoffFrame (c : Call) (newPlatform : Nat) : HandoffFrame :=
  { key := c.key, kind := c.kind, platform := newPlatform, schArr := c.schArr, schDep := c.schDep, expArr := c.expArr,
    expDep := c.expDep, dest := c.dest, origin := c.origin, coaches := c.coaches, points := c.points, steps := c.steps.map (·.spec) }

/-- A platform sets its bound call aside under a handoff hold (R50). -/
def Plat.setAside (key : Nat) (p : Plat) : Plat := if p.bound = some key then { p with bound := none, hold := some key } else p

/-- Place the HANDOFF frame of a call in the transmit queue (R68). -/
def State.sendHandoff (s : State) (key server newPlatform : Nat) : State :=
  match s.findCall key with
  | some c => s.enqueue (.handoff (c.handoffFrame newPlatform)) server
  | none => s

/-- Stage 5: the call leaves WAITING or BOUND for its new platform (R50, R67, R68). -/
def State.swapState (s : State) (key : Nat) : PlatChange → State
  | .stay => s
  | .toLocal _ => s.modCall key (fun d => { d with state := .waiting, steps := d.steps.map unarmStep })
  | .handOver k n =>
    let s := s.modCall key (fun d => { d with state := .handingOff })
    let s := s.setPm (s.pm.map (Plat.setAside key))
    s.sendHandoff key k n

/-- Stage 6: the expiry test, when the call's expected times changed or it has just returned to WAITING from BOUND (R63). -/
def State.swapExpiry (s : State) (c : Call) : State :=
  match s.findCall c.key with
  | some d =>
    if d.state = .waiting ∧ (c.state = .bound ∨ d.expArr ≠ c.expArr ∨ d.expDep ≠ c.expDep) then s.expiryTest c.key else s
  | none => s

/-- The swap of a call with its staged amendment, one event (R63). -/
def State.swapCall (s : State) (c : Call) (a : Amendment) : State :=
  let ch := s.platChange c a
  let s := s.modCall c.key (fun d => d.amend a)
  let s := s.swapPlatform c ch
  let s := s.replan c.key a
  let s := s.swapState c.key ch
  s.swapExpiry c

/-- SWAP (R61, R63): taken when the call is live, its amendment present and its live-claim count 0. -/
def execSwap (key : Nat) (s : State) : Host.Outcome State Fault Refusal :=
  .next
    (match s.findCall key with
      | some c =>
        match c.staged with
        | some a => if s.swapDue c then s.swapCall c a else s
        | none => s
      | none => s)

/-! ### CALL_REMOVAL (R17) -/

/-- CALL_REMOVAL (R17): a call awaiting removal leaves the table once its claim reference count is 0. -/
def execCallRemoval (key : Nat) (s : State) : Host.Outcome State Fault Refusal :=
  .next
    (match s.findCall key with
      | some c => if c.awaitsRemoval && s.refCount key == 0 then s.setCt (s.ct.filter (fun d => d.key != key)) else s
      | none => s)

end Sys2Proof.Machine
end

