-- ==== Sys2Proof/Machine/Inputs.lean ====
section
/-!
DEFINITION. The pins' commands: OCC, its debounce wait, DOORS, APPROACH and EVAC (R38 to R44, R52). An edge that finds the input already at the
level it brings changes nothing (log 1).
-/

namespace Sys2Proof.Machine

open Sys2Proof

/-! ### OCC (R41 to R43) -/

/-- OCC_CHANGE (R41, R42): the level is recorded, and after loading the debounce wait begins or ends. -/
def execOccChange (p : PlatId) (s : State) : Host.Outcome State Fault Refusal :=
  let s := s.modPlat p (fun r => { r with occ := !r.occ })
  .next (if s.loaded then s.occMoved p else s)

/-- DEBOUNCE_WAIT_EXPIRY (R42): the wait has run out, and the level OCC holds is accepted. -/
def execDebounceWaitExpiry (p : PlatId) (s : State) : Host.Outcome State Fault Refusal :=
  .next (if s.loaded && (s.pm.get p).wait == some 0 then s.acceptOcc p else s)

/-! ### DOORS (R43, R44) -/

/-- DOORS rises on an OCCUPIED platform: DISPATCH, and the edge is reported for its bound call (R43, R44). -/
def State.doorsEdge (s : State) (p : PlatId) : State :=
  if (s.pm.get p).state = .occupied then
    let s := s.modPlat p (fun r => { r with state := .dispatch })
    match (s.pm.get p).bound with
    | some key => s.eachStep (s.stepRefsOf key) State.doorsStep
    | none => s
  else s

/-- DOORS_RISE (R43, R44). -/
def execDoorsRise (p : PlatId) (s : State) : Host.Outcome State Fault Refusal :=
  .next (if (s.pm.get p).doors then s else (s.modPlat p (fun r => { r with doors := true })).doorsEdge p)

/-- The platform state after DOORS falls (R43). -/
def PlatState.doorsClosed : PlatState → PlatState
  | .dispatch => .occupied
  | st => st

/-- DOORS_FALL (R43). -/
def execDoorsFall (p : PlatId) (s : State) : Host.Outcome State Fault Refusal :=
  .next
    (if (s.pm.get p).doors then s.modPlat p (fun r => { r with doors := false, state := r.state.doorsClosed }) else s)

/-! ### APPROACH (R43, R52) -/

/-- The origination of a platform's approach warning (R52). -/
def State.approachOrig (s : State) (p : PlatId) : Orig :=
  { source := .approach p, cls := 1, sync := .loose, template := (s.cfg.approach.get p).1, target := .set (s.cfg.approach.get p).2,
    call := none, queuedAt := s.now, own := true }

/-- The approach warning fires (R52). -/
def State.fireApproach (s : State) (p : PlatId) : State :=
  if s.approachBusy p then s.modPlat p (fun r => { r with lastOutcome := .skippedBusy })
  else (s.modPlat p (fun r => { r with lastOutcome := .originated })).pushOrig (s.approachOrig p)

/-- APPROACH_RISE (R43, R52): in RUNNING, on an EMPTY platform, the warning fires. -/
def execApproachRise (p : PlatId) (s : State) : Host.Outcome State Fault Refusal :=
  .next
    (if (s.pm.get p).approach then s
    else
      let s := s.modPlat p (fun r => { r with approach := true })
      if s.isRunning && (s.pm.get p).state == .empty then s.fireApproach p else s)

/-- APPROACH_FALL (R43). -/
def execApproachFall (p : PlatId) (s : State) : Host.Outcome State Fault Refusal :=
  .next (s.modPlat p (fun r => { r with approach := false }))

/-! ### EVAC (R38, R39) -/

/-- A rising edge of EVAC in RUNNING (R38). -/
def State.evacEdge (s : State) : State := (s.setEvac { s.evac with level := true }).fireEvac

/-- EVAC_RISE (R38). -/
def execEvacRise (s : State) : Host.Outcome State Fault Refusal :=
  .next
    (if s.pins.evac then s
    else
      let s := s.setPins { s.pins with evac := true }
      if s.isRunning then s.evacEdge else s)

/-- EVAC_TIMER_EXPIRY (R38): the repeat fires again and the timer is reloaded. -/
def execEvacTimerExpiry (s : State) : Host.Outcome State Fault Refusal :=
  .next (if s.isRunning && s.evac.level && s.evac.timer == some 0 then s.fireEvac else s)

/-- Whether an origination is the evacuation repeat's. -/
def Orig.isEvac (o : Orig) : Bool := o.source == .evac

/-- The last evacuation claim is withdrawn with cut-now, where there is one (R39). -/
def State.withdrawEvac (s : State) : State :=
  match s.evac.lastClaim with
  | some id => s.withdrawOwn true id
  | none => s

/-- EVAC falls in RUNNING: the repeat stops, its queued originations are removed, and its last claim is withdrawn (R39). -/
def State.evacStop (s : State) : State :=
  let s := (s.setEvac { s.evac with level := false, timer := none }).removeOrigs Orig.isEvac
  let s := s.withdrawEvac
  s.setEvac { s.evac with lastClaim := none }

/-- EVAC_FALL (R39). -/
def execEvacFall (s : State) : Host.Outcome State Fault Refusal :=
  .next
    (if s.pins.evac then
      let s := s.setPins { s.pins with evac := false }
      if s.isRunning then s.evacStop else s
    else s)

end Sys2Proof.Machine
end

