-- ==== Sys2Proof/Machine/Report.lean ====
section
/-!
DEFINITION. The report buffer: the snapshot of each kind of QUERY, its frames, and the commands QUERY and REPORT (R18, R54, R74, R108, R131, R143,
R173, R174, R185).
-/

namespace Sys2Proof.Machine

open Sys2Proof

/-! ### The snapshot (R173) -/

/-- The node's own line (R6, R38, R166, R173, R179, R182). -/
def State.nodeLine (s : State) (maint : Bool) : NodeLine :=
  { mode := s.sul.mode, outcome := s.sul.outcome, clockSet := s.sck.isSet, time := s.sck.time, maint := maint,
    strap := s.sul.strap.toNat, evacLevel := s.evac.level, lastEvac := s.evac.lastClaim, txTiers := s.lc.tx.map (·.tier) }

/-- A channel's line (R143). -/
def State.channelLine (s : State) (c : ChanId) : ChannelLine :=
  match s.rch.get c with
  | some ch => { bound := some (ch.claim, s.now - ch.bind16 / 16, ch.cursor, ch.pos, ch.attached), tone := ch.tone }
  | none => { bound := none, tone := false }

/-- An instant as milliseconds from the present one (R108). -/
def State.fromNow (s : State) (t : Option Nat) : Option Int := t.map (fun (n : Nat) => (n : Int) - (s.now : Int))

/-- What a report shows of an origin part: not its instant, which is shown from the QUERY's arrival, nor the model's own mark (R108). -/
def OriginPart.shown (o : OriginPart) : OriginPart := { o with windowEnd := none, cutNow := false }

/-- An entry's line (R108). -/
def State.claimLine (s : State) (e : Entry) : ClaimLine :=
  { id := e.id, cls := e.cls, sync := e.sync, groups := e.groups, call := e.call, missing := e.missing, truncated := e.truncated,
    localOnly := e.localOnly, start := s.fromNow e.start, latest := s.fromNow e.latest, plannedEnd := s.fromNow e.plannedEnd,
    disp := e.disp, zstat := e.zstat, origin := e.origin.map OriginPart.shown, windowEnd := s.fromNow (e.origin.bind (·.windowEnd)) }

/-- A zone's line (R131). -/
def State.zoneLine (s : State) (z : ZoneId) : ZoneLine :=
  let r := s.za.get z
  { state := r.arb.state, current := r.arb.current.map (·.id), next := r.arb.next.map (·.id), wait := r.arb.wait.map (·.id),
    phraseEnd := r.arb.phraseEnd, stopAt := r.arb.stopAt, wdPending := r.arb.wdPending, service := r.service, ampFault := r.ampFault,
    row := r.row, base := r.base, floor := r.floor, staged := r.staged, pair := r.pair.map (fun p => (z.partner, p)),
    k := (s.lu.zones.get z).k, level := (s.lu.zones.get z).level }

/-- A call's line (R18). -/
def State.callLine (s : State) (c : Call) : ReportItem :=
  .callLine c.key c.kind (s.pm.get c.platform).stationNo c.state c.refTime c.staged.isSome c.handoffFailed

/-- An origination's line: source, class and age (R74). -/
def State.origLine (s : State) (o : Orig) : ReportItem := .origLine o.source o.cls (s.now - o.queuedAt)

/-- The items of a snapshot, in the order the chapters give them (R173; log 33). The number of entries and the number of calls are items of their
own, after the last line (R18, R108; log 48). -/
def State.snapshot (s : State) (maint : Bool) : QueryKind → Nat → List ReportItem
  | .node, _ =>
    [.nodeLine (s.nodeLine maint), .platformLine .p0 s.pm.d0, .platformLine .p1 s.pm.d1] ++ s.cmp.queue.map s.origLine ++
      [.sequence s.cmp.seq] ++ Idx4.all.map (fun c => .channelLine c (s.channelLine c)) ++ [.portLine s.sp]
  | .zones, _ => Idx4.all.map (fun z => .zoneLine z (s.zoneLine z))
  | .claims, _ => s.clt.map (fun e => .claimLine (s.claimLine e)) ++ [.claimCount s.clt.length]
  | .calls, _ => s.ct.map s.callLine ++ [.callCount s.ct.length]
  | .call, key =>
    match s.findCall key with
    | some c => [.callRecord c (s.pm.get c.platform).stationNo (s.liveCount key)]
    | none => [.callNotHeld key]

/-! ### Filling the frames (R173) -/

/-- Bytes cut into frames of at most `cap` bytes, each filled before the next; at most `fuel` cuts. -/
def pieces (cap : Nat) : Nat → List Byte → List (List Byte)
  | 0, b => [b]
  | fuel + 1, b => if b.length ≤ cap then [b] else b.take cap :: pieces cap fuel (b.drop cap)

/-- An item joins the frame being filled if it fits there; otherwise it begins a new one and runs on as it needs (R173). -/
def placeItem (cap : Nat) (frames : List (List Byte)) (b : List Byte) : List (List Byte) :=
  match frames.getLast? with
  | some cur => if cur.length + b.length ≤ cap then frames.dropLast ++ [cur ++ b] else frames ++ pieces cap b.length b
  | none => pieces cap b.length b

/-- One item more: once an item does not end within the eighth frame, it and those after it are left out (R173). -/
def packItem (cap : Nat) (r : List (List Byte) × Nat) (b : List Byte) : List (List Byte) × Nat :=
  if r.2 = 0 ∧ (placeItem cap r.1 b).length ≤ 8 then (placeItem cap r.1 b, 0) else (r.1, r.2 + 1)

/-- The contents of a report's frames and the number of items left out (R173). -/
def packItems (cap : Nat) (items : List (List Byte)) : List (List Byte) × Nat := items.foldl (packItem cap) ([], 0)

/-- Content bytes of a report frame: 77, or 75 in a report to CALL (R173). -/
def contentCap : QueryKind → Nat
  | .call => 75
  | _ => 77

/-- A report of at least one frame. -/
def atLeastOne : List (List Byte) → List (List Byte)
  | [] => [[]]
  | l => l

/-- The bytes that stand for an item. The one item of a report on a key not held fits a single frame (R18; log 8). -/
def itemBytes : ReportItem → List Byte
  | .callNotHeld key => (Config.encodeItem (.callNotHeld key)).take (contentCap .call)
  | i => Config.encodeItem i

/-- The report buffer that a QUERY fills (R173). -/
def State.latch (s : State) (maint : Bool) (kind : QueryKind) (key source : Nat) : ReportBuf :=
  let snap := s.snapshot maint kind key
  let p := packItems (contentCap kind) (snap.map itemBytes)
  { kind := kind, key := key, source := source, snapshot := snap, contents := atLeastOne p.1, leftOut := p.2, index := 1 }

/-- A frame of a report (R174, R176). The count of items left out goes with the last frame (log 33). -/
def ReportBuf.frame (r : ReportBuf) (i : Nat) : TxBody :=
  .report (queryKindCode r.kind) i r.contents.length (if i = r.contents.length then r.leftOut else 0)
    (match r.kind with
      | .call => some r.key
      | _ => none)
    (r.contents.getD (i - 1) [])

/-- A report frame was sent: the next is queued, or the buffer empties (R174). -/
def State.reportSent (s : State) : State :=
  match s.lc.report with
  | some r =>
    if r.index < r.contents.length then
      (s.setReport (some { r with index := r.index + 1 })).enqueue (r.frame (r.index + 1)) r.source
    else s.setReport none
  | none => s

/-! ### The commands -/

/-- Whether a kind of QUERY is answered in the node's mode (R164, R173). -/
def State.queryTaken (s : State) (k : QueryKind) : Bool := s.isRunning || (s.inStoreFault && k == .node)

/-- Take a QUERY: the buffer latches the snapshot and its first frame is queued; a QUERY NODE reads MAINT (R173, R185; log 37). -/
def State.takeQuery (s : State) (maint : Bool) (k : QueryKind) (key source : Nat) : State :=
  let s := if k = .node then s.setPins { s.pins with maint := maint } else s
  let r := s.latch maint k key source
  (s.setReport (some r)).enqueue (r.frame 1) source

/-- QUERY (R164, R173): addressed to all, in another mode, or finding the buffer HOLDING, it is ignored. -/
def execQuery (f : RxFrame) (maint : Bool) (s : State) : Host.Outcome State Fault Refusal :=
  let s := s.frameEnd
  .next
    (match decodeQuery f.body with
      | some (k, key) =>
        if s.hears kindQuery f && s.forUsAlone f && s.queryTaken k && s.lc.report.isNone then s.takeQuery maint k key f.src.toNat else s
      | none => s)

/-- REPORT (R164): discarded in every mode. -/
def execReport (_f : RxFrame) (s : State) : Host.Outcome State Fault Refusal := .next s.frameEnd

end Sys2Proof.Machine
end

