-- ==== Sys2Proof/Machine/ClaimFrames.lean ====
section
/-!
DEFINITION. The claim table's and the composer's commands: CLAIM, CEDE, ZSTAT, a frame rejected, the removal of an entry, the close of a coverage
window, and composition (R77, R78, R95 to R106, R163).
-/

namespace Sys2Proof.Machine

open Sys2Proof

/-! ### CLAIM, CEDE, ZSTAT -/

/-- A CLAIM reaches the CLT: a source that is this node's own number makes it the node's own frame, a source of 1..48 a peer's; no other source can
have a claim id (R90, R95, R96; log 9, log 39). -/
def State.takeClaim (s : State) (src : Nat) (c : ClaimFrame) : State :=
  if s.nodeNo = some src then s.ownClaim c
  else if 1 ≤ src ∧ src ≤ 48 then s.peerClaim src c
  else s

/-- CLAIM (R95, R96, R164). -/
def execClaim (f : RxFrame) (s : State) : Host.Outcome State Fault Refusal :=
  let s := s.frameEnd
  .next
    (match decodeClaim f.body with
      | some c => if s.hears kindClaim f then s.takeClaim f.src.toNat c else s
      | none => s)

/-- CEDE (R99, R164). -/
def execCede (f : RxFrame) (s : State) : Host.Outcome State Fault Refusal :=
  let s := s.frameEnd
  .next
    (match decodeCede f.body with
      | some (id, cut) => if s.hears kindCede f then s.takeCede f.src.toNat id cut else s
      | none => s)

/-- A ZSTAT rewrites the sender's line of the origin entry it names, also of one played local-only (R98; the model's choice, log 46); a sender with
no line is no target node (R102). -/
def State.takeZstat (s : State) (src : Nat) (id : ClaimId) (zones : List (ZoneId × Disp)) : State :=
  s.modOrigin id (fun o => { o with lines := rewriteLines o.lines src zones })

/-- ZSTAT (R102, R164). -/
def execZstat (f : RxFrame) (s : State) : Host.Outcome State Fault Refusal :=
  let s := s.frameEnd
  .next
    (match decodeZstat f.body with
      | some (id, zones) => if s.hears kindZstat f then s.takeZstat f.src.toNat id zones else s
      | none => s)

/-! ### FRAME_REJECTED (R163) -/

/-- FRAME_REJECTED (R163): a frame that fails a test of reception is discarded without trace, and the receive buffer is empty again. Bytes that
pass every test are no such frame (log 1, log 32). -/
def execFrameRejected (bytes : List Byte) (truncated : Bool) (s : State) : Host.Outcome State Fault Refusal :=
  .next (if s.loaded && (receptionTest s.nodeNo bytes truncated).isNone then s else s.frameEnd)

/-! ### Entries leave, windows close (R103 to R106) -/

/-- ENTRY_REMOVAL (R106): an entry whose conditions all hold leaves the table. -/
def execEntryRemoval (id : ClaimId) (s : State) : Host.Outcome State Fault Refusal :=
  .next
    (match s.findEntry id with
      | some e => if e.removable then s.setClt (s.clt.filter (fun d => d.id != id)) else s
      | none => s)

/-- The groups that contain at least one retry zone of a coverage record (R105). -/
def State.retryGroups (s : State) (lines : List CoverLine) : GroupSet :=
  BitVec.ofNat 32
    (((List.range 32).map (fun g =>
      if lines.any (fun l => Idx4.all.any (fun z => l.retryZones.get z && s.inGroup g l.node z)) then 2 ^ g else 0)).sum)

/-- The retry due at the close of an entry's window, if one is due (R104, R105). -/
def State.retryDue (s : State) (e : Entry) (o : OriginPart) : Option Orig :=
  match e.call with
  | none => none
  | some (key, idx) =>
    match s.findStep key idx with
    | none => none
    | some st =>
      if st.spec.retry && !o.retryUsed && !o.isRetry && !o.noRetry && s.retryGroups o.lines != 0 then
        some { source := .retry e.id, cls := e.cls, sync := e.sync, template := st.spec.template, target := .groups (s.retryGroups o.lines),
               call := e.call, queuedAt := s.now, own := false }
      else none

/-- Close a coverage window and hand over the retry that is due (R103, R104). -/
def State.closeWindow (s : State) (e : Entry) (o : OriginPart) : State :=
  match s.retryDue e o with
  | some r => (s.modOrigin e.id (fun p => { p with windowOpen := false, retryUsed := true })).pushOrig r
  | none => s.modOrigin e.id (fun p => { p with windowOpen := false })

/-- Whether an open window's end is reached (R103). -/
def OriginPart.closes (o : OriginPart) (now : Nat) : Bool :=
  o.windowOpen &&
    (match o.windowEnd with
      | some t => t ≤ now
      | none => false)

/-- COVERAGE_WINDOW_CLOSE (R103, R104). -/
def execCoverageWindowClose (id : ClaimId) (s : State) : Host.Outcome State Fault Refusal :=
  .next
    (match s.findEntry id with
      | some e =>
        match e.origin with
        | some o => if o.closes s.now then s.closeWindow e o else s
        | none => s
      | none => s)

/-! ### COMPOSE (R77, R78) -/

/-- COMPOSE (R77, R78): in RUNNING, with room in both tables, the head origination leaves the queue and is composed. -/
def execCompose (s : State) : Host.Outcome State Fault Refusal :=
  .next
    (match s.cmp.queue, s.nodeNo with
      | o :: rest, some own => if s.isRunning && s.composable then (s.setQueue rest).composeOrig own o else s
      | _, _ => s)

end Sys2Proof.Machine
end

