-- ==== Sys2Proof/Machine/ZoneCommands.lean ====
section
/-!
DEFINITION. The zones', channels' and store port's commands: amplifier faults, instants reached, waiters, staged attributes, pairs, ZATTR, phrase
boundaries and store reads (R118 to R142).
-/

namespace Sys2Proof.Machine

open Sys2Proof

/-! ### Amplifier faults (R125 to R127) -/

/-- AMP_FAULT_RISE (R127): the level is recorded, and a zone in service is cleared into FAULT. -/
def execAmpFaultRise (z : ZoneId) (s : State) : Host.Outcome State Fault Refusal :=
  .next
    (if (s.za.get z).ampFault then s
    else
      let s := s.modZone z (fun r => { r with ampFault := true })
      if s.loaded && ((s.za.get z).arb.state.serves || (s.za.get z).arb.state == .rejoining) then (s.clearZone z .fault).settle else s)

/-- AMP_FAULT_FALL (R126, R127): the level is recorded, and a zone in FAULT returns to service. -/
def execAmpFaultFall (z : ZoneId) (s : State) : Host.Outcome State Fault Refusal :=
  .next
    (if (s.za.get z).ampFault then
      let s := s.modZone z (fun r => { r with ampFault := false })
      if s.loaded && (s.za.get z).arb.state == .fault then s.returnZone z else s
    else s)

/-! ### Instants reached (R118, R119, R121, R123) -/

/-- START_INSTANT (R118): a LEAD_IN zone whose current claim's start instant is reached enters PLAYING. -/
def execStartInstant (z : ZoneId) (s : State) : Host.Outcome State Fault Refusal :=
  let a := (s.za.get z).arb
  .next
    (match a.state, a.current with
      | .leadIn, some h => if h.reached s.now then s.enter (s.unit z) ({ a with state := .playing }, []) else s
      | _, _ => s)

/-- STOP_INSTANT (R115, R121): a CUTTING zone's stop instant is reached. -/
def execStopInstant (z : ZoneId) (s : State) : Host.Outcome State Fault Refusal :=
  .next (if (s.za.get z).arb.stopDue s.now then (s.stopUnit z .instant).settle else s)

/-- Whether a wait list holds a claim that passes a test. -/
def waits (w : List Held) (id : ClaimId) (t : Held → Bool) : Bool := w.any (fun h => h.id == id && t h)

/-- JOINT_WAITER_START (R119): a JOINT waiter at its start instant is MISSED. -/
def execJointWaiterStart (z : ZoneId) (id : ClaimId) (s : State) : Host.Outcome State Fault Refusal :=
  .next
    (if waits (s.za.get z).arb.wait id (fun h => h.sync == .joint && h.reached s.now) then (s.missWaiter z id).settle else s)

/-- LOOSE_WAITER_EXPIRY (R119): a LOOSE waiter whose latest start has passed is MISSED. -/
def execLooseWaiterExpiry (z : ZoneId) (id : ClaimId) (s : State) : Host.Outcome State Fault Refusal :=
  .next
    (if waits (s.za.get z).arb.wait id (fun h => h.sync == .loose && h.tooLate s.now) then (s.missWaiter z id).settle else s)

/-- NEXT_CLAIM_EXPIRY (R123): a CUTTING zone's LOOSE next claim whose latest start has passed is MISSED, and the zone looks at its wait
list. -/
def execNextClaimExpiry (z : ZoneId) (s : State) : Host.Outcome State Fault Refusal :=
  let a := (s.za.get z).arb
  .next
    (match a.state, a.next with
      | .cutting, some h =>
        if h.sync == .loose && h.tooLate s.now then ((s.writeDisps h.id (s.unit z) .missed).nextLeft z a).settle else s
      | _, _ => s)

/-! ### Staged attributes, pairs, ZATTR (R126, R128 to R130) -/

/-- STAGED_ATTR_APPLY (R130). -/
def execStagedAttrApply (z : ZoneId) (s : State) : Host.Outcome State Fault Refusal := .next (s.applyStaged z)

/-- PAIR_REFORM (R126). -/
def execPairReform (z : ZoneId) (s : State) : Host.Outcome State Fault Refusal := .next (if s.reforms z then s.reform z else s)

/-- The service flag acts (R128). -/
def State.setService (s : State) (z : ZoneId) (on : Bool) : State :=
  if on = (s.za.get z).service then s
  else
    let s := s.modZone z (fun r => { r with service := on })
    if on then
      let s := s.modLu z (fun u => { u with k := u.initK })
      if (s.za.get z).ampFault then s.putZoneArb (Arb.bare .fault) z else s.returnZone z
    else (s.clearZone z .outOfService).settle

/-- An accepted ZATTR: the service flag acts, then the attributes are staged, and applied at once in an IDLE zone (R129, R130). -/
def State.acceptZattr (s : State) (z : ZoneId) (a : StagedAttr) (on : Bool) : State :=
  ((s.setService z on).modZone z (fun r => { r with staged := some a })).applyStaged z

/-- Test a ZATTR in RUNNING (R129, R185; log 37). -/
def State.takeZattr (s : State) (f : RxFrame) (maint : Bool) : State × AnswerCode :=
  let s := s.setPins { s.pins with maint := maint }
  if !maint then (s, .locked)
  else
    match readZattr f.body with
    | none => (s, .badValue)
    | some (z, a, on) => (s.acceptZattr z a on, .done)

/-- ZATTR (R129, R164): one addressed to all nodes is discarded unanswered, and so is one in LISTEN_ONLY. -/
def execZattr (f : RxFrame) (maint : Bool) (s : State) : Host.Outcome State Fault Refusal :=
  let s := s.frameEnd
  .next
    (if s.hears kindZattr f && s.forUsAlone f then
      match s.sul.mode with
      | .running => State.answered f kindZattr (field8 f.body 0) (s.takeZattr f maint)
      | .storeFault => s.answer f kindZattr (field8 f.body 0) .storeFault
      | _ => s
    else s)

/-! ### Phrase boundaries (R120, R138, R142) -/

/-- What a unit does at a boundary: it stops, or plays on with its level computed anew (R120). -/
def State.boundaryUnit (last : Bool) (s : State) (z : ZoneId) : State :=
  if last || (s.za.get z).arb.phraseEnd then s.stopUnit z .boundary else s.applyLevels (s.unit z)

/-- The units attached to a channel, each by the zone that stands for it. -/
def State.attachedUnits (s : State) (ch : Chan) : List ZoneId := s.leads.filter (fun z => (s.unit z).any (fun y => ch.attached.get y))

/-- A boundary of a channel: unless the claim is done, the cursor moves on; the attached zones take the report (R136, R138). -/
def State.boundary (s : State) (c : ChanId) (ch : Chan) : State :=
  let last := s.atLast ch
  let s := s.reach16 ch.due16
  let s := if last then s else s.setChan c (some { ch with cursor := ch.cursor.bind (s.cursorAfter ch), pos := 0 })
  ((s.attachedUnits ch).foldl (State.boundaryUnit last) s).settle

/-- PHRASE_BOUNDARY (R138, R142). -/
def execPhraseBoundary (c : ChanId) (s : State) : Host.Outcome State Fault Refusal :=
  .next
    (match s.rch.get c with
      | some ch => if s.partDone ch && ch.due16 ≤ 16 * s.now + 15 then s.boundary c ch else s
      | none => s)

/-! ### Store reads (R139, R140) -/

/-- A completed read's block goes to its channel, unless the channel was freed since (R139). -/
def State.deliver (s : State) (r : ReadOp) (bytes : List Byte) : State :=
  if r.stale then s
  else
    match s.rch.get r.chan with
    | some ch => s.setChan r.chan (some (s.takeBlock ch r.idx r.pos (samplesOf r.count bytes)))
    | none => s

/-- STORE_READ_COMPLETE (R139, R140): the port is IDLE again, and grants the next request. -/
def execStoreReadComplete (bytes : List Byte) (s : State) : Host.Outcome State Fault Refusal :=
  .next
    (match s.sp.reading with
      | some r => ((s.setSp { s.sp with reading := none }).deliver r bytes).grant
      | none => s)

end Sys2Proof.Machine
end

