-- ==== Sys2Proof/Machine/LinkCommands.lean ====
section
/-!
DEFINITION. The link controller's own commands: an attempt begins, a delimiter is heard, a frame is sent, an attempt ends in a collision (R165 to
R171).
-/

namespace Sys2Proof.Machine

open Sys2Proof

/-! ### Beginning (R169) -/

/-- The head of a queue with an attempt under way for it. -/
def startHead : List TxFrame → List TxFrame
  | [] => []
  | f :: rest => { f with underWay := true } :: rest

/-- Whether the link has been idle for the head's gap (R169). -/
def State.gapElapsed (s : State) (idle : Nat) : Bool :=
  match s.nodeNo, s.lc.tx.head? with
  | some own, some f => s.sends && f.gap own ≤ idle
  | _, _ => false

/-- ATTEMPT_START (R169): with the link idle for the head's gap and no attempt under way, the attempt begins. -/
def execAttemptStart (idle : Nat) (s : State) : Host.Outcome State Fault Refusal :=
  .next (if s.gapElapsed idle && !s.lc.rx && !s.lc.sending then s.setTx (startHead s.lc.tx) else s)

/-- DELIMITER_HEARD (R163, R169): before the head's gap has elapsed, the receive buffer begins to take the frame. Once it has elapsed the two
stations start together and are compared (R172). -/
def execDelimiterHeard (idle : Nat) (s : State) : Host.Outcome State Fault Refusal :=
  .next (if s.loaded && !s.lc.sending && !s.gapElapsed idle then s.setLc { s.lc with rx := true } else s)

/-! ### Ending (R165, R168, R170, R171) -/

/-- The frame an attempt is under way for. -/
def Lc.underWay (l : Lc) : Option TxFrame := l.tx.find? (fun f => f.underWay)

/-- The frame under way leaves the queue. -/
def State.dropUnderWay (s : State) : State := s.setTx (s.lc.tx.filter (fun f => !f.underWay))

/-- An own HANDOFF was sent: the phase is AWAITING and the timer is set (R69). -/
def State.handoffSent (s : State) (key : Nat) : State :=
  s.modCall key (fun c =>
    { c with
      handoff := c.handoff.map (fun h =>
        if h.phase = .sending then { h with phase := .awaiting, timer := some Config.handoffMs } else h) })

/-- What the sending of a frame does at its owner, and through the node's own receive path (R165, R168). A ZSTAT is matched to its entry by the claim
id and the state QUEUED (R101; the model's choice, log 47). -/
def State.frameReturned (s : State) (f : TxFrame) : State :=
  match f.body with
  | .claim c => s.ownClaim c
  | .cede id cut => s.ownCede id cut
  | .zstat id _ => s.modEntry id (fun e => if e.zstat = .queued then { e with zstat := .sent } else e)
  | .answer _ _ _ => s
  | .handoff h => s.handoffSent h.key
  | .report _ _ _ _ _ _ => s.reportSent

/-- FRAME_SENT (R165, R168): the attempt under way reaches its frame end. -/
def execFrameSent (s : State) : Host.Outcome State Fault Refusal :=
  .next
    (match s.lc.underWay with
      | some f => s.dropUnderWay.frameReturned f
      | none => s)

/-- The request held for a frame whose attempt ended in a collision is carried out (R14, R171). -/
def State.heldTakeBack (s : State) (own : Nat) (f : TxFrame) : State :=
  match f.body with
  | .claim c => s.takeBack ⟨own, c.seq⟩
  | _ => s

/-- A failed attempt that leaves its frame in the queue (R170). -/
def TxFrame.collided (f : TxFrame) : TxFrame := if f.underWay then { f with underWay := false, fails := f.fails + 1 } else f

/-- The frame under way loses the link: it is taken back if its owner asked so, it fails at the eighth attempt, and otherwise it waits
(R170, R171). -/
def State.collide (s : State) (own : Nat) (f : TxFrame) : State :=
  if f.takeBack then s.dropUnderWay.heldTakeBack own f
  else if Config.maxAttempts ≤ f.fails + 1 then s.dropUnderWay.failFrame f
  else s.setTx (s.lc.tx.map TxFrame.collided)

/-- COLLISION (R170): at a bit the node releases and hears driven, the attempt fails, and the winner's frame is received whole. -/
def execCollision (bit : Nat) (s : State) : Host.Outcome State Fault Refusal :=
  .next
    (match s.lc.underWay, s.nodeNo with
      | some f, some own =>
        if frameBit own f bit = some true then (s.setLc { s.lc with rx := true }).collide own f else s
      | _, _ => s)

end Sys2Proof.Machine
end

