-- ==== Sys2Proof/Machine/Dispatch.lean ====
section
/-!
DEFINITION. One arm for each command.
-/

namespace Sys2Proof.Machine

open Sys2Proof

/-- The effect of a command on everything but the queue of commands. -/
def exec (i : Instr) (s : State) : Host.Outcome State Fault Refusal :=
  match i with
  | .reset => Sys2Proof.Machine.execReset s
  | .leaveReset strap => Sys2Proof.Machine.execLeaveReset strap s
  | .headerReadDone bytes => Sys2Proof.Machine.execHeaderReadDone bytes s
  | .configReadDone bytes => Sys2Proof.Machine.execConfigReadDone bytes s
  | .secondBoundary => Sys2Proof.Machine.execSecondBoundary s
  | .clock f => Sys2Proof.Machine.execClock f s
  | .callset f => Sys2Proof.Machine.execCallset f s
  | .callamend f => Sys2Proof.Machine.execCallamend f s
  | .callplan f => Sys2Proof.Machine.execCallplan f s
  | .calldrop f => Sys2Proof.Machine.execCalldrop f s
  | .trigger f => Sys2Proof.Machine.execTrigger f s
  | .handoff f => Sys2Proof.Machine.execHandoff f s
  | .answer f => Sys2Proof.Machine.execAnswer f s
  | .handoffTimeout key => Sys2Proof.Machine.execHandoffTimeout key s
  | .query f maint => Sys2Proof.Machine.execQuery f maint s
  | .report f => Sys2Proof.Machine.execReport f s
  | .zattr f maint => Sys2Proof.Machine.execZattr f maint s
  | .claim f => Sys2Proof.Machine.execClaim f s
  | .cede f => Sys2Proof.Machine.execCede f s
  | .zstat f => Sys2Proof.Machine.execZstat f s
  | .frameRejected bytes truncated => Sys2Proof.Machine.execFrameRejected bytes truncated s
  | .occChange p => Sys2Proof.Machine.execOccChange p s
  | .debounceWaitExpiry p => Sys2Proof.Machine.execDebounceWaitExpiry p s
  | .doorsRise p => Sys2Proof.Machine.execDoorsRise p s
  | .doorsFall p => Sys2Proof.Machine.execDoorsFall p s
  | .approachRise p => Sys2Proof.Machine.execApproachRise p s
  | .approachFall p => Sys2Proof.Machine.execApproachFall p s
  | .evacRise => Sys2Proof.Machine.execEvacRise s
  | .evacTimerExpiry => Sys2Proof.Machine.execEvacTimerExpiry s
  | .evacFall => Sys2Proof.Machine.execEvacFall s
  | .ampFaultRise z => Sys2Proof.Machine.execAmpFaultRise z s
  | .ampFaultFall z => Sys2Proof.Machine.execAmpFaultFall z s
  | .compose => Sys2Proof.Machine.execCompose s
  | .swap key => Sys2Proof.Machine.execSwap key s
  | .callRemoval key => Sys2Proof.Machine.execCallRemoval key s
  | .entryRemoval id => Sys2Proof.Machine.execEntryRemoval id s
  | .coverageWindowClose id => Sys2Proof.Machine.execCoverageWindowClose id s
  | .startInstant z => Sys2Proof.Machine.execStartInstant z s
  | .stopInstant z => Sys2Proof.Machine.execStopInstant z s
  | .jointWaiterStart z id => Sys2Proof.Machine.execJointWaiterStart z id s
  | .looseWaiterExpiry z id => Sys2Proof.Machine.execLooseWaiterExpiry z id s
  | .nextClaimExpiry z => Sys2Proof.Machine.execNextClaimExpiry z s
  | .phraseBoundary c => Sys2Proof.Machine.execPhraseBoundary c s
  | .storeReadComplete bytes => Sys2Proof.Machine.execStoreReadComplete bytes s
  | .hangoverExpiry z => Sys2Proof.Machine.execHangoverExpiry z s
  | .trackerWindowComplete z => Sys2Proof.Machine.execTrackerWindowComplete z s
  | .stagedAttrApply z => Sys2Proof.Machine.execStagedAttrApply z s
  | .pairReform z => Sys2Proof.Machine.execPairReform z s
  | .attemptStart idle => Sys2Proof.Machine.execAttemptStart idle s
  | .delimiterHeard idle => Sys2Proof.Machine.execDelimiterHeard idle s
  | .frameSent => Sys2Proof.Machine.execFrameSent s
  | .collision bit => Sys2Proof.Machine.execCollision bit s
  | .samplingInstant vref envelope => Sys2Proof.Machine.execSamplingInstant vref envelope s
  | .sampleDue c => Sys2Proof.Machine.execSampleDue c s

end Sys2Proof.Machine
end

