-- ==== Sys2Proof/Safety.lean ====
section
/-!
DEFINITION. What the spec promises of every state the node can be in, each promise a property of the state; and what it is for a command to take
one state to another.
-/

namespace Sys2Proof.Machine

open Sys2Proof

/-! ### Commands -/

/-- The command `c` completes on `s`, and the state it leaves has the property `P`. -/
def Takes (c : Instr) (s : State) (P : State → Prop) : Prop := ∃ t, exec c s = .next t ∧ P t

/-- A property that every command keeps. -/
def Kept (P : State → Prop) : Prop := ∀ (c : Instr) (s t : State), P s → exec c s = .next t → P t

/-- The command `c` completes on `s` by answering the frame `f` from a state that has the property `P`; what the answer does is the answer's own
rule (R10). -/
def TakesAnswering (c : Instr) (f : RxFrame) (kind key : Nat) (code : AnswerCode) (s : State) (P : State → Prop) : Prop :=
  ∃ u, exec c s = .next (u.answer f kind key code) ∧ P u

/-- A frame of a kind that the CT takes and acts on: in RUNNING, passing the tests of reception, from another station (R9). -/
structure CallFrameTaken (kind : Nat) (f : RxFrame) (s : State) : Prop where
  running : s.sul.mode = .running
  heard : s.hears kind f = true
  peer : s.fromUs f = false

/-- No call but the one with a key is changed. -/
def OthersKept (key : Nat) (s t : State) : Prop := ∀ k, k ≠ key → t.findCall k = s.findCall k

/-- The refusal that a CALLSET body meets, by the first test of R11 it fails. -/
def callsetRefusal (s : State) (b : CallBody) : Option AnswerCode :=
  if s.localPlat b.platform = none then some .notOwner
  else if b.values? = none then some .badValue
  else if (s.findCall b.key).isSome then some .duplicate
  else if 64 ≤ s.ct.length then some .full
  else none

/-- The refusal that a frame naming a call meets by its key and the call's state, where nothing is changed (R33, R56, R57). -/
def keyRefusal (s : State) (key : Nat) : Option AnswerCode :=
  match s.findCall key with
  | none => some .unknownKey
  | some c =>
    match c.state with
    | .handingOff => some .busy
    | .finished _ => some .badValue
    | .dropping => some .badValue
    | .waiting => none
    | .bound => none

/-- A call's reference time is `r`: its expected arrival, or its expected departure where it has no expected arrival (R3). -/
def Call.RefersTo (c : Call) (r : Nat) : Prop := c.expArr = some r ∨ (c.expArr = none ∧ c.expDep = some r)

/-- The rank of a call where one is chosen to bind: its reference time, and 0 where it has none (R45; the last is the model's choice, log 44). -/
def Call.Ranks (c : Call) (r : Nat) : Prop := c.RefersTo r ∨ (c.expArr = none ∧ c.expDep = none ∧ r = 0)

/-- A call that an accepted rise on a platform may bind: WAITING on that platform, and under a SET clock with a reference time from 1,800 s before the
service time to 3,600 s after it (R45). -/
structure MayBind (s : State) (p : PlatId) (c : Call) : Prop where
  state : c.state = .waiting
  platform : c.platform = p
  window : s.sck.isSet = true → ∃ r, c.RefersTo r ∧ (s.sck.time : Int) - 1800 ≤ r ∧ (r : Int) ≤ s.sck.time + 3600

/-- The times a kind of call needs are present (R3). -/
def TimesPresent (k : CallKind) (arr dep : Option Nat) : Prop :=
  (k = .arrival ∨ k = .turn → arr ≠ none) ∧ (k = .departure ∨ k = .turn → dep ≠ none)

/-- The value tests that a CALLSET or a HANDOFF passes, its call being of the kind `k` (R11). -/
structure CallValues (b : CallBody) (k : CallKind) : Prop where
  kind : [CallKind.arrival, .departure, .turn][b.kind]? = some k
  key : b.key ≠ 0
  present : TimesPresent k b.schArr b.schDep
  times : ∀ t, b.schArr = some t ∨ b.schDep = some t ∨ b.expArr = some t ∨ b.expDep = some t → t ≤ 107999
  turn : k = .turn → ∀ x y, b.schArr = some x → b.schDep = some y → x ≤ y
  coaches : b.coaches ≤ 16
  dest : b.dest ≤ 2047
  origin : b.origin ≤ 2047
  points : b.points.length ≤ 20 ∧ ∀ p ∈ b.points, 1 ≤ p ∧ p ≤ 2047
  length : b.lengthFits = true

/-- A claim is in use on this node: current, next or waiting in a zone, or bound to a render channel (R31, R60). -/
def InUse (s : State) (id : ClaimId) : Prop :=
  (∃ z h, ((s.za.get z).arb.current = some h ∨ (s.za.get z).arb.next = some h ∨ h ∈ (s.za.get z).arb.wait) ∧ h.id = id) ∨
  ∃ c ch, s.rch.get c = some ch ∧ ch.claim = id

/-- A source of originations is busy: one of its originations is queued, or its last claim waits to be sent or is in use (R31, R38, R52; of a step whose
last claim is in use and final in every zone's record, the model's choice, log 62). -/
def Busy (s : State) (src : OrigSource) (last : Option ClaimId) : Prop :=
  (∃ o ∈ s.cmp.queue, o.source = src) ∨
  ∃ id, last = some id ∧ ((∃ e o, s.findEntry id = some e ∧ e.origin = some o ∧ o.send = .queued) ∨ InUse s id)

/-- What an ANSWER or a timeout that reverts a handoff leaves: its flag, its state and its platform's binding returned, and its steps resumed in index
order, each as at a forward jump, when the clock is SET; then the expiry test of a call that is WAITING (R15, R36, R50, R71; log 19). -/
structure HandoffReverted (key : Nat) (c : Call) (h : HandoffCtx) (s t : State) : Prop where
  frame : t = { s with lc := t.lc, ct := t.ct, pm := t.pm, cmp := t.cmp, clt := t.clt }
  link : t.lc = { s.lc with rx := t.lc.rx }
  call : ∃ d, t.findCall key = some d ∧ d.changed = h.preChanged ∧ d.handoffFailed = true ∧ d.handoff = none ∧ d.staged = c.staged ∧
    d.platform = c.platform ∧ d.expArr = c.expArr ∧ d.expDep = c.expDep ∧ d.coaches = c.coaches ∧ d.points = c.points ∧
    ((∃ p, (s.pm.get p).hold = some key) → d.state = .bound) ∧
    ((∀ p, (s.pm.get p).hold ≠ some key) → d.state = .waiting ∨ d.state = .finished .expired)
  binding : ∀ p, (s.pm.get p).hold = some key → (t.pm.get p).hold = none ∧ (t.pm.get p).bound = some key
  resumes : s.ct.Pairwise (fun a b => a.key < b.key) →
    let held := (s.pm.get .p0).hold = some key ∨ (s.pm.get .p1).hold = some key
    let v : State := ({ s with
      lc := t.lc, pm := s.pm.map (fun r : Plat => if r.hold = some key then { r with hold := none, bound := some key } else r) } : State).modCall key (fun x =>
        { x with changed := h.preChanged, handoffFailed := true, handoff := none, state := if held then .bound else .waiting })
    let w := if s.sck.isSet then (List.range c.steps.length).foldl (fun w i => w.forwardStep key i) v else v
    t = if held then w else w.expiryTest key

/-- An accepted rise of OCC on an EMPTY platform whose accepted level is noted: OCCUPIED, or DISPATCH with the doors high, and of the candidates the one
with the smallest reference time, the lowest key among equals, BOUND, each of its steps told so in index order (R43, R45, R46, R47). -/
structure AcceptsRise (p : PlatId) (s t : State) : Prop where
  frame : t = { s with ct := t.ct, pm := t.pm, cmp := t.cmp }
  platform : (t.pm.get p).accOcc = true ∧ (t.pm.get p).wait = none ∧ (t.pm.get p).occ = (s.pm.get p).occ ∧
    (t.pm.get p).state = if (s.pm.get p).doors then .dispatch else .occupied
  unscheduled : (∀ c ∈ s.ct, ¬ MayBind s p c) → t = s.setPm (s.pm.set p { s.pm.get p with
    accOcc := true, wait := none, state := if (s.pm.get p).doors then .dispatch else .occupied, bound := none })
  binds : ∀ c ∈ s.ct, MayBind s p c →
    (∀ d ∈ s.ct, MayBind s p d → ∀ m n, c.Ranks m → d.Ranks n → m < n ∨ (m = n ∧ c.key ≤ d.key)) →
    (t.pm.get p).bound = some c.key ∧
    (∃ d, t.findCall c.key = some d ∧ d.state = .bound ∧ { d with state := c.state, steps := c.steps } = c) ∧
    t = (List.range c.steps.length).foldl (fun w i => w.bindStep c.key i)
      ((s.setPm (s.pm.set p { s.pm.get p with
          accOcc := true, wait := none, state := if (s.pm.get p).doors then .dispatch else .occupied, bound := some c.key })).modCall
        c.key (fun d => { d with state := .bound }))

/-- An accepted fall of OCC on a platform that is not EMPTY: EMPTY, its hold and bound call gone, and the bound call FINISHED by its kind, its
originations removed and its origin entries marked (R5, R43, R48, R50). -/
structure AcceptsFall (p : PlatId) (s t : State) : Prop where
  frame : t = { s with ct := t.ct, pm := t.pm, cmp := t.cmp, clt := t.clt }
  platform : t.pm.get p = { s.pm.get p with accOcc := false, wait := none, state := .empty, bound := none, hold := none }
  unbound : (s.pm.get p).bound = none →
    t = s.setPm (s.pm.set p { s.pm.get p with accOcc := false, wait := none, state := .empty, bound := none, hold := none })
  finishes : ∀ (key : Nat) (c : Call), (s.pm.get p).bound = some key → s.findCall key = some c → OthersKept key s t ∧
    t.findCall key =
      some ({ c with state := .finished (if c.kind = CallKind.arrival then .arrived else .departed) }.stopSteps)
  ends : ∀ (key : Nat) (c : Call), (s.pm.get p).bound = some key → s.findCall key = some c →
    t.cmp = { s.cmp with queue := s.cmp.queue.filter (fun o => !o.ofCall key) } ∧
    t.clt = s.clt.map (fun e => if e.hasKey key then { e with origin := e.origin.map (fun o => { o with noRetry := true }) } else e) ∧
    ∀ q, q ≠ p → t.pm.get q = if (s.pm.get q).bound = some key then { s.pm.get q with bound := none } else s.pm.get q

/-! ### Steps -/

/-- An AT step of a live call is tested against the service time: counted to, fired when late by 0..60 s, SKIPPED(LATE) beyond (R23, R34, R64). -/
structure AtTested (w t : State) (key i : Nat) (ft : Int) : Prop where
  ahead : (w.sck.time : Int) < ft →
    t = w.modTimer key i (fun m => { m with state := .counting, remaining := some (ft - w.sck.time).toNat })
  due : ft ≤ w.sck.time → (w.sck.time : Int) - ft ≤ 60 → t = w.fireStep key i
  late : 60 < (w.sck.time : Int) - ft →
    t = w.modTimer key i (fun m => { m with state := .skipped .late, last := .skippedLate, remaining := none })

/-- An EVERY step's window opens: the period is loaded, and an ungated step fires (R25). -/
def WindowOpens (w t : State) (key i : Nat) (p : StepSpec) : Prop :=
  ∃ o, o = w.modTimer key i (fun m => { m with state := .counting, remaining := some p.period, notLoaded := false }) ∧
    t = if p.gate then o else o.fireStep key i

/-- A step is DONE with no seconds remaining (R25, R37). -/
def StepDone (w t : State) (key i : Nat) : Prop := t = w.modTimer key i (fun m => { m with state := .done, remaining := none })

/-- An EVERY step that is IDLE, COUNTING or HELD is tested against its window: its end closes it, its start opens an IDLE one (R25, R34). -/
structure WindowTested (w t : State) (key i : Nat) (st : Step) (start stop : Int) : Prop where
  closes : stop ≤ w.sck.time → StepDone w t key i
  opens : (w.sck.time : Int) < stop → st.timer.state = .idle → start ≤ w.sck.time → WindowOpens w t key i st.spec
  before : (w.sck.time : Int) < stop → st.timer.state = .idle → (w.sck.time : Int) < start → t = w
  inside : (w.sck.time : Int) < stop → st.timer.state ≠ .idle → t = w

/-- A step's delay begins: it counts from now, and a delay of 0 or below fires at once (R22, R27, R28). -/
structure DelayBegins (w t : State) (key i : Nat) (p : StepSpec) : Prop where
  counts : 0 < p.offset → t = w.modTimer key i (fun m => { m with state := .counting, remaining := some p.offset.toNat })
  fires : p.offset ≤ 0 → t = w.fireStep key i

/-- An IDLE step of the call `c` starts, by its mode (R23; that an EVERY step's IDLE row comes before its DONE row, log 17). -/
structure StepStarts (w t : State) (key i : Nat) (c : Call) (p : StepSpec) : Prop where
  unset : p.mode = .atTime ∨ p.mode = .every → w.sck.isSet = false ∨ p.fireTime c = none → t = w
  atTime : p.mode = .atTime → w.sck.isSet = true → ∀ ft, p.fireTime c = some ft → AtTested w t key i ft
  every : p.mode = .every → w.sck.isSet = true → ∀ start stop, p.fireTime c = some start → p.closeTime c = some stop →
    ((w.sck.time : Int) < start → t = w) ∧
    (start ≤ w.sck.time → (w.sck.time : Int) < stop → WindowOpens w t key i p) ∧
    (start ≤ w.sck.time → stop ≤ w.sck.time → StepDone w t key i)
  onArrive : p.mode = .onArrive → (c.state = .bound → DelayBegins w t key i p) ∧ (c.state ≠ .bound → t = w)
  others : p.mode = .onDispatch ∨ p.mode = .manual → t = w

/-- A step whose call becomes BOUND: an open gated EVERY step reloads, an unfired ON_ARRIVE step that is IDLE or SKIPPED(BUSY) begins its delay, and no
other step changes (R26, R27, R46). -/
structure StepBinds (w t : State) (key i : Nat) (st : Step) : Prop where
  reloads : st.spec.mode = .every → st.spec.gate = true → st.timer.state = .counting →
    t = w.modTimer key i (fun m => { m with state := .counting, remaining := some st.spec.period, notLoaded := false })
  every : st.spec.mode = .every → st.spec.gate = false ∨ (st.timer.state ≠ .counting ∧ st.timer.state ≠ .held) → t = w
  arms : st.spec.mode = .onArrive → st.timer.fires = 0 → st.timer.state = .idle ∨ st.timer.state = .skipped .busy →
    DelayBegins w t key i st.spec
  onArrive : st.spec.mode = .onArrive → st.timer.fires ≠ 0 ∨ (st.timer.state ≠ .idle ∧ st.timer.state ≠ .skipped .busy) → t = w
  others : st.spec.mode ≠ .every → st.spec.mode ≠ .onArrive → t = w

/-- A step at a DOORS edge of its call's platform: an ON_DISPATCH step begins its delay anew unless it is HELD, DONE or SKIPPED(LATE), and no other
changes (R28). -/
structure DoorsReported (w t : State) (key i : Nat) (st : Step) : Prop where
  arms : st.spec.mode = .onDispatch → st.timer.state ≠ .held → st.timer.state ≠ .done → st.timer.state ≠ .skipped .late →
    DelayBegins w t key i st.spec
  kept : st.spec.mode ≠ .onDispatch ∨ st.timer.state = .held ∨ st.timer.state = .done ∨ st.timer.state = .skipped .late → t = w

/-- A step that counts elapsed seconds loses one, and fires when none remain (R22). -/
structure CountsDown (w t : State) (key i : Nat) (r : Nat) : Prop where
  counts : 2 ≤ r → t = w.modTimer key i (fun m => { m with remaining := some (r - 1) })
  fires : r ≤ 1 → t = (w.modTimer key i (fun m => { m with remaining := some 0 })).fireStep key i

/-- Each call stays in its state, but that a WAITING one whose expiry limit is reached at `t` is FINISHED(EXPIRED) where the test is made (R15). -/
def Expires (tested : Prop) (s t : State) : Prop :=
  t.ct.map (·.key) = s.ct.map (·.key) ∧ ∀ k c, s.findCall k = some c → ∃ d, t.findCall k = some d ∧
    (tested → t.expires c = true → d.state = .finished .expired) ∧ (¬ tested ∨ t.expires c = false → d.state = c.state)

/-! ### The stages of a swap -/

/-- Stage 1 of a swap: each part of the amendment among times, coaches and calling points replaces its field, and the staged amendment is absent
(R63). -/
def FieldsAmended (key : Nat) (a : Amendment) (s : State) : State :=
  s.modCall key (fun x => { x with
    expArr := if a.arr = none then x.expArr else a.arr, expDep := if a.dep = none then x.expDep else a.dep,
    coaches := if a.coaches = none then x.coaches else a.coaches, points := a.points.getD x.points, staged := none })

/-- Stages 3 and 4 of a swap of a call with `n` steps: a REPLACE removes the call's originations, marks its origin entries to end without a retry and
starts fresh steps; else a REVISE replaces the fields it names, a new period setting the not-loaded flag, and each step is brought into line
(R63, R65, R66). -/
def PlanAmended (key n : Nat) (a : Amendment) (v : State) : State :=
  match a.plan with
  | none => (List.range n).foldl (fun w i => w.replanStep key i) v
  | some (.revise revs) => (List.range n).foldl (fun w i => w.replanStep key i) (revs.foldl (fun w r => w.modStep key r.1 (fun st =>
      { spec := r.2,
        timer := { st.timer with
          notLoaded := st.timer.notLoaded || decide (st.spec.mode = .every ∧ r.2.period ≠ st.spec.period) } })) v)
  | some (.replace l) => (List.range l.length).foldl (fun w i => w.startStep key i)
      (({ v with
        cmp := { v.cmp with queue := v.cmp.queue.filter (fun o => !o.ofCall key) },
        clt := v.clt.map (fun e =>
          if e.hasKey key then { e with origin := e.origin.map (fun o => { o with noRetry := true }) } else e) } : State).modCall key
        (fun x => { x with steps := l.map (fun p => { spec := p, timer := StepTimer.fresh }) }))

/-- The handoff context that a swap of the call `c` to the platform `n` of node `k` notes (R68). -/
def handoffNoted (c : Call) (k n : Nat) : HandoffCtx :=
  { server := k, newPlatform := n, prePlatform := c.platform, preChanged := c.changed, phase := .sending, timer := none }

/-- The call `c` amended and handed over, but for its steps (R63, R68). -/
def HandedOver (c : Call) (a : Amendment) (k n : Nat) (d : Call) : Prop :=
  d = { c with
    expArr := if a.arr = none then c.expArr else a.arr, expDep := if a.dep = none then c.expDep else a.dep,
    coaches := if a.coaches = none then c.coaches else a.coaches, points := a.points.getD c.points, changed := true, handoffFailed := false,
    handoff := some (handoffNoted c k n), staged := none, state := .handingOff, steps := d.steps }

/-- A swap of the call `c` to the platform `n` of node `k`, its stages 1 to 5 but for the HANDOFF frame: fields, handoff context, plan, HANDING_OFF with
the binding set aside (R50, R63, R68). -/
def handedOverState (s : State) (key k n : Nat) (c : Call) (a : Amendment) : State :=
  let v := (FieldsAmended key a s).modCall key (fun x => { x with changed := true, handoffFailed := false, handoff := some (handoffNoted c k n) })
  let v := PlanAmended key c.steps.length a v
  { v.modCall key (fun x => { x with state := .handingOff }) with
    pm := v.pm.map (fun r => if r.bound = some key then { r with bound := none, hold := some key } else r) }

/-- The HANDOFF frame of the call `d` for the platform `n` of node `k`, as it is handed to the LC (R68). -/
def handoffQueued (d : Call) (k n now : Nat) : TxFrame :=
  { body := .handoff
      { key := d.key, kind := d.kind, platform := n, schArr := d.schArr, schDep := d.schDep, expArr := d.expArr, expDep := d.expDep, dest := d.dest,
        origin := d.origin, coaches := d.coaches, points := d.points, steps := d.steps.map (·.spec) },
    dst := k, tier := 4, queuedAt := now, fails := 0, underWay := false, takeBack := false }

/-! ### Zones and channels -/

/-- What the level unit notes of a zone between two states at one instant: the instant at which it left play, and its window lost where it stopped being
silent (R146, R147). -/
structure PlayNoted (s t : State) (z : ZoneId) : Prop where
  lastPlayEnd : (t.lu.zones.get z).lastPlayEnd =
    if ((s.za.get z).arb.state = .playing ∨ (s.za.get z).arb.state = .cutting) ∧ (t.za.get z).arb.state ≠ .playing ∧ (t.za.get z).arb.state ≠ .cutting
      then some s.now else (s.lu.zones.get z).lastPlayEnd
  window : (t.lu.zones.get z).window =
    if ((s.za.get z).arb.state = .idle ∨ (s.za.get z).arb.state = .leadIn) ∧ (t.za.get z).arb.state ≠ .idle ∧ (t.za.get z).arb.state ≠ .leadIn
      then none else (s.lu.zones.get z).window

/-- The next claim of the CUTTING unit of `z`, its arbiter `a` and its current claim `c`, has left: the head of the wait list takes its place where it
is better than the current claim, with fresh stop conditions, by which the current claim may stop at once; otherwise the unit plays on (R115, R121,
R123). -/
structure NextLeaves (s u : State) (z : ZoneId) (a : Arb) (c : Held) : Prop where
  back : (∀ w ∈ a.wait.head?, c.cls ≤ w.cls) → ∀ y ∈ s.unit z,
    (u.za.get y).arb = { a with state := .playing, next := none, stopAt := none, phraseEnd := a.wdPending }
  aims : ∀ w rest, a.wait = w :: rest → w.cls < c.cls →
    let b : Arb := { a with
      state := .cutting, wait := rest, next := some w, phraseEnd := a.wdPending || decide (2 ≤ w.cls),
      stopAt := if w.cls ≤ 1 ∨ w.sync = Sync.joint then some (max w.start s.now) else none }
    ((2 ≤ w.cls ∧ w.sync = .loose) ∨ s.now < w.start → ∀ y ∈ s.unit z, (u.za.get y).arb = b) ∧
    (w.cls ≤ 1 ∨ w.sync = .joint → w.start ≤ s.now → ∀ y ∈ s.unit z, (u.za.get y).arb = (b.choose s.now).1 ∧
      ((∀ n, a.next = some n → n.id ≠ c.id) → ∀ e, s.findEntry c.id = some e → e.disp.get y = .pending → ∃ e', u.findEntry c.id = some e' ∧
        e'.disp.get y = if a.wdPending then .withdrawn else if s.zoneDelivered z then .played else .preempted))

/-- `k` is the first index from `i` on whose code the directory holds, if there is one (R136). -/
def FirstHeld (s : State) (phrases : List Nat) (i : Nat) (k : Option Nat) : Prop :=
  (∀ j, k = some j → i ≤ j ∧ j < phrases.length ∧ s.dirEntry (phrases.getD j 0) ≠ none ∧
    ∀ m, i ≤ m → m < j → s.dirEntry (phrases.getD m 0) = none) ∧
  (k = none → ∀ m, i ≤ m → m < phrases.length → s.dirEntry (phrases.getD m 0) = none)

/-- A grant of the store port, where one can be made: while the port is IDLE, to the channel with a request pending that comes first counting up from
the one after the pointer, from 3 round to 0, for its next unread block, of 128 samples or those that remain, at the phrase's address plus two bytes a
sample (R139, R140). -/
structure Granted (s t : State) : Prop where
  frame : t = { s with sp := t.sp }
  busy : s.sp.reading ≠ none → t = s
  idle : (∀ c ch, s.rch.get c = some ch → ch.request = false ∨ ch.unread = none) → t = s
  grants : s.sp.reading = none → ∀ pre d post,
    [s.sp.pointer.next, s.sp.pointer.next.next, s.sp.pointer.next.next.next, s.sp.pointer] = pre ++ d :: post →
    (∀ c ∈ pre, ∀ ch, s.rch.get c = some ch → ch.request = false ∨ ch.unread = none) →
    ∀ ch b e, s.rch.get d = some ch → ch.request = true → ch.unread = some b → s.dirEntry (ch.phrases.getD b.1 0) = some e →
    t.sp = { pointer := d, reading := some { chan := d, idx := b.1, pos := b.2, count := min 128 (e.len - b.2), addr := e.addr + 2 * b.2, stale := false } }

/-- A zone asks for a channel for the claim `h`: it shares the lowest channel bound to the claim at this instant (log 55), and otherwise the lowest
FREE one is bound, its cursor on the first code held or, in STORE_FAULT, on the first tone segment, its first block asked for, and a read granted
(R134, R136, R139, R140, R141). -/
structure Attaches (s t : State) (z : ZoneId) (h : Held) : Prop where
  shares : ∀ c ch, s.rch.get c = some ch → ch.claim = h.id → ch.bind16 = 16 * s.sck.running + s.sck.sub →
    (∀ d k, d.toNat < c.toNat → s.rch.get d = some k → k.claim ≠ h.id ∨ k.bind16 ≠ 16 * s.sck.running + s.sck.sub) →
    t = { s with rch := s.rch.set c (some { ch with attached := ch.attached.set z true }) }
  binds : (∀ d k, s.rch.get d = some k → k.claim ≠ h.id ∨ k.bind16 ≠ 16 * s.sck.running + s.sck.sub) →
    ∀ c, s.rch.get c = none → (∀ d, d.toNat < c.toNat → s.rch.get d ≠ none) →
    let ch : Chan :=
      { claim := h.id, bind16 := 16 * s.sck.running + s.sck.sub, phrases := h.phrases, cursor := some 0, pos := 0, delivered := 0,
        attached := (Quad.const false).set z true, slots := [], unread := none, request := false, tone := true }
    (s.sul.mode = .storeFault → Granted { s with rch := s.rch.set c (some ch) } t) ∧
    (s.sul.mode ≠ .storeFault → ∃ k, FirstHeld s h.phrases 0 k ∧
      Granted { s with rch := s.rch.set c (some { ch with cursor := k, unread := k.map (fun i => (i, 0)), request := k.isSome, tone := false }) } t)

/-! ### Reception -/

/-- Whether the body length is in the range its kind allows, with the count the body declares for CLAIM and ZSTAT (R163, R176). -/
def LengthFits (kind : Nat) (b : List Byte) : Prop :=
  match kind with
  | 1 => 15 ≤ b.length ∧ b.length ≤ 77 ∧ b.length = 13 + 2 * field8 b 12
  | 2 => b.length = 3
  | 3 => 3 ≤ b.length ∧ b.length ≤ 7 ∧ b.length = 3 + field8 b 2
  | 4 => 16 ≤ b.length ∧ b.length ≤ 160
  | 5 => 12 ≤ b.length ∧ b.length ≤ 160
  | 6 => 4 ≤ b.length ∧ b.length ≤ 160
  | 7 => b.length = 2
  | 8 => b.length = 3
  | 9 => 23 ≤ b.length ∧ b.length ≤ 160
  | 10 => b.length = 3
  | 11 => 3 ≤ b.length ∧ b.length ≤ 80
  | 12 => b.length = 4
  | 13 => 6 ≤ b.length ∧ b.length ≤ 160
  | 14 => b.length = 4
  | _ => False

/-- Whether a CLAIM, CEDE, ZSTAT or QUERY body of a fitting length holds values of its layout alone; the other kinds are tested by the block that takes
them (R163, R176; a QUERY's key, log 10). -/
def ValuesFit (kind : Nat) (b : List Byte) : Prop :=
  match kind with
  | 1 => (if (field8 b 1).testBit 3 then field b 7 2 ≤ 600 else field b 7 2 = 65535) ∧
      ((field b 9 2 = 0 ∧ field8 b 11 = 255) ∨ (1 ≤ field b 9 2 ∧ field8 b 11 ≤ 5)) ∧ 1 ≤ field8 b 12 ∧ field8 b 12 ≤ 32 ∧
      ∀ i, i < field8 b 12 → 1 ≤ field b (13 + 2 * i) 2 ∧ field b (13 + 2 * i) 2 ≤ 2047
  | 2 => 1 ≤ field8 b 0 ∧ field8 b 0 ≤ 48
  | 3 => 1 ≤ field8 b 0 ∧ field8 b 0 ≤ 48 ∧ (∀ i, i < field8 b 2 → 1 ≤ field8 b (3 + i) / 16 ∧ field8 b (3 + i) / 16 ≤ 8) ∧
      ∀ i, i + 1 < field8 b 2 → field8 b (3 + i) % 4 < field8 b (4 + i) % 4
  | 10 => field8 b 0 ≤ 4 ∧ (field8 b 0 = 4 → 1 ≤ field b 1 2) ∧ (field8 b 0 ≠ 4 → field b 1 2 = 0)
  | _ => True

/-! ### Frames and queues -/

/-- The frames filled and the bytes in the last of them, with an item of a length more: it joins the last frame where it fits there, and otherwise
begins a new one and fills as many as it needs (R173). -/
def framesWith (cap : Nat) (r : Nat × Nat) (len : Nat) : Nat × Nat :=
  if r.1 ≠ 0 ∧ r.2 + len ≤ cap then (r.1, r.2 + len)
  else (r.1 + max 1 ((len + cap - 1) / cap), len - cap * ((len - 1) / cap))

/-- How many frames the items of these lengths need (R173). -/
def framesNeeded (cap : Nat) (lens : List Nat) : Nat := (lens.foldl (framesWith cap) (0, 0)).1

/-- A list of frames in order of tier, a frame `f` put in its place: behind every frame of its tier or a lower one (R166). -/
def InItsPlace (f : TxFrame) (q r : List TxFrame) : Prop :=
  ∃ l m, q = l ++ m ∧ r = l ++ f :: m ∧ (∀ g ∈ l, g.tier ≤ f.tier) ∧ ∀ g ∈ m, f.tier < g.tier

/-- A CLAIM frame with every field within its values (R89, R176). -/
structure ClaimFrame.Fits (c : ClaimFrame) : Prop where
  seq : c.seq ≤ 255
  cls : c.cls ≤ 7
  offset : c.offset10 ≤ 255
  joint : c.sync = .joint → c.window = none
  loose : c.sync = .loose → ∃ w, c.window = some w ∧ w ≤ 600
  call : ∀ k i, c.call = some (k, i) → 1 ≤ k ∧ k ≤ 65535 ∧ i ≤ 5
  codes : 1 ≤ c.phrases.length ∧ c.phrases.length ≤ 32 ∧ ∀ p ∈ c.phrases, 1 ≤ p ∧ p ≤ 2047

/-- A step with every field within its values (R20). -/
structure StepSpec.Fits (p : StepSpec) : Prop where
  offset : -7200 ≤ p.offset ∧ p.offset ≤ 7200
  windowEnd : -7200 ≤ p.windowEnd ∧ p.windowEnd ≤ 7200
  period : 60 ≤ p.period ∧ p.period ≤ 1800
  limit : p.limit ≤ 255
  cls : p.cls ≤ 7
  template : p.template ≤ 31
  target : p.target ≤ 31

/-- A HANDOFF frame with every field within its values (R2, R20, R68). -/
structure HandoffFrame.Fits (h : HandoffFrame) : Prop where
  key : 1 ≤ h.key ∧ h.key ≤ 65535
  platform : h.platform ≤ 255
  schArr : ∀ t, h.schArr = some t → t ≤ 107999
  schDep : ∀ t, h.schDep = some t → t ≤ 107999
  expArr : ∀ t, h.expArr = some t → t ≤ 107999
  expDep : ∀ t, h.expDep = some t → t ≤ 107999
  dest : ∀ c, h.dest = some c → 1 ≤ c ∧ c ≤ 2047
  origin : ∀ c, h.origin = some c → 1 ≤ c ∧ c ≤ 2047
  coaches : ∀ n, h.coaches = some n → 1 ≤ n ∧ n ≤ 16
  points : h.points.length ≤ 20 ∧ ∀ p ∈ h.points, 1 ≤ p ∧ p ≤ 2047
  steps : h.steps.length ≤ 6 ∧ ∀ p ∈ h.steps, p.Fits

/-- The entry `e` of an own CLAIM, its origin part `o`, is timed from now, as its frame was sent or failed: `v` differs from `s` in that entry alone, and
the entry in its send state, its mark local-only, its three instants and its coverage window's end alone (R93, R95, R98). -/
structure OwnClaimTimed (s v : State) (id : ClaimId) (e : Entry) (o : OriginPart) (c : ClaimFrame) (send : SendState) (localOnly : Bool) : Prop where
  frame : v = { s with clt := v.clt } ∧ ∀ k, k ≠ id → v.findEntry k = s.findEntry k
  entry :
    let start := s.now + 10 * c.offset10
    let planned := start + s.plannedMs e.phrases
    ∃ windowEnd, v.findEntry id = some { e with
      start := some start, plannedEnd := some planned, localOnly := localOnly || e.localOnly,
      latest := if e.sync = .joint then none else some (start + 1000 * c.window.getD 0),
      origin := some { o with send := send, windowEnd := some windowEnd } } ∧
      (o.windowEnd = none → windowEnd = planned + 10000) ∧ ∀ w, send = .sent → o.windowEnd = some w → windowEnd = min w (planned + 10000)

/-! ### What a command leaves alone -/

/-- `t` differs from `s` in the call table, the platforms, the composer and the claim table at most. -/
structure CallSide (s t : State) : Prop where
  lc : t.lc = s.lc
  sck : t.sck = s.sck
  evac : t.evac = s.evac
  za : t.za = s.za
  rch : t.rch = s.rch
  audio : t.audio = s.audio
  sp : t.sp = s.sp
  lu : t.lu = s.lu
  sul : t.sul = s.sul
  cfg : t.cfg = s.cfg
  pins : t.pins = s.pins
  pending : t.pending = s.pending

/-- `t` differs from `s` in the claim table, the zones, the channels, the audio outputs, the store port and the level unit at most. -/
structure ZoneSide (s t : State) : Prop where
  lc : t.lc = s.lc
  sck : t.sck = s.sck
  ct : t.ct = s.ct
  evac : t.evac = s.evac
  pm : t.pm = s.pm
  cmp : t.cmp = s.cmp
  sul : t.sul = s.sul
  cfg : t.cfg = s.cfg
  pins : t.pins = s.pins
  pending : t.pending = s.pending

/-- `t` has the clocks, the evacuation state, the loader, the configuration, the pins and the queue of commands of `s`. -/
structure LinkSide (s t : State) : Prop where
  sck : t.sck = s.sck
  evac : t.evac = s.evac
  sul : t.sul = s.sul
  cfg : t.cfg = s.cfg
  pins : t.pins = s.pins
  pending : t.pending = s.pending

/-! ### Tables and queues -/

/-- The tables and queues hold no more than their places: 64 calls, 16 entries, 8 frames, 4 originations, 4 waiting claims in each zone (R1, R74,
R90, R109, R166). -/
structure PlacesKept (s : State) : Prop where
  calls : s.ct.length ≤ 64
  entries : s.clt.length ≤ 16
  frames : s.lc.tx.length ≤ 8
  originations : s.cmp.queue.length ≤ 4
  waiting : ∀ z, (s.za.get z).arb.wait.length ≤ 4

/-- The call table lists its calls in strictly ascending key order, so no two have one key (R1). -/
def KeysAscend (s : State) : Prop := s.ct.Pairwise (fun a b => a.key < b.key)

/-- No two entries of the claim table have one id (R90). -/
def IdsDistinct (s : State) : Prop := s.clt.Pairwise (fun a b => a.id ≠ b.id)

/-- The transmit queue stands in order of tier, then of the instant queued, each frame has its kind's tier, and nothing in the queue is queued later
than now (R166). -/
structure FramesInOrder (s : State) : Prop where
  order : s.lc.tx.Pairwise (fun a b => a.tier < b.tier ∨ (a.tier = b.tier ∧ a.queuedAt ≤ b.queuedAt))
  tiers : ∀ f ∈ s.lc.tx, f.tier = f.body.tier
  past : ∀ f ∈ s.lc.tx, f.queuedAt ≤ s.now

/-- The origination queue stands in order of class, then of age (R74). -/
structure OrigsInOrder (s : State) : Prop where
  order : s.cmp.queue.Pairwise (fun a b => a.cls < b.cls ∨ (a.cls = b.cls ∧ a.queuedAt ≤ b.queuedAt))
  past : ∀ o ∈ s.cmp.queue, o.queuedAt ≤ s.now

/-! ### Clocks -/

/-- The counts of time lie in their ranges, and an UNSET clock stands at 0 (R6, R8). -/
structure ClockInRange (s : State) : Prop where
  time : s.sck.time ≤ 107999
  unset : s.sck.isSet = false → s.sck.time = 0
  running : s.sck.running ≤ 1099511627775

/-! ### Zones, pairs, channels, levels -/

/-- Whether a zone state is one that holds a claim (R110). -/
def ZoneState.holdsClaim : ZoneState → Bool
  | .leadIn => true
  | .playing => true
  | .cutting => true
  | _ => false

/-- What R109, R110, R124 and R128 promise of a zone: in a state that holds no claim it holds nothing at all, a current claim stands in the three that
do, a next claim stands in CUTTING alone and a stop instant in no other, out of service it is when its flag is off, and the members of a WHOLE pair
are both WHOLE, in service, and hold the same state, claims, wait list, stop conditions and withdrawal mark. -/
structure ZoneKept (s : State) (z : ZoneId) : Prop where
  bare : (s.za.get z).arb.state.holdsClaim = false → (s.za.get z).arb = Arb.bare (s.za.get z).arb.state
  current : (s.za.get z).arb.state.holdsClaim = true → (s.za.get z).arb.current.isSome = true
  next : (s.za.get z).arb.next.isSome = true ↔ (s.za.get z).arb.state = .cutting
  stopAt : (s.za.get z).arb.stopAt.isSome = true → (s.za.get z).arb.state = .cutting
  service : (s.za.get z).service = false → (s.za.get z).arb.state = .outOfService
  wholeServes : (s.za.get z).pair = some .whole → (s.za.get z).arb.state.serves = true
  wholeBoth : (s.za.get z).pair = some .whole → (s.za.get z.partner).pair = some .whole
  wholeSame : (s.za.get z).pair = some .whole → (s.za.get z.partner).arb = (s.za.get z).arb

/-- The zones keep what R110, R124 and R128 promise. -/
def ZonesKept (s : State) : Prop := ∀ z, ZoneKept s z

/-- Whether a zone is attached to a channel. -/
def State.attachedTo (s : State) (z : ZoneId) (c : ChanId) : Prop := ∃ ch, s.rch.get c = some ch ∧ ch.attached.get z = true

/-- Every BOUND channel has an attached zone (R133). -/
def ChannelsAttached (s : State) : Prop := ∀ c ch, s.rch.get c = some ch → ∃ z, ch.attached.get z = true

/-- The channels serve the zones that play and no others: every BOUND channel has an attached zone, a zone that plays is attached to a channel bound to
its current claim, a zone attached anywhere plays and is attached to that channel alone, the members of a WHOLE pair share their channel, and a zone
that does not play puts out zero (R110, R124, R133, R134, R135). -/
structure ChannelsServe (s : State) : Prop where
  bound : ChannelsAttached s
  playing : ∀ z, (s.za.get z).arb.state.plays = true →
    ∃ c ch h, s.rch.get c = some ch ∧ ch.attached.get z = true ∧ (s.za.get z).arb.current = some h ∧ ch.claim = h.id
  only : ∀ z c d, s.attachedTo z c → s.attachedTo z d → c = d
  attached : ∀ z c, s.attachedTo z c → (s.za.get z).arb.state.plays = true
  shared : ∀ z c, s.whole z = true → s.attachedTo z c → s.attachedTo z.partner c
  silent : ∀ z, (s.za.get z).arb.state.plays = false → s.audio.get z = 0

/-- Every phrase the directory holds has 1 to 160,000 samples (R136). -/
def DirectoryInRange (s : State) : Prop := ∀ e, some e ∈ s.cfg.directory → 1 ≤ e.len ∧ e.len ≤ 160000

/-- The level unit's figures of a zone lie in their ranges, with those the level is worked out from (R109, R144, R148). -/
structure LevelKept (s : State) (z : ZoneId) : Prop where
  k : (s.lu.zones.get z).k ≤ 31
  initK : (s.lu.zones.get z).initK ≤ 31
  level : (s.lu.zones.get z).level ≤ 120
  multLow : 32 ≤ (s.lu.zones.get z).mult
  multHigh : (s.lu.zones.get z).mult ≤ 32768
  floor : (s.za.get z).floor ≤ 120
  stagedFloor : ∀ a, (s.za.get z).staged = some a → a.floor ≤ 120

/-- Levels, multipliers and ambient estimates lie in their ranges (R144, R148). -/
structure LevelsInRange (s : State) : Prop where
  zones : ∀ z, LevelKept s z
  floor : s.lu.eFloor ≤ 120

/-! ### Modes -/

/-- While RESET is held, and through LOADING, every zone is OUT_OF_SERVICE and holds nothing, every channel is FREE and every audio output is zero
(R109, R133, R178, R181). -/
structure LoadingKept (s : State) : Prop where
  held : s.sul.resetHeld = true → s.sul.mode = .loading
  zones : s.sul.mode = .loading → ∀ z, (s.za.get z).arb = Arb.bare .outOfService
  channels : s.sul.mode = .loading → ∀ c, s.rch.get c = none
  outputs : s.sul.mode = .loading → ∀ z, s.audio.get z = 0

/-- A node in LISTEN_ONLY has no number, and holds no call, no origination, no frame to send and no entry whose ZSTAT could be sent (R1, R101,
R166, R179, R183). -/
structure SilentListener (s : State) : Prop where
  mode : s.sul.mode = .listenOnly
  released : s.sul.resetHeld = false
  unnumbered : s.nodeNo = none
  calls : s.ct = []
  originations : s.cmp.queue = []
  frames : s.lc.tx = []
  zstats : ∀ e ∈ s.clt, e.zstat = .notNeeded

/-- A zone record and the level unit's record of the zone at the end of a good load: the 11 bytes of the zone in the section selected with their clamps,
its code of each class, its neighbours without itself and its partner, its pair, and IDLE or FAULT by its amplifier (R109, R124, R144, R180, R181). -/
structure ZoneLoaded (sec : List Byte) (z : ZoneId) (amp ampPartner : Bool) (r : Zone) (u : LuZone) : Prop where
  base : r.base = min 120 (field8 sec (2 + 11 * z.toNat))
  floor : r.floor = min 120 (field8 sec (3 + 11 * z.toNat))
  level : u =
    { k := min 31 (field8 sec (9 + 11 * z.toNat)), window := none, lastPlayEnd := none, level := 0, mult := 32,
      initK := min 31 (field8 sec (9 + 11 * z.toNat)), q := min 60 (field8 sec (4 + 11 * z.toNat)),
      slope := min 8 (field8 sec (5 + 11 * z.toNat)), cmax := min 40 (field8 sec (6 + 11 * z.toNat)),
      dnight := min 40 (field8 sec (7 + 11 * z.toNat)), dspill := min 20 (field8 sec (8 + 11 * z.toNat)) }
  row : ∀ c, c < 8 → [AccCode.accept, .quiet, .refuse, .refuse][field sec (10 + 11 * z.toNat) 2 / 4 ^ c % 4]? = some (r.row.code c)
  neighbours : ∀ y, r.neighbours.get y = true ↔ (field8 sec (12 + 11 * z.toNat)).testBit y.toNat = true ∧ y ≠ z ∧
    ((field8 sec 46).testBit (z.toNat / 2) = true → y ≠ z.partner)
  pair : r.pair =
    if (field8 sec 46).testBit (z.toNat / 2) then some (if amp = true ∨ ampPartner = true then .broken else .whole) else none
  starts : r.arb = Arb.bare (if amp then .fault else .idle) ∧ r.service = true ∧ r.ampFault = amp ∧ r.staged = none

/-- The node's fields and the tables at the end of a good load: each from its own bytes of the area, most significant byte first, with its clamp
(R40, R79, R136, R144, R180, R181). -/
structure AreaLoaded (image sec : List Byte) (t : State) : Prop where
  debounce : t.cfg.debounceMs = 1000 * min 10 (field8 sec 47)
  pclass : ∀ c, c < 8 → t.lu.pclass.getD c 0 = min 20 (field8 sec (48 + c))
  emergency : t.lu.eFloor = min 120 (field8 sec 56)
  night : t.lu.nightStart = min 86399 (field sec 57 3) ∧ t.lu.nightEnd = min 86399 (field sec 60 3)
  offsets : t.cfg.jointOffset10 = field8 sec 63 ∧ t.cfg.looseOffset10 = field8 sec 64 ∧ t.cfg.looseWindow = min 600 (field sec 65 2)
  approach : t.cfg.approach = ⟨(min 31 (field8 sec 67), min 31 (field8 sec 68)), (min 31 (field8 sec 69), min 31 (field8 sec 70))⟩
  evac : t.cfg.evacTemplate = min 31 (field8 sec 71) ∧ t.cfg.evacTarget = min 31 (field8 sec 72) ∧
    t.cfg.evacPeriod = max 10 (min 120 (field8 sec 73))
  platforms : ∀ n, n < 48 → t.cfg.platformMap[n]? = some (min 99 (field8 image (74 * n)), min 99 (field8 image (74 * n + 1)))
  groups : ∀ g i, g < 32 → i < 192 →
    (t.cfg.groupMap.getD g 0).getLsbD i = (image.getD (3552 + 24 * g + (23 - i / 8)) 0).getLsbD (i % 8)
  targets : ∀ j g, j < 32 → g < 32 → (t.cfg.targetSets.getD j 0).getLsbD g = (image.getD (4320 + 4 * j + (3 - g / 8)) 0).getLsbD (g % 8)
  templates : ∀ j, j < 32 → (t.cmp.templates.getD j []).length = min 16 (field8 image (4448 + 49 * j))
  slots : ∀ j i, j < 32 → i < min 16 (field8 image (4448 + 49 * j)) →
    let b := 4449 + 49 * j + 3 * i
    let v := field image (b + 1) 2
    (t.cmp.templates.getD j [])[i]? = some
      ([Slot.phrase (min 2047 v), .dest, .origin, .platform, .timeArr, .timeDep, .delay, .coaches, .calling, .ifLate (min 15 v),
        .ifChanged (min 15 v)].getD (field8 image b) (.phrase 0))
  bases : t.cmp.bases =
    { hour := min 2047 (field image 6016 2), minute := min 2047 (field image 6018 2), oclock := min 2047 (field image 6020 2),
      delay := min 2047 (field image 6022 2), platform := min 2047 (field image 6024 2), coaches := min 2047 (field image 6026 2),
      andOthers := min 2047 (field image 6028 2) }
  directory : ∀ code, 1 ≤ code → code ≤ 2047 →
    let b := 6030 + 7 * (code - 1)
    t.dirEntry code = if field image (b + 4) 3 = 0 then none else some { addr := field image b 4, len := min 160000 (field image (b + 4) 3) }

/-- The mode STORE_FAULT as it is entered with a load outcome: no platform number, a debounce of 2 s begun where OCC differs from the accepted
level, every zone in service, single, and IDLE or in FAULT by its amplifier (R40, R41, R109, R124, R182, R184). -/
def EntersStoreFault (o : LoadOutcome) (s t : State) : Prop :=
  t = { s with sul := t.sul, cfg := t.cfg, pm := t.pm, za := t.za } ∧
  t.sul.mode = .storeFault ∧ t.sul.outcome = some o ∧ t.sul.phase = .over ∧ t.sul.strap = s.sul.strap ∧ t.cfg.debounceMs = 2000 ∧
  (∀ p, t.pm.get p =
    { s.pm.get p with wait := if (s.pm.get p).occ = (s.pm.get p).accOcc then none else some 2000 }) ∧
  (∀ z, (t.za.get z).arb = Arb.bare (if (s.za.get z).ampFault then .fault else .idle) ∧ (t.za.get z).service = true ∧
    (t.za.get z).pair = none ∧ (t.za.get z).staged = none ∧ (t.za.get z).ampFault = (s.za.get z).ampFault)

/-! ### A safe state -/

/-- The tables and queues keep their places and their orders, and every count, level and multiplier its range. -/
structure TablesInOrder (s : State) : Prop where
  places : PlacesKept s
  keys : KeysAscend s
  ids : IdsDistinct s
  frames : FramesInOrder s
  origs : OrigsInOrder s
  clock : ClockInRange s
  levels : LevelsInRange s
  directory : DirectoryInRange s

/-- A state in which every promise above that holds in all modes holds. -/
structure Safe (s : State) : Prop where
  tables : TablesInOrder s
  zones : ZonesKept s
  channels : ChannelsServe s
  loading : LoadingKept s

end Sys2Proof.Machine
end

