-- ==== Sys2Proof/WellFormed.lean ====
section
/-!
DEFINITION. Which commands are well formed: the operands within the values their own rules give. A meaning does not ask for it.
-/

namespace Sys2Proof

/-- A claim id as R90 bounds it. -/
def ClaimId.wf (id : ClaimId) : Bool := 1 ≤ id.origin && id.origin ≤ 48 && id.seq ≤ 255

/-- A frame header as R162 and R176 bound it: a source of 1..255 and a body of 0..160 bytes. -/
def RxFrame.wf (f : RxFrame) : Bool := f.src != 0 && f.body.length ≤ 160

/-- The bounds each command's operands keep: train keys 1..65535 (R1), claim ids (R90), frames (R162), an 8-byte header (R177), a
configuration read of at least one byte of the 20,359 (R180), a block of at most 256 bytes, two a sample (R139), a bit within the longest
frame of 8 + 160 bytes counted with its delimiter and check (R162). -/
def Instr.wf : Instr → Bool
  | .reset => true
  | .leaveReset _ => true
  | .headerReadDone b => b.length == 8
  | .configReadDone b => 1 ≤ b.length && b.length ≤ 20359
  | .secondBoundary => true
  | .clock f => f.wf
  | .callset f => f.wf
  | .callamend f => f.wf
  | .callplan f => f.wf
  | .calldrop f => f.wf
  | .trigger f => f.wf
  | .handoff f => f.wf
  | .answer f => f.wf
  | .handoffTimeout k => 1 ≤ k && k ≤ 65535
  | .query f _ => f.wf
  | .report f => f.wf
  | .zattr f _ => f.wf
  | .claim f => f.wf
  | .cede f => f.wf
  | .zstat f => f.wf
  | .frameRejected _ _ => true
  | .occChange _ => true
  | .debounceWaitExpiry _ => true
  | .doorsRise _ => true
  | .doorsFall _ => true
  | .approachRise _ => true
  | .approachFall _ => true
  | .evacRise => true
  | .evacTimerExpiry => true
  | .evacFall => true
  | .ampFaultRise _ => true
  | .ampFaultFall _ => true
  | .compose => true
  | .swap k => 1 ≤ k && k ≤ 65535
  | .callRemoval k => 1 ≤ k && k ≤ 65535
  | .entryRemoval id => id.wf
  | .coverageWindowClose id => id.wf
  | .startInstant _ => true
  | .stopInstant _ => true
  | .jointWaiterStart _ id => id.wf
  | .looseWaiterExpiry _ id => id.wf
  | .nextClaimExpiry _ => true
  | .phraseBoundary _ => true
  | .storeReadComplete b => b.length ≤ 256 && b.length % 2 == 0
  | .hangoverExpiry _ => true
  | .trackerWindowComplete _ => true
  | .stagedAttrApply _ => true
  | .pairReform _ => true
  | .attemptStart _ => true
  | .delimiterHeard _ => true
  | .frameSent => true
  | .collision b => b < 8 * 167
  | .samplingInstant _ _ => true
  | .sampleDue _ => true

/-- The frame a command carries, for the commands that are frames heard whole. -/
def Instr.frame? : Instr → Option RxFrame
  | .reset => none
  | .leaveReset _ => none
  | .headerReadDone _ => none
  | .configReadDone _ => none
  | .secondBoundary => none
  | .clock f => some f
  | .callset f => some f
  | .callamend f => some f
  | .callplan f => some f
  | .calldrop f => some f
  | .trigger f => some f
  | .handoff f => some f
  | .answer f => some f
  | .handoffTimeout _ => none
  | .query f _ => some f
  | .report f => some f
  | .zattr f _ => some f
  | .claim f => some f
  | .cede f => some f
  | .zstat f => some f
  | .frameRejected _ _ => none
  | .occChange _ => none
  | .debounceWaitExpiry _ => none
  | .doorsRise _ => none
  | .doorsFall _ => none
  | .approachRise _ => none
  | .approachFall _ => none
  | .evacRise => none
  | .evacTimerExpiry => none
  | .evacFall => none
  | .ampFaultRise _ => none
  | .ampFaultFall _ => none
  | .compose => none
  | .swap _ => none
  | .callRemoval _ => none
  | .entryRemoval _ => none
  | .coverageWindowClose _ => none
  | .startInstant _ => none
  | .stopInstant _ => none
  | .jointWaiterStart _ _ => none
  | .looseWaiterExpiry _ _ => none
  | .nextClaimExpiry _ => none
  | .phraseBoundary _ => none
  | .storeReadComplete _ => none
  | .hangoverExpiry _ => none
  | .trackerWindowComplete _ => none
  | .stagedAttrApply _ => none
  | .pairReform _ => none
  | .attemptStart _ => none
  | .delimiterHeard _ => none
  | .frameSent => none
  | .collision _ => none
  | .samplingInstant _ _ => none
  | .sampleDue _ => none

end Sys2Proof
end

