-- ==== Sys2Proof/Certificates/Slice0/Obligations.lean ====
section
/-!
DEFINITION. What is claimed of the model, one statement each, from the numbered rules of the spec.
-/

open Sys2Proof Sys2Proof.Machine

/-! ### Steps, reset and start-up -/

/-- A step takes the command at the front of the queue and is that command's effect on the state with the queue's rest; on an empty queue it changes
nothing, which is the model's choice (log 3). Every command completes and leaves the queue as it was, RESET by the model's choice (log 6). -/
def Obligations.StepTakesFrontCommand : Prop :=
  (∀ (c : Instr) (rest : List Instr) (s : State), step (s.setPending (c :: rest)) = exec c (s.setPending rest)) ∧
  (∀ s : State, s.pending = [] → step s = .next s) ∧
  ∀ (c : Instr) (s : State), Takes c s (fun t => t.pending = s.pending)

/-- RESET gives every block its values after reset, with the levels of the input pins as they stand (R178, R6, R8, R38, R40, R109, R133, R140,
R144). The values of RESET that are the model's choice (log 5, log 6) are not among them. -/
def Obligations.ResetClearsEveryBlock : Prop :=
  ∀ s : State, Takes .reset s (fun t =>
    t.lc = { tx := [], rx := false, report := none } ∧
    t.sck = { time := 0, isSet := false, running := 0, secMs := 0, sub := 0 } ∧
    t.ct = [] ∧ t.evac = { timer := none, lastClaim := none, level := false } ∧ t.clt = [] ∧
    t.cmp.queue = [] ∧ t.cmp.seq = 0 ∧ t.cmp.templates = [] ∧
    (∀ p, t.pm.get p =
      { stationNo := 0, occ := (s.pm.get p).occ, doors := (s.pm.get p).doors, approach := (s.pm.get p).approach, accOcc := false,
        wait := none, state := .empty, bound := none, hold := none, lastOutcome := .none, lastClaim := none }) ∧
    (∀ z, (t.za.get z).arb = Arb.bare .outOfService ∧ (t.za.get z).row = AccRow.allRefuse ∧ (t.za.get z).base = 0 ∧
      (t.za.get z).floor = 0 ∧ (t.za.get z).service = false ∧ (t.za.get z).ampFault = (s.za.get z).ampFault ∧
      (t.za.get z).staged = none ∧ (t.za.get z).pair = none ∧ (t.za.get z).neighbours = Quad.const false) ∧
    (∀ c, t.rch.get c = none) ∧ (∀ z, t.audio.get z = 0) ∧ t.sp = { pointer := .i3, reading := none } ∧
    (∀ z, t.lu.zones.get z =
      { k := 0, window := none, lastPlayEnd := none, level := 0, mult := 32, initK := 0, q := 0, slope := 0, cmax := 0, dnight := 0,
        dspill := 0 }) ∧
    (∀ n ∈ t.lu.pclass, n = 0) ∧ t.lu.eFloor = 0 ∧ t.lu.nightStart = 0 ∧ t.lu.nightEnd = 0 ∧
    t.sul.mode = .loading ∧ t.sul.resetHeld = true ∧ t.pins = s.pins)

/-- LEAVE_RESET reads the straps and enters LOADING at the header; the strap value gives the node's number and the node section it takes
(R178, R179, R181). -/
def Obligations.StrapsGiveTheNumber : Prop :=
  ∀ (strap : BitVec 6) (s : State), s.sul.resetHeld = true → Takes (.leaveReset strap) s (fun t =>
    t = { s with sul := t.sul } ∧ t.sul.mode = .loading ∧ t.sul.resetHeld = false ∧ t.sul.phase = .header ∧ t.sul.strap = strap ∧
    (1 ≤ strap.toNat → strap.toNat ≤ 48 → t.nodeNo = some strap.toNat ∧ t.sectionNo = strap.toNat) ∧
    (strap.toNat = 0 → t.nodeNo = none ∧ t.sectionNo = 48) ∧
    (49 ≤ strap.toNat → t.nodeNo = none ∧ t.sectionNo = strap.toNat - 48))

/-- HEADER_READ_DONE: a format other than 2 ends loading with FORMAT, a length other than 20,359 with LENGTH, both in STORE_FAULT; a header that
passes begins the configuration area with its sum noted. The header's fields are read most significant byte first, which is the model's choice (log
49). In STORE_FAULT the platforms and zones take the fixed values of that mode (R40, R41, R109, R124, R177, R182, R184). -/
def Obligations.HeaderIsTested : Prop :=
  ∀ (b : List Byte) (s : State), b.length = 8 → s.loadsNow .header = true →
    (field b 0 2 ≠ 2 → Takes (.headerReadDone b) s (EntersStoreFault .format s)) ∧
    (field b 0 2 = 2 → field b 4 4 ≠ 20359 → Takes (.headerReadDone b) s (EntersStoreFault .length s)) ∧
    (field b 0 2 = 2 → field b 4 4 = 20359 → Takes (.headerReadDone b) s (fun t =>
      t = { s with sul := { s.sul with phase := .config, headerSum := field b 2 2, sum := 0, image := [] } }))

/-- CONFIG_READ_DONE short of the area's end adds the bytes to the area read and to the running sum, and nothing else changes. The one that completes
the area decides the mode: a sum that differs from the header's enters STORE_FAULT with SUM; one that agrees enters RUNNING with a node number and
LISTEN_ONLY without, every zone, level parameter, template and field of the configuration taking the value its bytes of the area give it, clamped, a
platform whose OCC is high beginning its debounce wait, and in RUNNING EVAC already high starting the evacuation repeat, which hands over one
origination unless it is busy; with EVAC low its timer and last claim stay as they were. That template and target numbers are clamped to 31 is the
model's reading (log 40), that the default evac period is never put in a stored value's place its choice (log 57), and what STORE_FAULT leaves the
zones and their service flags its reading (log 13) (R38, R40, R41, R79, R109, R124, R136, R144, R180, R181,
R182). -/
def Obligations.ConfigurationAreaIsRead : Prop :=
  ∀ (b : List Byte) (s : State), s.loadsNow .config = true →
    let sum := (s.sul.sum + (b.map BitVec.toNat).sum) % 65536
    let image := s.sul.image ++ b
    let sec := (image.drop (74 * (s.sectionNo - 1))).take 74
    (image.length < 20359 → Takes (.configReadDone b) s (fun t => t = { s with sul := { s.sul with image := image, sum := sum } })) ∧
    (image.length = 20359 → sum ≠ s.sul.headerSum → Takes (.configReadDone b) s (EntersStoreFault .sum s)) ∧
    (image.length = 20359 → sum = s.sul.headerSum → Takes (.configReadDone b) s (fun t =>
      t = { s with evac := t.evac, pm := t.pm, cmp := t.cmp, za := t.za, lu := t.lu, sul := t.sul, cfg := t.cfg } ∧
      t.sul.mode = (if s.nodeNo.isSome then .running else .listenOnly) ∧ t.sul.outcome = some .good ∧ t.sul.strap = s.sul.strap ∧
      t.cfg = loadCfg image sec ∧ t.lu = loadLu sec ∧ t.cmp.templates = (loadCmp image).templates ∧ t.cmp.bases = (loadCmp image).bases ∧
      AreaLoaded image sec t ∧
      (∀ p, t.pm.get p = { s.pm.get p with
        stationNo := min 99 (field8 sec (if p = .p0 then 0 else 1)),
        wait := if (s.pm.get p).occ = (s.pm.get p).accOcc then none else some (1000 * min 10 (field8 sec 47)) }) ∧
      (∀ z, t.za.get z =
          loadZone (zoneBytes sec z) z (loadPaired (field8 sec 46) z) (s.za.get z).ampFault (s.za.get z.partner).ampFault ∧
        ZoneLoaded sec z (s.za.get z).ampFault (s.za.get z.partner).ampFault (t.za.get z) (t.lu.zones.get z)) ∧
      t.cmp = { t.cmp with queue := t.cmp.queue, seq := 0 } ∧
      (s.nodeNo = none → t.evac = s.evac ∧ t.cmp.queue = []) ∧
      (s.nodeNo ≠ none → s.pins.evac = false → t.evac = { s.evac with level := false } ∧ t.cmp.queue = []) ∧
      (s.nodeNo ≠ none → s.pins.evac = true →
        t.evac = { s.evac with level := true, timer := some (1000 * max 10 (min 120 (field8 sec 73))) } ∧
        let busy := Busy { t with cmp := { t.cmp with queue := [] } } .evac s.evac.lastClaim
        (busy → t.cmp.queue = []) ∧
        (¬ busy → t.cmp.queue =
          [{ source := .evac, cls := 0, sync := .loose, template := min 31 (field8 sec 71), target := .set (min 31 (field8 sec 72)), call := none,
             queuedAt := s.now, own := true }]))))

/-! ### Time -/

/-- SECOND_BOUNDARY, once 1,000 ms have elapsed, takes them off the count and advances a SET clock by one, up to 107,999; besides the clock only
calls, platforms, originations and the marks of claims can change, and with no call nothing else does. The steps are taken by ascending key and index,
and after them, on an advance, the expiry tests, so that a WAITING call whose limit is reached is FINISHED(EXPIRED) and every other call keeps its
state; the limit is 7,201 s after the reference time, and 107,999 at most (R3, R6, R15, R22; that the steps come first is log 15). -/
def Obligations.SecondBoundaryAdvances : Prop :=
  (∀ (s : State) (c : Call), s.expires c = true ↔
    c.state = .waiting ∧ s.sck.isSet = true ∧ ∃ r, c.RefersTo r ∧ min (r + 7201) 107999 ≤ s.sck.time) ∧
  ∀ s : State, 1000 ≤ s.sck.secMs → Takes .secondBoundary s (fun t =>
    t = { s with sck := t.sck, ct := t.ct, pm := t.pm, cmp := t.cmp, clt := t.clt } ∧
    t.sck = { s.sck with
      secMs := s.sck.secMs - 1000, time := if s.sck.isSet then min 107999 (s.sck.time + 1) else s.sck.time } ∧
    (s.ct = [] → t = { s with sck := t.sck }) ∧
    (let advances := s.sck.isSet && decide (s.sck.time < 107999)
     let w := (s.ct.flatMap (fun c => (List.range c.steps.length).map (fun i => (c.key, i)))).foldl
       (fun w r => w.tickStep advances r.1 r.2) { s with sck := t.sck }
     t = if advances then (w.ct.map (·.key)).foldl State.expiryTest w else w) ∧
    (KeysAscend s → Expires (s.sck.isSet = true ∧ s.sck.time < 107999) s t))

/-- An ON_ARRIVE or ON_DISPATCH step that is COUNTING with two seconds or more remaining has one second less after a second boundary, and counts on,
while its call is BOUND. What one step of a live call does at the boundary: a COUNTING AT step fires when an advance reaches its fire time and
recounts to it before; an advance to an EVERY step's window end closes it before anything else, one into the window opens an IDLE one, and an open one
counts its period, a gated one only while its call is BOUND; the delay steps count, and fire when no second remains; a MANUAL step does nothing, and
no step of a call in HANDING_OFF, FINISHED or DROPPING does anything. And what a firing does: busy, as spelt out (while its last claim is in use in a
zone or channel, final in every zone's record or not, the model's choice, log 62), the step is SKIPPED(BUSY), with no seconds remaining (log 52), or
reloads; with an amendment staged it is HELD (with 0 seconds, log 16); else it is counted, takes the state of its mode, and one origination is handed
over, with the mark own of the model (log 18). A window that opens loads the period and clears the not-loaded flag (the model's reading, log 36) (R22,
R24, R25, R26, R27, R28, R30, R31, R32, R36, R37). -/
def Obligations.CountingStepLosesASecond : Prop :=
  (∀ (s : State) (k i n : Nat) (c : Call) (st : Step), 1000 ≤ s.sck.secMs → KeysAscend s → s.findCall k = some c → c.state = .bound →
    c.steps[i]? = some st → (st.spec.mode = .onArrive ∨ st.spec.mode = .onDispatch) → st.timer.state = .counting →
    st.timer.remaining = some (n + 2) →
    Takes .secondBoundary s (fun t => ∃ st', t.findStep k i = some st' ∧ st'.spec = st.spec ∧ st'.timer.state = .counting ∧
      st'.timer.remaining = some (n + 1) ∧ st'.timer.fires = st.timer.fires)) ∧
  (∀ (w : State) (k i : Nat) (c : Call) (advances : Bool), w.findCall k = some c → c.state ≠ .waiting → c.state ≠ .bound →
    w.tickStep advances k i = w ∧ w.fireStep k i = w) ∧
  ∀ (w : State) (k i : Nat) (c : Call) (st : Step), w.findCall k = some c → w.findStep k i = some st → (c.state = .waiting ∨ c.state = .bound) →
    (∀ advances : Bool,
      let t := w.tickStep advances k i
      (st.spec.mode = .atTime →
        (advances = false ∨ st.timer.state ≠ .counting → t = w) ∧
        (∀ ft, advances = true → st.timer.state = .counting → st.spec.fireTime c = some ft →
          (ft ≤ w.sck.time → t = w.fireStep k i) ∧
          ((w.sck.time : Int) < ft → t = w.modTimer k i (fun m => { m with remaining := some (ft - w.sck.time).toNat })))) ∧
      (st.spec.mode = .every → ∀ start stop, st.spec.fireTime c = some start → st.spec.closeTime c = some stop →
        (advances = true → st.timer.state = .idle ∨ stop ≤ w.sck.time →
          st.timer.state = .idle ∨ st.timer.state = .counting ∨ st.timer.state = .held → WindowTested w t k i st start stop) ∧
        (advances = false → st.timer.state = .idle → t = w) ∧
        (∀ r, advances = false ∨ (w.sck.time : Int) < stop → st.timer.state = .counting → st.timer.remaining = some r →
          (st.spec.gate = false ∨ c.state = .bound → CountsDown w t k i r) ∧ (st.spec.gate = true → c.state = .waiting → t = w)) ∧
        (advances = false ∨ (w.sck.time : Int) < stop → st.timer.state = .held → t = w)) ∧
      (st.spec.mode = .onArrive ∨ st.spec.mode = .onDispatch →
        (st.timer.state ≠ .counting → t = w) ∧ ∀ r, st.timer.state = .counting → st.timer.remaining = some r → CountsDown w t k i r) ∧
      (st.spec.mode = .manual → t = w)) ∧
    (w.stepBusy k i st = true ↔ Busy w (.step k i) st.timer.lastClaim) ∧
    let t := w.fireStep k i
    let p := st.spec
    let n := min 255 (st.timer.fires + 1)
    let full := 0 < p.limit ∧ p.limit ≤ n
    (w.stepBusy k i st = true →
      (p.mode = .every → t = w.modTimer k i (fun m =>
        { m with last := .skippedBusy, state := .counting, remaining := some p.period, notLoaded := false })) ∧
      (p.mode ≠ .every → t = w.modTimer k i (fun m => { m with last := .skippedBusy, state := .skipped .busy, remaining := none }))) ∧
    (w.stepBusy k i st = false → c.staged ≠ none →
      t = w.modTimer k i (fun m => { m with state := .held, remaining := if p.mode = .manual then none else some 0 })) ∧
    (w.stepBusy k i st = false → c.staged = none → ∃ v : State, v = { w with ct := v.ct } ∧ OthersKept k w v ∧
      t = v.pushOrig
        { source := .step k i, cls := p.cls, sync := p.sync, template := p.template, target := .set p.target, call := some (k, i),
          queuedAt := w.now, own := true } ∧
      ∃ st', v.findStep k i = some st' ∧ st'.spec = p ∧ st'.timer.last = .originated ∧ st'.timer.fires = n ∧
        st'.timer.lastClaim = st.timer.lastClaim ∧
        (p.mode = .every → ¬ full → st'.timer.state = .counting ∧ st'.timer.remaining = some p.period ∧ st'.timer.notLoaded = false) ∧
        (p.mode = .every ∨ p.mode = .onDispatch → full → st'.timer.state = .done ∧ st'.timer.remaining = none) ∧
        (p.mode = .onDispatch → ¬ full → st'.timer.state = .fired ∧ st'.timer.remaining = none) ∧
        (p.mode = .atTime ∨ p.mode = .onArrive ∨ p.mode = .manual → st'.timer.state = .fired ∧ st'.timer.remaining = none))

/-- A CLOCK frame that is heard sets the clock to the value it orders and counts the second afresh; one whose value is outside the service day changes
no clock. Besides the clock only calls, platforms, originations and the marks of claims can change, and with no call nothing else does. The steps are
taken by ascending key and index, as at a forward jump when the clock was UNSET or the value is greater, as at a backward one when it is less, and
after them the expiry tests. At a forward jump an IDLE or COUNTING AT step and an EVERY step's window are tested afresh; at a backward one a COUNTING
AT step, and a SKIPPED one that has not fired and whose time lies ahead, counts to its time; no other step of a live call changes, and none of a call
in HANDING_OFF, FINISHED or DROPPING. A window that opens loads the period and clears the not-loaded flag (the model's reading, log 36), a step
SKIPPED(LATE) has no remaining seconds (the model's choice, log 52), and the time field of a DAY_START is not tested (log 12) (R7, R15, R34, R35, R36,
R37; that the steps come first is log 15). -/
def Obligations.ClockFrameSetsTheClock : Prop :=
  (∀ (f : RxFrame) (s : State), s.hears kindClock f = true →
    (∀ v, (field8 f.body 0 = 0 ∧ v = field f.body 1 3 ∧ v ≤ 107999) ∨ (field8 f.body 0 = 1 ∧ v = 0) → Takes (.clock f) s (fun t =>
      t = { s with lc := { s.lc with rx := false }, sck := t.sck, ct := t.ct, pm := t.pm, cmp := t.cmp, clt := t.clt } ∧
      t.sck = { s.sck with time := v, isSet := true, secMs := 0 } ∧
      (s.ct = [] → t = { s with lc := { s.lc with rx := false }, sck := t.sck }) ∧
      (let refs := s.ct.flatMap (fun c => (List.range c.steps.length).map (fun i => (c.key, i)))
       let u : State := { s with lc := { s.lc with rx := false }, sck := t.sck }
       let w := if s.sck.isSet = false ∨ s.sck.time < v then refs.foldl (fun w r => w.forwardStep r.1 r.2) u
         else if v < s.sck.time then refs.foldl (fun w r => w.backwardStep r.1 r.2) u else u
       t = (w.ct.map (·.key)).foldl State.expiryTest w) ∧
      (KeysAscend s → Expires True s t))) ∧
    (field8 f.body 0 = 0 → 107999 < field f.body 1 3 → Takes (.clock f) s (fun t => t = { s with lc := { s.lc with rx := false } }))) ∧
  (∀ (w : State) (k i : Nat) (c : Call), w.findCall k = some c → c.state ≠ .waiting → c.state ≠ .bound →
    w.forwardStep k i = w ∧ w.backwardStep k i = w) ∧
  ∀ (w : State) (k i : Nat) (c : Call) (st : Step), w.findCall k = some c → w.findStep k i = some st → (c.state = .waiting ∨ c.state = .bound) →
    let ahead := w.forwardStep k i
    let back := w.backwardStep k i
    (st.spec.mode = .atTime → ∀ ft, st.spec.fireTime c = some ft →
      (st.timer.state = .counting ∨ st.timer.state = .idle → AtTested w ahead k i ft) ∧
      (st.timer.state ≠ .counting → st.timer.state ≠ .idle → ahead = w) ∧
      (let counts := st.timer.state = .counting ∨ ((∃ r, st.timer.state = .skipped r) ∧ st.timer.fires = 0 ∧ (w.sck.time : Int) < ft)
       (counts → back = w.modTimer k i (fun m => { m with state := .counting, remaining := some (ft - w.sck.time).toNat })) ∧
       (¬ counts → back = w))) ∧
    (st.spec.mode = .every → back = w ∧ ∀ start stop, st.spec.fireTime c = some start → st.spec.closeTime c = some stop →
      (st.timer.state = .idle ∨ st.timer.state = .counting ∨ st.timer.state = .held → WindowTested w ahead k i st start stop) ∧
      (st.timer.state ≠ .idle → st.timer.state ≠ .counting → st.timer.state ≠ .held → ahead = w)) ∧
    (st.spec.mode ≠ .atTime → st.spec.mode ≠ .every → ahead = w ∧ back = w) ∧
    (st.spec.fireTime c = none → ahead = w ∧ back = w)

/-- SAMPLING_INSTANT advances the running time and counts every timer of it down by one ms, and samples each zone's comparator: a zone quiet for
tracking counts the sample, high when the envelope exceeds Vref x (k + 1)/32, in the window it has or in a new one; a window of 500 samples takes no
more. The reference and the envelopes are operands of the model (log 28), and each zone goes by its own state, window and last play end, in a WHOLE
pair too (the model's choice, log 60) (R8, R145, R146, R147; for the window's last sample, log 38; for the timers at 0, log 30). -/
def Obligations.MillisecondIsCounted : Prop :=
  ∀ (vref : Nat) (env : Quad Nat) (s : State), s.sck.running < 1099511627775 → Takes (.samplingInstant vref env) s (fun t =>
    t = { s with
      sck := { s.sck with running := s.sck.running + 1, secMs := s.sck.secMs + 1, sub := 0 },
      evac := { s.evac with timer := s.evac.timer.map (· - 1) },
      pm := s.pm.map (fun p => { p with wait := p.wait.map (· - 1) }),
      ct := s.ct.map (fun c => { c with handoff := c.handoff.map (fun h => { h with timer := h.timer.map (· - 1) }) }),
      lu := t.lu } ∧
    t.lu = { s.lu with zones := t.lu.zones } ∧
    ∀ z, t.lu.zones.get z = { s.lu.zones.get z with window := (t.lu.zones.get z).window } ∧
      (let tracked := (s.sul.mode = .running ∨ s.sul.mode = .listenOnly) ∧
          ((s.za.get z).arb.state = .idle ∨ (s.za.get z).arb.state = .leadIn) ∧
          ∀ e, (s.lu.zones.get z).lastPlayEnd = some e → e + 1000 < s.sck.running + 1
        let high := if vref * ((s.lu.zones.get z).k + 1) < 32 * env.get z then 1 else 0
        (¬ tracked → (t.lu.zones.get z).window = (s.lu.zones.get z).window) ∧
        (tracked → (s.lu.zones.get z).window = none → (t.lu.zones.get z).window = some { taken := 1, high := high }) ∧
        (tracked → ∀ w, (s.lu.zones.get z).window = some w → (t.lu.zones.get z).window =
          some (if w.taken < 500 then { taken := w.taken + 1, high := w.high + high } else w))))

/-- A tracker window of 500 samples moves the ambient estimate: up by one to at most 31 on 250 samples high or more, down by one to at least 0 on 50
or fewer, and not at all between; the window is absent again and nothing else changes (R147, R148). HANGOVER_EXPIRY changes no state, because whether
a zone is quiet follows from its last play end and the running time (log 34): a silent zone is quiet exactly when more than 1,000 ms have passed
since it last played (R146), its own state and its own last play end deciding, in a WHOLE pair too (the model's choice, log 60). -/
def Obligations.TrackerFollowsTheWindow : Prop :=
  ∀ (z : ZoneId) (s : State),
    (∀ w, (s.lu.zones.get z).window = some w → 500 ≤ w.taken → Takes (.trackerWindowComplete z) s (fun t =>
      t = { s with lu := { s.lu with zones := t.lu.zones } } ∧ (∀ y, y ≠ z → t.lu.zones.get y = s.lu.zones.get y) ∧
      t.lu.zones.get z = { s.lu.zones.get z with k := (t.lu.zones.get z).k, window := none } ∧
      (250 ≤ w.high → (t.lu.zones.get z).k = min 31 ((s.lu.zones.get z).k + 1)) ∧
      (50 < w.high → w.high < 250 → (t.lu.zones.get z).k = (s.lu.zones.get z).k) ∧
      (w.high ≤ 50 → (t.lu.zones.get z).k = (s.lu.zones.get z).k - 1))) ∧
    Takes (.hangoverExpiry z) s (fun t => t = s ∧
      ((s.za.get z).arb.state = .idle ∨ (s.za.get z).arb.state = .leadIn →
        ∀ e, (s.lu.zones.get z).lastPlayEnd = some e → (s.quiet z = true ↔ e + 1000 < s.sck.running)))

/-- SAMPLE_DUE, at a channel with a sample left in its phrase and due, hands the sample to every attached zone at that zone's own multiplier, rounded
down, and moves the position on by one, past the last sample to the phrase length (log 54); no other zone or channel hears of it. The sample is that
of the read-ahead block at the cursor and the position, and 0 where that block has not arrived; in tone mode segments 0, 2, 4, 6 and 8 sound, 8
samples of +8,192 and 8 of -8,192 in turn, and the others are 0, the cursor counting the segments (log 31). A block whose last sample this was leaves
its slot, and a channel with a slot empty, a block unread and no read of its own under way has its request pending; the port, where it is IDLE, grants
one. A sample is due at its bind instant in sixteenths of a ms and may be taken within the millisecond of its due instant (the model's reading, log 7)
(R136, R137, R139, R140, R141, R157). -/
def Obligations.SampleGoesToAttachedZones : Prop :=
  ∀ (c : ChanId) (s : State) (ch : Chan) (i : Nat), s.rch.get c = some ch → ch.cursor = some i → ch.pos < s.partLen ch i →
    ch.bind16 + ch.delivered ≤ 16 * s.sck.running + 15 →
    let here := fun (b : Block) => b.idx = i ∧ b.pos ≤ ch.pos ∧ ch.pos < b.pos + b.samples.length
    (ch.tone = true → s.partLen ch i = 16000 ∧
      ch.sample = if i % 2 = 1 then 0 else if ch.pos % 16 < 8 then 8192 else -8192) ∧
    (ch.tone = false → (∀ d, s.dirEntry (ch.phrases.getD i 0) = some d → s.partLen ch i = d.len) ∧
      ((∀ b ∈ ch.slots, ¬ here b) → ch.sample = 0) ∧
      ∀ l b m, ch.slots = l ++ b :: m → here b → (∀ x ∈ l, ¬ here x) → ch.sample = b.samples.getD (ch.pos - b.pos) 0) ∧
    Takes (.sampleDue c) s (fun t =>
      t = { s with sck := { s.sck with sub := t.sck.sub }, audio := t.audio, rch := t.rch, sp := t.sp } ∧
      (∀ z, t.audio.get z =
        if ch.attached.get z = true then Int.fdiv (ch.sample * ((s.lu.zones.get z).mult : Int)) 32768 else s.audio.get z) ∧
      (∀ d, d ≠ c → t.rch.get d = s.rch.get d) ∧
      Granted { s with sck := t.sck, audio := t.audio, rch := t.rch } t ∧
      ∃ ch', t.rch.get c = some ch' ∧ ch' = { ch with pos := ch.pos + 1, delivered := ch.delivered + 1, slots := ch'.slots, request := ch'.request } ∧
        ch'.slots = ch.slots.filter (fun b => !(decide (b.idx = i) && decide (b.pos + b.samples.length ≤ ch.pos + 1))) ∧
        (ch'.request = true ↔ ch.request = true ∨ (ch.tone = false ∧ ch'.slots.length < 2 ∧ ch.unread ≠ none ∧
          ¬ ∃ r, s.sp.reading = some r ∧ r.chan = c ∧ r.stale = false)))

/-! ### Call frames -/

/-- A CALLSET that fails a test of R11 is answered with the code of the first it fails and changes nothing. One that passes them installs its call in
WAITING with no steps, its expected times the scheduled ones, and is answered DONE; nothing else changes, unless its expiry limit is passed, when the
call is FINISHED(EXPIRED) at once and R5 applies to its key. Whose platform a number is, and the value tests, are spelt out (R2, R3, R11, R12, R15,
R19). -/
def Obligations.CallsetInstalls : Prop :=
  (∀ (s : State) (n : Nat) (p : PlatId), s.localPlat n = some p ↔
    1 ≤ n ∧ n ≤ 99 ∧ (s.pm.get p).stationNo = n ∧ (p = .p1 → (s.pm.get .p0).stationNo ≠ n)) ∧
  (∀ (b : CallBody) (k : CallKind), b.values? = some k ↔ CallValues b k) ∧
  (∀ b : List Byte, (readCallset b).lengthFits = true ↔ b.length = 16 + 2 * field8 b 15) ∧
  ∀ (f : RxFrame) (s : State), CallFrameTaken kindCallset f s →
    let b := readCallset f.body
    (∀ code, callsetRefusal s b = some code →
      TakesAnswering (.callset f) f kindCallset b.key code s (fun u => u = { s with lc := { s.lc with rx := false } })) ∧
    ∀ (p : PlatId) (k : CallKind), s.localPlat b.platform = some p → b.values? = some k → s.findCall b.key = none → s.ct.length < 64 →
    let c : Call :=
      { key := b.key, kind := k, platform := p, schArr := b.schArr, schDep := b.schDep, expArr := b.schArr, expDep := b.schDep,
        dest := if b.dest = 0 then none else some b.dest, origin := if b.origin = 0 then none else some b.origin,
        coaches := if b.coaches = 0 then none else some b.coaches, points := b.points, changed := false, steps := [],
        state := .waiting, staged := none, handoffFailed := false, handoff := none }
    TakesAnswering (.callset f) f kindCallset b.key .done s (fun u =>
      u = { s with lc := { s.lc with rx := false }, ct := u.ct, pm := u.pm, cmp := u.cmp, clt := u.clt } ∧ OthersKept b.key s u ∧
      (s.expires c = false → u.findCall b.key = some c ∧ u = { s with lc := { s.lc with rx := false }, ct := insertCall c s.ct }) ∧
      (s.expires c = true → u.findCall b.key = some { c with state := .finished .expired }))

/-- A frame for a call that names no call, or a call in HANDING_OFF, FINISHED or DROPPING, is refused by that and changes nothing: CALLAMEND, CALLPLAN
and TRIGGER. No call frame acts outside RUNNING: in STORE_FAULT one addressed to this node by number is answered STORE_FAULT, and one to all nodes is
discarded; in LOADING and LISTEN_ONLY each is discarded, and so is one that fails reception, and one whose source is this node itself: CALLSET,
CALLAMEND, CALLPLAN, CALLDROP, TRIGGER and HANDOFF (R9, R10, R33, R56, R57, R164, R184). -/
def Obligations.FramesForACallAreRefusedByItsState : Prop :=
  (∀ (f : RxFrame) (s : State),
    let same := fun (u : State) => u = { s with lc := { s.lc with rx := false } }
    let outside := fun (c : Instr) (kind : Nat) =>
      (s.sul.mode = .storeFault → s.hears kind f = true → s.fromUs f = false →
        (s.forUsAlone f = true → TakesAnswering c f kind (field f.body 0 2) .storeFault s same) ∧
        (s.forUsAlone f = false → Takes c s same)) ∧
      (s.sul.mode = .loading ∨ s.sul.mode = .listenOnly ∨ s.hears kind f = false ∨ s.fromUs f = true → Takes c s same)
    outside (.callset f) kindCallset ∧ outside (.callamend f) kindCallamend ∧ outside (.callplan f) kindCallplan ∧
    outside (.calldrop f) kindCalldrop ∧ outside (.trigger f) kindTrigger ∧ outside (.handoff f) kindHandoff) ∧
  ∀ (f : RxFrame) (s : State) (code : AnswerCode), keyRefusal s (field f.body 0 2) = some code →
    (CallFrameTaken kindCallamend f s →
      TakesAnswering (.callamend f) f kindCallamend (field f.body 0 2) code s (fun u => u = { s with lc := { s.lc with rx := false } })) ∧
    (CallFrameTaken kindCallplan f s →
      TakesAnswering (.callplan f) f kindCallplan (field f.body 0 2) code s (fun u => u = { s with lc := { s.lc with rx := false } })) ∧
    (CallFrameTaken kindTrigger f s →
      TakesAnswering (.trigger f) f kindTrigger (field f.body 0 2) code s (fun u => u = { s with lc := { s.lc with rx := false } }))

/-- A CALLAMEND or CALLPLAN that passes its tests is merged into its call's staged amendment, or into one with no part, and answered STAGED; no other
field of the call, no other call and nothing else changes. A CALLAMEND that fails the value tests, which are spelt out, is refused BAD_VALUE, and one
whose values pass but whose platform no node serves NOT_OWNER; a CALLPLAN whose values give no plan part, a form above 1 among them (log 12), is
refused BAD_VALUE; none of them changes anything. The values that give a plan part are spelt out: a REPLACE of at most six steps, or a REVISE of one
step or more with distinct indices, each in the plan it revises and of the mode it has there, every field within its values (R20, R56, R57, R58). -/
def Obligations.AmendmentsAreStaged : Prop :=
  (∀ (b : PlanBody) (plan : List StepSpec),
    let gives := fun (r : StepRec) (p : StepSpec) =>
      [StepMode.atTime, .every, .onArrive, .onDispatch, .manual][r.mode]? = some p.mode ∧ p.Fits ∧
      p = { mode := p.mode, ref := r.ref, offset := r.offset, period := r.period, windowEnd := r.windowEnd, gate := r.gate, limit := r.limit, cls := r.cls,
            sync := r.sync, template := r.template, target := r.target, retry := r.retry }
    (∀ l, b.part? plan = some (.replace l) ↔ b.lengthFits = true ∧ b.form = 0 ∧ b.recs.length ≤ 6 ∧ List.Forall₂ gives b.recs l) ∧
    (∀ v, b.part? plan = some (.revise v) ↔ b.lengthFits = true ∧ b.form = 1 ∧ 1 ≤ b.recs.length ∧ (b.recs.map (·.index)).Nodup ∧
      List.Forall₂ (fun r x => x.1 = r.index ∧ gives r x.2 ∧ ∃ old, plan[r.index]? = some old ∧ x.2.mode = old.mode) b.recs v)) ∧
  (∀ b : List Byte, (readCallplan b).form = field8 b 2 ∧ (readCallplan b).recs.length = field8 b 3 ∧
    ((readCallplan b).lengthFits = true ↔ b.length = 4 + 12 * field8 b 3)) ∧
  ∀ (f : RxFrame) (s : State) (c : Call), s.findCall (field f.body 0 2) = some c → (c.state = .waiting ∨ c.state = .bound) →
    (CallFrameTaken kindCallamend f s → (readCallamend f.body).valuesOk c = true → s.unserved (readCallamend f.body).parts = false →
      TakesAnswering (.callamend f) f kindCallamend (field f.body 0 2) .staged s (fun u =>
        u = { s with lc := { s.lc with rx := false }, ct := u.ct } ∧ OthersKept (field f.body 0 2) s u ∧
        u.findCall (field f.body 0 2) =
          some { c with staged := some ((c.staged.getD Amendment.empty).merge (readCallamend f.body).parts) })) ∧
    (CallFrameTaken kindCallplan f s → ∀ part, (readCallplan f.body).part? c.revisedPlan = some part →
      TakesAnswering (.callplan f) f kindCallplan (field f.body 0 2) .staged s (fun u =>
        u = { s with lc := { s.lc with rx := false }, ct := u.ct } ∧ OthersKept (field f.body 0 2) s u ∧
        u.findCall (field f.body 0 2) =
          some { c with staged := some ((c.staged.getD Amendment.empty).merge { Amendment.empty with plan := some part }) })) ∧
    let b := readCallamend f.body
    let a := b.parts
    let old := c.staged.getD Amendment.empty
    let first := fun (x y z : Option Nat) => if x ≠ none then x else if y ≠ none then y else z
    let same := fun (u : State) => u = { s with lc := { s.lc with rx := false } }
    (b.valuesOk c = true ↔
      (a.arr ≠ none ∨ a.dep ≠ none ∨ a.platform ≠ none ∨ a.coaches ≠ none ∨ a.points ≠ none ∨ a.plan ≠ none) ∧
      (∀ x, a.arr = some x → x ≤ 107999) ∧ (∀ x, a.dep = some x → x ≤ 107999) ∧ (∀ n, a.coaches = some n → 1 ≤ n ∧ n ≤ 16) ∧
      (∀ l, a.points = some l → l.length ≤ 20 ∧ ∀ x ∈ l, 1 ≤ x ∧ x ≤ 2047) ∧ (∀ n, a.platform = some n → 1 ≤ n ∧ n ≤ 99) ∧
      b.countFits = true ∧
      (c.kind = .turn → ∀ x y, first a.arr old.arr c.expArr = some x → first a.dep old.dep c.expDep = some y → x ≤ y)) ∧
    (CallFrameTaken kindCallamend f s → b.valuesOk c = false →
      TakesAnswering (.callamend f) f kindCallamend (field f.body 0 2) .badValue s same) ∧
    (CallFrameTaken kindCallamend f s → b.valuesOk c = true → s.unserved a = true →
      TakesAnswering (.callamend f) f kindCallamend (field f.body 0 2) .notOwner s same) ∧
    (CallFrameTaken kindCallplan f s → (readCallplan f.body).part? c.revisedPlan = none →
      TakesAnswering (.callplan f) f kindCallplan (field f.body 0 2) .badValue s same)

/-- Staging merges part by part: a part the frame does not carry stays, one it carries replaces the staged one, a REPLACE discards any plan part
staged, and a REVISE replaces staged revisions of the same index, keeps the others, and is written at once into a staged list. Where no amendment is
staged the frame's parts are the record. Staging changes nothing else and swaps nothing (R58). -/
def Obligations.StagingMergesPartByPart : Prop :=
  (∀ (s : State) (key : Nat) (new : Amendment) (c : Call), s.findCall key = some c →
    let t := s.stage key new
    t = { s with ct := t.ct } ∧ OthersKept key s t ∧
    (c.staged = none → t.findCall key = some { c with staged := some new }) ∧
    ∀ old, c.staged = some old → t.findCall key = some { c with staged := some (old.merge new) }) ∧
  ∀ old new : Amendment,
    let m := old.merge new
    (new.arr = none → m.arr = old.arr) ∧ (new.arr ≠ none → m.arr = new.arr) ∧
    (new.dep = none → m.dep = old.dep) ∧ (new.dep ≠ none → m.dep = new.dep) ∧
    (new.platform = none → m.platform = old.platform) ∧ (new.platform ≠ none → m.platform = new.platform) ∧
    (new.coaches = none → m.coaches = old.coaches) ∧ (new.coaches ≠ none → m.coaches = new.coaches) ∧
    (new.points = none → m.points = old.points) ∧ (new.points ≠ none → m.points = new.points) ∧
    (new.plan = none → m.plan = old.plan) ∧
    (∀ l, new.plan = some (.replace l) → m.plan = some (.replace l)) ∧
    (∀ r, new.plan = some (.revise r) → old.plan = none → m.plan = some (.revise r)) ∧
    (∀ r o, new.plan = some (.revise r) → old.plan = some (.revise o) → ∃ l, m.plan = some (.revise l) ∧
      ∀ x, x ∈ l ↔ x ∈ r ∨ (x ∈ o ∧ ∀ y ∈ r, y.1 ≠ x.1)) ∧
    (∀ r l, new.plan = some (.revise r) → old.plan = some (.replace l) → (r.map (·.1)).Nodup → ∃ l', m.plan = some (.replace l') ∧
      l'.length = l.length ∧ (∀ x ∈ r, x.1 < l.length → l'[x.1]? = some x.2) ∧
      ∀ i, (∀ x ∈ r, x.1 ≠ i) → l'[i]? = l[i]?)

/-- A CALLDROP of a call in WAITING, BOUND or FINISHED puts it in DROPPING with every step stopped, removes its originations, marks its origin entries
to end without a retry and releases it from its platform; then it withdraws each of its origin entries in arrival order (the model's choice, log 43),
and is answered DONE after that (log 42). With no such entry nothing else changes. A call in DROPPING is answered DONE and one in HANDING_OFF BUSY,
with no effect, and a key not in the table UNKNOWN_KEY (R5, R10, R13, R14). -/
def Obligations.CalldropDropsTheCall : Prop :=
  ∀ (f : RxFrame) (s : State), CallFrameTaken kindCalldrop f s →
    let key := field f.body 0 2
    (∀ c, s.findCall key = some c → c.state ≠ .dropping → c.state ≠ .handingOff →
      TakesAnswering (.calldrop f) f kindCalldrop key .done s (fun u =>
        (∃ d, u.findCall key = some d ∧ d.state = .dropping) ∧ (∀ p, (u.pm.get p).bound ≠ some key) ∧
        u = { s with
          lc := u.lc, ct := u.ct, pm := u.pm, cmp := u.cmp, clt := u.clt, za := u.za, rch := u.rch, audio := u.audio, sp := u.sp,
          lu := u.lu } ∧
        (∃ v : State, u = ((s.clt.filter (fun e => e.origin.isSome && e.hasKey key)).map (·.id)).foldl (fun w id => w.withdrawOwn false id) v ∧
          v = { s with lc := { s.lc with rx := false }, ct := v.ct, pm := v.pm, cmp := v.cmp, clt := v.clt } ∧ OthersKept key s v ∧
          v.findCall key = some ({ c with state := .dropping }.stopSteps) ∧
          v.cmp = { s.cmp with queue := s.cmp.queue.filter (fun o => !o.ofCall key) } ∧
          v.clt = s.clt.map (fun e => if e.hasKey key then { e with origin := e.origin.map (fun o => { o with noRetry := true }) } else e) ∧
          ∀ p, v.pm.get p = if (s.pm.get p).bound = some key then { s.pm.get p with bound := none } else s.pm.get p) ∧
        (s.refCount key = 0 →
          u = { s with lc := { s.lc with rx := false }, ct := u.ct, pm := u.pm, cmp := u.cmp } ∧ OthersKept key s u ∧
          u.findCall key = some ({ c with state := .dropping }.stopSteps) ∧
          u.cmp = { s.cmp with queue := s.cmp.queue.filter (fun o => !o.ofCall key) } ∧
          ∀ p, u.pm.get p = if (s.pm.get p).bound = some key then { s.pm.get p with bound := none } else s.pm.get p))) ∧
    (∀ c, s.findCall key = some c → c.state = .dropping →
      TakesAnswering (.calldrop f) f kindCalldrop key .done s (fun u => u = { s with lc := { s.lc with rx := false } })) ∧
    (∀ c, s.findCall key = some c → c.state = .handingOff →
      TakesAnswering (.calldrop f) f kindCalldrop key .busy s (fun u => u = { s with lc := { s.lc with rx := false } })) ∧
    (s.findCall key = none →
      TakesAnswering (.calldrop f) f kindCalldrop key .unknownKey s (fun u => u = { s with lc := { s.lc with rx := false } }))

/-- A call that enters FINISHED or DROPPING has its steps stopped: a step in IDLE, COUNTING or HELD becomes DONE with no seconds remaining, one in
FIRED, SKIPPED or DONE keeps its state and seconds, and its fire count, last firing, last claim and fields all stay. Its originations are removed, its
origin entries marked to end without a retry, and its platform released; nothing else changes, no other call among it. The expiry test puts a call
whose expiry limit is reached in FINISHED(EXPIRED) so, and changes nothing else (R5, R15, R37). -/
def Obligations.LeavingServiceStopsSteps : Prop :=
  (∀ (s : State) (key : Nat) (c : Call) (e : CallState), s.findCall key = some c →
    let t := s.leaveService key e
    t = { s with
      ct := t.ct, pm := t.pm, cmp := { s.cmp with queue := s.cmp.queue.filter (fun o => !o.ofCall key) },
      clt := s.clt.map (fun x => if x.hasKey key then { x with origin := x.origin.map (fun o => { o with noRetry := true }) } else x) } ∧
    OthersKept key s t ∧ (∃ d, t.findCall key = some d ∧ d.state = e ∧ { d with state := c.state, steps := c.steps } = c) ∧
    (∀ p, t.pm.get p = if (s.pm.get p).bound = some key then { s.pm.get p with bound := none } else s.pm.get p) ∧
    (s.expires c = true → s.expiryTest key = s.leaveService key (.finished .expired)) ∧ (s.expires c = false → s.expiryTest key = s)) ∧
  ∀ (s : State) (key i : Nat) (c : Call) (st : Step) (e : CallState), s.findCall key = some c → c.steps[i]? = some st →
    ∃ st', (s.leaveService key e).findStep key i = some st' ∧ st'.spec = st.spec ∧ st'.timer.fires = st.timer.fires ∧
      st'.timer.last = st.timer.last ∧ st'.timer.lastClaim = st.timer.lastClaim ∧ st'.timer.notLoaded = st.timer.notLoaded ∧
      (st.timer.state = .idle ∨ st.timer.state = .counting ∨ st.timer.state = .held →
        st'.timer.state = .done ∧ st'.timer.remaining = none) ∧
      ((∃ r, st.timer.state = .skipped r) ∨ st.timer.state = .fired ∨ st.timer.state = .done → st'.timer = st.timer)

/-- A TRIGGER of a step that is free (not busy, where a last claim final in every zone's record and still in use makes it busy by the model's choice,
log 62), its call live with no amendment staged, hands over one origination of the step's class, sync, template and target set, and is answered DONE,
or FULL where a full queue drops it at once. Before it is handed over a MANUAL step becomes FIRED with one fire more, to at most 255, and its last
firing ORIGINATED; a step of another mode does not change, and nothing else does. The origination's mark own is the model's (log 18) (R29, R30, R32,
R33, R73). -/
def Obligations.TriggerHandsOver : Prop :=
  ∀ (f : RxFrame) (s : State) (c : Call) (st : Step), CallFrameTaken kindTrigger f s →
    let key := field f.body 0 2
    let i := field8 f.body 2
    s.findCall key = some c → (c.state = .waiting ∨ c.state = .bound) → c.staged = none → c.steps[i]? = some st →
    st.timer.state ≠ .done → (st.spec.mode = .manual → st.timer.state ≠ .held) → s.stepBusy key i st = false →
    TakesAnswering (.trigger f) f kindTrigger key (if s.origRefused st.spec.cls then .full else .done) s (fun u => ∃ v o,
      u = v.pushOrig o ∧ v = { s with lc := { s.lc with rx := false }, ct := v.ct } ∧ OthersKept key s v ∧
      o.source = .step key i ∧ o.cls = st.spec.cls ∧ o.sync = st.spec.sync ∧ o.template = st.spec.template ∧
      o.target = .set st.spec.target ∧ o.call = some (key, i) ∧ o.queuedAt = s.now ∧
      (st.spec.mode ≠ .manual → v.ct = s.ct ∧ o.own = false) ∧
      (st.spec.mode = .manual → o.own = true ∧ v.findCall key = some (c.modStep i (fun x =>
        { x with timer := { x.timer with state := .fired, last := .originated, fires := min 255 (x.timer.fires + 1), remaining := none } }))))

/-- The other rows of R33 for a step of a live call, each with its answer: a step beyond the plan or DONE is BAD_VALUE; a HELD MANUAL step STAGED; a
busy step (one whose last claim is still in use, final in every zone's record or not, among them by the model's choice, log 62) BUSY, a MANUAL one
becoming SKIPPED(BUSY); with an amendment staged a MANUAL step is HELD and answered STAGED, and a step of another mode BUSY with no effect (R33). -/
def Obligations.TriggerRowsAnswer : Prop :=
  ∀ (f : RxFrame) (s : State) (c : Call), CallFrameTaken kindTrigger f s →
    let key := field f.body 0 2
    let i := field8 f.body 2
    let same := fun (u : State) => u = { s with lc := { s.lc with rx := false } }
    let timed := fun (g : StepTimer → StepTimer) (u : State) =>
      u = { s with lc := { s.lc with rx := false }, ct := u.ct } ∧ OthersKept key s u ∧
      u.findCall key = some (c.modStep i (fun x => { x with timer := g x.timer }))
    s.findCall key = some c → (c.state = .waiting ∨ c.state = .bound) →
    (c.steps[i]? = none → TakesAnswering (.trigger f) f kindTrigger key .badValue s same) ∧
    (∀ st, c.steps[i]? = some st →
      (st.timer.state = .done → TakesAnswering (.trigger f) f kindTrigger key .badValue s same) ∧
      (st.timer.state = .held → st.spec.mode = .manual → TakesAnswering (.trigger f) f kindTrigger key .staged s same) ∧
      (st.timer.state ≠ .done → s.stepBusy key i st = true →
        (st.spec.mode = .manual → st.timer.state ≠ .held → TakesAnswering (.trigger f) f kindTrigger key .busy s
          (timed (fun t => { t with state := .skipped .busy, last := .skippedBusy, remaining := none }))) ∧
        (st.spec.mode ≠ .manual → TakesAnswering (.trigger f) f kindTrigger key .busy s same)) ∧
      (st.timer.state ≠ .done → s.stepBusy key i st = false → c.staged ≠ none →
        (st.spec.mode = .manual → st.timer.state ≠ .held → TakesAnswering (.trigger f) f kindTrigger key .staged s
          (timed (fun t => { t with state := .held, remaining := none }))) ∧
        (st.spec.mode ≠ .manual → TakesAnswering (.trigger f) f kindTrigger key .busy s same)))

/-- A HANDOFF addressed to this node by number, whose values pass, installs its call with its plan, the platform changed flag set, and is answered
DONE; with the clock UNSET the new steps are all fresh and nothing else changes. One whose platform this node does not serve is refused NOT_OWNER, one
whose key is held DUPLICATE, and one that meets a full table FULL, the first that applies, and one addressed to all nodes or whose values fail is
discarded unanswered; none of them changes anything. That its step records count as values is log 11, that expected times may be absent log 44. The
steps start in index order, and then comes the expiry test; how a step starts is said by its mode, an EVERY step's IDLE row before its DONE row (log
17), an AT step SKIPPED(LATE) without remaining seconds (the model's choice, log 52) (R9, R15, R23, R70). -/
def Obligations.HandoffInstalls : Prop :=
  (∀ (w : State) (k i : Nat) (c : Call) (st : Step), w.findCall k = some c → w.findStep k i = some st → (c.state = .waiting ∨ c.state = .bound) →
    st.timer.state = .idle → StepStarts w (w.startStep k i) k i c st.spec) ∧
  (∀ (f : RxFrame) (s : State), CallFrameTaken kindHandoff f s →
    let b := readHandoff f.body
    let same := fun (u : State) => u = { s with lc := { s.lc with rx := false } }
    (s.forUsAlone f = false ∨ b.values? = none ∨ b.plan? = none → Takes (.handoff f) s same) ∧
    (s.forUsAlone f = true → b.values? ≠ none → b.plan? ≠ none →
      (s.localPlat b.platform = none → TakesAnswering (.handoff f) f kindHandoff b.key .notOwner s same) ∧
      (s.localPlat b.platform ≠ none → s.findCall b.key ≠ none → TakesAnswering (.handoff f) f kindHandoff b.key .duplicate s same) ∧
      (s.localPlat b.platform ≠ none → s.findCall b.key = none → 64 ≤ s.ct.length →
        TakesAnswering (.handoff f) f kindHandoff b.key .full s same))) ∧
  ∀ (f : RxFrame) (s : State), CallFrameTaken kindHandoff f s → s.forUsAlone f = true →
    let b := readHandoff f.body
    ∀ (p : PlatId) (k : CallKind) (plan : List StepSpec), b.values? = some k → b.plan? = some plan → s.localPlat b.platform = some p →
    s.findCall b.key = none → s.ct.length < 64 →
    let c : Call :=
      { key := b.key, kind := k, platform := p, schArr := b.schArr, schDep := b.schDep, expArr := b.expArr, expDep := b.expDep,
        dest := if b.dest = 0 then none else some b.dest, origin := if b.origin = 0 then none else some b.origin,
        coaches := if b.coaches = 0 then none else some b.coaches, points := b.points, changed := true,
        steps := plan.map (fun x => { spec := x, timer := StepTimer.fresh }), state := .waiting, staged := none,
        handoffFailed := false, handoff := none }
    TakesAnswering (.handoff f) f kindHandoff b.key .done s (fun u =>
      u = { s with lc := { s.lc with rx := false }, ct := u.ct, pm := u.pm, cmp := u.cmp, clt := u.clt } ∧
      (∃ d, u.findCall b.key = some d ∧ { d with steps := c.steps, state := c.state } = c ∧ d.steps.map (·.spec) = plan ∧
        d.state = if s.expires c then .finished .expired else .waiting) ∧
      u = ((List.range plan.length).foldl (fun (w : State) i => w.startStep b.key i)
        { s with lc := { s.lc with rx := false }, ct := insertCall c s.ct }).expiryTest b.key ∧
      (s.sck.isSet = false → u = { s with lc := { s.lc with rx := false }, ct := insertCall c s.ct }))

/-- ANSWER DONE from the serving node settles an AWAITING handoff: the hold ends, the call's originations are removed, its origin entries are marked
to end without a retry, and the call awaits removal with no timer. Any other ANSWER of that node to it, and the running out of its timer, revert it:
the platform changed flag returns to the value noted, handoff failed becomes yes, the context is gone, and the call is BOUND again where its platform
still held it and WAITING, or FINISHED(EXPIRED), where not, its steps resuming as at a forward jump (log 19); with the clock UNSET no other call, no
origination and no claim changes. Every other ANSWER changes nothing but the receive buffer: one in another mode than RUNNING, one not heard, one of
another kind than HANDOFF, one whose key names no call in HANDING_OFF or one whose handoff is SENDING or SETTLED, and one from another node than the
serving one. For a key without an AWAITING handoff whose timer has run out, HANDOFF_TIMEOUT has not happened and changes nothing, the model's choice
(log 1) (R15, R36, R50, R69, R71, R175). -/
def Obligations.HandoffSettlesOrReverts : Prop :=
  (∀ (f : RxFrame) (s : State),
    let concerns := s.sul.mode = .running ∧ s.hears kindAnswer f = true ∧ field8 f.body 0 = kindHandoff ∧
      ∃ c h, s.findCall (field f.body 1 2) = some c ∧ c.state = .handingOff ∧ c.handoff = some h ∧ h.phase = .awaiting ∧ f.src.toNat = h.server
    ¬ concerns → Takes (.answer f) s (fun t => t = { s with lc := { s.lc with rx := false } })) ∧
  (∀ (key : Nat) (s : State),
    (¬ ∃ c h, s.findCall key = some c ∧ c.state = .handingOff ∧ c.handoff = some h ∧ h.phase = .awaiting ∧ h.timer = some 0) →
    Takes (.handoffTimeout key) s (fun t => t = s)) ∧
  ∀ (s : State) (key : Nat) (c : Call) (h : HandoffCtx), s.findCall key = some c → c.state = .handingOff → c.handoff = some h →
    h.phase = .awaiting →
    let unset := fun (t : State) => s.sck.isSet = false → OthersKept key s t ∧ t.cmp = s.cmp ∧ t.clt = s.clt
    (∀ f : RxFrame, s.sul.mode = .running → s.hears kindAnswer f = true → field f.body 1 2 = key → field8 f.body 0 = kindHandoff →
      f.src.toNat = h.server →
      (field8 f.body 3 = 0 → Takes (.answer f) s (fun t =>
        t = { s with lc := { s.lc with rx := false }, ct := t.ct, pm := t.pm, cmp := t.cmp, clt := t.clt } ∧ OthersKept key s t ∧
        (∃ d, t.findCall key = some d ∧ d = { c with handoff := some { h with phase := .settled, timer := none } } ∧
          d.awaitsRemoval = true) ∧
        (∀ p, t.pm.get p = if (s.pm.get p).hold = some key then { s.pm.get p with hold := none } else s.pm.get p) ∧
        t.cmp = { s.cmp with queue := s.cmp.queue.filter (fun o => !o.ofCall key) } ∧
        t.clt = s.clt.map (fun e =>
          if e.hasKey key then { e with origin := e.origin.map (fun o => { o with noRetry := true }) } else e))) ∧
      (field8 f.body 3 ≠ 0 → Takes (.answer f) s (fun t => HandoffReverted key c h s t ∧ t.lc.rx = false ∧ unset t))) ∧
    (h.timer = some 0 → Takes (.handoffTimeout key) s (fun t => HandoffReverted key c h s t ∧ t.lc = s.lc ∧ unset t))

/-- SWAP, due, applies the staged amendment on this node: each part present replaces its field, no other field changes, the staged amendment is
absent, a REPLACE is the plan and a REVISE replaces the steps it names. With the platform unchanged the call keeps its state; with the node's other
platform it is WAITING there, the platform changed flag set and its binding released. A WAITING call whose expected times changed, or that was BOUND,
may expire at once. Of another call nothing but its steps' timers can change (a firing may push its origination out), and of a claim only its no-retry
mark. The stages come in order: fields; platform; plan, where a REPLACE removes the call's originations, marks its origin entries to end without a
retry and starts fresh steps; else each step is brought into line in index order, by its mode and state; on the other platform counting ON_ARRIVE and
ON_DISPATCH steps are IDLE again; expiry. A step whose reference time is absent is log 14, a window that opens clears the not-loaded flag by log 36,
an UNSET clock tests no window by log 53, a step SKIPPED(LATE) has no remaining seconds by log 52. The platform change and the live-claim count are
spelt out in SwapHandsTheCallOver, the start of a step in HandoffInstalls (R61, R63, R64, R65, R66, R67). -/
def Obligations.SwapAmendsTheCall : Prop :=
  (∀ (key : Nat) (s : State) (c : Call) (a : Amendment), s.findCall key = some c → c.staged = some a →
    (c.state = .waiting ∨ c.state = .bound) → s.liveCount key = 0 → (∀ k n, s.platChange c a ≠ .handOver k n) →
    let expired := fun (d : Call) => (c.state = .bound ∨ d.expArr ≠ c.expArr ∨ d.expDep ≠ c.expDep) ∧ s.expires { d with state := .waiting } = true
    Takes (.swap key) s (fun t =>
      t = { s with ct := t.ct, pm := t.pm, cmp := t.cmp, clt := t.clt } ∧
      ∃ d, t.findCall key = some d ∧ d.staged = none ∧
        d.expArr = (if a.arr = none then c.expArr else a.arr) ∧ d.expDep = (if a.dep = none then c.expDep else a.dep) ∧
        d.coaches = (if a.coaches = none then c.coaches else a.coaches) ∧ d.points = a.points.getD c.points ∧
        d.key = key ∧ d.kind = c.kind ∧ d.schArr = c.schArr ∧ d.schDep = c.schDep ∧ d.dest = c.dest ∧ d.origin = c.origin ∧
        d.handoffFailed = c.handoffFailed ∧
        (a.plan = none → d.steps.map (·.spec) = c.steps.map (·.spec)) ∧ (∀ l, a.plan = some (.replace l) → d.steps.map (·.spec) = l) ∧
        (∀ revs, a.plan = some (.revise revs) → (revs.map (·.1)).Nodup → d.steps.length = c.steps.length ∧
          (∀ x ∈ revs, x.1 < c.steps.length → (d.steps.map (·.spec))[x.1]? = some x.2) ∧
          ∀ i, (∀ x ∈ revs, x.1 ≠ i) → (d.steps.map (·.spec))[i]? = (c.steps.map (·.spec))[i]?) ∧
        (∀ k e, k ≠ key → s.findCall k = some e → ∃ e', t.findCall k = some e' ∧ { e' with steps := e.steps } = e ∧
          e'.steps.map (·.spec) = e.steps.map (·.spec)) ∧
        (t.clt = s.clt ∨ t.clt = s.clt.map (fun e =>
          if e.hasKey key then { e with origin := e.origin.map (fun o => { o with noRetry := true }) } else e)) ∧
        (KeysAscend s → ∀ q : Option PlatId, (q = none → s.platChange c a = .stay) → (∀ p, q = some p → s.platChange c a = .toLocal p) →
          let v0 : State := FieldsAmended key a s
          let v1 : State := match q with
            | none => v0
            | some p => (v0.modCall key (fun x => { x with platform := p, changed := true })).setPm
                (s.pm.map (fun r => if r.bound = some key then { r with bound := none } else r))
          let v2 : State := PlanAmended key c.steps.length a v1
          let v3 : State := if q = none then v2 else v2.modCall key (fun x => { x with
            state := .waiting,
            steps := x.steps.map (fun st =>
              if st.timer.state = .counting ∧ (st.spec.mode = .onArrive ∨ st.spec.mode = .onDispatch) then
                { st with timer := { st.timer with state := .idle, remaining := none } }
              else st) })
          t = if (q ≠ none ∨ c.state = .waiting) ∧ (c.state = .bound ∨ d.expArr ≠ c.expArr ∨ d.expDep ≠ c.expDep) then v3.expiryTest key
            else v3) ∧
        (s.platChange c a = .stay → d.platform = c.platform ∧ d.changed = c.changed ∧
          (c.state = .bound → d.state = .bound) ∧
          (c.state = .waiting → (expired d → d.state = .finished .expired) ∧ (¬ expired d → d.state = .waiting))) ∧
        (∀ p, s.platChange c a = .toLocal p → d.platform = p ∧ d.changed = true ∧ (∀ q, (t.pm.get q).bound ≠ some key) ∧
          (expired d → d.state = .finished .expired) ∧ (¬ expired d → d.state = .waiting)))) ∧
  ∀ (w : State) (k i : Nat) (c : Call) (st : Step), w.findCall k = some c → w.findStep k i = some st → (c.state = .waiting ∨ c.state = .bound) →
    let t := w.replanStep k i
    let full := 0 < st.spec.limit ∧ st.spec.limit ≤ st.timer.fires
    let toIdle := t = w.modTimer k i (fun m => { m with state := .idle, remaining := none })
    (st.timer.state = .done → t = w) ∧
    (st.timer.state ≠ .done →
      (st.spec.mode = .atTime →
        (st.timer.fires ≠ 0 ∨ st.timer.state = .fired → t = w) ∧
        (∀ ft, st.timer.fires = 0 → st.spec.fireTime c = some ft →
          (w.sck.isSet = true → st.timer.state = .idle ∨ st.timer.state = .counting ∨ st.timer.state = .held → AtTested w t k i ft) ∧
          (w.sck.isSet = false → st.timer.state = .idle → t = w) ∧
          ((∃ r, st.timer.state = .skipped r) →
            (w.sck.isSet = true → (w.sck.time : Int) < ft →
              t = w.modTimer k i (fun m => { m with state := .counting, remaining := some (ft - w.sck.time).toNat })) ∧
            (w.sck.isSet = false ∨ ft ≤ w.sck.time → t = w))) ∧
        (st.timer.fires = 0 → st.spec.fireTime c = none →
          (st.timer.state = .counting ∨ st.timer.state = .held → toIdle) ∧ (st.timer.state ≠ .counting → st.timer.state ≠ .held → t = w))) ∧
      (st.spec.mode = .every →
        (∀ start stop, st.spec.fireTime c = some start → st.spec.closeTime c = some stop →
          let ended := w.sck.isSet = true ∧ stop ≤ w.sck.time
          (ended ∨ full → StepDone w t k i) ∧
          (¬ ended → ¬ full →
            (st.timer.state = .idle → (w.sck.isSet = true → WindowTested w t k i st start stop) ∧ (w.sck.isSet = false → t = w)) ∧
            (st.timer.state = .held → t = w.fireStep k i) ∧ (st.timer.state = .counting → t = w))) ∧
        (st.spec.fireTime c = none → full → StepDone w t k i) ∧ (st.spec.fireTime c = none → ¬ full → toIdle)) ∧
      (st.spec.mode = .onArrive ∨ st.spec.mode = .manual ∨ (st.spec.mode = .onDispatch ∧ ¬ full) →
        (st.timer.state = .held → t = w.fireStep k i) ∧ (st.timer.state ≠ .held → t = w)) ∧
      (st.spec.mode = .onDispatch → full → StepDone w t k i))

/-- SWAP, due, to a platform that another node serves: the call is HANDING_OFF with the context noted, its binding held aside, and one HANDOFF frame
carrying the call as it now stands enters the transmit queue with tier 4 for that node; the fields and the plan are amended first, in the stages that
SwapAmendsTheCall gives, and of another call nothing but its steps' timers can change. Who serves a platform, and so what a swap's platform part
changes, is said of every number: this node's P0 before P1, and else the lowest-numbered node whose section holds it. The live-claim count is 0
exactly when no entry of the key is in use in a zone or channel, a settled one that is still held among them (the model's choice, log 45). Where the
queue is full, the HANDOFF displaces its worst frame, the last with no attempt under way, if that one's tier is greater, and a displaced ZSTAT's entry
(matched as log 47 says) is FAILED, a displaced REPORT's buffer empty; else the HANDOFF is dropped at its arrival, and the handoff reverts at that
instant (R19, R50, R59, R60, R63, R68, R69, R71, R166, R167, R168). -/
def Obligations.SwapHandsTheCallOver : Prop :=
  (∀ (s : State) (key : Nat), s.liveCount key = 0 ↔ ∀ e ∈ s.clt, (∃ i, e.call = some (key, i)) → ¬ InUse s e.id) ∧
  (∀ (s : State) (c : Call) (a : Amendment),
    let here := fun (n : Nat) (p : PlatId) => (s.pm.get p).stationNo = n ∧ (p = .p1 → (s.pm.get .p0).stationNo ≠ n)
    let there := fun (n k : Nat) => 1 ≤ k ∧ ∃ x, s.cfg.platformMap[k - 1]? = some x ∧ (x.1 = n ∨ x.2 = n)
    (a.platform = none → s.platChange c a = .stay) ∧
    ∀ n, a.platform = some n → 1 ≤ n → n ≤ 99 →
      (∀ p, here n p → s.platChange c a = if p = c.platform then .stay else .toLocal p) ∧
      ((∀ p, ¬ here n p) →
        (∀ k, there n k → (∀ j, j < k → ¬ there n j) → s.platChange c a = .handOver k n) ∧
        ((∀ k, ¬ there n k) → s.platChange c a = .stay))) ∧
  ∀ (key : Nat) (s : State) (c : Call) (a : Amendment) (k n : Nat), s.findCall key = some c → c.staged = some a →
    (c.state = .waiting ∨ c.state = .bound) → s.liveCount key = 0 → s.platChange c a = .handOver k n →
    (s.lc.tx.length < 8 → Takes (.swap key) s (fun t =>
      t = { s with lc := { s.lc with tx := t.lc.tx }, ct := t.ct, pm := t.pm, cmp := t.cmp, clt := t.clt } ∧
      (∃ d, t.findCall key = some d ∧ HandedOver c a k n d ∧ t.lc.tx = txInsert s.lc.tx (handoffQueued d k n s.now)) ∧
      (∀ e k', k' ≠ key → s.findCall k' = some e → ∃ e', t.findCall k' = some e' ∧ { e' with steps := e.steps } = e ∧
        e'.steps.map (·.spec) = e.steps.map (·.spec)) ∧
      (KeysAscend s → t = { handedOverState s key k n c a with lc := t.lc }) ∧
      ∀ p, (s.pm.get p).bound = some key → (t.pm.get p).bound = none ∧ (t.pm.get p).hold = some key)) ∧
    (8 ≤ s.lc.tx.length → KeysAscend s → FramesInOrder s →
      let w := handedOverState s key k n c a
      ∃ d, w.findCall key = some d ∧ HandedOver c a k n d ∧
        ((∀ g ∈ s.lc.tx, g.underWay = false → g.tier ≤ 4) →
          Takes (.swap key) s (fun t => HandoffReverted key d (handoffNoted c k n) w t ∧ t.lc = s.lc)) ∧
        ∀ l g m, s.lc.tx = l ++ g :: m → g.underWay = false → (∀ x ∈ m, x.underWay = true) → 4 < g.tier →
          let u : State := { w with lc := { s.lc with tx := txInsert (l ++ m) (handoffQueued d k n s.now) } }
          Takes (.swap key) s (fun t =>
            (∃ id zones, g.body = .zstat id zones ∧
              t = u.modEntry id (fun e => { e with zstat := if e.zstat = .queued then .failed else e.zstat })) ∨
            (∃ k' i n' lo key' b, g.body = .report k' i n' lo key' b ∧ t = { u with lc := { u.lc with report := none } })))

/-- CALL_REMOVAL takes a call awaiting removal, in FINISHED, in DROPPING, or in HANDING_OFF after ANSWER DONE, out of the table when no claim entry of
the node's own carries its key (R16, R17). In any other case, a key not in the table and a call still being handed over among them, the event has not
happened and changes nothing, which is the model's choice (log 1). -/
def Obligations.CallLeavesTheTable : Prop :=
  ∀ (key : Nat) (s : State),
    let awaits := ∃ c, s.findCall key = some c ∧
      ((∃ r, c.state = .finished r) ∨ c.state = .dropping ∨ (c.state = .handingOff ∧ ∃ h, c.handoff = some h ∧ h.phase = .settled))
    let counted := ∃ e ∈ s.clt, e.origin ≠ none ∧ e.hasKey key = true
    (awaits → ¬ counted →
      Takes (.callRemoval key) s (fun t => t = { s with ct := t.ct } ∧ t.findCall key = none ∧ OthersKept key s t)) ∧
    (¬ awaits ∨ counted → Takes (.callRemoval key) s (fun t => t = s))

/-! ### Reports -/

/-- A QUERY addressed to this node by number, of a kind its mode answers, with the report buffer empty, latches the snapshot of its kind and queues
the first frame with tier 6 for the source; where the transmit queue is full the report is dropped and the buffer is empty. What each kind of snapshot
shows is spelt out field by field, the counts of calls and of entries as items of their own after the last line (log 48), the order of the items of a
report to NODE the model's reading (log 33), the cursor of a channel in tone mode its choice (log 31), the bind instant in sixteenths of a ms its
reading (log 7), the mark cut-now of an entry its own and left out (log 24); its frames are those of ReportFitsItsFrames. A QUERY NODE reads MAINT,
whose level is an operand of the model (log 37). Any other QUERY changes nothing but the receive buffer: one outside its layout's values (for a key
outside them, log 10), one that fails reception, one addressed to all, one that finds the buffer HOLDING, one in LOADING or LISTEN_ONLY, and in
STORE_FAULT one of a kind other than NODE. So does every REPORT (R18, R54, R74, R108, R131, R143, R163, R164, R173, R174, R185). -/
def Obligations.QueryFillsTheReportBuffer : Prop :=
  (∀ (s : State) (maint : Bool) (key : Nat),
    let fromNow := fun (t : Option Nat) => t.map (fun (n : Nat) => (n : Int) - (s.now : Int))
    s.snapshot maint .node key =
      [.nodeLine
          { mode := s.sul.mode, outcome := s.sul.outcome, clockSet := s.sck.isSet, time := s.sck.time, maint := maint, strap := s.sul.strap.toNat,
            evacLevel := s.evac.level, lastEvac := s.evac.lastClaim, txTiers := s.lc.tx.map (·.tier) },
        .platformLine .p0 (s.pm.get .p0), .platformLine .p1 (s.pm.get .p1)] ++
      s.cmp.queue.map (fun o => .origLine o.source o.cls (s.now - o.queuedAt)) ++ [.sequence s.cmp.seq] ++
      [Idx4.i0, .i1, .i2, .i3].map (fun c => .channelLine c
        { bound := (s.rch.get c).map (fun ch => (ch.claim, s.now - ch.bind16 / 16, ch.cursor, ch.pos, ch.attached)),
          tone := ((s.rch.get c).map (·.tone)).getD false }) ++ [.portLine s.sp] ∧
    s.snapshot maint .zones key = [Idx4.i0, .i1, .i2, .i3].map (fun z =>
      let r := s.za.get z
      .zoneLine z
        { state := r.arb.state, current := r.arb.current.map (·.id), next := r.arb.next.map (·.id), wait := r.arb.wait.map (·.id),
          phraseEnd := r.arb.phraseEnd, stopAt := r.arb.stopAt, wdPending := r.arb.wdPending, service := r.service, ampFault := r.ampFault,
          row := r.row, base := r.base, floor := r.floor, staged := r.staged, pair := r.pair.map (fun p => (z.partner, p)),
          k := (s.lu.zones.get z).k, level := (s.lu.zones.get z).level }) ∧
    s.snapshot maint .claims key = s.clt.map (fun e => .claimLine
      { id := e.id, cls := e.cls, sync := e.sync, groups := e.groups, call := e.call, missing := e.missing, truncated := e.truncated,
        localOnly := e.localOnly, start := fromNow e.start, latest := fromNow e.latest, plannedEnd := fromNow e.plannedEnd, disp := e.disp,
        zstat := e.zstat, origin := e.origin.map (fun o => { o with windowEnd := none, cutNow := false }),
        windowEnd := fromNow (e.origin.bind (·.windowEnd)) }) ++ [.claimCount s.clt.length] ∧
    s.snapshot maint .calls key = s.ct.map (fun c => .callLine c.key c.kind (s.pm.get c.platform).stationNo c.state
      (if c.expArr = none then c.expDep else c.expArr) (decide (c.staged ≠ none)) c.handoffFailed) ++ [.callCount s.ct.length] ∧
    (∀ c, s.findCall key = some c →
      s.snapshot maint .call key = [.callRecord c (s.pm.get c.platform).stationNo (s.liveCount key)]) ∧
    (s.findCall key = none → s.snapshot maint .call key = [.callNotHeld key])) ∧
  ∀ (f : RxFrame) (maint : Bool) (s : State), FramesInOrder s →
    let quiet := fun (t : State) => t = { s with lc := { s.lc with rx := false } }
    (∀ k key, decodeQuery f.body = some (k, key) → s.hears kindQuery f = true → s.forUsAlone f = true →
      (s.sul.mode = .running ∨ (s.sul.mode = .storeFault ∧ k = .node)) → s.lc.report = none →
      Takes (.query f maint) s (fun t =>
        t = { s with lc := { tx := t.lc.tx, rx := false, report := t.lc.report }, pins := t.pins } ∧
        t.pins = (if k = .node then { s.pins with maint := maint } else s.pins) ∧
        (s.lc.tx.length < 8 → ∃ r, t.lc.report = some r ∧ r = s.latch maint k key f.src.toNat ∧ r.kind = k ∧ r.key = key ∧
          r.source = f.src.toNat ∧ r.snapshot = s.snapshot maint k key ∧ r.index = 1 ∧
          t.lc.tx = txInsert s.lc.tx { body := r.frame 1, dst := f.src.toNat, tier := 6, queuedAt := s.now, fails := 0, underWay := false,
                                       takeBack := false }) ∧
        (8 ≤ s.lc.tx.length → t.lc.tx = s.lc.tx ∧ t.lc.report = none))) ∧
    (decodeQuery f.body = none ∨ s.hears kindQuery f = false ∨ s.forUsAlone f = false ∨ s.lc.report ≠ none ∨ s.sul.mode = .loading ∨
      s.sul.mode = .listenOnly ∨ (s.sul.mode = .storeFault ∧ ∀ key, decodeQuery f.body ≠ some (.node, key)) →
      Takes (.query f maint) s quiet) ∧
    Takes (.report f) s quiet

/-- Whatever bytes stand for the items of a snapshot (log 8), a report has one to eight frames, none above its content bytes of 77, or 75 in a report
to CALL; the frames in order hold the bytes of the items in order, all but those left out at the end, and an item that fits in one frame's content
stands whole in one. Nothing is left out when the items need at most eight frames; otherwise the first item left out does not end within the eighth
frame. A report on a key not held is a single frame (R18, R173). -/
def Obligations.ReportFitsItsFrames : Prop :=
  ∀ (s : State) (maint : Bool) (k : QueryKind) (key source : Nat),
    let r := s.latch maint k key source
    1 ≤ r.contents.length ∧ r.contents.length ≤ 8 ∧ (∀ b ∈ r.contents, b.length ≤ if k = .call then 75 else 77) ∧
    r.leftOut ≤ r.snapshot.length ∧
    (r.leftOut = 0 → r.contents.flatten = (r.snapshot.map itemBytes).flatten) ∧
    (let frames := fun (l : List ReportItem) => framesNeeded (if k = .call then 75 else 77) (l.map (fun x => (itemBytes x).length))
     (r.leftOut = 0 ↔ frames r.snapshot ≤ 8) ∧
     ∀ held, held = r.snapshot.take (r.snapshot.length - r.leftOut) → r.contents.length = max 1 (frames held) ∧
       (r.leftOut ≠ 0 → ∃ x rest, r.snapshot = held ++ x :: rest ∧ 8 < frames (held ++ [x]))) ∧
    (let held := r.snapshot.take (r.snapshot.length - r.leftOut)
     r.contents.flatten = (held.map itemBytes).flatten ∧
     ∀ x ∈ held, (itemBytes x).length ≤ (if k = .call then 75 else 77) → ∃ b ∈ r.contents, itemBytes x <:+: b) ∧
    (k = .call → s.findCall key = none → r.snapshot = [.callNotHeld key] ∧ r.contents = [itemBytes (.callNotHeld key)] ∧ r.leftOut = 0)

/-! ### Pins -/

/-- OCC_CHANGE inverts the level of the platform's OCC. In LOADING nothing else changes; after it a level equal to the accepted one ends the wait, and
one that differs begins a full wait. DEBOUNCE_WAIT_EXPIRY accepts the level OCC then holds. An accepted rise is taken on an EMPTY platform, and binds
a candidate; an accepted fall is taken on any other, and finishes the bound call and ends a hold. With a debounce time of 0 the wait has run out as it
begins and is accepted at that instant (log 50). A change from the accepted level and its reversal leave no wait and no acceptance. What a step does
at the binding is said by its mode. A call without a reference time, a candidate while the clock is UNSET, ranks as reference time 0, the model's
choice (log 44) (R3, R26, R27, R41, R42, R43, R45, R46, R47, R48, R50). -/
def Obligations.OccIsDebounced : Prop :=
  (∀ (w : State) (k i : Nat) (st : Step), w.findStep k i = some st → StepBinds w (w.bindStep k i) k i st) ∧
  ∀ (p : PlatId) (s : State), KeysAscend s →
    let r := s.pm.get p
    let lvl := !r.occ
    let s' := s.setPm (s.pm.set p { r with occ := lvl })
    (s.sul.mode = .loading → Takes (.occChange p) s (fun t => t = s')) ∧
    (s.sul.mode ≠ .loading → lvl = r.accOcc → Takes (.occChange p) s (fun t => t = s.setPm (s.pm.set p { r with occ := lvl, wait := none }))) ∧
    (s.sul.mode ≠ .loading → lvl ≠ r.accOcc →
      Takes (.occChange p) s (fun t => t = s.setPm (s.pm.set p { r with occ := lvl, wait := some s.cfg.debounceMs }))) ∧
    (s.sul.mode ≠ .loading → lvl ≠ r.accOcc → s.cfg.debounceMs = 0 →
      (lvl = true → r.state = .empty → Takes (.occChange p) s (fun u => u.sck = s.sck ∧ Takes (.debounceWaitExpiry p) u (AcceptsRise p s'))) ∧
      (lvl = false → r.state ≠ .empty → Takes (.occChange p) s (fun u => u.sck = s.sck ∧ Takes (.debounceWaitExpiry p) u (AcceptsFall p s')))) ∧
    (s.sul.mode ≠ .loading → r.occ = r.accOcc →
      Takes (.occChange p) s (fun u => Takes (.occChange p) u (fun t => t = s.setPm (s.pm.set p { r with wait := none })))) ∧
    (s.sul.mode ≠ .loading → r.wait = some 0 →
      (r.occ = true → r.state = .empty → Takes (.debounceWaitExpiry p) s (AcceptsRise p s)) ∧
      (r.occ = false → r.state ≠ .empty → Takes (.debounceWaitExpiry p) s (AcceptsFall p s)))

/-- DOORS rising moves an OCCUPIED platform to DISPATCH, and is reported for its bound call, each of whose ON_DISPATCH steps, unless HELD, DONE or
SKIPPED(LATE), begins its delay afresh, in index order, one with a delay of 0 or below firing at the edge; the other steps stay as they are. DOORS
falling moves DISPATCH to OCCUPIED. Both leave the other states as they are, and APPROACH falling changes nothing but its level (R28, R43, R44). -/
def Obligations.DoorsMoveThePlatform : Prop :=
  (∀ (w : State) (k i : Nat) (st : Step), w.findStep k i = some st → DoorsReported w (w.doorsStep k i) k i st) ∧
  ∀ (p : PlatId) (s : State),
    let r := s.pm.get p
    (r.doors = false → Takes (.doorsRise p) s (fun t =>
      t = { s with ct := t.ct, pm := t.pm, cmp := t.cmp } ∧
      (t.pm.get p).doors = true ∧ (t.pm.get p).state = (if r.state = .occupied then .dispatch else r.state) ∧
      (t.pm.get p).bound = r.bound ∧ (t.pm.get p).occ = r.occ ∧ (t.pm.get p).accOcc = r.accOcc ∧ (t.pm.get p).wait = r.wait ∧
      (r.state ≠ .occupied ∨ r.bound = none →
        t = s.setPm (s.pm.set p { r with doors := true, state := if r.state = .occupied then .dispatch else r.state })) ∧
      (∀ key c, KeysAscend s → r.state = .occupied → r.bound = some key → s.findCall key = some c →
        t = (List.range c.steps.length).foldl (fun w i => w.doorsStep key i) (s.setPm (s.pm.set p { r with doors := true, state := .dispatch }))) ∧
      (∀ key i st, KeysAscend s → r.state = .occupied → r.bound = some key → s.findStep key i = some st → st.spec.mode = .onDispatch →
        st.timer.state ≠ .held → st.timer.state ≠ .done → st.timer.state ≠ .skipped .late → 0 < st.spec.offset →
        ∃ st', t.findStep key i = some st' ∧ st'.timer.state = .counting ∧ st'.timer.remaining = some st.spec.offset.toNat))) ∧
    (r.doors = true → Takes (.doorsFall p) s (fun t =>
      t = s.setPm (s.pm.set p { r with doors := false, state := if r.state = .dispatch then .occupied else r.state }))) ∧
    Takes (.approachFall p) s (fun t => t = s.setPm (s.pm.set p { r with approach := false }))

/-- APPROACH rising on an EMPTY platform in RUNNING fires the approach warning: busy, the last outcome is SKIPPED_BUSY and nothing is handed over;
otherwise it is ORIGINATED and one class 1 LOOSE origination of the platform's template and target set is handed over. In any other mode or platform
state nothing changes but the level (R43, R52). -/
def Obligations.ApproachWarningFires : Prop :=
  ∀ (p : PlatId) (s : State),
    let r := s.pm.get p
    r.approach = false →
    (s.approachBusy p = true ↔ Busy s (.approach p) r.lastClaim) ∧
    (s.sul.mode = .running → r.state = .empty → s.approachBusy p = true →
      Takes (.approachRise p) s (fun t => t = s.setPm (s.pm.set p { r with approach := true, lastOutcome := .skippedBusy }))) ∧
    (s.sul.mode = .running → r.state = .empty → s.approachBusy p = false →
      Takes (.approachRise p) s (fun t => ∃ o,
        t = (s.setPm (s.pm.set p { r with approach := true, lastOutcome := .originated })).pushOrig o ∧ o.source = .approach p ∧ o.cls = 1 ∧
        o.sync = .loose ∧ o.template = (s.cfg.approach.get p).1 ∧ o.target = .set (s.cfg.approach.get p).2 ∧ o.call = none ∧
        o.queuedAt = s.now)) ∧
    (s.sul.mode ≠ .running ∨ r.state ≠ .empty →
      Takes (.approachRise p) s (fun t => t = s.setPm (s.pm.set p { r with approach := true })))

/-- EVAC rising in RUNNING, and the running out of the evacuation timer while EVAC stays high, set the timer to the full period and, unless the repeat
is busy, hand over one class 0 LOOSE origination of the evac template and target set. EVAC falling in RUNNING stops the repeat, removes every EVAC
origination, orders the withdrawal of the last evacuation claim with cut-now where there is one, and forgets it. In the other modes only the pin's
level changes (R38, R39). -/
def Obligations.EvacuationRepeatsAndStops : Prop :=
  ∀ s : State,
    let fires := fun (v t : State) =>
      (v.evacBusy = true ↔ Busy v .evac v.evac.lastClaim) ∧ (v.evacBusy = true → t = v) ∧
      (v.evacBusy = false → ∃ o, t = v.pushOrig o ∧ o.source = .evac ∧ o.cls = 0 ∧ o.sync = .loose ∧ o.template = s.cfg.evacTemplate ∧
        o.target = .set s.cfg.evacTarget ∧ o.call = none ∧ o.queuedAt = s.now)
    let v : State := { s with
      pins := { s.pins with evac := false }, evac := { s.evac with level := false, timer := none },
      cmp := { s.cmp with queue := s.cmp.queue.filter (fun o => o.source != .evac) } }
    (s.pins.evac = false → s.sul.mode = .running → Takes .evacRise s (fires { s with
      pins := { s.pins with evac := true },
      evac := { s.evac with level := true, timer := some (1000 * s.cfg.evacPeriod) } })) ∧
    (s.pins.evac = false → s.sul.mode ≠ .running → Takes .evacRise s (fun t => t = { s with pins := { s.pins with evac := true } })) ∧
    (s.sul.mode = .running → s.evac.level = true → s.evac.timer = some 0 → Takes .evacTimerExpiry s (fires { s with
      evac := { s.evac with timer := some (1000 * s.cfg.evacPeriod) } })) ∧
    (s.pins.evac = true → s.sul.mode = .running → s.evac.lastClaim = none → Takes .evacFall s (fun t => t = v)) ∧
    (s.pins.evac = true → s.sul.mode = .running → ∀ id, s.evac.lastClaim = some id → Takes .evacFall s (fun t =>
      t = { v.withdrawOwn true id with evac := { level := false, timer := none, lastClaim := none } })) ∧
    (s.pins.evac = true → s.sul.mode ≠ .running → Takes .evacFall s (fun t => t = { s with pins := { s.pins with evac := false } }))


/-! ### The composer -/

/-- COMPOSE in RUNNING, with fewer than 16 entries and 8 frames, takes the head of the origination queue. One whose text or group set is empty is
discarded. Any other becomes an origin entry, last in the claim table, QUEUED with an UNKNOWN line for each target node, its window open and the mark
cut-now, which is the model's (log 24), clear, and a CLAIM frame to all nodes; its number is the counter's next free one, and its id is written back
to the source that a STEP, APPROACH or EVAC names, to a step of a call in HANDING_OFF too, which R36 freezes (the model's choice, log 56). The target
nodes are those with a zone in a group of the set, in ascending order (R77, R78, R87, R88, R89, R91). -/
def Obligations.ComposeMakesTheClaim : Prop :=
  (∀ (s : State) (gs : GroupSet), (s.targetNodes gs).Pairwise (· < ·) ∧ ∀ n, n ∈ s.targetNodes gs ↔ 1 ≤ n ∧ n ≤ 48 ∧ ∃ (g : Nat) (z : ZoneId),
    g < 32 ∧ gs.getLsbD g = true ∧ (s.cfg.groupMap.getD g 0).getLsbD (4 * (n - 1) + z.toNat) = true) ∧
  ∀ (s : State) (own : Nat) (o : Orig) (rest : List Orig), s.sul.mode = .running → s.nodeNo = some own → s.cmp.queue = o :: rest →
    s.clt.length < 16 → s.lc.tx.length < 8 →
    let text := s.compositionText o
    let gs := match o.target with
      | .set t => s.cfg.targetSets.getD t 0
      | .groups g => g
    let seq := s.nextSeq own
    let id : ClaimId := ⟨own, seq⟩
    let c : ClaimFrame :=
      { seq := seq, cls := o.cls, sync := o.sync, missing := text.2.1, truncated := text.2.2, groups := gs,
        offset10 := if o.sync = .joint then s.cfg.jointOffset10 else s.cfg.looseOffset10,
        window := if o.sync = .joint then none else some s.cfg.looseWindow, call := o.call, phrases := text.1 }
    let e : Entry :=
      { id := id, cls := o.cls, sync := o.sync, groups := gs, phrases := text.1, call := o.call, missing := text.2.1,
        truncated := text.2.2, localOnly := false, start := none, latest := none, plannedEnd := none, disp := s.startDisp gs,
        zstat := .notNeeded, settled := false,
        origin := some
          { send := .queued,
            lines := (s.targetNodes gs).map (fun n => { node := n, outcome := .unknown, retryZones := Quad.const false }),
            windowEnd := none, windowOpen := true, retryUsed := false, isRetry := (match o.source with | .retry _ => true | _ => false),
            noRetry := false, ceded := false, cutNow := false } }
    (text.1 = [] ∨ gs = 0 → Takes .compose s (fun t => t = { s with cmp := { s.cmp with queue := rest } })) ∧
    (text.1 ≠ [] → gs ≠ 0 → Takes .compose s (fun t =>
      t = { s with lc := { s.lc with tx := t.lc.tx }, ct := t.ct, evac := t.evac, pm := t.pm, cmp := t.cmp, clt := t.clt } ∧
      t.cmp = { s.cmp with queue := rest, seq := (seq + 1) % 256 } ∧ t.clt = s.clt ++ [e] ∧
      t.lc.tx = txInsert s.lc.tx
        { body := .claim c, dst := 0, tier := if o.cls = 0 then 0 else if o.cls = 1 then 1 else 2, queuedAt := s.now, fails := 0,
          underWay := false, takeBack := false } ∧
      (∀ key i, o.source = .step key i → t.evac = s.evac ∧ t.pm = s.pm ∧
        t.ct = (s.modTimer key i (fun x => { x with lastClaim := some id })).ct) ∧
      (∀ p, o.source = .approach p → t.evac = s.evac ∧ t.ct = s.ct ∧
        t.pm = s.pm.set p { s.pm.get p with lastClaim := some id }) ∧
      (o.source = .evac → t.ct = s.ct ∧ t.pm = s.pm ∧ t.evac = { s.evac with lastClaim := some id }) ∧
      (∀ old, o.source = .retry old → t.ct = s.ct ∧ t.pm = s.pm ∧ t.evac = s.evac)))

/-- With fewer than 16 entries and 8 frames, the number a claim takes is 0..255, no entry of this node has it and no CLAIM in the transmit queue, and
it is the first such number counting up from the counter, from 255 round to 0 (R88). -/
def Obligations.SequenceNumberIsTheFirstFree : Prop :=
  ∀ (s : State) (own : Nat), s.clt.length < 16 → s.lc.tx.length < 8 →
    let free := fun n => (∀ e ∈ s.clt, e.id ≠ ⟨own, n⟩) ∧ ∀ f ∈ s.lc.tx, ∀ c, f.body = .claim c → c.seq ≠ n
    ∃ k, k < 256 ∧ s.nextSeq own = (s.cmp.seq + k) % 256 ∧ free (s.nextSeq own) ∧ ∀ j, j < k → ¬ free ((s.cmp.seq + j) % 256)

/-- A composed text is its template's slots expanded in order against the call, the step's reference and the platform to speak, brought within 32
codes. What each kind of slot appends and marks is said case by case: a number slot with base 0 nothing, one above 2047 the mark MISSING_FIELD alone,
an absent field the mark (a time whose bases are not all 0, log 51), and a conditional slot passes over the next ones when its condition fails. A text
of 32 or fewer is left whole and unmarked; a longer one loses calling points from the end, as many as needed, the code for other stations standing in
the place of the first removed, and is cut, and marked TRUNCATED, exactly when more than 32 codes are left without any (R80, R81, R82, R83, R84, R85,
R86). -/
def Obligations.LongTextsAreCut : Prop :=
  (∀ (s : State) (o : Orig),
    let t := expand s.cmp.bases (s.context o) 0 (s.cmp.templates.getD o.template [])
    let l := limitLength s.cmp.bases t.1
    s.compositionText o = (l.1.map (·.code), t.2, l.2) ∧
    (o.call = none → (s.context o).call = none) ∧
    ∀ key i c st, o.call = some (key, i) → s.findCall key = some c → c.steps[i]? = some st →
      (s.context o).call = some c ∧ (s.context o).ref = st.spec.ref ∧
      (c.state ≠ .handingOff → (s.context o).stationNo = (s.pm.get c.platform).stationNo) ∧
      ∀ h, c.state = .handingOff → c.handoff = some h → (s.context o).stationNo = h.newPlatform) ∧
  (∀ (b : Bases) (x : Context),
    let number := fun (base add : Nat) (t : List Spoken × Bool) =>
      (base = 0 → t = ([], false)) ∧
      (base ≠ 0 → base + add ≤ 2047 → t = ([{ code := base + add, calling := false }], false)) ∧
      (base ≠ 0 → 2047 < base + add → t = ([], true))
    let silent := fun (slot : Slot) => slotText b x slot = ([], false)
    let late := fun (l : Nat) => ∃ c sch ex, x.call = some c ∧ c.scheduled x.ref = some sch ∧ c.expected x.ref = some ex ∧ sch + 60 ≤ ex ∧ l = ex - sch
    let time := fun (slot : Slot) (t : Option Nat) =>
      (t = none → slotText b x slot = ([], decide (b.hour ≠ 0 ∨ b.minute ≠ 0 ∨ b.oclock ≠ 0))) ∧
      ∀ v, t = some v → ∃ t1 t2 : List Spoken × Bool, slotText b x slot = (t1.1 ++ t2.1, t1.2 || t2.2) ∧
        number b.hour (v % 86400 / 3600) t1 ∧
        (v % 3600 < 60 → number b.oclock 0 t2) ∧ (60 ≤ v % 3600 → number b.minute (v % 3600 / 60) t2)
    expand b x 0 [] = ([], false) ∧
    (∀ n slot rest, expand b x (n + 1) (slot :: rest) = expand b x n rest) ∧
    (∀ slot rest, let r := expand b x (slotSkips x slot) rest
      expand b x 0 (slot :: rest) = ((slotText b x slot).1 ++ r.1, (slotText b x slot).2 || r.2)) ∧
    (∀ n, silent (.ifLate n) ∧ silent (.ifChanged n) ∧
      ((∃ l, late l) → slotSkips x (.ifLate n) = 0) ∧ ((¬ ∃ l, late l) → slotSkips x (.ifLate n) = n) ∧
      ((∃ c, x.call = some c ∧ c.changed = true) → slotSkips x (.ifChanged n) = 0) ∧
      ((∀ c, x.call = some c → c.changed = false) → slotSkips x (.ifChanged n) = n)) ∧
    (∀ slot, (∀ n, slot ≠ .ifLate n) → (∀ n, slot ≠ .ifChanged n) → slotSkips x slot = 0) ∧
    silent (.phrase 0) ∧ (∀ p, p ≠ 0 → slotText b x (.phrase p) = ([{ code := p, calling := false }], false)) ∧
    (x.call = none → silent .dest ∧ silent .origin ∧ silent .platform ∧ silent .timeArr ∧ silent .timeDep ∧ silent .delay ∧ silent .coaches ∧
      silent .calling) ∧
    ((¬ ∃ l, late l) → silent .delay) ∧ (∀ l, late l → number b.delay (min 180 ((l + 59) / 60)) (slotText b x .delay)) ∧
    ∀ c, x.call = some c →
      (c.dest = none → slotText b x .dest = ([], true)) ∧
      (∀ d, c.dest = some d → slotText b x .dest = ([{ code := d, calling := false }], false)) ∧
      (c.origin = none → slotText b x .origin = ([], true)) ∧
      (∀ d, c.origin = some d → slotText b x .origin = ([{ code := d, calling := false }], false)) ∧
      number b.platform x.stationNo (slotText b x .platform) ∧ time .timeArr c.expArr ∧ time .timeDep c.expDep ∧
      (c.coaches = none → slotText b x .coaches = ([], decide (b.coaches ≠ 0))) ∧
      (∀ n, c.coaches = some n → number b.coaches n (slotText b x .coaches)) ∧
      slotText b x .calling = (c.points.map (fun p => { code := p, calling := true }), false)) ∧
  ∀ (b : Bases) (l : List Spoken),
    let r := limitLength b l
    r.1.length ≤ 32 ∧ (l.length ≤ 32 → r = (l, false)) ∧ (r.2 = true → ∀ c ∈ r.1, c.calling = false) ∧
    (r.2 = false → (l.filter (fun c => !c.calling)).Sublist r.1) ∧
    (r.2 = true ↔ 32 < (l.filter (fun c => !c.calling)).length + if l.any (fun c => c.calling) then (andOthers b).length else 0) ∧
    (32 < l.length → (∀ c ∈ l, c.calling = false) → r = (l.take 32, true)) ∧
    ∀ pre x post, 32 < l.length → l = pre ++ x :: post → x.calling = true → (∀ c ∈ post, c.calling = false) →
      let others : List Spoken := if b.andOthers = 0 then [] else [{ code := b.andOthers, calling := false }]
      ∃ kept gone, pre = kept ++ gone ∧
        let left : List Spoken := kept ++ gone.filter (fun c => !c.calling) ++ others ++ post
        r = (left.take 32, decide (32 < left.length)) ∧
        (32 < left.length → ∀ c ∈ kept, c.calling = false) ∧
        ∀ y g, gone = y :: g → y.calling = true ∧ 32 ≤ left.length

/-! ### Claims on the link -/

/-- A CLAIM from a peer is ignored when its group set is empty, when outside STORE_FAULT it names no zone of this node, when its id is held, and when
16 entries stand and none is of a worse class. Otherwise, after the eviction of the worst and latest entry where 16 stand, it is entered last, timed
from now, and offered to the zones it names, its pending units one by one from Z0 (log 27), one whose id a zone still holds from an entry removed like
any other (the model's choice, log 59). An eviction takes the claim from the wait list, next and current claim of each unit, a zone or the members of
a WHOLE pair: a next claim's place falls to a better head of the wait list or to none, and one that plays stops and takes EVICTED, or WITHDRAWN with a
withdrawal pending on it (log 41); every zone still PENDING takes EVICTED; the entry settles, by which its ZSTAT is queued, and then leaves the table
with its origin part. A zone is a target when a group of the claim contains it, or its partner in a configured pair; in STORE_FAULT every zone is,
unless the group set is empty. A zone that leaves play by an eviction notes the instant, and one that stops being silent loses its window; that it
turns to a LOOSE waiter at the first instant after that one's latest start is log 61 (R92, R93, R96, R97, R121, R123, R124, R146, R147, R180). -/
def Obligations.PeerClaimIsEntered : Prop :=
  (∀ (s : State) (gs : GroupSet),
    let named := fun (z : ZoneId) => ∃ g, g < 32 ∧ gs.getLsbD g = true ∧
      (s.cfg.groupMap.getD g 0).getLsbD (4 * (s.sectionNo - 1) + z.toNat) = true
    let target := fun (z : ZoneId) =>
      (s.sul.mode = .storeFault ∧ gs ≠ 0) ∨ (s.sul.mode ≠ .storeFault ∧ (named z ∨ ((s.za.get z).pair ≠ none ∧ named z.partner)))
    (∀ z, (target z → (s.startDisp gs).get z = .pending) ∧ (¬ target z → (s.startDisp gs).get z = .notTarget)) ∧
    (s.hasTarget gs = true ↔ ∃ z, target z)) ∧
  (∀ (f : RxFrame) (s : State) (c : ClaimFrame), decodeClaim f.body = some c → s.hears kindClaim f = true → s.fromUs f = false →
    1 ≤ f.src.toNat → f.src.toNat ≤ 48 →
    let id : ClaimId := ⟨f.src.toNat, c.seq⟩
    let v : State := { s with lc := { s.lc with rx := false } }
    let start := s.now + 10 * c.offset10
    let e : Entry :=
      { id := id, cls := c.cls, sync := c.sync, groups := c.groups, phrases := c.phrases, call := c.call, missing := c.missing,
        truncated := c.truncated, localOnly := false, start := some start,
        latest := if c.sync = .joint then none else some (start + 1000 * c.window.getD 0),
        plannedEnd := some (start + if s.sul.mode = .storeFault then 10000 else (c.phrases.map s.phraseLen).sum / 16),
        disp := s.startDisp c.groups,
        zstat := if s.sul.mode = .listenOnly ∨ (s.sul.mode = .storeFault ∧ s.nodeNo = none) then .notNeeded else .pending,
        settled := false, origin := none }
    let entered := fun (w t : State) => t = (({ w with clt := w.clt ++ [e] }).offerEntry id).settle
    let ignored := c.groups = 0 ∨ (s.sul.mode ≠ .storeFault ∧ s.hasTarget c.groups = false) ∨ ∃ d ∈ s.clt, d.id = id
    (ignored → Takes (.claim f) s (fun t => t = v)) ∧
    (¬ ignored → s.clt.length < 16 → Takes (.claim f) s (entered v)) ∧
    (¬ ignored → 16 ≤ s.clt.length → (∀ d ∈ s.clt, d.cls ≤ c.cls) → Takes (.claim f) s (fun t => t = v)) ∧
    (¬ ignored → 16 ≤ s.clt.length → ∀ l d r, s.clt = l ++ d :: r → c.cls < d.cls → (∀ x ∈ l, x.cls ≤ d.cls) → (∀ x ∈ r, x.cls < d.cls) →
      Takes (.claim f) s (entered (v.evict d.id)))) ∧
  (∀ (s : State) (id : ClaimId) (e : Entry), s.findEntry id = some e →
    s.offerEntry id = s.leads.foldl (fun w z => if w.unitPending id z then w.offerUnit
      { id := e.id, cls := e.cls, sync := e.sync, start := e.start.getD s.now, latest := e.latest, arrival := s.now, phrases := e.phrases } z
      else w) s) ∧
  (∀ (s : State) (id : ClaimId),
    let v := (s.leads.foldl (fun w z => w.evictUnit id z) s).modEntry id
      (fun e => { e with disp := e.disp.map (fun d => if d = .pending then .evicted else d) })
    s.evict id = { v.settle with clt := v.settle.clt.filter (fun e => e.id != id) } ∧ (s.evict id).findEntry id = none) ∧
  ∀ (s : State) (id : ClaimId) (z : ZoneId),
    let a := (s.za.get z).arb
    let u := s.evictUnit id z
    (∀ y ∈ s.unit z, (s.za.get y).arb = a) →
    let turns := fun (b : Arb) => ∀ y ∈ s.unit z, (u.za.get y).arb = b
    let absent := ∀ h ∈ a.wait, h.id ≠ id
    ((a.next ≠ none → a.state = .cutting) → ∀ y, PlayNoted s u y) ∧
    ((∃ h ∈ a.wait, h.id = id) → u = { s with za := u.za } ∧ ∀ y, u.za.get y =
      if y ∈ s.unit z then { s.za.get y with arb := { a with wait := a.wait.filter (fun h => h.id != id) } } else s.za.get y) ∧
    (∀ n c, absent → a.next = some n → n.id = id → a.current = some c → NextLeaves s u z a c) ∧
    (∀ c, absent → (∀ n, a.next = some n → n.id ≠ id) → a.current = some c → c.id = id →
      (a.state = .leadIn → turns (a.choose s.now).1) ∧
      (a.state.plays = true → turns (a.choose s.now).1 ∧ ∀ y ∈ s.unit z, ∀ e, s.findEntry id = some e → e.disp.get y = .pending →
        ∃ e', u.findEntry id = some e' ∧ e'.disp.get y = if a.wdPending then .withdrawn else .evicted)) ∧
    (absent → (∀ n, a.next = some n → n.id ≠ id) → (∀ c, a.current = some c → c.id ≠ id) → u = s)

/-- A CEDE not from its claim's origin is ignored; one from it withdraws the claim from the units of zones in which it is PENDING, one by one from Z0
(log 27). In a unit, a zone or the members of a WHOLE pair, that holds the claim waiting, it leaves the wait list; as next claim, the head of the wait
list takes its place where it is better than the current claim, with fresh stop conditions, by which the current claim may stop at once, and otherwise
the unit plays on; current in LEAD_IN, the unit chooses what follows; current in PLAYING or CUTTING, without cut-now the unit is marked to stop at the
phrase end, and with it the claim stops and the unit chooses; a unit that does not hold the claim does nothing. A zone that leaves play notes the
instant. That a unit turns to a LOOSE waiter at the first instant after that one's latest start is log 61 (R99, R115, R121, R122, R123, R124, R146,
R147). -/
def Obligations.CedeWithdrawsTheClaim : Prop :=
  (∀ (f : RxFrame) (s : State) (id : ClaimId) (cut : Bool), decodeCede f.body = some (id, cut) → s.hears kindCede f = true →
    let v : State := { s with lc := { s.lc with rx := false } }
    (f.src.toNat ≠ id.origin → Takes (.cede f) s (fun t => t = v)) ∧
    (f.src.toNat = id.origin → Takes (.cede f) s (fun t =>
      t = ((s.leads.foldl (fun w z => if w.unitPending id z then w.withdrawUnit id cut z else w) v)).settle))) ∧
  ∀ (s : State) (id : ClaimId) (cut : Bool) (z : ZoneId),
    let a := (s.za.get z).arb
    let u := s.withdrawUnit id cut z
    (∀ y ∈ s.unit z, (s.za.get y).arb = a) →
    let takes := fun (k : ClaimId) (x : Disp) => ∀ y ∈ s.unit z, ∀ e, s.findEntry k = some e → e.disp.get y = .pending →
      ∃ e', u.findEntry k = some e' ∧ e'.disp.get y = x
    let turns := fun (b : Arb) => ∀ y ∈ s.unit z, (u.za.get y).arb = b
    let changes := fun (b : Arb) => ∀ y, u.za.get y = if y ∈ s.unit z then { s.za.get y with arb := b } else s.za.get y
    let absent := ∀ h ∈ a.wait, h.id ≠ id
    ((a.next ≠ none → a.state = .cutting) → ∀ y, PlayNoted s u y) ∧
    ((∃ h ∈ a.wait, h.id = id) → u = { s with za := u.za, clt := u.clt } ∧ takes id .withdrawn ∧
      changes { a with wait := a.wait.filter (fun h => h.id != id) }) ∧
    (∀ n c, absent → a.next = some n → n.id = id → a.current = some c → c.id ≠ id → takes id .withdrawn ∧ NextLeaves s u z a c) ∧
    (∀ c, absent → (∀ n, a.next = some n → n.id ≠ id) → a.current = some c → c.id = id →
      (a.state = .leadIn → takes id .withdrawn ∧ turns (a.choose s.now).1) ∧
      (a.state.plays = true → cut = false → u = { s with za := u.za } ∧ changes { a with wdPending := true, phraseEnd := true }) ∧
      (a.state.plays = true → cut = true → takes id .withdrawn ∧ turns (a.choose s.now).1)) ∧
    (absent → (∀ n, a.next = some n → n.id ≠ id) → (∀ c, a.current = some c → c.id ≠ id) → u = s)

/-- The withdrawal of one of the node's own claims, by what has become of its CLAIM: sent and not past its planned end, a CEDE is queued and the entry
is marked; sent and past it, nothing is done, and the ceded flag stays clear (the model's choice beside R91, log 58); waiting in the transmit queue,
the frame is taken back, and the entry's pending zones take WITHDRAWN, with no ZSTAT, send state FAILED and the window closed; on the link, the
request is held; failed, the zones are withdrawn from directly and no window is shortened (the model's reading, log 40). A second order does nothing,
by the ceded flag of R91; beside it the entry keeps the order's cut-now flag, a mark of the model (log 24) (R14, R39, R91, R171). -/
def Obligations.OwnClaimsAreWithdrawn : Prop :=
  ∀ (s : State) (cut : Bool) (id : ClaimId) (e : Entry) (o : OriginPart), s.findEntry id = some e → e.origin = some o →
    let t := s.withdrawOwn cut id
    let marked := s.modEntry id (fun d => { d with origin := d.origin.map (fun p => { p with ceded := true, cutNow := cut }) })
    (o.ceded = true → t = s) ∧
    (o.ceded = false → o.send = .sent → s.now ≤ e.plannedEnd.getD 0 → t = marked.enqueue (.cede id cut) 0) ∧
    (o.ceded = false → o.send = .sent → e.plannedEnd.getD 0 < s.now → t = s) ∧
    (o.ceded = false → o.send = .queued → (∀ f ∈ s.lc.tx, f.isClaim id.seq = true → f.underWay = false) →
      (∀ f ∈ t.lc.tx, f.isClaim id.seq = false) ∧ t.za = s.za ∧ t.rch = s.rch ∧ t.ct = s.ct ∧
      ∃ e' o', t.findEntry id = some e' ∧ e'.origin = some o' ∧ e'.zstat = .notNeeded ∧ o'.send = .failed ∧ o'.windowOpen = false ∧
        ∀ z, e'.disp.get z = if e.disp.get z = .pending then .withdrawn else e.disp.get z) ∧
    (o.ceded = false → o.send = .queued → (∃ f ∈ s.lc.tx, f.isClaim id.seq = true ∧ f.underWay = true) →
      t = { marked with lc := { s.lc with tx := s.lc.tx.map (fun f => if f.isClaim id.seq then { f with takeBack := true } else f) } }) ∧
    (o.ceded = false → o.send = .failed → t = (marked.withdrawZones id cut).settle)

/-- A ZSTAT rewrites the sender's line of the origin entry it names and no other: PLAYED when every zone listed played, MISSED when none did, PARTIAL
otherwise, with the zones that were PREEMPTED, MISSED, REFUSED_BUSY or EVICTED as its retry zones; it changes no other line, entry or part of the
state (log 46). An entry settles once, with no zone PENDING and its anchor fixed or its CLAIM never to be sent (log 23): a received one whose ZSTAT is
due queues it with tier 5 for the claim's origin, listing its target zones, each with its own disposition, and an origin entry rewrites the node's own
line from them, the members of a re-formed pair each by its own record too (the model's choice, log 63). The settlings due are taken in arrival order
(log 27). ENTRY_REMOVAL takes out an entry that has settled and whose ZSTAT, or whose CLAIM and window, are done with; for any other the event has not
happened and changes nothing (log 1) (R91, R94, R101, R102, R106). -/
def Obligations.EntriesAreReportedAndRemoved : Prop :=
  (∀ s : State, s.settle = (s.clt.map (·.id)).foldl State.settleEntry s) ∧
  (∀ (s : State) (id : ClaimId) (e : Entry), s.findEntry id = some e →
    let t := s.settleEntry id
    let due := e.settled = false ∧ (∀ z, e.disp.get z ≠ .pending) ∧ (e.start ≠ none ∨ ∃ o, e.origin = some o ∧ o.send = .failed)
    let zones := ([.i0, .i1, .i2, .i3].map (fun z => (z, e.disp.get z))).filter (fun p => p.2 != .notTarget)
    let settled := s.modEntry id (fun d => { d with settled := true })
    (¬ due → t = s) ∧
    (due → e.origin = none →
      (e.zstat ≠ .pending → t = settled) ∧
      (e.zstat = .pending →
        let v := s.modEntry id (fun d => { d with settled := true, zstat := .queued })
        let f : TxFrame :=
          { body := .zstat id zones, dst := id.origin, tier := 5, queuedAt := s.now, fails := 0, underWay := false, takeBack := false }
        let r := txOffer s.lc.tx f
        let w : State := { v with lc := { s.lc with tx := r.1 } }
        (r.2 = none → t = w) ∧ ∀ g, r.2 = some g →
          (∀ k zs, g.body = .zstat k zs → t = w.modEntry k (fun d => { d with zstat := if d.zstat = .queued then .failed else d.zstat })) ∧
          (∀ k i n l key c, g.body = .report k i n l key c → t = { w with lc := { w.lc with report := none } }))) ∧
    (∀ o, due → e.origin = some o →
      (s.nodeNo = none → t = settled) ∧
      ∀ n, s.nodeNo = some n → t = settled.modEntry id (fun d => { d with
        origin := d.origin.map (fun o => { o with lines := o.lines.map (fun l => if l.node = n then
          { node := l.node,
            outcome := if ∀ p ∈ zones, p.2 ≠ .played then .missed else if ∀ p ∈ zones, p.2 = .played then .played else .partly,
            retryZones := Quad.tabulate (fun z => decide (∃ p ∈ zones, p.1 = z ∧
              (p.2 = .preempted ∨ p.2 = .missed ∨ p.2 = .refusedBusy ∨ p.2 = .evicted))) }
          else l) }) }))) ∧
  (∀ (f : RxFrame) (s : State) (id : ClaimId) (zones : List (ZoneId × Disp)), decodeZstat f.body = some (id, zones) →
    s.hears kindZstat f = true → Takes (.zstat f) s (fun t =>
      t = { s with lc := { s.lc with rx := false }, clt := t.clt } ∧
      t.clt = s.clt.map (fun e => if e.id = id then
        { e with origin := e.origin.map (fun o => { o with lines := o.lines.map (fun l => if l.node = f.src.toNat then
          { node := l.node,
            outcome := if ∀ p ∈ zones, p.2 ≠ .played then .missed else if ∀ p ∈ zones, p.2 = .played then .played else .partly,
            retryZones := Quad.tabulate (fun z => decide (∃ p ∈ zones, p.1 = z ∧
              (p.2 = .preempted ∨ p.2 = .missed ∨ p.2 = .refusedBusy ∨ p.2 = .evicted))) }
          else l) }) } else e))) ∧
  ∀ (id : ClaimId) (s : State) (e : Entry), s.findEntry id = some e →
    let done := e.settled = true ∧
      (e.origin = none → e.zstat = .sent ∨ e.zstat = .failed ∨ e.zstat = .notNeeded) ∧
      ∀ o, e.origin = some o → (o.send = .sent ∨ o.send = .failed) ∧ o.windowOpen = false
    (done → Takes (.entryRemoval id) s (fun t => t = { s with clt := s.clt.filter (fun d => d.id != id) } ∧ t.findEntry id = none)) ∧
    (¬ done → Takes (.entryRemoval id) s (fun t => t = s))

/-- COVERAGE_WINDOW_CLOSE at an open window's end closes it. Where the entry's step still asks for a retry, none was used or forbidden, the claim is
no retry itself and some missed zone lies in a group, the retry is used and one origination is handed over, for the groups that contain a missed zone.
Before the end, and for a closed window, the event has not happened and changes nothing, the model's choice (log 1) (R103, R104, R105). -/
def Obligations.WindowCloseDecidesTheRetry : Prop :=
  ∀ (id : ClaimId) (s : State) (e : Entry) (o : OriginPart), s.findEntry id = some e → e.origin = some o →
    let groups := s.retryGroups o.lines
    let due := fun (st : Step) => st.spec.retry = true ∧ o.retryUsed = false ∧ o.isRetry = false ∧ o.noRetry = false ∧ groups ≠ 0
    let closed := s.modEntry id (fun d => { d with origin := d.origin.map (fun p => { p with windowOpen := false }) })
    let used := s.modEntry id (fun d => { d with origin := d.origin.map (fun p => { p with windowOpen := false, retryUsed := true }) })
    (∀ g, g < 32 → (groups.getLsbD g = true ↔ ∃ l ∈ o.lines, ∃ z, l.retryZones.get z = true ∧ s.inGroup g l.node z = true)) ∧
    (∀ w, o.windowOpen = true → o.windowEnd = some w → w ≤ s.now →
      ((∀ key i st, e.call = some (key, i) → s.findStep key i = some st → ¬ due st) →
        Takes (.coverageWindowClose id) s (fun t => t = closed)) ∧
      (∀ key i st, e.call = some (key, i) → s.findStep key i = some st → due st →
        Takes (.coverageWindowClose id) s (fun t => t = used.pushOrig
          { source := .retry id, cls := e.cls, sync := e.sync, template := st.spec.template, target := .groups groups, call := some (key, i),
            queuedAt := s.now, own := false }))) ∧
    (o.windowOpen = false ∨ o.windowEnd = none ∨ (∃ w, o.windowEnd = some w ∧ s.now < w) →
      Takes (.coverageWindowClose id) s (fun t => t = s))

/-! ### Zones -/

/-- The offer of a claim to a unit of zones (R112): REFUSED_ATTR by its acceptance code, FAULT when the zone is unable, taken by an IDLE zone as its
start instant stands (R113), begun in place of a worse claim in LEAD_IN (R114), cutting in on a worse claim that plays, with the stop conditions of
R115, displacing a worse next claim (R116), and otherwise sent to the wait list, the claim that does not stay there REFUSED_BUSY or MISSED (R117). In
LEAD_IN and IDLE a claim that can no longer begin is MISSED and the choice goes on with the wait list (log 20), where a LOOSE waiter can begin up to
the first instant after its latest start (log 61). A wait list in order of class and arrival takes a claim short of 4 at its place: an offer behind
every one of its class or a better, a displaced next claim by its own arrival; at 4 the last leaves if it stands behind that place, and otherwise the
claim does not enter. The effective code of a zone is spelt out: its own, the stricter of two in a WHOLE pair, and in STORE_FAULT ACCEPT for class 0
alone. A zone that leaves play notes the instant, and one that begins to play loses its window (R111, R112, R113, R114, R115, R116, R117, R146,
R147). -/
def Obligations.OfferIsDecided : Prop :=
  (∀ (s : State) (z : ZoneId) (d : AnnClass),
    let own := (s.za.get z).row.code d
    let other := (s.za.get z.partner).row.code d
    (s.sul.mode = .storeFault → s.effCode z d = if d = 0 then .accept else .refuse) ∧
    (s.sul.mode ≠ .storeFault →
      ((s.za.get z).pair ≠ some .whole → s.effCode z d = own) ∧
      ((s.za.get z).pair = some .whole →
        s.effCode z d = if own = .refuse ∨ other = .refuse then .refuse else if own = .quiet ∨ other = .quiet then .quiet else .accept))) ∧
  (∀ (w : List Held) (h : Held) (displaced : Bool),
    let before := fun (g k : Held) => g.cls < k.cls ∨ (g.cls = k.cls ∧ g.arrival ≤ k.arrival)
    let ahead := fun (g : Held) => if displaced then g.cls < h.cls ∨ (g.cls = h.cls ∧ g.arrival < h.arrival) else g.cls ≤ h.cls
    let r := waitEnter (if displaced then Held.aheadOfDisplaced else Held.aheadOfOffer) w h
    let placed := fun (p : List Held) => ∃ l m, p = l ++ m ∧ r.1 = l ++ h :: m ∧ (∀ g ∈ l, ahead g) ∧ ∀ g ∈ m, ¬ ahead g
    w.Pairwise before →
      (w.length < 4 → r.2 = none ∧ placed w) ∧
      (4 ≤ w.length → ∀ p x, w = p ++ [x] →
        (¬ ahead x → r.2 = some x ∧ placed p) ∧ (ahead x → r = (w, some h)))) ∧
  ∀ (s : State) (h : Held) (z : ZoneId),
    let a := (s.za.get z).arb
    let t := s.offerUnit h z
    let zs := s.unit z
    let late := (h.sync = .joint ∧ h.start < s.now) ∨ (h.sync = .loose ∧ ∃ l, h.latest = some l ∧ l < s.now)
    let taken := fun (before : State) => ∀ y ∈ zs,
      (late → (t.za.get y).arb = ({ a with next := none }.choose s.now).1) ∧
      (¬ late → s.now < h.start → (t.za.get y).arb = { Arb.bare .leadIn with current := some h, wait := a.wait }) ∧
      (¬ late → h.start ≤ s.now → (t.za.get y).arb = { Arb.bare .playing with current := some h, wait := a.wait }) ∧
      (late → ∀ e, before.findEntry h.id = some e → e.disp.get y = .pending →
        ∃ e', t.findEntry h.id = some e' ∧ e'.disp.get y = .missed)
    let cut := { a with
      state := .cutting, next := some h, phraseEnd := a.wdPending || decide (2 ≤ h.cls),
      stopAt := if h.cls ≤ 1 ∨ h.sync = Sync.joint then some (max h.start s.now) else none }
    let cutsIn := fun (before : State) (wait : List Held) =>
      t = if (h.cls ≤ 1 ∨ h.sync = .joint) ∧ h.start ≤ s.now then (before.putArb zs { cut with wait := wait }).stopUnit z .instant
          else before.putArb zs { cut with wait := wait }
    let waits := t = match (waitEnter Held.aheadOfOffer a.wait h).2 with
      | none => s.putArb zs { a with wait := (waitEnter Held.aheadOfOffer a.wait h).1 }
      | some x => (s.putArb zs { a with wait := (waitEnter Held.aheadOfOffer a.wait h).1 }).writeDisps x.id zs
          (if x.id = h.id then .refusedBusy else .missed)
    ((∀ y ∈ zs, (s.za.get y).arb = a) → ∀ y, PlayNoted s t y) ∧
    (s.effCode z h.cls = .refuse → t = s.writeDisps h.id zs .refusedAttr) ∧
    (s.effCode z h.cls ≠ .refuse →
      (a.state = .fault ∨ a.state = .outOfService ∨ a.state = .rejoining → t = s.writeDisps h.id zs .fault) ∧
      (a = Arb.bare .idle → taken s) ∧
      (∀ c, a.state = .leadIn → a.current = some c → a.next = none →
        (h.cls < c.cls → c.id ≠ h.id → taken s ∧ ∀ y ∈ zs, ∀ e, s.findEntry c.id = some e → e.disp.get y = .pending →
          ∃ e', t.findEntry c.id = some e' ∧ e'.disp.get y = .preempted) ∧
        (c.cls ≤ h.cls → waits)) ∧
      (∀ c, a.state = .playing → a.current = some c → (h.cls < c.cls → cutsIn s a.wait) ∧ (c.cls ≤ h.cls → waits)) ∧
      (∀ n, a.state = .cutting → a.next = some n →
        (h.cls < n.cls → cutsIn
          (match (waitEnter Held.aheadOfDisplaced a.wait n).2 with
            | none => s
            | some x => s.writeDisps x.id zs .missed)
          (waitEnter Held.aheadOfDisplaced a.wait n).1) ∧
        (n.cls ≤ h.cls → waits)))

/-- An amplifier fault rising clears a zone in service into FAULT, holding nothing, attached nowhere and silent; a WHOLE pair is BROKEN by it and its
partner keeps what the pair held. A fault falling returns a zone in FAULT: IDLE if single, WHOLE with an IDLE partner, REJOINING beside a partner that
holds a claim, IDLE otherwise; no other zone, and no ambient estimate, changes. In other states only the level is recorded. PAIR_REFORM gives a
REJOINING zone all that its partner holds, and its level where that plays, and the pair is WHOLE, when the partner is IDLE or has chosen what follows
its claim, which the model marks (log 21); each member keeps its own window and last play end, the model's choice (log 60). Of a zone that is not
REJOINING the event has not happened and changes nothing (log 1) (R125, R126, R127, R146, R147, R151). -/
def Obligations.ZonesLeaveAndRejoin : Prop :=
  ∀ (z : ZoneId) (s : State),
    let r := s.za.get z
    let y := z.partner
    let p := s.za.get y
    let inService := r.arb.state ≠ .fault ∧ r.arb.state ≠ .outOfService
    let rec' := fun (b : Bool) => { s with za := s.za.set z { r with ampFault := b } }
    (r.ampFault = false → s.sul.mode ≠ .loading → inService → Takes (.ampFaultRise z) s (fun t =>
      t = { s with lc := t.lc, clt := t.clt, za := t.za, rch := t.rch, audio := t.audio, sp := t.sp, lu := t.lu } ∧
      (t.za.get z).arb = Arb.bare .fault ∧ (t.za.get z).ampFault = true ∧ (t.za.get z).row = r.row ∧ (t.za.get z).staged = r.staged ∧
      (∀ c, ¬ t.attachedTo z c) ∧ t.audio.get z = 0 ∧ (t.za.get y).arb = p.arb ∧
      (t.za.get z).pair = (if r.pair = some .whole then some .broken else r.pair) ∧
      (t.za.get y).pair = (if r.pair = some .whole then some .broken else p.pair) ∧
      (∀ x, x ≠ z → x ≠ y → t.za.get x = s.za.get x) ∧ (∀ x, PlayNoted s t x) ∧
      ∀ h e, h ∈ r.arb.held → s.findEntry h.id = some e → e.disp.get z = .pending →
        ∃ e', t.findEntry h.id = some e' ∧ e'.disp.get z = .fault)) ∧
    (r.ampFault = false → s.sul.mode = .loading ∨ ¬ inService → Takes (.ampFaultRise z) s (fun t => t = rec' true)) ∧
    (r.ampFault = true → s.sul.mode ≠ .loading → r.arb = Arb.bare .fault → Takes (.ampFaultFall z) s (fun t =>
      t = { s with za := t.za } ∧ (∀ x, x ≠ z → x ≠ y → t.za.get x = s.za.get x) ∧
      let back := fun (st : ZoneState) => { r with ampFault := false, arb := Arb.bare st }
      (r.pair = none → t.za.get z = back .idle ∧ t.za.get y = p) ∧
      (r.pair ≠ none → p.arb.state = .idle → t.za.get z = { back .idle with pair := some .whole, reformDue := false } ∧
        t.za.get y = { p with pair := some .whole, reformDue := false }) ∧
      (r.pair ≠ none → p.arb.state = .leadIn ∨ p.arb.state = .playing ∨ p.arb.state = .cutting →
        t.za.get z = back .rejoining ∧ t.za.get y = p) ∧
      (r.pair ≠ none → p.arb.state = .fault ∨ p.arb.state = .outOfService ∨ p.arb.state = .rejoining →
        t.za.get z = back .idle ∧ t.za.get y = p))) ∧
    (r.ampFault = true → s.sul.mode = .loading ∨ r.arb.state ≠ .fault → Takes (.ampFaultFall z) s (fun t => t = rec' false)) ∧
    (r.arb.state = .rejoining → r.pair = some .broken → p.arb.state = .idle ∨ (r.reformDue = true ∧ p.arb.state.serves = true) →
      Takes (.pairReform z) s (fun t =>
        t = { s with za := t.za, rch := t.rch, lu := { s.lu with zones := t.lu.zones } } ∧
        t.za.get z = { r with arb := p.arb, pair := some .whole, reformDue := false } ∧
        t.za.get y = { p with pair := some .whole, reformDue := false } ∧ (∀ x, x ≠ z → x ≠ y → t.za.get x = s.za.get x) ∧
        (∀ x, PlayNoted s t x) ∧ (∀ x, x ≠ z → t.lu.zones.get x = s.lu.zones.get x) ∧
        (p.arb.state.plays = false → t.rch = s.rch ∧ (t.lu.zones.get z).level = (s.lu.zones.get z).level ∧
          (t.lu.zones.get z).mult = (s.lu.zones.get z).mult) ∧
        (p.arb.state.plays = true → (∀ h, p.arb.current = some h →
            (t.lu.zones.get z).level = t.levelFor z h ∧ (t.lu.zones.get z).mult = multiplier (t.levelFor z h)) ∧
          ((∃ c, s.attachedTo y c) → ∃ c, t.attachedTo y c ∧ t.attachedTo z c)))) ∧
    (r.arb.state ≠ .rejoining ∨ r.pair ≠ some .broken ∨ (p.arb.state ≠ .idle ∧ (r.reformDue = false ∨ p.arb.state.serves = false)) →
      Takes (.pairReform z) s (fun t => t = s)) ∧
    ∀ a : Arb, let t := s.chooseNext [z] a
      (t.za.get z).arb = (a.choose s.now).1 ∧ (t.za.get y).arb = p.arb ∧
      ((t.za.get y).reformDue = true ↔ p.reformDue = true ∨ (r.pair = some .broken ∧ p.arb.state = .rejoining))

/-- START_INSTANT puts a LEAD_IN zone whose current claim's start instant is reached, and its partner in a WHOLE pair, in PLAYING, each at the level
worked out for the claim, and attached where a channel is FREE. STOP_INSTANT, at a CUTTING zone's stop instant, writes the current claim's
disposition, WITHDRAWN if its withdrawal is pending, else PLAYED if its last sample has been delivered, by the boundary of R138, else PREEMPTED, and
the zone turns to what follows: of its next claim and then its wait list the first that can still begin, in LEAD_IN or PLAYING as its start instant
stands, those before it MISSED (for the next claim, log 20; that a LOOSE waiter can still begin at the first instant after its latest start, log 61),
and with none IDLE. A zone that begins to play loses its window, one that leaves play notes the instant, and one that turns marks a REJOINING partner,
by which its pair re-forms under R126 (log 21). The record of the channel a zone is given is spelt out: its bind instant in sixteenths of a ms is log
7, that a zone may share a channel whose sample 0 has gone log 55, that in STORE_FAULT the cursor of a channel newly bound, for which R133 and R141
give no value, counts the tone segments from 0 log 31; with it comes the read that the store port grants where it is IDLE. Before the instant the
event has not happened and changes nothing (log 1) (R113, R118, R121, R122, R134, R136, R139, R140, R141, R146, R147, R151). -/
def Obligations.InstantsAreTaken : Prop :=
  (∀ (s : State) (z : ZoneId) (h : Held), (s.za.get z).arb.current = some h → Attaches s (s.attachZone z) z h) ∧
  ∀ (z : ZoneId) (s : State) (h : Held),
    let a := (s.za.get z).arb
    a.current = some h →
    (a.state = .leadIn → h.start ≤ s.now → Takes (.startInstant z) s (fun t =>
      t = { s with za := t.za, rch := t.rch, sp := t.sp, lu := t.lu } ∧ (∀ y, PlayNoted s t y) ∧
      (∃ w, w = (s.unit z).foldl State.attachZone { s with za := t.za } ∧ t.rch = w.rch ∧ t.sp = w.sp) ∧ ∀ y ∈ s.unit z,
        (t.za.get y).arb = { a with state := .playing } ∧ (t.lu.zones.get y).level = t.levelFor y h ∧
        (t.lu.zones.get y).mult = multiplier (t.levelFor y h) ∧
        ((∃ c, s.rch.get c = none) → ∃ c ch, t.rch.get c = some ch ∧ ch.attached.get y = true ∧ ch.claim = h.id))) ∧
    (a.state ≠ .leadIn ∨ s.now < h.start → Takes (.startInstant z) s (fun t => t = s)) ∧
    (∀ i, a.state = .cutting → a.stopAt = some i → i ≤ s.now → Takes (.stopInstant z) s (fun t =>
      t = { s with lc := t.lc, clt := t.clt, za := t.za, rch := t.rch, audio := t.audio, sp := t.sp, lu := t.lu } ∧
      (∀ y ∈ s.unit z, (t.za.get y).arb = (a.choose s.now).1) ∧ (∀ y, PlayNoted s t y) ∧
      ((s.za.get z).pair = some .broken → (s.za.get z.partner).arb.state = .rejoining → (t.za.get z.partner).reformDue = true) ∧
      (let canBegin := fun (slack : Nat) (m : Held) =>
         (m.sync = .joint → s.now ≤ m.start) ∧ (m.sync = .loose → ∀ l, m.latest = some l → s.now ≤ l + slack)
       let begun := fun (n : Held) (w : List Held) =>
         { Arb.bare (if n.start ≤ s.now then .playing else .leadIn) with current := some n, wait := w }
       (∀ n, a.next = some n → canBegin 0 n → a.choose s.now = (begun n a.wait, [])) ∧
       ((∀ n, a.next = some n → ¬ canBegin 0 n) → ∃ miss rest, a.wait = miss ++ rest ∧ (∀ m ∈ miss, ¬ canBegin 1 m) ∧
         (rest = [] → a.choose s.now = (Arb.bare .idle, (a.next.toList ++ miss).map (·.id))) ∧
         (∀ n r, rest = n :: r → canBegin 1 n ∧ a.choose s.now = (begun n r, (a.next.toList ++ miss).map (·.id))) ∧
         ∀ m ∈ a.next.toList ++ miss, m.id ≠ h.id → ∀ y ∈ s.unit z, ∀ e, s.findEntry m.id = some e → e.disp.get y = .pending →
           ∃ e', t.findEntry m.id = some e' ∧ e'.disp.get y = .missed)) ∧
      (∀ c ch, s.chanOf z = some c → s.rch.get c = some ch → (s.zoneDelivered z = true ↔
        s.atLast ch = true ∧ s.partDone ch = true ∧ ch.bind16 + ch.delivered ≤ 16 * s.sck.running + s.sck.sub)) ∧
      ∀ y ∈ s.unit z, ∀ e, s.findEntry h.id = some e → e.disp.get y = .pending → ∃ e', t.findEntry h.id = some e' ∧
        (a.wdPending = true → e'.disp.get y = .withdrawn) ∧
        (a.wdPending = false → s.zoneDelivered z = true → e'.disp.get y = .played) ∧
        (a.wdPending = false → s.zoneDelivered z = false → e'.disp.get y = .preempted))) ∧
    (a.state ≠ .cutting ∨ a.stopAt = none ∨ (∃ i, a.stopAt = some i ∧ s.now < i) → Takes (.stopInstant z) s (fun t => t = s))

/-- A JOINT claim waiting at its start instant, and a LOOSE one waiting past its latest start, leave the wait list MISSED. The LOOSE next claim of a
CUTTING zone past its latest start is MISSED, and a waiting head better than the current claim becomes next in its place, by which the current claim
may stop at once; with none the zone plays on. For a claim that does not wait there, or whose instant is not reached, and for a next claim that is not
LOOSE or not past its latest start, the event has not happened and changes nothing, the model's choice (log 1). Where the zone turns to its wait list
before the waiter leaves it, a JOINT head at its start instant begins, and a LOOSE one begins up to the first instant after its latest start, where
the other order gives MISSED (for a LOOSE one the model's choice, log 61) (R115, R119, R121, R123). -/
def Obligations.WaitersAreMissed : Prop :=
  ∀ (z : ZoneId) (id : ClaimId) (s : State),
    let a := (s.za.get z).arb
    let gone := fun (t : State) =>
      t = { s with lc := t.lc, clt := t.clt, za := t.za, lu := t.lu } ∧
      (∀ y ∈ s.unit z, (t.za.get y).arb = { a with wait := a.wait.filter (fun h => h.id != id) }) ∧
      ∀ y ∈ s.unit z, ∀ e, s.findEntry id = some e → e.disp.get y = .pending →
        ∃ e', t.findEntry id = some e' ∧ e'.disp.get y = .missed
    let joint := ∃ h ∈ a.wait, h.id = id ∧ h.sync = .joint ∧ h.start ≤ s.now
    let loose := ∃ h ∈ a.wait, h.id = id ∧ h.sync = .loose ∧ ∃ l, h.latest = some l ∧ l < s.now
    let passed := a.state = .cutting ∧ ∃ n l, a.next = some n ∧ n.sync = .loose ∧ n.latest = some l ∧ l < s.now
    (joint → Takes (.jointWaiterStart z id) s gone) ∧ (¬ joint → Takes (.jointWaiterStart z id) s (fun t => t = s)) ∧
    (loose → Takes (.looseWaiterExpiry z id) s gone) ∧ (¬ loose → Takes (.looseWaiterExpiry z id) s (fun t => t = s)) ∧
    (∀ n c, passed → a.next = some n → a.current = some c → Takes (.nextClaimExpiry z) s (fun t =>
      t = { s with lc := t.lc, clt := t.clt, za := t.za, rch := t.rch, audio := t.audio, sp := t.sp, lu := t.lu } ∧
      (∀ y ∈ s.unit z, ∀ e, s.findEntry n.id = some e → e.disp.get y = .pending →
        ∃ e', t.findEntry n.id = some e' ∧ e'.disp.get y = .missed) ∧ NextLeaves s t z a c)) ∧
    (¬ passed → Takes (.nextClaimExpiry z) s (fun t => t = s)) ∧
    ∀ h rest, a.next = none → a.wait = h :: rest → h.start ≤ s.now → (h.sync = .joint → s.now = h.start) →
      (h.sync = .loose → ∀ l, h.latest = some l → s.now ≤ l + 1) →
      a.choose s.now = ({ Arb.bare .playing with current := some h, wait := rest }, [])

/-- ZATTR in RUNNING, addressed to this node by number: LOCKED with MAINT low, BAD_VALUE for a body that fails the value tests, which are spelt out,
and otherwise DONE; a service flag off to a zone with it on puts the zone OUT_OF_SERVICE, its claims taking FAULT and a WHOLE pair being BROKEN; one
on to a zone with it off sets the estimate to its initial value and returns the zone as its AMP_FAULT, its pair and its partner's state say; and the
attributes are applied to an IDLE zone at once and staged in any other. The other zones stay as they are, and the members of a pair that becomes WHOLE
keep each its own window and last play end (the model's choice, log 60). In STORE_FAULT the answer is STORE_FAULT. A ZATTR addressed to all nodes, and
one in LISTEN_ONLY, is discarded. The level of MAINT is an operand of the model (log 37). STAGED_ATTR_APPLY writes an IDLE zone's staged attributes
and changes nothing else; with none staged, or in a zone that is not IDLE, the event has not happened and changes nothing (log 1) (R125, R126, R128,
R129, R130, R146, R147, R149, R164, R185). -/
def Obligations.AttributesAreSet : Prop :=
  (∀ (b : List Byte) (z : ZoneId) (a : StagedAttr) (on : Bool), readZattr b = some (z, a, on) ↔
    b.length = 6 ∧ field8 b 0 = z.toNat ∧ (∀ c, c < 8 → [AccCode.accept, .quiet, .refuse][field b 1 2 / 4 ^ c % 4]? = some (a.row.code c)) ∧
    a.base = field8 b 3 ∧ a.base ≤ 120 ∧ a.floor = field8 b 4 ∧ a.floor ≤ 120 ∧ on = (field8 b 5).testBit 0) ∧
  (∀ (f : RxFrame) (maint : Bool) (s : State), s.hears kindZattr f = true → s.forUsAlone f = true →
    let v : State := { s with lc := { s.lc with rx := false } }
    let w : State := { v with pins := { s.pins with maint := maint } }
    (s.sul.mode = .storeFault → TakesAnswering (.zattr f maint) f kindZattr (field8 f.body 0) .storeFault s (fun u => u = v)) ∧
    (s.sul.mode = .listenOnly → Takes (.zattr f maint) s (fun t => t = v)) ∧
    (s.sul.mode = .running →
      (maint = false → TakesAnswering (.zattr f maint) f kindZattr (field8 f.body 0) .locked s (fun u => u = w)) ∧
      (maint = true → readZattr f.body = none →
        TakesAnswering (.zattr f maint) f kindZattr (field8 f.body 0) .badValue s (fun u => u = w)) ∧
      (∀ z a on, maint = true → readZattr f.body = some (z, a, on) →
        TakesAnswering (.zattr f maint) f kindZattr (field8 f.body 0) .done s (fun u =>
          let r := s.za.get z
          let y := z.partner
          let p := s.za.get y
          u = { w with
            lc := { w.lc with tx := u.lc.tx, report := u.lc.report }, clt := u.clt, za := u.za, rch := u.rch, audio := u.audio, sp := u.sp, lu := u.lu } ∧
          (∀ x, x ≠ z → x ≠ y → u.za.get x = s.za.get x) ∧ (∀ x, PlayNoted s u x) ∧
          (u.za.get y).arb = p.arb ∧ (u.za.get y).service = p.service ∧ (u.za.get y).row = p.row ∧ (u.za.get y).staged = p.staged ∧
          (u.za.get z).service = on ∧ (u.za.get z).ampFault = r.ampFault ∧ (u.za.get z).neighbours = r.neighbours ∧
          ((u.za.get z).arb.state = .idle →
            (u.za.get z).row = a.row ∧ (u.za.get z).base = a.base ∧ (u.za.get z).floor = a.floor ∧ (u.za.get z).staged = none) ∧
          ((u.za.get z).arb.state ≠ .idle → (u.za.get z).staged = some a ∧ (u.za.get z).row = r.row ∧ (u.za.get z).base = r.base ∧
            (u.za.get z).floor = r.floor) ∧
          (r.service = on → (u.za.get z).arb = r.arb ∧ (u.za.get z).pair = r.pair ∧ u.za.get y = p ∧ u.lu = s.lu ∧ u.rch = s.rch ∧ u.clt = s.clt ∧
            u.audio = s.audio ∧ u.sp = s.sp ∧ u.lc.tx = s.lc.tx) ∧
          (r.service = true → on = false → (u.za.get z).arb = Arb.bare .outOfService ∧ (∀ c, ¬ u.attachedTo z c) ∧ u.audio.get z = 0 ∧
            (u.za.get z).pair = (if r.pair = some .whole then some .broken else r.pair) ∧
            (u.za.get y).pair = (if r.pair = some .whole then some .broken else p.pair) ∧
            ∀ h e, h ∈ r.arb.held → s.findEntry h.id = some e → e.disp.get z = .pending →
              ∃ e', u.findEntry h.id = some e' ∧ e'.disp.get z = .fault) ∧
          (r.service = false → on = true → (u.lu.zones.get z).k = (s.lu.zones.get z).initK ∧
            u.rch = s.rch ∧ u.clt = s.clt ∧ u.audio = s.audio ∧ u.sp = s.sp ∧ u.lc.tx = s.lc.tx ∧
            (r.ampFault = true → (u.za.get z).arb = Arb.bare .fault ∧ (u.za.get z).pair = r.pair ∧ u.za.get y = p) ∧
            (r.ampFault = false →
              (r.pair = none → (u.za.get z).arb = Arb.bare .idle ∧ (u.za.get z).pair = none ∧ u.za.get y = p) ∧
              (r.pair ≠ none → p.arb.state = .idle → (u.za.get z).arb = Arb.bare .idle ∧ (u.za.get z).pair = some .whole ∧
                (u.za.get y).pair = some .whole) ∧
              (r.pair ≠ none → p.arb.state = .leadIn ∨ p.arb.state = .playing ∨ p.arb.state = .cutting →
                (u.za.get z).arb = Arb.bare .rejoining ∧ (u.za.get z).pair = r.pair ∧ u.za.get y = p) ∧
              (r.pair ≠ none → p.arb.state = .fault ∨ p.arb.state = .outOfService ∨ p.arb.state = .rejoining →
                (u.za.get z).arb = Arb.bare .idle ∧ (u.za.get z).pair = r.pair ∧ u.za.get y = p))))))) ∧
  (∀ (f : RxFrame) (maint : Bool) (s : State), s.forUsAlone f = false → Takes (.zattr f maint) s (fun t =>
    t = { s with lc := { s.lc with rx := false } })) ∧
  ∀ (z : ZoneId) (s : State),
    let r := s.za.get z
    (∀ a, r.staged = some a → r.arb.state = .idle → Takes (.stagedAttrApply z) s (fun t =>
      t = { s with za := s.za.set z { r with row := a.row, base := a.base, floor := a.floor, staged := none } })) ∧
    (r.staged = none ∨ r.arb.state ≠ .idle → Takes (.stagedAttrApply z) s (fun t => t = s))

/-- PHRASE_BOUNDARY, when a phrase or tone segment has been delivered and its end is due. The attached units take it one by one from Z0 (log 27). At
the last one, and in a zone with the phrase-end stop, the attached zone's claim stops, its disposition WITHDRAWN with a withdrawal pending and else
PLAYED at the last and PREEMPTED before, and the zone turns to what follows; any other attached zone plays on, its level worked out anew, and the
cursor moves to the next phrase held, or in tone mode, where the cursor counts the ten segments (the model's choice, log 31), to the next segment, the
zones that play on staying attached. That a zone turns to a LOOSE waiter at the first instant after that one's latest start is log 61. A zone that
leaves play notes the instant. A boundary may be taken within the millisecond of its due instant (the
model's reading, log 7); one that is not due has not happened and changes nothing (log 1) (R120, R121, R136, R138, R142, R146, R147,
R151). -/
def Obligations.BoundaryIsTaken : Prop :=
  (∀ (w : State) (z : ZoneId) (last : Bool), (last = true ∨ (w.za.get z).arb.phraseEnd = true → w.boundaryUnit last z = w.stopUnit z .boundary) ∧
    (last = false → (w.za.get z).arb.phraseEnd = false → ∀ h, (∀ y ∈ w.unit z, (w.za.get y).arb.current = some h) →
      let u := w.boundaryUnit last z
      u = { w with lu := { w.lu with zones := u.lu.zones } } ∧ ∀ y, u.lu.zones.get y =
        if y ∈ w.unit z then { w.lu.zones.get y with level := w.levelFor y h, mult := multiplier (w.levelFor y h) } else w.lu.zones.get y)) ∧
  (∀ (c : ChanId) (s : State), (∀ ch, s.rch.get c = some ch → s.partDone ch = false ∨ 16 * s.sck.running + 15 < ch.bind16 + ch.delivered) →
    Takes (.phraseBoundary c) s (fun t => t = s)) ∧
  ∀ (c : ChanId) (s : State) (ch : Chan), ZonesKept s → ChannelsServe s → DirectoryInRange s → s.rch.get c = some ch → s.partDone ch = true →
    ch.bind16 + ch.delivered ≤ 16 * s.sck.running + 15 → Takes (.phraseBoundary c) s (fun t =>
      let last := s.atLast ch
      let next := ch.cursor.bind (s.cursorAfter ch)
      t = { s with
        lc := t.lc, sck := { s.sck with sub := t.sck.sub }, clt := t.clt, za := t.za, rch := t.rch, audio := t.audio, sp := t.sp, lu := t.lu } ∧
      (t = ((s.leads.filter (fun z => (s.unit z).any (fun y => ch.attached.get y))).foldl (fun (w : State) z => w.boundaryUnit last z)
        { s with sck := t.sck, rch := if last then s.rch else s.rch.set c (some { ch with cursor := next, pos := 0 }) }).settle) ∧
      (∀ z, PlayNoted s t z) ∧
      (∀ i, ch.cursor = some i → (last = true ↔ next = none) ∧ (ch.tone = false → FirstHeld s ch.phrases (i + 1) next) ∧
        (ch.tone = true → next = if i < 9 then some (i + 1) else none)) ∧
      (ch.cursor = none → last = true) ∧
      (∀ z h, ch.attached.get z = true → (s.za.get z).arb.current = some h →
        let a := (s.za.get z).arb
        (last = true ∨ a.phraseEnd = true → (t.za.get z).arb = (a.choose s.now).1 ∧
          ∀ e, s.findEntry h.id = some e → e.disp.get z = .pending → ∃ e', t.findEntry h.id = some e' ∧
            (a.wdPending = true → e'.disp.get z = .withdrawn) ∧ (a.wdPending = false → last = true → e'.disp.get z = .played) ∧
            (a.wdPending = false → last = false → e'.disp.get z = .preempted)) ∧
        (last = false → a.phraseEnd = false → (t.za.get z).arb = a ∧ t.audio.get z = s.audio.get z ∧
          ∃ d, t.rch.get c = some d ∧ d.attached.get z = true ∧ d = { ch with cursor := next, pos := 0, attached := d.attached })) ∧
      (last = false → (∀ z, ch.attached.get z = true → (s.za.get z).arb.phraseEnd = false) →
        t.za = s.za ∧ t.audio = s.audio ∧ t.rch = s.rch.set c (some { ch with cursor := next, pos := 0 }) ∧
        ∀ z h, ch.attached.get z = true → (s.za.get z).arb.current = some h →
          (t.lu.zones.get z).level = s.levelFor z h ∧ (t.lu.zones.get z).mult = multiplier (s.levelFor z h)))

/-- STORE_READ_COMPLETE gives the block read, as signed samples of two bytes most significant first, to the channel it was read for, whose next block
is then the one that follows, unless the channel has been freed since; of a block that comes late only the samples not yet due are kept. The port is
then IDLE, or reads for the first channel with a request counting up from the one after the pointer, from 3 round to 0, and names it (R139, R140). -/
def Obligations.StoreReadIsDelivered : Prop :=
  ∀ (bytes : List Byte) (s : State) (r : ReadOp), s.sp.reading = some r → Takes (.storeReadComplete bytes) s (fun t =>
    t = { s with rch := t.rch, sp := t.sp } ∧
    (r.stale = true → t.rch = s.rch) ∧
    (∀ ch, r.stale = false → s.rch.get r.chan = some ch →
      (∀ d, d ≠ r.chan → t.rch.get d = s.rch.get d) ∧
      ∃ ch', t.rch.get r.chan = some ch' ∧ ch'.unread = s.blockAfter ch (r.idx, r.pos) ∧ ch'.cursor = ch.cursor ∧ ch'.pos = ch.pos ∧
        ch'.attached = ch.attached ∧ ch'.claim = ch.claim ∧ ch'.delivered = ch.delivered ∧
        ch'.request = (!ch.tone && decide (ch'.slots.length < 2) && ch'.unread.isSome) ∧
        (ch.cursor = none → ch'.slots = ch.slots) ∧
        (∀ i, ch.cursor = some i → bytes.length = 2 * r.count →
          (r.idx < i ∨ (i = r.idx ∧ r.pos + r.count ≤ ch.pos) ∨ r.count = 0 → ch'.slots = ch.slots) ∧
          (1 ≤ r.count → i < r.idx ∨ (i = r.idx ∧ ch.pos < r.pos + r.count) →
            let gone := if i = r.idx then ch.pos - r.pos else 0
            ∃ b, ch'.slots = ch.slots ++ [b] ∧ b.idx = r.idx ∧ b.pos = r.pos + gone ∧ b.samples.length = r.count - gone ∧
              ∀ k, gone + k < r.count → b.samples.getD k 0 =
                int16 ((bytes.getD (2 * (gone + k)) 0).toNat * 256 + (bytes.getD (2 * (gone + k) + 1) 0).toNat)))) ∧
    Granted { s with rch := t.rch, sp := { s.sp with reading := none } } t)

/-! ### Levels -/

/-- The tables and the arithmetic of the level, as the part holds them: the noise figure (R150), the ambient compensation (R152) and the multiplier of
a level (R156). -/
def Obligations.LevelTablesHold : Prop :=
  ((List.range 32).map noiseFigure =
    [0, 12, 19, 24, 28, 31, 34, 36, 38, 40, 41, 43, 44, 46, 47, 48, 49, 50, 51, 52, 53, 53, 54, 55, 56, 56, 57, 58, 58, 59, 59, 60]) ∧
  (∀ k : Nat, k ≤ 31 → (noiseFigure k : ℤ) = round (40 * Real.logb 10 (((k : ℝ) + 1) / 32)) + 60) ∧
  (∀ k k' : Nat, k ≤ k' → k' ≤ 31 → noiseFigure k ≤ noiseFigure k') ∧
  (∀ u : LuZone, compensation u = min u.cmax ((max 0 ((noiseFigure u.k : ℤ) - (u.q : ℤ))).toNat * u.slope / 4) ∧
    (u.cmax ≤ 40 → compensation u ≤ 40) ∧ (u.cmax = 0 ∨ u.slope = 0 → compensation u = 0)) ∧
  (∀ j : Nat, j < 12 →
    ([32768, 30935, 29205, 27571, 26029, 24573, 23198, 21900, 20675, 19519, 18427, 17396].getD j 0 : ℤ) =
      round (32768 * (10 : ℝ) ^ (-(j : ℝ) / 40))) ∧
  (∀ l : Nat, l ≤ 120 →
    multiplier l =
      [32768, 30935, 29205, 27571, 26029, 24573, 23198, 21900, 20675, 19519, 18427, 17396].getD ((120 - l) % 12) 0 / 2 ^ ((120 - l) / 12) ∧
    (120 - l) / 12 ≤ 10 ∧ 32 ≤ multiplier l ∧ multiplier l ≤ 32768) ∧
  multiplier 120 = 32768 ∧ multiplier 0 = 32

/-- The level of a zone for the claim it plays: base, compensation and class boost, less the night and spill reductions, held between the zone's
floor, for class 0 at least the node's, and 120; the floor itself where the zone's own code is QUIET; 108 in STORE_FAULT. The night reduction is taken
by a SET clock in the night window for classes 2 and up, the spill reduction beside a neighbour playing another claim for classes 3 and up (R153,
R154, R155, R158). -/
def Obligations.LevelIsWorkedOut : Prop :=
  ∀ (s : State) (z : ZoneId) (h : Held),
    let r := s.za.get z
    let u := s.lu.zones.get z
    let tod := s.sck.time % 86400
    let night := s.sck.isSet = true ∧ 2 ≤ h.cls ∧
      ((s.lu.nightStart < s.lu.nightEnd ∧ s.lu.nightStart ≤ tod ∧ tod < s.lu.nightEnd) ∨
        (s.lu.nightEnd < s.lu.nightStart ∧ (s.lu.nightStart ≤ tod ∨ tod < s.lu.nightEnd)))
    let spill := 3 ≤ h.cls ∧ ∃ y g, r.neighbours.get y = true ∧ (s.za.get y).arb.state.plays = true ∧
      (s.za.get y).arb.current = some g ∧ g.id ≠ h.id
    let floor := if h.cls = 0 then max r.floor s.lu.eFloor else r.floor
    (s.sul.mode = .storeFault → s.levelFor z h = 108) ∧
    (s.sul.mode ≠ .storeFault →
      (r.row.code h.cls = .quiet → s.levelFor z h = floor) ∧
      (r.row.code h.cls ≠ .quiet → ∀ dn ds : Nat, (night → dn = u.dnight) → (¬ night → dn = 0) → (spill → ds = u.dspill) →
        (¬ spill → ds = 0) →
        (s.levelFor z h : ℤ) =
          min 120 (max (floor : ℤ) ((r.base : ℤ) + (compensation u : ℤ) + (s.lu.pclass.getD h.cls 0 : ℤ) - (dn : ℤ) - (ds : ℤ)))))

/-! ### The link -/

/-- A frame handed to the transmit queue (R167). Short of 8 frames it enters at its place; at 8 it is compared with the worst frame, the last with no
attempt under way, which leaves for it when its tier is higher, and otherwise the new frame is dropped and the queue stays as it is. -/
def Obligations.TransmitQueueTakesAFrame : Prop :=
  ∀ (q : List TxFrame) (f : TxFrame), q.Pairwise (fun a b => a.tier ≤ b.tier) →
    let r := txOffer q f
    (q.length < 8 → r.2 = none ∧ InItsPlace f q r.1) ∧
    (8 ≤ q.length → ∀ l w m, q = l ++ w :: m → w.underWay = false → (∀ g ∈ m, g.underWay = true) →
      (∀ g ∈ q, g.underWay = false → g.tier ≤ w.tier) ∧
      (f.tier < w.tier → r.2 = some w ∧ InItsPlace f (l ++ m) r.1) ∧
      (w.tier ≤ f.tier → r.2 = some f ∧ r.1 = q)) ∧
    (8 ≤ q.length → (∀ g ∈ q, g.underWay = true) → r.2 = some f ∧ r.1 = q)

/-- An origination handed to the composer (R75): short of 4 it enters behind every one of its class or a better; at 4 the last one queued of the worst
class leaves for one of a better class, and otherwise the new one is dropped. What its owner does with the one dropped follows: a step that handed it
over as its own firing, by a mark of the model (log 18), notes it, a step of a call in HANDING_OFF too, which R36 freezes (the model's choice, log
56). -/
def Obligations.OriginationQueueTakesOne : Prop :=
  ∀ (s : State) (o : Orig), s.cmp.queue.Pairwise (fun a b => a.cls ≤ b.cls) →
    let q := s.cmp.queue
    let t := s.pushOrig o
    let placed := fun (p r : List Orig) =>
      ∃ l m, p = l ++ m ∧ r = l ++ o :: m ∧ (∀ x ∈ l, x.cls ≤ o.cls) ∧ ∀ x ∈ m, o.cls < x.cls
    let dropped := fun (v : State) (d : Orig) (u : State) =>
      (∀ key i, d.source = .step key i → u = if d.own then v.modStep key i (fun st => { st with timer := { st.timer with
        last := .skippedFull,
        state := if st.timer.state = .fired ∧ st.spec.mode ≠ .every then .skipped .full else st.timer.state } }) else v) ∧
      (∀ p, d.source = .approach p → u = v.setPm (v.pm.set p { v.pm.get p with lastOutcome := .skippedFull })) ∧
      (d.source = .evac → u = v) ∧ (∀ id, d.source = .retry id → u = v)
    (q.length < 4 → ∃ r, placed q r ∧ t = { s with cmp := { s.cmp with queue := r } }) ∧
    (∀ w p, 4 ≤ q.length → q = p ++ [w] → o.cls < w.cls →
      (∀ x ∈ q, x.cls ≤ w.cls) ∧ ∃ r, placed p r ∧ dropped { s with cmp := { s.cmp with queue := r } } w t) ∧
    (∀ w p, 4 ≤ q.length → q = p ++ [w] → w.cls ≤ o.cls → dropped s o t)

/-- A frame placed in the transmit queue enters it with its kind's tier, and the frame that fails for it, another or itself, is reported to its owner:
an ANSWER no one acts on, a ZSTAT whose entry, matched by claim id and ZSTAT state QUEUED (the model's choice, log 47), is FAILED, a REPORT whose
buffer empties, a HANDOFF still SENDING that reverts, a CEDE that is applied to the node's own zones, a CLAIM that plays local-only from now, its
start instant, latest start and planned end fixed from now, its coverage window ending 10 s after its planned end, the rest of its entry, its lines
among it, as it stands. An ANSWER enters so, addressed to its frame's source, but for NOT_OWNER and UNKNOWN_KEY to a frame addressed to all, which are
not sent (R10, R93, R98, R100, R101, R166, R167, R168). -/
def Obligations.FailedFramesReachTheirOwners : Prop :=
  (∀ (s : State) (b : TxBody) (dst : Nat),
    let f : TxFrame := { body := b, dst := dst, tier := b.tier, queuedAt := s.now, fails := 0, underWay := false, takeBack := false }
    let r := txOffer s.lc.tx f
    let v : State := { s with lc := { s.lc with tx := r.1 } }
    (r.2 = none → s.enqueue b dst = v) ∧ (∀ g, r.2 = some g → s.enqueue b dst = v.failFrame g)) ∧
  (∀ (s : State) (f : TxFrame),
    let t := s.failFrame f
    (∀ k key code, f.body = .answer k key code → t = s) ∧
    (∀ id zones, f.body = .zstat id zones → t = s.modEntry id (fun e => { e with zstat := if e.zstat = .queued then .failed else e.zstat })) ∧
    (∀ k i n l key c, f.body = .report k i n l key c → t = { s with lc := { s.lc with report := none } }) ∧
    (∀ h c, f.body = .handoff h → s.findCall h.key = some c →
      (c.handoff = none ∨ (∃ x, c.handoff = some x ∧ x.phase ≠ .sending) → t = s) ∧
      (∀ x, c.state = .handingOff → c.handoff = some x → x.phase = .sending → HandoffReverted h.key c x s t)) ∧
    (∀ id cut, f.body = .cede id cut → t = ((s.withdrawZones id cut).modEntry id (fun e => { e with
      origin := e.origin.map (fun o => { o with windowEnd := some (match o.windowEnd with
        | some w => min w (s.now + 10000)
        | none => s.now + 10000) }) })).settle) ∧
    (∀ c n, f.body = .claim c → s.nodeNo = some n →
      ((∀ e o, s.findEntry ⟨n, c.seq⟩ = some e → e.origin = some o → o.send ≠ .queued) → t = s) ∧
      (∀ e o, s.findEntry ⟨n, c.seq⟩ = some e → e.origin = some o → o.send = .queued →
        ∃ v : State, t = (v.offerEntry ⟨n, c.seq⟩).settle ∧ OwnClaimTimed s v ⟨n, c.seq⟩ e o c .failed true))) ∧
  ∀ (s : State) (f : RxFrame) (kind key : Nat) (code : AnswerCode),
    (f.dst = 0 → code = .notOwner ∨ code = .unknownKey → s.answer f kind key code = s) ∧
    (f.dst ≠ 0 ∨ (code ≠ .notOwner ∧ code ≠ .unknownKey) → s.answer f kind key code = s.enqueue (.answer kind key code) f.src.toNat)

/-- ATTEMPT_START begins the attempt for the head when the link has been idle for 40 + 8 x tier bit times, with 2 x the node's number more for a head
that has failed before, no frame is being received and none sent; in any other case, a node that sends nothing among them, the event has not happened
and changes nothing (log 1). DELIMITER_HEARD before that gap has elapsed begins a reception. The time the link has been idle is an operand of the
model (log 29). A frame rejected is discarded and the receive buffer is empty. The tests of reception are spelt out in their order, which the first
that fails decides (R162, R163, R169, R176, R184). -/
def Obligations.AttemptsBeginInTheGap : Prop :=
  (∀ (own : Option Nat) (bytes : List Byte) (truncated : Bool),
    let kind := field8 bytes 0
    let dst := field8 bytes 2
    let len := field8 bytes 3
    let body := (bytes.drop 4).take len
    let whole := truncated = false ∧ 6 + len ≤ bytes.length
    let short := whole ∧ len ≤ 160
    let checked := short ∧ field bytes (4 + len) 2 = (crc (bytes.take (4 + len))).toNat
    let known := checked ∧ 1 ≤ kind ∧ kind ≤ 14
    let fits := known ∧ LengthFits kind body
    let ours := fits ∧ (dst = 0 ∨ own = some dst)
    let r := receptionTest own bytes truncated
    (r = some .truncation ↔ ¬ whole) ∧ (r = some .lengthRange ↔ whole ∧ ¬ len ≤ 160) ∧ (r = some .check ↔ short ∧ ¬ checked) ∧
    (r = some .kind ↔ checked ∧ ¬ known) ∧ (r = some .lengthForKind ↔ known ∧ ¬ fits) ∧ (r = some .destination ↔ fits ∧ ¬ ours) ∧
    (r = some .values ↔ ours ∧ ¬ ValuesFit kind body) ∧ (r = none ↔ ours ∧ ValuesFit kind body)) ∧
  (∀ (s : State) (kind : Nat) (f : RxFrame), s.hears kind f = true ↔
    s.sul.mode ≠ .loading ∧ LengthFits kind f.body ∧ (f.dst = 0 ∨ s.nodeNo = some f.dst.toNat) ∧ ValuesFit kind f.body) ∧
  ∀ s : State,
    (∀ idle own f rest, s.nodeNo = some own → s.lc.tx = f :: rest → s.sends = true →
      let gap := 40 + 8 * f.tier + if 0 < f.fails then 2 * own else 0
      (gap ≤ idle → s.lc.rx = false → (∀ g ∈ s.lc.tx, g.underWay = false) →
        Takes (.attemptStart idle) s (fun t => t = { s with lc := { s.lc with tx := { f with underWay := true } :: rest } })) ∧
      (idle < gap ∨ s.lc.rx = true ∨ (∃ g ∈ s.lc.tx, g.underWay = true) → Takes (.attemptStart idle) s (fun t => t = s)) ∧
      (idle < gap → s.sul.mode ≠ .loading → (∀ g ∈ s.lc.tx, g.underWay = false) →
        Takes (.delimiterHeard idle) s (fun t => t = { s with lc := { s.lc with rx := true } }))) ∧
    (∀ idle, s.sends = false ∨ s.nodeNo = none → Takes (.attemptStart idle) s (fun t => t = s)) ∧
    (∀ idle, s.lc.tx = [] → Takes (.attemptStart idle) s (fun t => t = s) ∧ (s.sul.mode ≠ .loading →
      Takes (.delimiterHeard idle) s (fun t => t = { s with lc := { s.lc with rx := true } }))) ∧
    ∀ bytes truncated, s.sul.mode = .loading ∨ receptionTest s.nodeNo bytes truncated ≠ none →
      Takes (.frameRejected bytes truncated) s (fun t => t = { s with lc := { s.lc with rx := false } })

/-- FRAME_SENT takes the frame under way out of the queue and reports it to its owner: a ZSTAT's entry is SENT, a HANDOFF is AWAITING with 2,000 ms on
its timer, a REPORT's next frame is queued or its buffer empties, a CEDE shortens the window and acts on the node's own zones, and a CLAIM's entry is
SENT, its start instant, latest start and planned end fixed from now and the rest of it as it stands, and offered, the CEDE ordered meanwhile queued,
with the cut-now flag of that order, which the entry has kept in a mark of the model (log 24). The frame returns to its owner as the data it was made
of (log 39), a ZSTAT matched to its entry by id and state (log 47). With no attempt under way the event has not happened and changes nothing (log 1)
(R14, R39, R69, R93, R95, R100, R101, R165, R168, R174). -/
def Obligations.SentFramesReachTheirOwners : Prop :=
  ∀ s : State,
    ((∀ g ∈ s.lc.tx, g.underWay = false) → Takes .frameSent s (fun t => t = s)) ∧
    ∀ l f m, s.lc.tx = l ++ f :: m → (∀ g ∈ l ++ m, g.underWay = false) → f.underWay = true →
      let v : State := { s with lc := { s.lc with tx := l ++ m } }
      (∀ k key code, f.body = .answer k key code → Takes .frameSent s (fun t => t = v)) ∧
      (∀ id zones, f.body = .zstat id zones → Takes .frameSent s (fun t =>
        t = v.modEntry id (fun e => { e with zstat := if e.zstat = .queued then .sent else e.zstat }))) ∧
      (∀ h, f.body = .handoff h → Takes .frameSent s (fun t =>
        t = v.modCall h.key (fun c => { c with handoff := c.handoff.map (fun x =>
          if x.phase = .sending then { x with phase := .awaiting, timer := some 2000 } else x) }))) ∧
      (∀ k i n lo key c, f.body = .report k i n lo key c →
        (∀ r, s.lc.report = some r → r.index < r.contents.length → Takes .frameSent s (fun t =>
          t = ({ v with lc := { v.lc with report := some { r with index := r.index + 1 } } }).enqueue (r.frame (r.index + 1)) r.source)) ∧
        ((∀ r, s.lc.report = some r → r.contents.length ≤ r.index) →
          Takes .frameSent s (fun t => t = { v with lc := { v.lc with report := none } }))) ∧
      (∀ id cut, f.body = .cede id cut → Takes .frameSent s (fun t => t = ((v.modEntry id (fun e => { e with
        origin := e.origin.map (fun o => { o with windowEnd := some (match o.windowEnd with
          | some w => min w (s.now + 10000)
          | none => s.now + 10000) }) })).withdrawZones id cut).settle)) ∧
      (∀ c n, f.body = .claim c → s.nodeNo = some n →
        ((∀ e o, s.findEntry ⟨n, c.seq⟩ = some e → e.origin = some o → o.send ≠ .queued) → Takes .frameSent s (fun t => t = v)) ∧
        (∀ e o, s.findEntry ⟨n, c.seq⟩ = some e → e.origin = some o → o.send = .queued → Takes .frameSent s (fun t => ∃ w : State,
          OwnClaimTimed v w ⟨n, c.seq⟩ e o c .sent false ∧
          (o.ceded = false → t = (w.offerEntry ⟨n, c.seq⟩).settle) ∧
          (o.ceded = true → t = ((w.offerEntry ⟨n, c.seq⟩).settle).enqueue (.cede ⟨n, c.seq⟩ o.cutNow) 0))))

/-- COLLISION, at a bit that the node released: the winner's frame is being received, and the frame waits with one failure more; at its eighth it
leaves the queue and fails; one whose taking back is held leaves the queue and is taken back. The bit is an operand of the model (log 29); at one that
the node drives, or beyond the frame's end, the event has not happened and changes nothing (log 1) (R14, R162, R170, R171). -/
def Obligations.CollisionFailsTheAttempt : Prop :=
  ∀ (bit own : Nat) (s : State) (l m : List TxFrame) (f : TxFrame), s.nodeNo = some own → s.lc.tx = l ++ f :: m →
    (∀ g ∈ l ++ m, g.underWay = false) → f.underWay = true →
    let v : State := { s with lc := { s.lc with rx := true, tx := l ++ m } }
    (frameBit own f bit = some true →
      (f.takeBack = false → f.fails + 1 < 8 → Takes (.collision bit) s (fun t =>
        t = { s with lc := { s.lc with rx := true, tx := l ++ { f with underWay := false, fails := f.fails + 1 } :: m } })) ∧
      (f.takeBack = false → 8 ≤ f.fails + 1 → Takes (.collision bit) s (fun t => t = v.failFrame f)) ∧
      (∀ c, f.takeBack = true → f.body = .claim c → Takes (.collision bit) s (fun t => t = v.takeBack ⟨own, c.seq⟩))) ∧
    (frameBit own f bit ≠ some true → Takes (.collision bit) s (fun t => t = s))

/-- What is sent is read back: the body of every CLAIM, CEDE and ZSTAT within its values says to the receiver what was put into it, a HANDOFF's body
says the call and the plan it carries, and a frame whose body its kind allows passes every test of reception at the station it is addressed to, and at
every station when addressed to all (R89, R162, R163, R176). -/
def Obligations.SentFramesAreReadBack : Prop :=
  (∀ c : ClaimFrame, c.Fits → decodeClaim (claimBytes c) = some c) ∧
  (∀ (id : ClaimId) (cut : Bool), id.wf = true → decodeCede (cedeBytes id cut) = some (id, cut)) ∧
  (∀ (id : ClaimId) (zones : List (ZoneId × Disp)), id.wf = true → (zones.map (fun p => p.1.toNat)).Pairwise (· < ·) →
    (∀ p ∈ zones, p.2 ≠ .notTarget ∧ p.2 ≠ .pending) → decodeZstat (zstatBytes id zones) = some (id, zones)) ∧
  (∀ h : HandoffFrame, h.Fits →
    let b := readHandoff (handoffBytes h)
    b.key = h.key ∧ callKindOf b.kind = some h.kind ∧ b.platform = h.platform ∧ b.schArr = h.schArr ∧ b.schDep = h.schDep ∧
    b.expArr = h.expArr ∧ b.expDep = h.expDep ∧ zeroAbsent b.dest = h.dest ∧ zeroAbsent b.origin = h.origin ∧
    zeroAbsent b.coaches = h.coaches ∧ b.points = h.points ∧ b.plan? = some h.steps ∧ b.lengthFits = true) ∧
  ∀ (f : TxFrame) (src : Nat) (own : Option Nat), lengthOk f.body.kindCode f.body.bytes = true →
    valuesOk f.body.kindCode f.body.bytes = true → f.dst = 0 ∨ (f.dst ≤ 255 ∧ own = some f.dst) →
    receptionTest own (frameBytes src f) false = none

/-! ### What every command keeps -/

/-- The state after reset keeps every promise, that of LOADING among them (R1, R6, R8, R74, R90, R109, R124, R133, R144, R166, R178, R181). -/
def Obligations.ResetStateIsSafe : Prop := Safe State.reset

/-- No command breaks the places, the orders and the ranges: 64 calls by ascending key, 16 entries with distinct ids, 8 frames by tier and age, 4
originations by class and age, 4 waiting claims in each zone, the clocks, estimates, levels, multipliers and phrase lengths in their ranges
(R1, R6, R8, R74, R90, R109, R136, R148, R155, R156, R166). -/
def Obligations.TablesStayInOrder : Prop := Kept TablesInOrder

/-- No command breaks the zones: a zone holds claims only in LEAD_IN, PLAYING and CUTTING, a next claim only in CUTTING, is OUT_OF_SERVICE when its
service flag is off, and is one with its partner in a WHOLE pair (R109, R110, R124, R128). -/
def Obligations.ZonesStayConsistent : Prop := Kept ZonesKept

/-- No command breaks the channels: each BOUND channel has an attached zone, each zone that plays is attached to exactly one channel, bound to its
current claim, each zone that does not play is attached to none and silent, and a WHOLE pair shares its channel. Nor does one break LOADING, through
which, and while RESET is held, every zone is OUT_OF_SERVICE, every channel FREE and every output zero (R109, R110, R124, R133, R134, R135, R178,
R181). -/
def Obligations.ChannelsServeThePlayingZones : Prop :=
  ∀ (c : Instr) (s t : State), LoadingKept s → ZonesKept s → ChannelsServe s → exec c s = .next t → ChannelsServe t ∧ LoadingKept t

/-- The mode entered, the straps, the load outcome and the configuration, with the templates, number bases, level parameters, neighbour sets,
configured pairs and station platform numbers, hold until the next reset; and in LISTEN_ONLY no command but RESET brings a call, an origination, a
frame to send or a ZSTAT to send (R1, R166, R179, R182, R183). -/
def Obligations.ModesHoldAndListenersStaySilent : Prop :=
  ∀ (c : Instr) (s t : State), c ≠ .reset → s.sul.resetHeld = false → s.sul.mode ≠ .loading → exec c s = .next t →
    t.sul = s.sul ∧ t.cfg = s.cfg ∧ t.cmp.templates = s.cmp.templates ∧ t.cmp.bases = s.cmp.bases ∧
    t.lu = { s.lu with zones := t.lu.zones } ∧
    (∀ z, t.lu.zones.get z = { s.lu.zones.get z with
      k := (t.lu.zones.get z).k, window := (t.lu.zones.get z).window, lastPlayEnd := (t.lu.zones.get z).lastPlayEnd,
      level := (t.lu.zones.get z).level, mult := (t.lu.zones.get z).mult }) ∧
    (∀ z, (t.za.get z).neighbours = (s.za.get z).neighbours) ∧
    ((∀ z, (s.za.get z).pair = none ↔ (s.za.get z.partner).pair = none) → ∀ z, (t.za.get z).pair = none ↔ (s.za.get z).pair = none) ∧
    (∀ p, (t.pm.get p).stationNo = (s.pm.get p).stationNo) ∧ (SilentListener s → SilentListener t)

/-- A zone's disposition for a claim, once final, stays as it is for as long as the entry stays in the table (R94). -/
def Obligations.FinalDispositionsStay : Prop :=
  ∀ (c : Instr) (s t : State) (id : ClaimId) (e e' : Entry) (z : ZoneId), exec c s = .next t → s.findEntry id = some e →
    t.findEntry id = some e' → e.disp.get z ≠ .pending → e'.disp.get z = e.disp.get z
end

