-- ==== Sys2Proof/Laws/State.lean ====
section
/-!
SUPPORT. One lemma per field per update of the state, so that no proof unfolds a record update.
-/

namespace Sys2Proof.Machine

variable (s : State)

@[simp] theorem State.setLc_lc (v : Lc) : (s.setLc v).lc = v := rfl
@[simp] theorem State.setLc_sck (v : Lc) : (s.setLc v).sck = s.sck := rfl
@[simp] theorem State.setLc_ct (v : Lc) : (s.setLc v).ct = s.ct := rfl
@[simp] theorem State.setLc_evac (v : Lc) : (s.setLc v).evac = s.evac := rfl
@[simp] theorem State.setLc_pm (v : Lc) : (s.setLc v).pm = s.pm := rfl
@[simp] theorem State.setLc_cmp (v : Lc) : (s.setLc v).cmp = s.cmp := rfl
@[simp] theorem State.setLc_clt (v : Lc) : (s.setLc v).clt = s.clt := rfl
@[simp] theorem State.setLc_za (v : Lc) : (s.setLc v).za = s.za := rfl
@[simp] theorem State.setLc_rch (v : Lc) : (s.setLc v).rch = s.rch := rfl
@[simp] theorem State.setLc_audio (v : Lc) : (s.setLc v).audio = s.audio := rfl
@[simp] theorem State.setLc_sp (v : Lc) : (s.setLc v).sp = s.sp := rfl
@[simp] theorem State.setLc_lu (v : Lc) : (s.setLc v).lu = s.lu := rfl
@[simp] theorem State.setLc_sul (v : Lc) : (s.setLc v).sul = s.sul := rfl
@[simp] theorem State.setLc_cfg (v : Lc) : (s.setLc v).cfg = s.cfg := rfl
@[simp] theorem State.setLc_pins (v : Lc) : (s.setLc v).pins = s.pins := rfl
@[simp] theorem State.setLc_pending (v : Lc) : (s.setLc v).pending = s.pending := rfl

@[simp] theorem State.setSck_lc (v : Sck) : (s.setSck v).lc = s.lc := rfl
@[simp] theorem State.setSck_sck (v : Sck) : (s.setSck v).sck = v := rfl
@[simp] theorem State.setSck_ct (v : Sck) : (s.setSck v).ct = s.ct := rfl
@[simp] theorem State.setSck_evac (v : Sck) : (s.setSck v).evac = s.evac := rfl
@[simp] theorem State.setSck_pm (v : Sck) : (s.setSck v).pm = s.pm := rfl
@[simp] theorem State.setSck_cmp (v : Sck) : (s.setSck v).cmp = s.cmp := rfl
@[simp] theorem State.setSck_clt (v : Sck) : (s.setSck v).clt = s.clt := rfl
@[simp] theorem State.setSck_za (v : Sck) : (s.setSck v).za = s.za := rfl
@[simp] theorem State.setSck_rch (v : Sck) : (s.setSck v).rch = s.rch := rfl
@[simp] theorem State.setSck_audio (v : Sck) : (s.setSck v).audio = s.audio := rfl
@[simp] theorem State.setSck_sp (v : Sck) : (s.setSck v).sp = s.sp := rfl
@[simp] theorem State.setSck_lu (v : Sck) : (s.setSck v).lu = s.lu := rfl
@[simp] theorem State.setSck_sul (v : Sck) : (s.setSck v).sul = s.sul := rfl
@[simp] theorem State.setSck_cfg (v : Sck) : (s.setSck v).cfg = s.cfg := rfl
@[simp] theorem State.setSck_pins (v : Sck) : (s.setSck v).pins = s.pins := rfl
@[simp] theorem State.setSck_pending (v : Sck) : (s.setSck v).pending = s.pending := rfl

@[simp] theorem State.setCt_lc (v : List Call) : (s.setCt v).lc = s.lc := rfl
@[simp] theorem State.setCt_sck (v : List Call) : (s.setCt v).sck = s.sck := rfl
@[simp] theorem State.setCt_ct (v : List Call) : (s.setCt v).ct = v := rfl
@[simp] theorem State.setCt_evac (v : List Call) : (s.setCt v).evac = s.evac := rfl
@[simp] theorem State.setCt_pm (v : List Call) : (s.setCt v).pm = s.pm := rfl
@[simp] theorem State.setCt_cmp (v : List Call) : (s.setCt v).cmp = s.cmp := rfl
@[simp] theorem State.setCt_clt (v : List Call) : (s.setCt v).clt = s.clt := rfl
@[simp] theorem State.setCt_za (v : List Call) : (s.setCt v).za = s.za := rfl
@[simp] theorem State.setCt_rch (v : List Call) : (s.setCt v).rch = s.rch := rfl
@[simp] theorem State.setCt_audio (v : List Call) : (s.setCt v).audio = s.audio := rfl
@[simp] theorem State.setCt_sp (v : List Call) : (s.setCt v).sp = s.sp := rfl
@[simp] theorem State.setCt_lu (v : List Call) : (s.setCt v).lu = s.lu := rfl
@[simp] theorem State.setCt_sul (v : List Call) : (s.setCt v).sul = s.sul := rfl
@[simp] theorem State.setCt_cfg (v : List Call) : (s.setCt v).cfg = s.cfg := rfl
@[simp] theorem State.setCt_pins (v : List Call) : (s.setCt v).pins = s.pins := rfl
@[simp] theorem State.setCt_pending (v : List Call) : (s.setCt v).pending = s.pending := rfl

@[simp] theorem State.setEvac_lc (v : Evac) : (s.setEvac v).lc = s.lc := rfl
@[simp] theorem State.setEvac_sck (v : Evac) : (s.setEvac v).sck = s.sck := rfl
@[simp] theorem State.setEvac_ct (v : Evac) : (s.setEvac v).ct = s.ct := rfl
@[simp] theorem State.setEvac_evac (v : Evac) : (s.setEvac v).evac = v := rfl
@[simp] theorem State.setEvac_pm (v : Evac) : (s.setEvac v).pm = s.pm := rfl
@[simp] theorem State.setEvac_cmp (v : Evac) : (s.setEvac v).cmp = s.cmp := rfl
@[simp] theorem State.setEvac_clt (v : Evac) : (s.setEvac v).clt = s.clt := rfl
@[simp] theorem State.setEvac_za (v : Evac) : (s.setEvac v).za = s.za := rfl
@[simp] theorem State.setEvac_rch (v : Evac) : (s.setEvac v).rch = s.rch := rfl
@[simp] theorem State.setEvac_audio (v : Evac) : (s.setEvac v).audio = s.audio := rfl
@[simp] theorem State.setEvac_sp (v : Evac) : (s.setEvac v).sp = s.sp := rfl
@[simp] theorem State.setEvac_lu (v : Evac) : (s.setEvac v).lu = s.lu := rfl
@[simp] theorem State.setEvac_sul (v : Evac) : (s.setEvac v).sul = s.sul := rfl
@[simp] theorem State.setEvac_cfg (v : Evac) : (s.setEvac v).cfg = s.cfg := rfl
@[simp] theorem State.setEvac_pins (v : Evac) : (s.setEvac v).pins = s.pins := rfl
@[simp] theorem State.setEvac_pending (v : Evac) : (s.setEvac v).pending = s.pending := rfl

@[simp] theorem State.setPm_lc (v : Duo Plat) : (s.setPm v).lc = s.lc := rfl
@[simp] theorem State.setPm_sck (v : Duo Plat) : (s.setPm v).sck = s.sck := rfl
@[simp] theorem State.setPm_ct (v : Duo Plat) : (s.setPm v).ct = s.ct := rfl
@[simp] theorem State.setPm_evac (v : Duo Plat) : (s.setPm v).evac = s.evac := rfl
@[simp] theorem State.setPm_pm (v : Duo Plat) : (s.setPm v).pm = v := rfl
@[simp] theorem State.setPm_cmp (v : Duo Plat) : (s.setPm v).cmp = s.cmp := rfl
@[simp] theorem State.setPm_clt (v : Duo Plat) : (s.setPm v).clt = s.clt := rfl
@[simp] theorem State.setPm_za (v : Duo Plat) : (s.setPm v).za = s.za := rfl
@[simp] theorem State.setPm_rch (v : Duo Plat) : (s.setPm v).rch = s.rch := rfl
@[simp] theorem State.setPm_audio (v : Duo Plat) : (s.setPm v).audio = s.audio := rfl
@[simp] theorem State.setPm_sp (v : Duo Plat) : (s.setPm v).sp = s.sp := rfl
@[simp] theorem State.setPm_lu (v : Duo Plat) : (s.setPm v).lu = s.lu := rfl
@[simp] theorem State.setPm_sul (v : Duo Plat) : (s.setPm v).sul = s.sul := rfl
@[simp] theorem State.setPm_cfg (v : Duo Plat) : (s.setPm v).cfg = s.cfg := rfl
@[simp] theorem State.setPm_pins (v : Duo Plat) : (s.setPm v).pins = s.pins := rfl
@[simp] theorem State.setPm_pending (v : Duo Plat) : (s.setPm v).pending = s.pending := rfl

@[simp] theorem State.setCmp_lc (v : Cmp) : (s.setCmp v).lc = s.lc := rfl
@[simp] theorem State.setCmp_sck (v : Cmp) : (s.setCmp v).sck = s.sck := rfl
@[simp] theorem State.setCmp_ct (v : Cmp) : (s.setCmp v).ct = s.ct := rfl
@[simp] theorem State.setCmp_evac (v : Cmp) : (s.setCmp v).evac = s.evac := rfl
@[simp] theorem State.setCmp_pm (v : Cmp) : (s.setCmp v).pm = s.pm := rfl
@[simp] theorem State.setCmp_cmp (v : Cmp) : (s.setCmp v).cmp = v := rfl
@[simp] theorem State.setCmp_clt (v : Cmp) : (s.setCmp v).clt = s.clt := rfl
@[simp] theorem State.setCmp_za (v : Cmp) : (s.setCmp v).za = s.za := rfl
@[simp] theorem State.setCmp_rch (v : Cmp) : (s.setCmp v).rch = s.rch := rfl
@[simp] theorem State.setCmp_audio (v : Cmp) : (s.setCmp v).audio = s.audio := rfl
@[simp] theorem State.setCmp_sp (v : Cmp) : (s.setCmp v).sp = s.sp := rfl
@[simp] theorem State.setCmp_lu (v : Cmp) : (s.setCmp v).lu = s.lu := rfl
@[simp] theorem State.setCmp_sul (v : Cmp) : (s.setCmp v).sul = s.sul := rfl
@[simp] theorem State.setCmp_cfg (v : Cmp) : (s.setCmp v).cfg = s.cfg := rfl
@[simp] theorem State.setCmp_pins (v : Cmp) : (s.setCmp v).pins = s.pins := rfl
@[simp] theorem State.setCmp_pending (v : Cmp) : (s.setCmp v).pending = s.pending := rfl

@[simp] theorem State.setClt_lc (v : List Entry) : (s.setClt v).lc = s.lc := rfl
@[simp] theorem State.setClt_sck (v : List Entry) : (s.setClt v).sck = s.sck := rfl
@[simp] theorem State.setClt_ct (v : List Entry) : (s.setClt v).ct = s.ct := rfl
@[simp] theorem State.setClt_evac (v : List Entry) : (s.setClt v).evac = s.evac := rfl
@[simp] theorem State.setClt_pm (v : List Entry) : (s.setClt v).pm = s.pm := rfl
@[simp] theorem State.setClt_cmp (v : List Entry) : (s.setClt v).cmp = s.cmp := rfl
@[simp] theorem State.setClt_clt (v : List Entry) : (s.setClt v).clt = v := rfl
@[simp] theorem State.setClt_za (v : List Entry) : (s.setClt v).za = s.za := rfl
@[simp] theorem State.setClt_rch (v : List Entry) : (s.setClt v).rch = s.rch := rfl
@[simp] theorem State.setClt_audio (v : List Entry) : (s.setClt v).audio = s.audio := rfl
@[simp] theorem State.setClt_sp (v : List Entry) : (s.setClt v).sp = s.sp := rfl
@[simp] theorem State.setClt_lu (v : List Entry) : (s.setClt v).lu = s.lu := rfl
@[simp] theorem State.setClt_sul (v : List Entry) : (s.setClt v).sul = s.sul := rfl
@[simp] theorem State.setClt_cfg (v : List Entry) : (s.setClt v).cfg = s.cfg := rfl
@[simp] theorem State.setClt_pins (v : List Entry) : (s.setClt v).pins = s.pins := rfl
@[simp] theorem State.setClt_pending (v : List Entry) : (s.setClt v).pending = s.pending := rfl

@[simp] theorem State.setZa_lc (v : Quad Zone) : (s.setZa v).lc = s.lc := rfl
@[simp] theorem State.setZa_sck (v : Quad Zone) : (s.setZa v).sck = s.sck := rfl
@[simp] theorem State.setZa_ct (v : Quad Zone) : (s.setZa v).ct = s.ct := rfl
@[simp] theorem State.setZa_evac (v : Quad Zone) : (s.setZa v).evac = s.evac := rfl
@[simp] theorem State.setZa_pm (v : Quad Zone) : (s.setZa v).pm = s.pm := rfl
@[simp] theorem State.setZa_cmp (v : Quad Zone) : (s.setZa v).cmp = s.cmp := rfl
@[simp] theorem State.setZa_clt (v : Quad Zone) : (s.setZa v).clt = s.clt := rfl
@[simp] theorem State.setZa_za (v : Quad Zone) : (s.setZa v).za = v := rfl
@[simp] theorem State.setZa_rch (v : Quad Zone) : (s.setZa v).rch = s.rch := rfl
@[simp] theorem State.setZa_audio (v : Quad Zone) : (s.setZa v).audio = s.audio := rfl
@[simp] theorem State.setZa_sp (v : Quad Zone) : (s.setZa v).sp = s.sp := rfl
@[simp] theorem State.setZa_lu (v : Quad Zone) : (s.setZa v).lu = s.lu := rfl
@[simp] theorem State.setZa_sul (v : Quad Zone) : (s.setZa v).sul = s.sul := rfl
@[simp] theorem State.setZa_cfg (v : Quad Zone) : (s.setZa v).cfg = s.cfg := rfl
@[simp] theorem State.setZa_pins (v : Quad Zone) : (s.setZa v).pins = s.pins := rfl
@[simp] theorem State.setZa_pending (v : Quad Zone) : (s.setZa v).pending = s.pending := rfl

@[simp] theorem State.setRch_lc (v : Quad (Option Chan)) : (s.setRch v).lc = s.lc := rfl
@[simp] theorem State.setRch_sck (v : Quad (Option Chan)) : (s.setRch v).sck = s.sck := rfl
@[simp] theorem State.setRch_ct (v : Quad (Option Chan)) : (s.setRch v).ct = s.ct := rfl
@[simp] theorem State.setRch_evac (v : Quad (Option Chan)) : (s.setRch v).evac = s.evac := rfl
@[simp] theorem State.setRch_pm (v : Quad (Option Chan)) : (s.setRch v).pm = s.pm := rfl
@[simp] theorem State.setRch_cmp (v : Quad (Option Chan)) : (s.setRch v).cmp = s.cmp := rfl
@[simp] theorem State.setRch_clt (v : Quad (Option Chan)) : (s.setRch v).clt = s.clt := rfl
@[simp] theorem State.setRch_za (v : Quad (Option Chan)) : (s.setRch v).za = s.za := rfl
@[simp] theorem State.setRch_rch (v : Quad (Option Chan)) : (s.setRch v).rch = v := rfl
@[simp] theorem State.setRch_audio (v : Quad (Option Chan)) : (s.setRch v).audio = s.audio := rfl
@[simp] theorem State.setRch_sp (v : Quad (Option Chan)) : (s.setRch v).sp = s.sp := rfl
@[simp] theorem State.setRch_lu (v : Quad (Option Chan)) : (s.setRch v).lu = s.lu := rfl
@[simp] theorem State.setRch_sul (v : Quad (Option Chan)) : (s.setRch v).sul = s.sul := rfl
@[simp] theorem State.setRch_cfg (v : Quad (Option Chan)) : (s.setRch v).cfg = s.cfg := rfl
@[simp] theorem State.setRch_pins (v : Quad (Option Chan)) : (s.setRch v).pins = s.pins := rfl
@[simp] theorem State.setRch_pending (v : Quad (Option Chan)) : (s.setRch v).pending = s.pending := rfl

@[simp] theorem State.setAudio_lc (v : Quad Int) : (s.setAudio v).lc = s.lc := rfl
@[simp] theorem State.setAudio_sck (v : Quad Int) : (s.setAudio v).sck = s.sck := rfl
@[simp] theorem State.setAudio_ct (v : Quad Int) : (s.setAudio v).ct = s.ct := rfl
@[simp] theorem State.setAudio_evac (v : Quad Int) : (s.setAudio v).evac = s.evac := rfl
@[simp] theorem State.setAudio_pm (v : Quad Int) : (s.setAudio v).pm = s.pm := rfl
@[simp] theorem State.setAudio_cmp (v : Quad Int) : (s.setAudio v).cmp = s.cmp := rfl
@[simp] theorem State.setAudio_clt (v : Quad Int) : (s.setAudio v).clt = s.clt := rfl
@[simp] theorem State.setAudio_za (v : Quad Int) : (s.setAudio v).za = s.za := rfl
@[simp] theorem State.setAudio_rch (v : Quad Int) : (s.setAudio v).rch = s.rch := rfl
@[simp] theorem State.setAudio_audio (v : Quad Int) : (s.setAudio v).audio = v := rfl
@[simp] theorem State.setAudio_sp (v : Quad Int) : (s.setAudio v).sp = s.sp := rfl
@[simp] theorem State.setAudio_lu (v : Quad Int) : (s.setAudio v).lu = s.lu := rfl
@[simp] theorem State.setAudio_sul (v : Quad Int) : (s.setAudio v).sul = s.sul := rfl
@[simp] theorem State.setAudio_cfg (v : Quad Int) : (s.setAudio v).cfg = s.cfg := rfl
@[simp] theorem State.setAudio_pins (v : Quad Int) : (s.setAudio v).pins = s.pins := rfl
@[simp] theorem State.setAudio_pending (v : Quad Int) : (s.setAudio v).pending = s.pending := rfl

@[simp] theorem State.setSp_lc (v : Port) : (s.setSp v).lc = s.lc := rfl
@[simp] theorem State.setSp_sck (v : Port) : (s.setSp v).sck = s.sck := rfl
@[simp] theorem State.setSp_ct (v : Port) : (s.setSp v).ct = s.ct := rfl
@[simp] theorem State.setSp_evac (v : Port) : (s.setSp v).evac = s.evac := rfl
@[simp] theorem State.setSp_pm (v : Port) : (s.setSp v).pm = s.pm := rfl
@[simp] theorem State.setSp_cmp (v : Port) : (s.setSp v).cmp = s.cmp := rfl
@[simp] theorem State.setSp_clt (v : Port) : (s.setSp v).clt = s.clt := rfl
@[simp] theorem State.setSp_za (v : Port) : (s.setSp v).za = s.za := rfl
@[simp] theorem State.setSp_rch (v : Port) : (s.setSp v).rch = s.rch := rfl
@[simp] theorem State.setSp_audio (v : Port) : (s.setSp v).audio = s.audio := rfl
@[simp] theorem State.setSp_sp (v : Port) : (s.setSp v).sp = v := rfl
@[simp] theorem State.setSp_lu (v : Port) : (s.setSp v).lu = s.lu := rfl
@[simp] theorem State.setSp_sul (v : Port) : (s.setSp v).sul = s.sul := rfl
@[simp] theorem State.setSp_cfg (v : Port) : (s.setSp v).cfg = s.cfg := rfl
@[simp] theorem State.setSp_pins (v : Port) : (s.setSp v).pins = s.pins := rfl
@[simp] theorem State.setSp_pending (v : Port) : (s.setSp v).pending = s.pending := rfl

@[simp] theorem State.setLu_lc (v : Lu) : (s.setLu v).lc = s.lc := rfl
@[simp] theorem State.setLu_sck (v : Lu) : (s.setLu v).sck = s.sck := rfl
@[simp] theorem State.setLu_ct (v : Lu) : (s.setLu v).ct = s.ct := rfl
@[simp] theorem State.setLu_evac (v : Lu) : (s.setLu v).evac = s.evac := rfl
@[simp] theorem State.setLu_pm (v : Lu) : (s.setLu v).pm = s.pm := rfl
@[simp] theorem State.setLu_cmp (v : Lu) : (s.setLu v).cmp = s.cmp := rfl
@[simp] theorem State.setLu_clt (v : Lu) : (s.setLu v).clt = s.clt := rfl
@[simp] theorem State.setLu_za (v : Lu) : (s.setLu v).za = s.za := rfl
@[simp] theorem State.setLu_rch (v : Lu) : (s.setLu v).rch = s.rch := rfl
@[simp] theorem State.setLu_audio (v : Lu) : (s.setLu v).audio = s.audio := rfl
@[simp] theorem State.setLu_sp (v : Lu) : (s.setLu v).sp = s.sp := rfl
@[simp] theorem State.setLu_lu (v : Lu) : (s.setLu v).lu = v := rfl
@[simp] theorem State.setLu_sul (v : Lu) : (s.setLu v).sul = s.sul := rfl
@[simp] theorem State.setLu_cfg (v : Lu) : (s.setLu v).cfg = s.cfg := rfl
@[simp] theorem State.setLu_pins (v : Lu) : (s.setLu v).pins = s.pins := rfl
@[simp] theorem State.setLu_pending (v : Lu) : (s.setLu v).pending = s.pending := rfl

@[simp] theorem State.setSul_lc (v : Sul) : (s.setSul v).lc = s.lc := rfl
@[simp] theorem State.setSul_sck (v : Sul) : (s.setSul v).sck = s.sck := rfl
@[simp] theorem State.setSul_ct (v : Sul) : (s.setSul v).ct = s.ct := rfl
@[simp] theorem State.setSul_evac (v : Sul) : (s.setSul v).evac = s.evac := rfl
@[simp] theorem State.setSul_pm (v : Sul) : (s.setSul v).pm = s.pm := rfl
@[simp] theorem State.setSul_cmp (v : Sul) : (s.setSul v).cmp = s.cmp := rfl
@[simp] theorem State.setSul_clt (v : Sul) : (s.setSul v).clt = s.clt := rfl
@[simp] theorem State.setSul_za (v : Sul) : (s.setSul v).za = s.za := rfl
@[simp] theorem State.setSul_rch (v : Sul) : (s.setSul v).rch = s.rch := rfl
@[simp] theorem State.setSul_audio (v : Sul) : (s.setSul v).audio = s.audio := rfl
@[simp] theorem State.setSul_sp (v : Sul) : (s.setSul v).sp = s.sp := rfl
@[simp] theorem State.setSul_lu (v : Sul) : (s.setSul v).lu = s.lu := rfl
@[simp] theorem State.setSul_sul (v : Sul) : (s.setSul v).sul = v := rfl
@[simp] theorem State.setSul_cfg (v : Sul) : (s.setSul v).cfg = s.cfg := rfl
@[simp] theorem State.setSul_pins (v : Sul) : (s.setSul v).pins = s.pins := rfl
@[simp] theorem State.setSul_pending (v : Sul) : (s.setSul v).pending = s.pending := rfl

@[simp] theorem State.setCfg_lc (v : Cfg) : (s.setCfg v).lc = s.lc := rfl
@[simp] theorem State.setCfg_sck (v : Cfg) : (s.setCfg v).sck = s.sck := rfl
@[simp] theorem State.setCfg_ct (v : Cfg) : (s.setCfg v).ct = s.ct := rfl
@[simp] theorem State.setCfg_evac (v : Cfg) : (s.setCfg v).evac = s.evac := rfl
@[simp] theorem State.setCfg_pm (v : Cfg) : (s.setCfg v).pm = s.pm := rfl
@[simp] theorem State.setCfg_cmp (v : Cfg) : (s.setCfg v).cmp = s.cmp := rfl
@[simp] theorem State.setCfg_clt (v : Cfg) : (s.setCfg v).clt = s.clt := rfl
@[simp] theorem State.setCfg_za (v : Cfg) : (s.setCfg v).za = s.za := rfl
@[simp] theorem State.setCfg_rch (v : Cfg) : (s.setCfg v).rch = s.rch := rfl
@[simp] theorem State.setCfg_audio (v : Cfg) : (s.setCfg v).audio = s.audio := rfl
@[simp] theorem State.setCfg_sp (v : Cfg) : (s.setCfg v).sp = s.sp := rfl
@[simp] theorem State.setCfg_lu (v : Cfg) : (s.setCfg v).lu = s.lu := rfl
@[simp] theorem State.setCfg_sul (v : Cfg) : (s.setCfg v).sul = s.sul := rfl
@[simp] theorem State.setCfg_cfg (v : Cfg) : (s.setCfg v).cfg = v := rfl
@[simp] theorem State.setCfg_pins (v : Cfg) : (s.setCfg v).pins = s.pins := rfl
@[simp] theorem State.setCfg_pending (v : Cfg) : (s.setCfg v).pending = s.pending := rfl

@[simp] theorem State.setPins_lc (v : Pins) : (s.setPins v).lc = s.lc := rfl
@[simp] theorem State.setPins_sck (v : Pins) : (s.setPins v).sck = s.sck := rfl
@[simp] theorem State.setPins_ct (v : Pins) : (s.setPins v).ct = s.ct := rfl
@[simp] theorem State.setPins_evac (v : Pins) : (s.setPins v).evac = s.evac := rfl
@[simp] theorem State.setPins_pm (v : Pins) : (s.setPins v).pm = s.pm := rfl
@[simp] theorem State.setPins_cmp (v : Pins) : (s.setPins v).cmp = s.cmp := rfl
@[simp] theorem State.setPins_clt (v : Pins) : (s.setPins v).clt = s.clt := rfl
@[simp] theorem State.setPins_za (v : Pins) : (s.setPins v).za = s.za := rfl
@[simp] theorem State.setPins_rch (v : Pins) : (s.setPins v).rch = s.rch := rfl
@[simp] theorem State.setPins_audio (v : Pins) : (s.setPins v).audio = s.audio := rfl
@[simp] theorem State.setPins_sp (v : Pins) : (s.setPins v).sp = s.sp := rfl
@[simp] theorem State.setPins_lu (v : Pins) : (s.setPins v).lu = s.lu := rfl
@[simp] theorem State.setPins_sul (v : Pins) : (s.setPins v).sul = s.sul := rfl
@[simp] theorem State.setPins_cfg (v : Pins) : (s.setPins v).cfg = s.cfg := rfl
@[simp] theorem State.setPins_pins (v : Pins) : (s.setPins v).pins = v := rfl
@[simp] theorem State.setPins_pending (v : Pins) : (s.setPins v).pending = s.pending := rfl

@[simp] theorem State.setPending_lc (v : List Instr) : (s.setPending v).lc = s.lc := rfl
@[simp] theorem State.setPending_sck (v : List Instr) : (s.setPending v).sck = s.sck := rfl
@[simp] theorem State.setPending_ct (v : List Instr) : (s.setPending v).ct = s.ct := rfl
@[simp] theorem State.setPending_evac (v : List Instr) : (s.setPending v).evac = s.evac := rfl
@[simp] theorem State.setPending_pm (v : List Instr) : (s.setPending v).pm = s.pm := rfl
@[simp] theorem State.setPending_cmp (v : List Instr) : (s.setPending v).cmp = s.cmp := rfl
@[simp] theorem State.setPending_clt (v : List Instr) : (s.setPending v).clt = s.clt := rfl
@[simp] theorem State.setPending_za (v : List Instr) : (s.setPending v).za = s.za := rfl
@[simp] theorem State.setPending_rch (v : List Instr) : (s.setPending v).rch = s.rch := rfl
@[simp] theorem State.setPending_audio (v : List Instr) : (s.setPending v).audio = s.audio := rfl
@[simp] theorem State.setPending_sp (v : List Instr) : (s.setPending v).sp = s.sp := rfl
@[simp] theorem State.setPending_lu (v : List Instr) : (s.setPending v).lu = s.lu := rfl
@[simp] theorem State.setPending_sul (v : List Instr) : (s.setPending v).sul = s.sul := rfl
@[simp] theorem State.setPending_cfg (v : List Instr) : (s.setPending v).cfg = s.cfg := rfl
@[simp] theorem State.setPending_pins (v : List Instr) : (s.setPending v).pins = s.pins := rfl
@[simp] theorem State.setPending_pending (v : List Instr) : (s.setPending v).pending = v := rfl

end Sys2Proof.Machine
end

