-- ==== Sys2Proof/Laws/Frames.lean ====
section
/-!
SUPPORT. What each shared operation leaves alone, in three grades: an operation on calls, an operation on zones and channels, and an operation that
may reach the link as well. Proofs about a command cite these instead of unfolding the operations it is made of.
-/

namespace Sys2Proof.Machine

open Sys2Proof

/-! ### The three grades -/

theorem CallSide.refl (s : State) : CallSide s s := ⟨rfl, rfl, rfl, rfl, rfl, rfl, rfl, rfl, rfl, rfl, rfl, rfl⟩

theorem ZoneSide.refl (s : State) : ZoneSide s s := ⟨rfl, rfl, rfl, rfl, rfl, rfl, rfl, rfl, rfl, rfl⟩

theorem LinkSide.refl (s : State) : LinkSide s s := ⟨rfl, rfl, rfl, rfl, rfl, rfl⟩

theorem CallSide.trans {s t u : State} (h : CallSide s t) (k : CallSide t u) : CallSide s u :=
  ⟨k.lc.trans h.lc, k.sck.trans h.sck, k.evac.trans h.evac, k.za.trans h.za, k.rch.trans h.rch, k.audio.trans h.audio,
    k.sp.trans h.sp, k.lu.trans h.lu, k.sul.trans h.sul, k.cfg.trans h.cfg, k.pins.trans h.pins, k.pending.trans h.pending⟩

theorem ZoneSide.trans {s t u : State} (h : ZoneSide s t) (k : ZoneSide t u) : ZoneSide s u :=
  ⟨k.lc.trans h.lc, k.sck.trans h.sck, k.ct.trans h.ct, k.evac.trans h.evac, k.pm.trans h.pm, k.cmp.trans h.cmp,
    k.sul.trans h.sul, k.cfg.trans h.cfg, k.pins.trans h.pins, k.pending.trans h.pending⟩

theorem LinkSide.trans {s t u : State} (h : LinkSide s t) (k : LinkSide t u) : LinkSide s u :=
  ⟨k.sck.trans h.sck, k.evac.trans h.evac, k.sul.trans h.sul, k.cfg.trans h.cfg, k.pins.trans h.pins,
    k.pending.trans h.pending⟩

theorem CallSide.link {s t : State} (h : CallSide s t) : LinkSide s t := ⟨h.sck, h.evac, h.sul, h.cfg, h.pins, h.pending⟩

theorem ZoneSide.link {s t : State} (h : ZoneSide s t) : LinkSide s t := ⟨h.sck, h.evac, h.sul, h.cfg, h.pins, h.pending⟩

/-- A relation that holds across each step of a fold holds across the fold. -/
theorem foldl_rel {α : Type} (R : State → State → Prop) (r : ∀ s, R s s) (tr : ∀ {s t u}, R s t → R t u → R s u)
    {f : State → α → State} (h : ∀ s a, R s (f s a)) (l : List α) (s : State) : R s (l.foldl f s) := by
  induction l generalizing s with
  | nil => exact r s
  | cons a l ih => exact tr (h s a) (ih (f s a))

theorem CallSide.foldl {α : Type} {f : State → α → State} (h : ∀ s a, CallSide s (f s a)) (l : List α) (s : State) :
    CallSide s (l.foldl f s) := foldl_rel CallSide .refl .trans h l s

theorem ZoneSide.foldl {α : Type} {f : State → α → State} (h : ∀ s a, ZoneSide s (f s a)) (l : List α) (s : State) :
    ZoneSide s (l.foldl f s) := foldl_rel ZoneSide .refl .trans h l s

theorem LinkSide.foldl {α : Type} {f : State → α → State} (h : ∀ s a, LinkSide s (f s a)) (l : List α) (s : State) :
    LinkSide s (l.foldl f s) := foldl_rel LinkSide .refl .trans h l s

/-! ### Updates of one part -/

theorem setCt_side (s : State) (v : List Call) : CallSide s (s.setCt v) := ⟨rfl, rfl, rfl, rfl, rfl, rfl, rfl, rfl, rfl, rfl, rfl, rfl⟩

theorem setPm_side (s : State) (v : Duo Plat) : CallSide s (s.setPm v) := ⟨rfl, rfl, rfl, rfl, rfl, rfl, rfl, rfl, rfl, rfl, rfl, rfl⟩

theorem setCmp_side (s : State) (v : Cmp) : CallSide s (s.setCmp v) := ⟨rfl, rfl, rfl, rfl, rfl, rfl, rfl, rfl, rfl, rfl, rfl, rfl⟩

theorem setCltCall_side (s : State) (v : List Entry) : CallSide s (s.setClt v) :=
  ⟨rfl, rfl, rfl, rfl, rfl, rfl, rfl, rfl, rfl, rfl, rfl, rfl⟩

theorem setClt_side (s : State) (v : List Entry) : ZoneSide s (s.setClt v) := ⟨rfl, rfl, rfl, rfl, rfl, rfl, rfl, rfl, rfl, rfl⟩

theorem setZa_side (s : State) (v : Quad Zone) : ZoneSide s (s.setZa v) := ⟨rfl, rfl, rfl, rfl, rfl, rfl, rfl, rfl, rfl, rfl⟩

theorem setRch_side (s : State) (v : Quad (Option Chan)) : ZoneSide s (s.setRch v) := ⟨rfl, rfl, rfl, rfl, rfl, rfl, rfl, rfl, rfl, rfl⟩

theorem setAudio_side (s : State) (v : Quad Int) : ZoneSide s (s.setAudio v) := ⟨rfl, rfl, rfl, rfl, rfl, rfl, rfl, rfl, rfl, rfl⟩

theorem setSp_side (s : State) (v : Port) : ZoneSide s (s.setSp v) := ⟨rfl, rfl, rfl, rfl, rfl, rfl, rfl, rfl, rfl, rfl⟩

theorem setLu_side (s : State) (v : Lu) : ZoneSide s (s.setLu v) := ⟨rfl, rfl, rfl, rfl, rfl, rfl, rfl, rfl, rfl, rfl⟩

theorem setLc_side (s : State) (v : Lc) : LinkSide s (s.setLc v) := ⟨rfl, rfl, rfl, rfl, rfl, rfl⟩

theorem modCall_side (s : State) (k : Nat) (f : Call → Call) : CallSide s (s.modCall k f) := setCt_side s _

theorem modStep_side (s : State) (k i : Nat) (f : Step → Step) : CallSide s (s.modStep k i f) := modCall_side s k _

theorem modTimer_side (s : State) (k i : Nat) (f : StepTimer → StepTimer) : CallSide s (s.modTimer k i f) := modStep_side s k i _

theorem modPlat_side (s : State) (p : PlatId) (f : Plat → Plat) : CallSide s (s.modPlat p f) := setPm_side s _

theorem setQueue_side (s : State) (q : List Orig) : CallSide s (s.setQueue q) := setCmp_side s _

theorem removeOrigs_side (s : State) (p : Orig → Bool) : CallSide s (s.removeOrigs p) := setQueue_side s _

theorem markNoRetry_side (s : State) (k : Nat) : CallSide s (s.markNoRetry k) := setCltCall_side s _

theorem modZone_side (s : State) (z : ZoneId) (f : Zone → Zone) : ZoneSide s (s.modZone z f) := setZa_side s _

theorem modLu_side (s : State) (z : ZoneId) (f : LuZone → LuZone) : ZoneSide s (s.modLu z f) := setLu_side s _

theorem modEntry_side (s : State) (id : ClaimId) (f : Entry → Entry) : ZoneSide s (s.modEntry id f) := setClt_side s _

theorem modOrigin_side (s : State) (id : ClaimId) (f : OriginPart → OriginPart) : ZoneSide s (s.modOrigin id f) := modEntry_side s id _

theorem setChan_side (s : State) (c : ChanId) (ch : Option Chan) : ZoneSide s (s.setChan c ch) := setRch_side s _

theorem setTx_side (s : State) (q : List TxFrame) : LinkSide s (s.setTx q) := setLc_side s _

theorem setReport_side (s : State) (r : Option ReportBuf) : LinkSide s (s.setReport r) := setLc_side s _

/-! ### Dispositions and settling -/

theorem writeDisp_side (s : State) (id : ClaimId) (z : ZoneId) (d : Disp) : ZoneSide s (s.writeDisp id z d) := modEntry_side s id _

theorem writeDisps_side (s : State) (id : ClaimId) (zs : List ZoneId) (d : Disp) : ZoneSide s (s.writeDisps id zs d) :=
  ZoneSide.foldl (fun s z => writeDisp_side s id z d) zs s

theorem lowFail_side (s : State) (f : TxFrame) : LinkSide s (s.lowFail f) := by
  unfold State.lowFail
  split
  · exact (modEntry_side s _ _).link
  · exact setReport_side s _
  · exact .refl s

theorem enqueueLow_side (s : State) (b : TxBody) (dst : Nat) : LinkSide s (s.enqueueLow b dst) := by
  unfold State.enqueueLow
  dsimp only
  split
  · exact setTx_side s _
  · exact (setTx_side s _).trans (lowFail_side _ _)

theorem settleEntry_side (s : State) (id : ClaimId) : LinkSide s (s.settleEntry id) := by
  unfold State.settleEntry
  split
  · exact .refl s
  · split
    · dsimp only
      split
      · split
        · exact (modEntry_side s _ _).link.trans (modOrigin_side _ _ _).link
        · exact (modEntry_side s _ _).link
      · split
        · exact ((modEntry_side s _ _).link.trans (modEntry_side _ _ _).link).trans (enqueueLow_side _ _ _)
        · exact (modEntry_side s _ _).link
    · exact .refl s

theorem settle_side (s : State) : LinkSide s s.settle := LinkSide.foldl (fun s id => settleEntry_side s id) _ s

/-! ### Originations -/

theorem origDropped_side (s : State) (o : Orig) : CallSide s (s.origDropped o) := by
  unfold State.origDropped
  split
  · split
    · exact modStep_side s _ _ _
    · exact .refl s
  · exact modPlat_side s _ _
  · exact .refl s
  · exact .refl s

theorem pushOrig_side (s : State) (o : Orig) : CallSide s (s.pushOrig o) := by
  unfold State.pushOrig
  split
  · exact setQueue_side s _
  · split
    · split
      · exact (setQueue_side s _).trans (origDropped_side _ _)
      · exact origDropped_side s o
    · exact origDropped_side s o

/-! ### Channels -/

theorem grant_side (s : State) : ZoneSide s s.grant := by
  unfold State.grant
  split
  · exact .refl s
  · split
    · exact .refl s
    · split
      · exact .refl s
      · split
        · exact .refl s
        · exact setSp_side s _

theorem bindChan_side (s : State) (c : ChanId) (h : Held) (z : ZoneId) : ZoneSide s (s.bindChan c h z) :=
  (setChan_side s c _).trans (grant_side _)

theorem attachZone_side (s : State) (z : ZoneId) : ZoneSide s (s.attachZone z) := by
  unfold State.attachZone
  split
  · exact .refl s
  · split
    · split
      · exact setChan_side s _ _
      · exact .refl s
    · split
      · exact bindChan_side s _ _ _
      · exact .refl s

theorem joinZone_side (s : State) (z y : ZoneId) : ZoneSide s (s.joinZone z y) := by
  unfold State.joinZone
  split
  · split
    · exact setChan_side s _ _
    · exact .refl s
  · exact .refl s

theorem freeChannel_side (s : State) (c : ChanId) : ZoneSide s (s.freeChannel c) := (setChan_side s c none).trans (setSp_side _ _)

theorem detachFrom_side (s : State) (z : ZoneId) (c : ChanId) : ZoneSide s (s.detachFrom z c) := by
  unfold State.detachFrom
  split
  · exact .refl s
  · split
    · dsimp only
      split
      · exact setChan_side s _ _
      · exact freeChannel_side s c
    · exact .refl s

theorem detachZone_side (s : State) (z : ZoneId) : ZoneSide s (s.detachZone z) :=
  (ZoneSide.foldl (fun s c => detachFrom_side s z c) Idx4.all s).trans (setAudio_side _ _)

theorem detachZones_side (s : State) (zs : List ZoneId) : ZoneSide s (s.detachZones zs) :=
  ZoneSide.foldl (fun s z => detachZone_side s z) zs s

theorem applyLevel_side (s : State) (z : ZoneId) : ZoneSide s (s.applyLevel z) := by
  unfold State.applyLevel
  split
  · exact modLu_side s _ _
  · exact .refl s

theorem applyLevels_side (s : State) (zs : List ZoneId) : ZoneSide s (s.applyLevels zs) :=
  ZoneSide.foldl (fun s z => applyLevel_side s z) zs s

theorem sampleZone_side (s : State) (v : Nat) (e : Quad Nat) (z : ZoneId) : ZoneSide s (s.sampleZone v e z) := by
  unfold State.sampleZone
  split
  · exact modLu_side s _ _
  · exact .refl s

/-! ### Zones -/

theorem putZoneArb_side (s : State) (a : Arb) (z : ZoneId) : ZoneSide s (s.putZoneArb a z) := by
  unfold State.putZoneArb
  dsimp only
  split <;> split <;>
    first
      | exact ((modZone_side s _ _).trans (modLu_side _ _ _)).trans (modLu_side _ _ _)
      | exact (modZone_side s _ _).trans (modLu_side _ _ _)
      | exact modZone_side s _ _

theorem putArb_side (s : State) (zs : List ZoneId) (a : Arb) : ZoneSide s (s.putArb zs a) :=
  ZoneSide.foldl (fun s z => putZoneArb_side s a z) zs s

theorem enter_side (s : State) (zs : List ZoneId) (r : Arb × List ClaimId) : ZoneSide s (s.enter zs r) := by
  have h : ZoneSide s (r.2.foldl (fun s id => s.writeDisps id zs .missed) (s.putArb zs r.1)) :=
    (putArb_side s zs r.1).trans (ZoneSide.foldl (fun s id => writeDisps_side s id zs .missed) r.2 _)
  unfold State.enter
  dsimp only
  split
  · exact (h.trans (ZoneSide.foldl (fun s z => attachZone_side s z) zs _)).trans (applyLevels_side _ _)
  · exact h

theorem markReform_side (s : State) (z : ZoneId) : ZoneSide s (s.markReform z) := by
  unfold State.markReform
  dsimp only
  split
  · exact modZone_side s _ _
  · exact .refl s

theorem chooseNext_side (s : State) (zs : List ZoneId) (a : Arb) : ZoneSide s (s.chooseNext zs a) :=
  (enter_side s zs _).trans (ZoneSide.foldl (fun s z => markReform_side s z) zs _)

theorem stopUnit_side (s : State) (z : ZoneId) (c : StopCause) : ZoneSide s (s.stopUnit z c) := by
  unfold State.stopUnit
  dsimp only
  split
  · exact .refl s
  · exact ((detachZones_side s _).trans (writeDisps_side _ _ _ _)).trans (chooseNext_side _ _ _)

theorem putCutting_side (s : State) (z : ZoneId) (a : Arb) : ZoneSide s (s.putCutting z a) := by
  unfold State.putCutting
  dsimp only
  split
  · exact (putArb_side s _ a).trans (stopUnit_side _ _ _)
  · exact putArb_side s _ a

theorem offerWait_side (s : State) (z : ZoneId) (a : Arb) (h : Held) : ZoneSide s (s.offerWait z a h) := by
  unfold State.offerWait
  dsimp only
  split
  · exact putArb_side s _ _
  · exact (putArb_side s _ _).trans (writeDisps_side _ _ _ _)

theorem displaceNext_side (s : State) (z : ZoneId) (a : Arb) (o h : Held) : ZoneSide s (s.displaceNext z a o h) := by
  unfold State.displaceNext
  dsimp only
  split
  · exact putCutting_side s _ _
  · exact (writeDisps_side s _ _ _).trans (putCutting_side _ _ _)

theorem offerUnit_side (s : State) (h : Held) (z : ZoneId) : ZoneSide s (s.offerUnit h z) := by
  unfold State.offerUnit
  dsimp only
  split
  · exact writeDisps_side s _ _ _
  · split
    · exact writeDisps_side s _ _ _
    · exact writeDisps_side s _ _ _
    · exact writeDisps_side s _ _ _
    · exact enter_side s _ _
    · split
      · split
        · exact (writeDisps_side s _ _ _).trans (enter_side _ _ _)
        · exact offerWait_side s _ _ _
      · exact offerWait_side s _ _ _
    · split
      · split
        · exact putCutting_side s _ _
        · exact offerWait_side s _ _ _
      · exact offerWait_side s _ _ _
    · split
      · split
        · exact displaceNext_side s _ _ _ _
        · exact offerWait_side s _ _ _
      · exact offerWait_side s _ _ _

theorem offerEntry_side (s : State) (id : ClaimId) : ZoneSide s (s.offerEntry id) := by
  unfold State.offerEntry
  split
  · exact .refl s
  · refine ZoneSide.foldl (fun s z => ?_) _ s
    split
    · exact offerUnit_side s _ z
    · exact .refl s

theorem nextLeft_side (s : State) (z : ZoneId) (a : Arb) : ZoneSide s (s.nextLeft z a) := by
  unfold State.nextLeft
  dsimp only
  split
  · split
    · exact putCutting_side s _ _
    · exact putArb_side s _ _
  · exact putArb_side s _ _

theorem withdrawUnit_side (s : State) (id : ClaimId) (c : Bool) (z : ZoneId) : ZoneSide s (s.withdrawUnit id c z) := by
  unfold State.withdrawUnit
  dsimp only
  split
  · exact (putArb_side s _ _).trans (writeDisps_side _ _ _ _)
  · split
    · exact (writeDisps_side s _ _ _).trans (nextLeft_side _ _ _)
    · split
      · split
        · split
          · exact stopUnit_side s _ _
          · exact putArb_side s _ _
        · exact (writeDisps_side s _ _ _).trans (chooseNext_side _ _ _)
      · exact .refl s

theorem withdrawZones_side (s : State) (id : ClaimId) (c : Bool) : ZoneSide s (s.withdrawZones id c) := by
  refine ZoneSide.foldl (fun s z => ?_) _ s
  split
  · exact withdrawUnit_side s id c z
  · exact .refl s

theorem evictUnit_side (s : State) (id : ClaimId) (z : ZoneId) : ZoneSide s (s.evictUnit id z) := by
  unfold State.evictUnit
  dsimp only
  split
  · exact putArb_side s _ _
  · split
    · exact nextLeft_side s _ _
    · split
      · split
        · exact stopUnit_side s _ _
        · exact chooseNext_side s _ _
      · exact .refl s

theorem evictZones_side (s : State) (id : ClaimId) : ZoneSide s (s.evictZones id) :=
  ZoneSide.foldl (fun s z => evictUnit_side s id z) _ s

theorem missWaiter_side (s : State) (z : ZoneId) (id : ClaimId) : ZoneSide s (s.missWaiter z id) :=
  (putArb_side s _ _).trans (writeDisps_side _ _ _ _)

theorem breakPair_side (s : State) (z : ZoneId) : ZoneSide s (s.breakPair z) := by
  unfold State.breakPair
  split
  · exact (modZone_side s _ _).trans (modZone_side _ _ _)
  · exact .refl s

theorem clearZone_side (s : State) (z : ZoneId) (st : ZoneState) : ZoneSide s (s.clearZone z st) := by
  unfold State.clearZone
  dsimp only
  refine .trans ?_ (modZone_side _ _ _)
  refine .trans ?_ (modZone_side _ _ _)
  refine .trans ?_ (putZoneArb_side _ _ z)
  refine .trans ?_ (detachZone_side _ z)
  exact (breakPair_side s z).trans (ZoneSide.foldl (f := fun s (h : Held) => s.writeDisp h.id z .fault) (fun s h => writeDisp_side s h.id z .fault) _ _)

theorem makeWhole_side (s : State) (z : ZoneId) : ZoneSide s (s.makeWhole z) := (modZone_side s _ _).trans (modZone_side _ _ _)

theorem returnZone_side (s : State) (z : ZoneId) : ZoneSide s (s.returnZone z) := by
  unfold State.returnZone
  split
  · exact putZoneArb_side s _ z
  · split
    · exact (putZoneArb_side s _ z).trans (makeWhole_side _ z)
    all_goals exact putZoneArb_side s _ z

theorem reform_side (s : State) (z : ZoneId) : ZoneSide s (s.reform z) := by
  unfold State.reform
  dsimp only
  split
  · exact (((putZoneArb_side s _ z).trans (makeWhole_side _ z)).trans (joinZone_side _ _ _)).trans (applyLevel_side _ _)
  · exact (putZoneArb_side s _ z).trans (makeWhole_side _ z)

theorem applyStaged_side (s : State) (z : ZoneId) : ZoneSide s (s.applyStaged z) := by
  unfold State.applyStaged
  split
  · split
    · exact modZone_side s _ _
    · exact .refl s
  · exact .refl s

/-! ### Steps and calls -/

theorem fireStep_side (s : State) (k i : Nat) : CallSide s (s.fireStep k i) := by
  unfold State.fireStep
  split
  · split
    · exact .refl s
    · split
      · exact modTimer_side s _ _ _
      · split
        · exact modTimer_side s _ _ _
        · exact (modTimer_side s _ _ _).trans (pushOrig_side _ _)
  · exact .refl s

theorem eachStep_side {f : State → Nat → Nat → State} (h : ∀ s k i, CallSide s (f s k i)) (rs : List (Nat × Nat)) (s : State) :
    CallSide s (s.eachStep rs f) :=
  CallSide.foldl (f := fun s (r : Nat × Nat) => f s r.1 r.2) (fun s r => h s r.1 r.2) rs s

theorem openStep_side (s : State) (k i : Nat) (p : StepSpec) : CallSide s (s.openStep k i p) := by
  unfold State.openStep
  dsimp only
  split
  · exact modTimer_side s _ _ _
  · exact (modTimer_side s _ _ _).trans (fireStep_side _ _ _)

theorem windowTest_side (s : State) (k i : Nat) (c : Call) (st : Step) : CallSide s (s.windowTest k i c st) := by
  unfold State.windowTest
  split
  · split
    · exact .refl s
    · split
      · exact modTimer_side s _ _ _
      · split
        · exact openStep_side s _ _ _
        · exact .refl s
  · exact .refl s

theorem atTest_side (s : State) (k i : Nat) (c : Call) (st : Step) : CallSide s (s.atTest k i c st) := by
  unfold State.atTest
  split
  · exact .refl s
  · dsimp only
    split
    · exact modTimer_side s _ _ _
    · split
      · exact fireStep_side s _ _
      · exact modTimer_side s _ _ _

theorem countDown_side (s : State) (k i : Nat) (st : Step) : CallSide s (s.countDown k i st) := by
  unfold State.countDown
  split
  · exact .refl s
  · split
    · exact (modTimer_side s _ _ _).trans (fireStep_side _ _ _)
    · exact modTimer_side s _ _ _

theorem tickStep_side (adv : Bool) (s : State) (k i : Nat) : CallSide s (State.tickStep adv s k i) := by
  unfold State.tickStep
  split
  · split
    · exact .refl s
    · split
      · split
        · split
          · exact .refl s
          · dsimp only
            split
            · exact fireStep_side s _ _
            · exact modTimer_side s _ _ _
        · exact .refl s
      · dsimp only
        repeat' split
        all_goals first
          | exact windowTest_side s _ _ _ _
          | exact countDown_side s _ _ _
          | exact .refl s
      all_goals first
        | exact .refl s
        | (split
           · exact countDown_side s _ _ _
           · exact .refl s)
  · exact .refl s

theorem forwardStep_side (s : State) (k i : Nat) : CallSide s (s.forwardStep k i) := by
  unfold State.forwardStep
  repeat' split
  all_goals first
    | exact .refl s
    | exact atTest_side s _ _ _ _
    | exact windowTest_side s _ _ _ _

theorem backwardStep_side (s : State) (k i : Nat) : CallSide s (s.backwardStep k i) := by
  unfold State.backwardStep
  repeat' split
  all_goals first
    | exact .refl s
    | (dsimp only; split
       · exact modTimer_side s _ _ _
       · exact .refl s)

theorem armStep_side (s : State) (k i : Nat) (p : StepSpec) : CallSide s (s.armStep k i p) := by
  unfold State.armStep
  split
  · exact fireStep_side s _ _
  · exact modTimer_side s _ _ _

theorem startStep_side (s : State) (k i : Nat) : CallSide s (s.startStep k i) := by
  unfold State.startStep
  repeat' split
  all_goals first
    | exact .refl s
    | exact atTest_side s _ _ _ _
    | exact windowTest_side s _ _ _ _
    | exact armStep_side s _ _ _

theorem bindStep_side (s : State) (k i : Nat) : CallSide s (s.bindStep k i) := by
  unfold State.bindStep
  repeat' split
  all_goals first
    | exact .refl s
    | exact modTimer_side s _ _ _
    | exact armStep_side s _ _ _

theorem doorsStep_side (s : State) (k i : Nat) : CallSide s (s.doorsStep k i) := by
  unfold State.doorsStep
  repeat' split
  all_goals first
    | exact .refl s
    | exact armStep_side s _ _ _

theorem replanStep_side (s : State) (k i : Nat) : CallSide s (s.replanStep k i) := by
  unfold State.replanStep State.replanAt State.replanEvery
  repeat' (first | split | dsimp only)
  all_goals first
    | exact .refl s
    | exact atTest_side s _ _ _ _
    | exact windowTest_side s _ _ _ _
    | exact fireStep_side s _ _
    | exact modTimer_side s _ _ _

theorem leaveService_side (s : State) (k : Nat) (st : CallState) : CallSide s (s.leaveService k st) :=
  (((modCall_side s k _).trans (removeOrigs_side _ _)).trans (markNoRetry_side _ k)).trans (setPm_side _ _)

theorem expiryTest_side (s : State) (k : Nat) : CallSide s (s.expiryTest k) := by
  unfold State.expiryTest
  repeat' split
  all_goals first
    | exact .refl s
    | exact leaveService_side s _ _

theorem expiryTests_side (s : State) : CallSide s s.expiryTests := CallSide.foldl (fun s k => expiryTest_side s k) _ s

theorem bindCall_side (s : State) (p : PlatId) (k : Nat) : CallSide s (s.bindCall p k) :=
  ((modPlat_side s p _).trans (modCall_side _ k _)).trans (eachStep_side bindStep_side _ _)

theorem acceptRise_side (s : State) (p : PlatId) : CallSide s (s.acceptRise p) := by
  unfold State.acceptRise
  dsimp only
  split
  · split
    · exact (modPlat_side s p _).trans (bindCall_side _ _ _)
    · exact modPlat_side s p _
  · exact .refl s

theorem acceptFall_side (s : State) (p : PlatId) : CallSide s (s.acceptFall p) := by
  unfold State.acceptFall
  dsimp only
  split
  · exact .refl s
  · split
    · exact modPlat_side s p _
    · split
      · exact (modPlat_side s p _).trans (leaveService_side _ _ _)
      · exact modPlat_side s p _

theorem acceptOcc_side (s : State) (p : PlatId) : CallSide s (s.acceptOcc p) := by
  unfold State.acceptOcc
  dsimp only
  split
  · exact (modPlat_side s p _).trans (acceptRise_side _ _)
  · exact (modPlat_side s p _).trans (acceptFall_side _ _)

theorem occMoved_side (s : State) (p : PlatId) : CallSide s (s.occMoved p) := by
  unfold State.occMoved
  split <;> exact modPlat_side s _ _

theorem revertHandoff_side (s : State) (k : Nat) : CallSide s (s.revertHandoff k) := by
  unfold State.revertHandoff
  split
  · exact .refl s
  · split
    · dsimp only
      have h := fun f => (setPm_side s (s.pm.map (Plat.restore k))).trans (modCall_side _ k f)
      have h2 := fun f => (h f).trans (eachStep_side forwardStep_side
        (((s.setPm (s.pm.map (Plat.restore k))).modCall k f).stepRefsOf k) _)
      repeat' split
      all_goals first
        | exact h2 _
        | exact (h2 _).trans (expiryTest_side _ _)
        | exact h _
        | exact (h _).trans (expiryTest_side _ _)
    · exact .refl s

theorem settleHandoff_side (s : State) (k : Nat) : CallSide s (s.settleHandoff k) :=
  (((setPm_side s _).trans (removeOrigs_side _ _)).trans (markNoRetry_side _ k)).trans (modCall_side _ k _)

theorem install_side (s : State) (c : Call) : CallSide s (s.install c) :=
  ((setCt_side s _).trans (eachStep_side startStep_side _ _)).trans (expiryTest_side _ _)

theorem stage_side (s : State) (k : Nat) (a : Amendment) : CallSide s (s.stage k a) := modCall_side s k _

theorem applyPlan_side (s : State) (k : Nat) (a : Amendment) : CallSide s (s.applyPlan k a).1 := by
  unfold State.applyPlan
  split
  · exact .refl s
  · exact (((removeOrigs_side s _).trans (markNoRetry_side _ k)).trans (modCall_side _ k _)).trans (eachStep_side startStep_side _ _)
  · exact CallSide.foldl (f := fun s (r : Nat × StepSpec) => s.modStep k r.1 (reviseStep r.2)) (fun s r => modStep_side s k r.1 _) _ s

theorem replan_side (s : State) (k : Nat) (a : Amendment) : CallSide s (s.replan k a) := by
  unfold State.replan
  dsimp only
  split
  · exact applyPlan_side s k a
  · exact (applyPlan_side s k a).trans (eachStep_side replanStep_side _ _)

/-! ### Frames that fail, the queue, withdrawals -/

theorem sendFailed_side (s : State) (c : ClaimFrame) : LinkSide s (s.sendFailed c) := by
  unfold State.sendFailed
  dsimp only
  repeat' split
  all_goals first
    | exact .refl s
    | exact ((modEntry_side s _ _).trans (offerEntry_side _ _)).link.trans (settle_side _)

theorem cedeFailed_side (s : State) (id : ClaimId) (c : Bool) : LinkSide s (s.cedeFailed id c) :=
  ((withdrawZones_side s id c).trans (modOrigin_side _ _ _)).link.trans (settle_side _)

theorem handoffFailed_side (s : State) (k : Nat) : CallSide s (s.handoffFailed k) := by
  unfold State.handoffFailed
  repeat' split
  all_goals first
    | exact .refl s
    | exact revertHandoff_side s k

theorem failFrame_side (s : State) (f : TxFrame) : LinkSide s (s.failFrame f) := by
  unfold State.failFrame
  split
  · exact sendFailed_side s _
  · exact cedeFailed_side s _ _
  · exact (handoffFailed_side s _).link
  · exact .refl s
  · exact lowFail_side s f
  · exact lowFail_side s f

theorem enqueue_side (s : State) (b : TxBody) (d : Nat) : LinkSide s (s.enqueue b d) := by
  unfold State.enqueue
  dsimp only
  split
  · exact setTx_side s _
  · exact (setTx_side s _).trans (failFrame_side _ _)

theorem takeBack_side (s : State) (id : ClaimId) : LinkSide s (s.takeBack id) :=
  ((setTx_side s _).trans (modEntry_side _ _ _).link).trans (settle_side _)

theorem holdTakeBack_side (s : State) (id : ClaimId) (c : Bool) : LinkSide s (s.holdTakeBack id c) :=
  (setTx_side s _).trans (modOrigin_side _ _ _).link

theorem withdrawOwn_side (c : Bool) (s : State) (id : ClaimId) : LinkSide s (s.withdrawOwn c id) := by
  unfold State.withdrawOwn
  repeat' split
  all_goals first
    | exact .refl s
    | exact (modOrigin_side s _ _).link.trans (enqueue_side _ _ _)
    | exact holdTakeBack_side s _ _
    | exact takeBack_side s _
    | exact ((modOrigin_side s _ _).trans (withdrawZones_side _ _ _)).link.trans (settle_side _)

theorem withdrawCall_side (s : State) (k : Nat) : LinkSide s (s.withdrawCall k) :=
  LinkSide.foldl (fun s id => withdrawOwn_side false s id) _ s

theorem takeCede_side (s : State) (src : Nat) (id : ClaimId) (c : Bool) : LinkSide s (s.takeCede src id c) := by
  unfold State.takeCede
  split
  · exact (withdrawZones_side s id c).link.trans (settle_side _)
  · exact .refl s

theorem ownCede_side (s : State) (id : ClaimId) (c : Bool) : LinkSide s (s.ownCede id c) :=
  (modOrigin_side s _ _).link.trans (takeCede_side _ _ _ _)

theorem ownClaim_side (s : State) (c : ClaimFrame) : LinkSide s (s.ownClaim c) := by
  have h := fun (id : ClaimId) f => ((modEntry_side s id f).trans (offerEntry_side _ id)).link.trans (settle_side _)
  unfold State.ownClaim
  dsimp only
  repeat' split
  all_goals first
    | exact .refl s
    | exact (h _ _).trans (enqueue_side _ _ _)
    | exact h _ _

theorem evict_side (s : State) (id : ClaimId) : LinkSide s (s.evict id) :=
  (((evictZones_side s id).trans (modEntry_side _ _ _)).link.trans (settle_side _)).trans (setClt_side _ _).link

theorem enterClaim_side (s : State) (src : Nat) (c : ClaimFrame) : LinkSide s (s.enterClaim src c) :=
  ((setClt_side s _).trans (offerEntry_side _ _)).link.trans (settle_side _)

theorem peerClaim_side (s : State) (src : Nat) (c : ClaimFrame) : LinkSide s (s.peerClaim src c) := by
  unfold State.peerClaim
  repeat' split
  all_goals first
    | exact .refl s
    | exact enterClaim_side s _ _
    | exact (evict_side s _).trans (enterClaim_side _ _ _)

theorem frameEnd_side (s : State) : LinkSide s s.frameEnd := setLc_side s _

theorem answer_side (s : State) (f : RxFrame) (k key : Nat) (c : AnswerCode) : LinkSide s (s.answer f k key c) := by
  unfold State.answer
  split
  · exact .refl s
  · exact enqueue_side s _ _

theorem callFrame_side (s : State) (k : Nat) (f : RxFrame) {act : State → State} (h : ∀ s, LinkSide s (act s)) :
    LinkSide s (s.callFrame k f act) := by
  unfold State.callFrame
  dsimp only
  split
  · exact frameEnd_side s
  · split
    · exact (frameEnd_side s).trans (h _)
    · split
      · exact (frameEnd_side s).trans (answer_side _ _ _ _ _)
      · exact frameEnd_side s
    · exact frameEnd_side s

end Sys2Proof.Machine
end

