-- ==== Sys2Proof/Laws/Tables.lean ====
section
/-!
SUPPORT. What the shared operations over the tables and queues do, said once: lookups after updates, insertion into the ordered tables, and the
transmit queue's comparison.
-/

namespace Sys2Proof.Machine

open Sys2Proof

/-! ### Lookups -/

/-- A lookup by a key after a map that keeps keys. -/
theorem find_map_key {α κ : Type} [DecidableEq κ] (key : α → κ) (k j : κ) (f : α → α) (hf : ∀ a, key (f a) = key a) (l : List α) :
    (l.map (fun a => if key a == k then f a else a)).find? (fun a => key a == j) =
      (l.find? (fun a => key a == j)).map (fun a => if j = k then f a else a) := by
  induction l with
  | nil => rfl
  | cons a l ih =>
    have h : key (if key a == k then f a else a) = key a := by split <;> simp [hf]
    rw [List.map_cons, List.find?_cons, List.find?_cons, ih, h]
    by_cases hj : key a = j
    · subst hj; simp
    · have hb : (key a == j) = false := by simpa using hj
      rw [hb]

/-- What `modCall` leaves of a call: the call named is changed, every other stays (R1). -/
theorem findCall_modCall (s : State) (k j : Nat) (f : Call → Call) (hf : ∀ c, (f c).key = c.key) :
    (s.modCall k f).findCall j = (s.findCall j).map (fun c => if j = k then f c else c) :=
  find_map_key Call.key k j f hf s.ct

/-- What `modStep` leaves of a call. -/
theorem findCall_modStep (s : State) (k i j : Nat) (f : Step → Step) :
    (s.modStep k i f).findCall j = (s.findCall j).map (fun c => if j = k then c.modStep i f else c) :=
  findCall_modCall s k j _ (fun _ => rfl)

/-- What `modStep` leaves of the step it names. -/
theorem findStep_modStep (s : State) (k i : Nat) (f : Step → Step) : (s.modStep k i f).findStep k i = (s.findStep k i).map f := by
  simp only [State.findStep, findCall_modStep, Option.bind_map]
  cases s.findCall k <;> simp [Call.modStep]

/-- What `modStep` leaves of every other step. -/
theorem findStep_modStep_ne (s : State) {k i j n : Nat} (f : Step → Step) (h : ¬ (j = k ∧ n = i)) :
    (s.modStep k i f).findStep j n = s.findStep j n := by
  simp only [State.findStep, findCall_modStep, Option.bind_map]
  cases s.findCall j with
  | none => rfl
  | some c =>
    by_cases hj : j = k
    · have hn : i ≠ n := fun e => h ⟨hj, e.symm⟩
      simp [hj, Call.modStep, hn]
    · simp [hj]

/-- What `modEntry` leaves of an entry: the entry named is changed, every other stays (R90). -/
theorem findEntry_modEntry (s : State) (k j : ClaimId) (f : Entry → Entry) (hf : ∀ e, (f e).id = e.id) :
    (s.modEntry k f).findEntry j = (s.findEntry j).map (fun e => if j = k then f e else e) :=
  find_map_key Entry.id k j f hf s.clt

/-- What `writeDisp` leaves of an entry: PENDING in the zone named becomes the disposition, and nothing else changes (R94). -/
theorem findEntry_writeDisp (s : State) (id j : ClaimId) (z : ZoneId) (d : Disp) :
    (s.writeDisp id z d).findEntry j = (s.findEntry j).map (fun e =>
      if j = id ∧ e.disp.get z = .pending then { e with disp := e.disp.set z d } else e) := by
  rw [State.writeDisp, findEntry_modEntry _ _ _ _ (fun e => by split <;> rfl)]
  cases s.findEntry j with
  | none => rfl
  | some e => by_cases h : j = id <;> simp [h]

/-- What `writeDisps` leaves of an entry, zone by zone (R94). -/
theorem findEntry_writeDisps (s : State) (id j : ClaimId) (zs : List ZoneId) (d : Disp) (hd : d ≠ .pending) :
    (s.writeDisps id zs d).findEntry j = (s.findEntry j).map (fun e =>
      if j = id then { e with disp := Quad.tabulate (fun y => if y ∈ zs ∧ e.disp.get y = .pending then d else e.disp.get y) } else e) := by
  induction zs generalizing s with
  | nil =>
    have h : ∀ q : Quad Disp, Quad.tabulate (fun y => q.get y) = q := fun q => Quad.ext_get (by simp)
    cases hs : s.findEntry j <;> simp [State.writeDisps, hs, h]
  | cons z zs ih =>
    have hw : s.writeDisps id (z :: zs) d = (s.writeDisp id z d).writeDisps id zs d := rfl
    rw [hw, ih, findEntry_writeDisp]
    cases s.findEntry j with
    | none => rfl
    | some e =>
      by_cases hj : j = id
      · simp only [hj, true_and, if_true, Option.map_some, Option.some.injEq]
        split
        · rename_i hp
          simp only [Entry.mk.injEq, true_and, and_true]
          refine Quad.ext_get (fun y => ?_)
          by_cases hy : y = z
          · subst hy; simp [hp, hd]
          · simp [Quad.get_set_ne _ _ hy, hy]
        · rename_i hp
          simp only [Entry.mk.injEq, true_and, and_true]
          refine Quad.ext_get (fun y => ?_)
          by_cases hy : y = z
          · subst hy; simp [hp]
          · simp [hy]
      · simp [hj]

@[simp] theorem writeDisps_za (s : State) (id : ClaimId) (zs : List ZoneId) (d : Disp) : (s.writeDisps id zs d).za = s.za := by
  induction zs generalizing s with
  | nil => rfl
  | cons z zs ih => exact ih _

@[simp] theorem writeDisps_rch (s : State) (id : ClaimId) (zs : List ZoneId) (d : Disp) : (s.writeDisps id zs d).rch = s.rch := by
  induction zs generalizing s with
  | nil => rfl
  | cons z zs ih => exact ih _

@[simp] theorem writeDisps_sck (s : State) (id : ClaimId) (zs : List ZoneId) (d : Disp) : (s.writeDisps id zs d).sck = s.sck := by
  induction zs generalizing s with
  | nil => rfl
  | cons z zs ih => exact ih _

/-! ### The ordered tables -/

/-- Where `insertCall` puts a call: the table holds it and what it held before, nothing else (R1). -/
theorem mem_insertCall (c d : Call) (l : List Call) : d ∈ insertCall c l ↔ d = c ∨ d ∈ l := by
  induction l with
  | nil => simp [insertCall]
  | cons a l ih =>
    simp only [insertCall]
    split
    · simp
    · simp only [List.mem_cons, ih]; tauto

theorem length_insertCall (c : Call) (l : List Call) : (insertCall c l).length = l.length + 1 := by
  induction l with
  | nil => rfl
  | cons a l ih => simp only [insertCall]; split <;> simp [ih]

/-- `insertCall` keeps the ascending key order, when the key is new (R1). -/
theorem pairwise_insertCall (c : Call) (l : List Call) (h : l.Pairwise (fun a b => a.key < b.key)) (hc : ∀ d ∈ l, d.key ≠ c.key) :
    (insertCall c l).Pairwise (fun a b => a.key < b.key) := by
  induction l with
  | nil => simp [insertCall]
  | cons a l ih =>
    rw [List.pairwise_cons] at h
    simp only [insertCall]
    split
    · rename_i hk
      rw [List.pairwise_cons, List.pairwise_cons]
      refine ⟨?_, h⟩
      intro d hd
      rcases List.mem_cons.mp hd with rfl | hd
      · exact hk
      · exact lt_trans hk (h.1 d hd)
    · rename_i hk
      rw [List.pairwise_cons]
      refine ⟨?_, ih h.2 (fun d hd => hc d (List.mem_cons_of_mem _ hd))⟩
      intro d hd
      rcases (mem_insertCall c d l).mp hd with rfl | hd
      · have := hc a (List.mem_cons_self ..)
        omega
      · exact h.1 d hd

/-- A new call is found under its key, and every other key finds what it found before (R1). -/
theorem find_insertCall (c : Call) (l : List Call) (j : Nat) (hc : ∀ d ∈ l, d.key ≠ c.key) :
    (insertCall c l).find? (fun d => d.key == j) = if j = c.key then some c else l.find? (fun d => d.key == j) := by
  induction l with
  | nil =>
    by_cases h : j = c.key
    · subst h; simp [insertCall]
    · simp [insertCall, h, Ne.symm h]
  | cons a l ih =>
    have ha : a.key ≠ c.key := hc a (List.mem_cons_self ..)
    simp only [insertCall]
    split
    · by_cases h : j = c.key
      · subst h; simp
      · simp [h, Ne.symm h]
    · rw [List.find?_cons, List.find?_cons, ih (fun d hd => hc d (List.mem_cons_of_mem _ hd))]
      by_cases h : j = c.key
      · have hb : (a.key == j) = false := by simpa [h] using ha
        rw [hb]
      · simp [h]

/-! ### The transmit queue (R166, R167) -/

theorem length_txInsert (q : List TxFrame) (f : TxFrame) : (txInsert q f).length = q.length + 1 := by
  have h := congrArg List.length (List.takeWhile_append_dropWhile (p := fun g : TxFrame => decide (g.tier ≤ f.tier)) (l := q))
  simp only [List.length_append] at h
  simp only [txInsert, List.length_append, List.length_cons]
  omega

theorem mem_txInsert (q : List TxFrame) (f g : TxFrame) : g ∈ txInsert q f ↔ g = f ∨ g ∈ q := by
  have h := List.takeWhile_append_dropWhile (p := fun g : TxFrame => decide (g.tier ≤ f.tier)) (l := q)
  conv_rhs => rw [← h]
  simp only [txInsert, List.mem_append, List.mem_cons]
  tauto

/-- The frame that leaves as the worst is in the queue, and the rest stays in its order (R166). -/
theorem txDropWorst_sublist (q : List TxFrame) : (txDropWorst q).Sublist q := by
  have h := (List.eraseP_sublist (p := fun g : TxFrame => !g.underWay) (l := q.reverse)).reverse
  simpa [txDropWorst] using h

/-- The worst frame is in the queue and has no attempt under way (R166). -/
theorem txWorst_mem {q : List TxFrame} {w : TxFrame} (h : txWorst q = some w) : w ∈ q ∧ w.underWay = false := by
  have h1 := List.mem_of_find?_eq_some h
  have h2 := List.find?_some h
  exact ⟨by simpa using h1, by simpa using h2⟩

/-- What a frame's arrival can do to the queue: it is entered, it displaces the worst frame, or it is dropped (R167). -/
theorem txOffer_cases (q : List TxFrame) (f : TxFrame) :
    (q.length < 8 ∧ txOffer q f = (txInsert q f, none)) ∨
    (8 ≤ q.length ∧ ∃ w, txWorst q = some w ∧ f.tier < w.tier ∧ txOffer q f = (txInsert (txDropWorst q) f, some w)) ∨
    (8 ≤ q.length ∧ (∀ w, txWorst q = some w → w.tier ≤ f.tier) ∧ txOffer q f = (q, some f)) := by
  unfold txOffer Config.maxTx
  split
  · exact .inl ⟨‹_›, rfl⟩
  · have h8 : 8 ≤ q.length := by omega
    cases hw : txWorst q with
    | none => exact .inr (.inr ⟨h8, by simp, rfl⟩)
    | some w =>
      by_cases ht : f.tier < w.tier
      · exact .inr (.inl ⟨h8, w, rfl, ht, by simp [ht]⟩)
      · exact .inr (.inr ⟨h8, by simpa using ht, by simp [ht]⟩)

/-! ### The origination queue (R74, R75) -/

theorem length_origInsert (q : List Orig) (o : Orig) : (origInsert q o).length = q.length + 1 := by
  have h := congrArg List.length (List.takeWhile_append_dropWhile (p := fun p : Orig => decide (p.cls ≤ o.cls)) (l := q))
  simp only [List.length_append] at h
  simp only [origInsert, List.length_append, List.length_cons]
  omega

theorem mem_origInsert (q : List Orig) (o p : Orig) : p ∈ origInsert q o ↔ p = o ∨ p ∈ q := by
  have h := List.takeWhile_append_dropWhile (p := fun p : Orig => decide (p.cls ≤ o.cls)) (l := q)
  conv_rhs => rw [← h]
  simp only [origInsert, List.mem_append, List.mem_cons]
  tauto

/-- What an origination's arrival can do: it is entered, it pushes out the last of the worst class, or it is dropped (R75). -/
theorem pushOrig_cases (s : State) (o : Orig) :
    (s.cmp.queue.length < 4 ∧ s.pushOrig o = s.setQueue (origInsert s.cmp.queue o)) ∨
    (4 ≤ s.cmp.queue.length ∧ ∃ w, s.cmp.queue.getLast? = some w ∧ o.cls < w.cls ∧
      s.pushOrig o = (s.setQueue (origInsert s.cmp.queue.dropLast o)).origDropped w) ∨
    (4 ≤ s.cmp.queue.length ∧ (∀ w, s.cmp.queue.getLast? = some w → w.cls ≤ o.cls) ∧ s.pushOrig o = s.origDropped o) := by
  unfold State.pushOrig Config.maxOrigs
  split
  · exact .inl ⟨‹_›, rfl⟩
  · have h4 : 4 ≤ s.cmp.queue.length := by omega
    cases hw : s.cmp.queue.getLast? with
    | none => exact .inr (.inr ⟨h4, by simp, rfl⟩)
    | some w =>
      by_cases ht : o.cls < w.cls
      · exact .inr (.inl ⟨h4, w, rfl, ht, by simp [ht]⟩)
      · exact .inr (.inr ⟨h4, by simpa using ht, by simp [ht]⟩)

/-! ### The wait list (R117) -/

/-- A claim that meets a wait list leaves no more than four in it, and whatever is in it after was there or is the claim (R109, R117). -/
theorem waitEnter_spec (ahead : Held → Held → Bool) (w : List Held) (h : Held) (hw : w.length ≤ 4) :
    (waitEnter ahead w h).1.length ≤ 4 ∧ (∀ g ∈ (waitEnter ahead w h).1, g = h ∨ g ∈ w) ∧
      ∀ x, (waitEnter ahead w h).2 = some x → x = h ∨ x ∈ w := by
  have hl := congrArg List.length (List.takeWhile_append_dropWhile (p := fun g => ahead g h) (l := w))
  simp only [List.length_append] at hl
  have hd := congrArg List.length (List.takeWhile_append_dropWhile (p := fun g => ahead g h) (l := w.dropLast))
  simp only [List.length_append, List.length_dropLast] at hd
  have hm : ∀ l : List Held, ∀ g, g ∈ l.takeWhile (fun g => ahead g h) ++ h :: l.dropWhile (fun g => ahead g h) ↔ g = h ∨ g ∈ l := by
    intro l g
    conv_rhs => rw [← List.takeWhile_append_dropWhile (p := fun g => ahead g h) (l := l)]
    simp only [List.mem_append, List.mem_cons]
    tauto
  unfold waitEnter Config.maxWait
  dsimp only
  split
  · exact ⟨by simp only [List.length_append, List.length_cons]; omega, fun g => (hm w g).mp, by simp⟩
  · cases hg : w.getLast? with
    | none => exact ⟨hw, fun g hg => .inr hg, by simp⟩
    | some x =>
      by_cases hx : ahead x h = true
      · simp only [hx, if_true]
        exact ⟨hw, fun g hg => .inr hg, by simp⟩
      · simp only [hx, Bool.false_eq_true, if_false]
        refine ⟨?_, ?_, ?_⟩
        · have : 0 < w.length := List.length_pos_of_mem (List.mem_of_getLast? hg)
          simp only [List.length_append, List.length_cons]; omega
        · exact fun g hgm => ((hm _ g).mp hgm).imp_right (fun hk => List.dropLast_subset _ hk)
        · rintro y ⟨⟩
          exact .inr (List.mem_of_getLast? hg)

end Sys2Proof.Machine
end

