-- ==== Sys2Proof/Laws/Zones.lean ====
section
/-!
SUPPORT. What the zone operations do, said once: which records they write, and what stands in a unit afterwards.
-/

namespace Sys2Proof.Machine

open Sys2Proof

/-! ### Units (R124) -/

theorem Idx4.partner_partner (z : Idx4) : z.partner.partner = z := by cases z <;> rfl

theorem Idx4.partner_ne (z : Idx4) : z.partner ≠ z := by cases z <;> decide

/-- A zone is in its own unit (R124). -/
theorem self_mem_unit (s : State) (z : ZoneId) : z ∈ s.unit z := by
  unfold State.unit
  split
  · cases z <;> decide
  · simp

/-- The members of a unit: the zone, and its partner in a WHOLE pair (R124). -/
theorem mem_unit (s : State) (z y : ZoneId) : y ∈ s.unit z ↔ y = z ∨ (s.whole z = true ∧ y = z.partner) := by
  unfold State.unit
  by_cases h : s.whole z = true
  · rw [if_pos h]
    cases z <;> cases y <;> simp [h, Idx4.lead, Idx4.partner]
  · rw [if_neg h]
    simp [h]

theorem unit_congr {s t : State} (h : t.za = s.za) (z : ZoneId) : t.unit z = s.unit z := by
  unfold State.unit State.whole; rw [h]

/-! ### Entering a state (R110) -/

theorem putZoneArb_za (s : State) (a : Arb) (z : ZoneId) : (s.putZoneArb a z).za = s.za.set z { s.za.get z with arb := a } := by
  unfold State.putZoneArb
  dsimp only
  split <;> split <;> rfl

/-- What `putZoneArb` leaves alone. -/
theorem putZoneArb_frame (s : State) (a : Arb) (z : ZoneId) :
    s.putZoneArb a z = { s with za := (s.putZoneArb a z).za, lu := (s.putZoneArb a z).lu } := by
  unfold State.putZoneArb
  dsimp only
  split <;> split <;> rfl

/-- What writing the shared part of one zone leaves of every other zone in the level unit (R146, R147). -/
theorem putZoneArb_lu_ne (s : State) (a : Arb) {z y : ZoneId} (h : y ≠ z) : (s.putZoneArb a z).lu.zones.get y = s.lu.zones.get y := by
  unfold State.putZoneArb
  dsimp only
  split <;> split <;> simp [State.modLu, State.modZone, Quad.get_set_ne _ _ h]

/-- What the level unit notes of every zone when the shared part of one is written (R146, R147). -/
theorem putZoneArb_noted (s : State) (a : Arb) (z y : ZoneId) : PlayNoted s (s.putZoneArb a z) y := by
  have hza := putZoneArb_za s a z
  by_cases hy : y = z
  · subst hy
    constructor <;> rw [hza] <;> simp only [Quad.get_set] <;> unfold State.putZoneArb <;> generalize hs : (s.za.get y).arb.state = st <;>
      generalize ht : a.state = st' <;> cases st <;> cases st' <;>
      simp [ZoneState.plays, ZoneState.silent, State.modLu, State.modZone, ht, State.now]
  · constructor <;> rw [hza, putZoneArb_lu_ne s a hy, Quad.get_set_ne _ _ hy, if_neg] <;> rintro ⟨h | h, h', h''⟩ <;> contradiction

theorem putArb_get (s : State) (zs : List ZoneId) (a : Arb) (y : ZoneId) :
    (s.putArb zs a).za.get y = if y ∈ zs then { s.za.get y with arb := a } else s.za.get y := by
  induction zs generalizing s with
  | nil => rfl
  | cons z zs ih =>
    have h : s.putArb (z :: zs) a = (s.putZoneArb a z).putArb zs a := rfl
    rw [h, ih, putZoneArb_za]
    by_cases hy : y = z
    · subst hy; simp
    · simp [Quad.get_set_ne _ _ hy, hy]

theorem putArb_frame (s : State) (zs : List ZoneId) (a : Arb) :
    s.putArb zs a = { s with za := (s.putArb zs a).za, lu := (s.putArb zs a).lu } :=
  foldl_rel (fun s t : State => t = { s with za := t.za, lu := t.lu }) (fun _ => rfl) (fun h k => by rw [h] at k; exact k) (fun s z => putZoneArb_frame s a z) zs s

@[simp] theorem putArb_clt (s : State) (zs : List ZoneId) (a : Arb) : (s.putArb zs a).clt = s.clt := by rw [putArb_frame]
@[simp] theorem putArb_sck (s : State) (zs : List ZoneId) (a : Arb) : (s.putArb zs a).sck = s.sck := by rw [putArb_frame]
@[simp] theorem putArb_rch (s : State) (zs : List ZoneId) (a : Arb) : (s.putArb zs a).rch = s.rch := by rw [putArb_frame]
@[simp] theorem putArb_audio (s : State) (zs : List ZoneId) (a : Arb) : (s.putArb zs a).audio = s.audio := by rw [putArb_frame]

theorem grant_frame (s : State) : s.grant = { s with sp := s.grant.sp } := by
  unfold State.grant
  repeat' split
  all_goals rfl

theorem attachZone_frame (s : State) (z : ZoneId) :
    s.attachZone z = { s with rch := (s.attachZone z).rch, sp := (s.attachZone z).sp } := by
  unfold State.attachZone State.bindChan
  repeat' split
  all_goals first | rfl | (rw [grant_frame]; rfl)

theorem attachZones_frame (s : State) (zs : List ZoneId) :
    zs.foldl State.attachZone s =
      { s with rch := (zs.foldl State.attachZone s).rch, sp := (zs.foldl State.attachZone s).sp } :=
  foldl_rel (fun s t : State => t = { s with rch := t.rch, sp := t.sp }) (fun _ => rfl) (fun h k => by rw [h] at k; exact k) (fun s z => attachZone_frame s z) zs s

theorem applyLevel_frame (s : State) (z : ZoneId) : s.applyLevel z = { s with lu := (s.applyLevel z).lu } := by
  unfold State.applyLevel
  split <;> rfl

theorem applyLevels_frame (s : State) (zs : List ZoneId) : s.applyLevels zs = { s with lu := (s.applyLevels zs).lu } :=
  foldl_rel (fun s t : State => t = { s with lu := t.lu }) (fun _ => rfl) (fun h k => by rw [h] at k; exact k) (fun s z => applyLevel_frame s z) zs s

theorem writeDisps_frame (s : State) (id : ClaimId) (zs : List ZoneId) (d : Disp) :
    s.writeDisps id zs d = { s with clt := (s.writeDisps id zs d).clt } :=
  foldl_rel (fun s t : State => t = { s with clt := t.clt }) (fun _ => rfl) (fun h k => by rw [h] at k; exact k) (fun s z => show s.writeDisp id z d = _ from rfl) zs s

/-- The claims passed over on the way, each MISSED, leave every zone as it is (R122). -/
theorem missAll_frame (s : State) (zs : List ZoneId) (ids : List ClaimId) :
    ids.foldl (fun s id => s.writeDisps id zs .missed) s =
      { s with clt := (ids.foldl (fun s id => s.writeDisps id zs .missed) s).clt } :=
  foldl_rel (fun s t : State => t = { s with clt := t.clt }) (fun _ => rfl) (fun h k => by rw [h] at k; exact k) (fun s z => writeDisps_frame s z zs .missed) ids s

/-- What entering a chosen state leaves in every zone (R113, R118). -/
theorem enter_za (s : State) (zs : List ZoneId) (r : Arb × List ClaimId) : (s.enter zs r).za = (s.putArb zs r.1).za := by
  unfold State.enter
  dsimp only
  rw [missAll_frame]
  split
  · rw [applyLevels_frame, attachZones_frame]
  · rfl

/-- What entering a chosen state writes in the claim table: the claims passed over are MISSED (R122). -/
theorem enter_clt (s : State) (zs : List ZoneId) (r : Arb × List ClaimId) :
    (s.enter zs r).clt = (r.2.foldl (fun s id => s.writeDisps id zs .missed) s).clt := by
  have h : ∀ (ids : List ClaimId) (s t : State), s.clt = t.clt →
      (ids.foldl (fun s id => s.writeDisps id zs .missed) s).clt = (ids.foldl (fun s id => s.writeDisps id zs .missed) t).clt := by
    have hw : ∀ (ws : List ZoneId) (s t : State) id, s.clt = t.clt → (s.writeDisps id ws .missed).clt = (t.writeDisps id ws .missed).clt := by
      intro ws
      induction ws with
      | nil => exact fun _ _ _ h => h
      | cons z ws ih =>
        intro s t id h
        have hz : (s.writeDisp id z .missed).clt = (t.writeDisp id z .missed).clt := by
          simp only [State.writeDisp, State.modEntry, State.setClt_clt, h]
        exact ih _ _ _ hz
    intro ids
    induction ids with
    | nil => exact fun _ _ h => h
    | cons i ids ih => exact fun s t h => ih _ _ (hw zs s t i h)
  have hp := h r.2 (s.putArb zs r.1) s (putArb_clt _ _ _)
  rw [← hp]
  unfold State.enter
  dsimp only
  split
  · rw [applyLevels_frame, attachZones_frame]
  · rfl

theorem enter_frame (s : State) (zs : List ZoneId) (r : Arb × List ClaimId) :
    s.enter zs r = { s with clt := (s.enter zs r).clt, za := (s.enter zs r).za, rch := (s.enter zs r).rch, sp := (s.enter zs r).sp,
                            lu := (s.enter zs r).lu } := by
  unfold State.enter
  dsimp only
  rw [missAll_frame]
  split
  · rw [applyLevels_frame, attachZones_frame, putArb_frame]
  · rw [putArb_frame]

/-! ### Leaving (R135) -/

theorem detachFrom_frame (s : State) (z : ZoneId) (c : ChanId) :
    s.detachFrom z c = { s with rch := (s.detachFrom z c).rch, sp := (s.detachFrom z c).sp } := by
  unfold State.detachFrom
  split
  · rfl
  · dsimp only
    split
    · split <;> rfl
    · rfl

theorem detachZone_frame (s : State) (z : ZoneId) :
    s.detachZone z = { s with rch := (s.detachZone z).rch, sp := (s.detachZone z).sp, audio := (s.detachZone z).audio } := by
  have h := foldl_rel (fun s t : State => t = { s with rch := t.rch, sp := t.sp }) (fun _ => rfl) (fun h k => by rw [h] at k; exact k)
    (fun s c => detachFrom_frame s z c) Idx4.all s
  unfold State.detachZone
  dsimp only
  rw [h]
  rfl

theorem detachZones_frame (s : State) (zs : List ZoneId) :
    s.detachZones zs = { s with rch := (s.detachZones zs).rch, sp := (s.detachZones zs).sp, audio := (s.detachZones zs).audio } :=
  foldl_rel (fun s t : State => t = { s with rch := t.rch, sp := t.sp, audio := t.audio }) (fun _ => rfl) (fun h k => by rw [h] at k; exact k) (fun s z => detachZone_frame s z) zs s

/-- What one channel holds after a zone is taken off it (R135). -/
theorem detachFrom_get (s : State) (z : ZoneId) (c d : ChanId) :
    (s.detachFrom z c).rch.get d =
      if d = c then (s.rch.get c).bind (fun ch =>
        if ch.attached.get z then (if anyAttached (ch.attached.set z false) then some { ch with attached := ch.attached.set z false } else none)
        else some ch)
      else s.rch.get d := by
  unfold State.detachFrom
  cases hc : s.rch.get c with
  | none =>
    by_cases hd : d = c
    · subst hd; simp [hc]
    · simp [hd]
  | some ch =>
    by_cases ha : ch.attached.get z = true
    · by_cases hn : anyAttached (ch.attached.set z false) = true
      · by_cases hd : d = c
        · subst hd; simp [ha, hn, State.setChan]
        · simp [ha, hn, State.setChan, Quad.get_set_ne _ _ hd, hd]
      · by_cases hd : d = c
        · subst hd; simp [ha, hn, State.setChan, State.freeChannel]
        · simp [ha, hn, State.setChan, State.freeChannel, Quad.get_set_ne _ _ hd, hd]
    · by_cases hd : d = c
      · subst hd; simp [ha, hc]
      · simp [ha, hd]

/-! ### What a zone turns to (R113, R119, R122) -/

/-- When a claim can still begin (R113). -/
theorem tooLate_eq_false (n : Held) (now : Nat) :
    n.tooLate now = false ↔ (n.sync = .joint → now ≤ n.start) ∧ (n.sync = .loose → ∀ l, n.latest = some l → now ≤ l) := by
  unfold Held.tooLate
  cases n.sync <;> simp
  cases n.latest <;> simp

/-- When a waiter that a zone turns to can still begin (R119; log 61). -/
theorem waitedOut_eq_false (n : Held) (now : Nat) :
    n.waitedOut now = false ↔ (n.sync = .joint → now ≤ n.start) ∧ (n.sync = .loose → ∀ l, n.latest = some l → now ≤ l + 1) := by
  unfold Held.waitedOut Held.tooLate
  cases n.sync <;> simp
  cases n.latest <;> simp

/-- What the walk over a wait list answers: the claims passed over can no longer begin, the one taken can (R122). -/
theorem takeFirst_cases (now : Nat) (w : List Held) : ∃ miss rest, w = miss ++ rest ∧ (∀ m ∈ miss, m.waitedOut now = true) ∧
    (rest = [] → takeFirst now w = (miss.map (·.id), none)) ∧
    ∀ n r, rest = n :: r → n.waitedOut now = false ∧ takeFirst now w = (miss.map (·.id), some (n, r)) := by
  induction w with
  | nil => exact ⟨[], [], by simp [takeFirst]⟩
  | cons x w ih =>
    obtain ⟨miss, rest, h1, h2, h3, h4⟩ := ih
    by_cases hx : x.waitedOut now = true
    · exact ⟨x :: miss, rest, by simp [h1], by simpa [hx] using h2, fun h => by simp [takeFirst, hx, h3 h],
        fun n r h => by simp [takeFirst, hx, h4 n r h]⟩
    · refine ⟨[], x :: w, by simp, by simp, by simp, ?_⟩
      rintro n r ⟨⟩
      simp at hx
      simp [takeFirst, hx]

/-! ### A stop (R121, R122) -/

theorem markReform_arb (s : State) (z y : ZoneId) : ((s.markReform z).za.get y).arb = (s.za.get y).arb := by
  unfold State.markReform
  dsimp only
  split
  · by_cases h : y = z.partner
    · subst h; simp [State.modZone]
    · simp [State.modZone, Quad.get_set_ne _ _ h]
  · rfl

theorem markReform_frame (s : State) (z : ZoneId) : s.markReform z = { s with za := (s.markReform z).za } := by
  unfold State.markReform
  dsimp only
  split <;> rfl

theorem markReforms_arb (s : State) (zs : List ZoneId) (y : ZoneId) : ((zs.foldl State.markReform s).za.get y).arb = (s.za.get y).arb := by
  induction zs generalizing s with
  | nil => rfl
  | cons z zs ih => rw [List.foldl_cons, ih, markReform_arb]

theorem markReforms_frame (s : State) (zs : List ZoneId) :
    zs.foldl State.markReform s = { s with za := (zs.foldl State.markReform s).za } :=
  foldl_rel (fun s t : State => t = { s with za := t.za }) (fun _ => rfl) (fun h k => by rw [h] at k; exact k) (fun s z => markReform_frame s z) zs s

/-- What a unit holds when it has chosen what follows, and what every other zone keeps (R122). -/
theorem chooseNext_arb (s : State) (zs : List ZoneId) (a : Arb) (y : ZoneId) :
    ((s.chooseNext zs a).za.get y).arb = if y ∈ zs then (a.choose s.now).1 else (s.za.get y).arb := by
  unfold State.chooseNext
  rw [markReforms_arb, enter_za, putArb_get]
  split <;> rfl

theorem chooseNext_clt (s : State) (zs : List ZoneId) (a : Arb) :
    (s.chooseNext zs a).clt = ((a.choose s.now).2.foldl (fun s id => s.writeDisps id zs .missed) s).clt := by
  unfold State.chooseNext
  rw [markReforms_frame]
  exact enter_clt _ _ _

/-- What a unit holds after its current claim stops (R121, R122). -/
theorem stopUnit_arb (s : State) (z y : ZoneId) (cause : StopCause) (h : Held) (hc : (s.za.get z).arb.current = some h) :
    ((s.stopUnit z cause).za.get y).arb = if y ∈ s.unit z then ((s.za.get z).arb.choose s.now).1 else (s.za.get y).arb := by
  unfold State.stopUnit
  simp only [hc]
  rw [chooseNext_arb]
  have hd := detachZones_frame s (s.unit z)
  have hn : ((s.detachZones (s.unit z)).writeDisps h.id (s.unit z) (s.stopDisp z (s.za.get z).arb cause)).now = s.now := by
    rw [State.now, writeDisps_sck, hd]; rfl
  have hz : ((s.detachZones (s.unit z)).writeDisps h.id (s.unit z) (s.stopDisp z (s.za.get z).arb cause)).za = s.za := by
    rw [writeDisps_za, hd]
  rw [hn, hz]

end Sys2Proof.Machine
end

