-- ==== Sys2Proof/Laws/Commands.lean ====
section
/-!
SUPPORT. How the commands that are frames reach their owners, said once: the tests of reception look at nothing that the end of the frame changes, and
a call frame that is taken is acted on; a report of one item that fits is one frame; every command completes.
-/

namespace Sys2Proof.Machine

open Sys2Proof

/-- The end of a frame changes nothing that the tests of reception look at (R163). -/
theorem hears_frameEnd (s : State) (kind : Nat) (f : RxFrame) : s.frameEnd.hears kind f = s.hears kind f := rfl

theorem frameEnd_eq (s : State) : s.frameEnd = { s with lc := { s.lc with rx := false } } := rfl

/-- A call frame that is taken is acted on in the state its end leaves (R9). -/
theorem callFrame_taken {kind : Nat} {f : RxFrame} {s : State} (h : CallFrameTaken kind f s) (act : State → State) :
    s.callFrame kind f act = act s.frameEnd := by
  have h1 : s.frameEnd.hears kind f = true := h.heard
  have h2 : s.frameEnd.fromUs f = false := h.peer
  have h3 : s.frameEnd.sul.mode = .running := h.running
  simp [State.callFrame, h1, h2, h3]

/-- A call frame that fails a test of reception, or is the node's own, does nothing but end (R9, R163). -/
theorem callFrame_discarded {kind : Nat} {f : RxFrame} {s : State} (h : s.hears kind f = false ∨ s.fromUs f = true) (act : State → State) :
    s.callFrame kind f act = s.frameEnd := by
  have h' : s.frameEnd.hears kind f = false ∨ s.frameEnd.fromUs f = true := h
  unfold State.callFrame
  rcases h' with h1 | h1 <;> simp [h1]

/-- An item that fits in one frame's content makes a report of one frame, nothing left out (R173). -/
theorem packItems_single {cap : Nat} {b : List Byte} (h : b.length ≤ cap) : packItems cap [b] = ([b], 0) := by
  have hp : pieces cap b.length b = [b] := by
    cases hn : b.length with
    | zero => rfl
    | succ n => simp [pieces, h]
  simp [packItems, packItem, placeItem, hp]

/-- The item of a report on a key not held fits in one frame (R18). -/
theorem itemBytes_notHeld_length (key : Nat) : (itemBytes (.callNotHeld key)).length ≤ contentCap .call := by
  simp [itemBytes]

/-- Every command completes: none faults and none is refused. -/
theorem exec_next (c : Instr) (s : State) : ∃ t, exec c s = .next t := by
  cases c <;> exact ⟨_, rfl⟩

end Sys2Proof.Machine
end

