-- ==== Sys2Proof/Laws/PerInstr.lean ====
section
/-!
SUPPORT. For each command, that a well-formed one which carries a frame carries one that R162 admits.
-/

namespace Sys2Proof.Laws.WfFrame

open Sys2Proof

/-- A well-formed command that carries a frame carries a well-formed one (R162, R176). -/
def Statement (i : Instr) : Prop := ∀ f, i.frame? = some f → i.wf = true → f.wf = true

/-- A command that carries no frame. -/
theorem of_none {i : Instr} (h : i.frame? = none) : Statement i := fun _ hf => by rw [h] at hf; cases hf

/-- A command whose well-formedness is that of the frame it carries. -/
theorem of_some {i : Instr} {f : RxFrame} (h : i.frame? = some f) (w : i.wf = f.wf) : Statement i := fun g hg hw => by
  rw [h] at hg; cases hg; rw [← w]; exact hw

theorem reset : Statement .reset := of_none rfl

theorem leaveReset (strap : BitVec 6) : Statement (.leaveReset strap) := of_none rfl

theorem headerReadDone (bytes : List Byte) : Statement (.headerReadDone bytes) := of_none rfl

theorem configReadDone (bytes : List Byte) : Statement (.configReadDone bytes) := of_none rfl

theorem secondBoundary : Statement .secondBoundary := of_none rfl

theorem clock (f : RxFrame) : Statement (.clock f) := of_some rfl rfl

theorem callset (f : RxFrame) : Statement (.callset f) := of_some rfl rfl

theorem callamend (f : RxFrame) : Statement (.callamend f) := of_some rfl rfl

theorem callplan (f : RxFrame) : Statement (.callplan f) := of_some rfl rfl

theorem calldrop (f : RxFrame) : Statement (.calldrop f) := of_some rfl rfl

theorem trigger (f : RxFrame) : Statement (.trigger f) := of_some rfl rfl

theorem handoff (f : RxFrame) : Statement (.handoff f) := of_some rfl rfl

theorem answer (f : RxFrame) : Statement (.answer f) := of_some rfl rfl

theorem handoffTimeout (key : Nat) : Statement (.handoffTimeout key) := of_none rfl

theorem query (f : RxFrame) (maint : Bool) : Statement (.query f maint) := of_some rfl rfl

theorem report (f : RxFrame) : Statement (.report f) := of_some rfl rfl

theorem zattr (f : RxFrame) (maint : Bool) : Statement (.zattr f maint) := of_some rfl rfl

theorem claim (f : RxFrame) : Statement (.claim f) := of_some rfl rfl

theorem cede (f : RxFrame) : Statement (.cede f) := of_some rfl rfl

theorem zstat (f : RxFrame) : Statement (.zstat f) := of_some rfl rfl

theorem frameRejected (bytes : List Byte) (truncated : Bool) : Statement (.frameRejected bytes truncated) := of_none rfl

theorem occChange (p : PlatId) : Statement (.occChange p) := of_none rfl

theorem debounceWaitExpiry (p : PlatId) : Statement (.debounceWaitExpiry p) := of_none rfl

theorem doorsRise (p : PlatId) : Statement (.doorsRise p) := of_none rfl

theorem doorsFall (p : PlatId) : Statement (.doorsFall p) := of_none rfl

theorem approachRise (p : PlatId) : Statement (.approachRise p) := of_none rfl

theorem approachFall (p : PlatId) : Statement (.approachFall p) := of_none rfl

theorem evacRise : Statement .evacRise := of_none rfl

theorem evacTimerExpiry : Statement .evacTimerExpiry := of_none rfl

theorem evacFall : Statement .evacFall := of_none rfl

theorem ampFaultRise (z : ZoneId) : Statement (.ampFaultRise z) := of_none rfl

theorem ampFaultFall (z : ZoneId) : Statement (.ampFaultFall z) := of_none rfl

theorem compose : Statement .compose := of_none rfl

theorem swap (key : Nat) : Statement (.swap key) := of_none rfl

theorem callRemoval (key : Nat) : Statement (.callRemoval key) := of_none rfl

theorem entryRemoval (id : ClaimId) : Statement (.entryRemoval id) := of_none rfl

theorem coverageWindowClose (id : ClaimId) : Statement (.coverageWindowClose id) := of_none rfl

theorem startInstant (z : ZoneId) : Statement (.startInstant z) := of_none rfl

theorem stopInstant (z : ZoneId) : Statement (.stopInstant z) := of_none rfl

theorem jointWaiterStart (z : ZoneId) (id : ClaimId) : Statement (.jointWaiterStart z id) := of_none rfl

theorem looseWaiterExpiry (z : ZoneId) (id : ClaimId) : Statement (.looseWaiterExpiry z id) := of_none rfl

theorem nextClaimExpiry (z : ZoneId) : Statement (.nextClaimExpiry z) := of_none rfl

theorem phraseBoundary (c : ChanId) : Statement (.phraseBoundary c) := of_none rfl

theorem storeReadComplete (bytes : List Byte) : Statement (.storeReadComplete bytes) := of_none rfl

theorem hangoverExpiry (z : ZoneId) : Statement (.hangoverExpiry z) := of_none rfl

theorem trackerWindowComplete (z : ZoneId) : Statement (.trackerWindowComplete z) := of_none rfl

theorem stagedAttrApply (z : ZoneId) : Statement (.stagedAttrApply z) := of_none rfl

theorem pairReform (z : ZoneId) : Statement (.pairReform z) := of_none rfl

theorem attemptStart (idle : Nat) : Statement (.attemptStart idle) := of_none rfl

theorem delimiterHeard (idle : Nat) : Statement (.delimiterHeard idle) := of_none rfl

theorem frameSent : Statement .frameSent := of_none rfl

theorem collision (bit : Nat) : Statement (.collision bit) := of_none rfl

theorem samplingInstant (vref : Nat) (envelope : Quad Nat) : Statement (.samplingInstant vref envelope) := of_none rfl

theorem sampleDue (c : ChanId) : Statement (.sampleDue c) := of_none rfl

end Sys2Proof.Laws.WfFrame
end

