-- ==== Sys2Proof/Tests/Slice0.lean ====
section
/-!
SUPPORT. Tests: the checks of WellFormed refuse what they should, one step of each command gives what its rule says, and every statement's
hypotheses are met. Expected values are worked out by hand from the rules named.
-/

namespace Sys2Proof.Tests

open Sys2Proof Sys2Proof.Machine

-- A kernel decision waits for every theorem before it: one after the other, they do not hold a thread each.
set_option Elab.async false

/-! ### WellFormed refuses -/

theorem smoke_header : Instr.wf (.headerReadDone [0, 2]) = false := by decide
theorem smoke_config : Instr.wf (.configReadDone []) = false := by decide
theorem smoke_frame_source : Instr.wf (.clock ⟨0, 0, []⟩) = false := by decide
theorem smoke_frame_length : Instr.wf (.callset ⟨60, 0, List.replicate 161 0⟩) = false := by decide +kernel
theorem smoke_key_low : Instr.wf (.handoffTimeout 0) = false := by decide
theorem smoke_key_high : Instr.wf (.swap 65536) = false := by decide
theorem smoke_key_removal : Instr.wf (.callRemoval 0) = false := by decide
theorem smoke_id_origin : Instr.wf (.entryRemoval ⟨49, 0⟩) = false := by decide
theorem smoke_id_zero : Instr.wf (.coverageWindowClose ⟨0, 0⟩) = false := by decide
theorem smoke_id_seq : Instr.wf (.jointWaiterStart .i0 ⟨1, 256⟩) = false := by decide
theorem smoke_id_waiter : Instr.wf (.looseWaiterExpiry .i0 ⟨0, 1⟩) = false := by decide
theorem smoke_block_odd : Instr.wf (.storeReadComplete [0]) = false := by decide
theorem smoke_block_long : Instr.wf (.storeReadComplete (List.replicate 258 0)) = false := by decide +kernel
theorem smoke_bit : Instr.wf (.collision 1336) = false := by decide

/-! ### States and frames to test on -/

/-- What the command leaves. -/
def nx (c : Instr) (s : State) : State :=
  match exec c s with
  | .next t => t
  | _ => s

/-- A frame from a console, station 60, to node 7. -/
def fr (b : List Byte) : RxFrame := ⟨60, 7, b⟩

/-- A frame from node 9 to all nodes. -/
def frAll (b : List Byte) : RxFrame := ⟨9, 0, b⟩

def aRow : AccRow := ⟨.accept, .accept, .accept, .accept, .quiet, .accept, .accept, .refuse⟩

def aZone (p : Option PairState) : Zone :=
  { Zone.init false with arb := Arb.bare .idle, row := aRow, base := 90, floor := 60, service := true, pair := p }

/-- Node 7 in RUNNING: zones 0 and 1 a WHOLE pair, platforms 11 and 12, group 0 the node's four zones, group 1 zone 2 and zone 0 of node 9, a directory
of one phrase of 2 samples; node 9 serves platform 14. -/
def run : State :=
  { State.reset with
    sul := { Sul.init with resetHeld := false, mode := .running, strap := 7, phase := .over, outcome := some .good },
    za := ⟨aZone (some .whole), aZone (some .whole), aZone none, aZone none⟩,
    pm := ⟨{ Plat.init false false false with stationNo := 11 }, { Plat.init false false false with stationNo := 12 }⟩,
    cmp := { Cmp.init with templates := [[.phrase 1, .dest]] },
    cfg := { Cfg.init with
      evacPeriod := 10, debounceMs := 2000, targetSets := [1, 2], groupMap := [15 * 2 ^ 24, 4 * 2 ^ 24 + 2 ^ 32],
      directory := [some { addr := 20359, len := 2 }],
      platformMap := [(0, 0), (0, 0), (0, 0), (0, 0), (0, 0), (0, 0), (11, 12), (0, 0), (14, 0)] } }

def fault : State := { run with sul := { run.sul with mode := .storeFault, outcome := some .sum } }

def listen : State := { run with sul := { run.sul with mode := .listenOnly, strap := 55 } }

def aSpec (m : StepMode) : StepSpec :=
  { mode := m, ref := .dep, offset := 20, period := 60, windowEnd := 0, gate := false, limit := 0, cls := 2, sync := .loose, template := 0,
    target := 0, retry := true }

def aStep (m : StepMode) (t : StepTimer) : Step := { spec := aSpec m, timer := t }

/-- A departure at 28,800 s from platform 11, with one step. -/
def aCall (st : CallState) (m : StepMode) (t : StepTimer) : Call :=
  { key := 5, kind := .departure, platform := .p0, schArr := none, schDep := some 28800, expArr := none, expDep := some 28800, dest := some 3,
    origin := none, coaches := some 8, points := [], changed := false, steps := [aStep m t], state := st, staged := none,
    handoffFailed := false, handoff := none }

def withCall (c : Call) : State := { run with ct := [c] }

def waiting : State := withCall (aCall .waiting .manual .fresh)

/-- The call stands BOUND at platform 11, which is occupied. -/
def boundTo (c : Call) : State :=
  { run with ct := [c], pm := run.pm.set .p0 { run.pm.d0 with occ := true, accOcc := true, state := .occupied, bound := some 5 } }

def aHandoff (ph : HandoffPhase) (t : Option Nat) : HandoffCtx :=
  { server := 9, newPlatform := 14, prePlatform := .p0, preChanged := false, phase := ph, timer := t }

def handing (ph : HandoffPhase) (t : Option Nat) : State :=
  { run with
    ct := [{ aCall .handingOff .manual .fresh with changed := true, handoff := some (aHandoff ph t) }],
    pm := run.pm.set .p0 { run.pm.d0 with state := .occupied, hold := some 5 } }

def aHeld (cls : Nat) (sync : Sync) (seq start : Nat) : Held :=
  { id := ⟨9, seq⟩, cls := cls, sync := sync, start := start, latest := if sync = .joint then none else some (start + 5), arrival := 0, phrases := [1] }

def aRecv (seq cls : Nat) : Entry :=
  { id := ⟨9, seq⟩, cls := cls, sync := .loose, groups := 2, phrases := [1], call := none, missing := false, truncated := false, localOnly := false,
    start := some 0, latest := some 5, plannedEnd := some 0, disp := ⟨.notTarget, .notTarget, .pending, .notTarget⟩, zstat := .pending,
    settled := false, origin := none }

def aPart (send : SendState) : OriginPart :=
  { send := send, lines := [{ node := 9, outcome := .missed, retryZones := ⟨true, false, false, false⟩ }], windowEnd := some 0, windowOpen := true,
    retryUsed := false, isRetry := false, noRetry := false, ceded := false, cutNow := false }

def aOwn (send : SendState) : Entry := { aRecv 0 2 with id := ⟨7, 0⟩, call := some (5, 0), zstat := .notNeeded, origin := some (aPart send) }

def aClaim : ClaimFrame :=
  { seq := 0, cls := 2, sync := .loose, missing := false, truncated := false, groups := 2, offset10 := 0, window := some 5, call := none,
    phrases := [1] }

def aTx (b : TxBody) (uw : Bool) : TxFrame := { body := b, dst := 0, tier := b.tier, queuedAt := 0, fails := 0, underWay := uw, takeBack := false }

def aChan : Chan :=
  { claim := ⟨9, 1⟩, bind16 := 0, phrases := [1], cursor := some 0, pos := 0, delivered := 0, attached := ⟨false, false, true, false⟩, slots := [],
    unread := some (0, 0), request := false, tone := false }

/-- Zone 2 with an arbiter of its own. -/
def zone2 (a : Arb) : State := { run with za := run.za.set .i2 { aZone none with arb := a }, clt := [aRecv 1 4, aRecv 2 2] }

def playArb (st : ZoneState) : Arb := { Arb.bare st with current := some (aHeld 4 .loose 1 0) }

/-- Zone 2 plays the claim (9, 1) on channel 0. -/
def playing : State := { zone2 (playArb .playing) with rch := ⟨some aChan, none, none, none⟩ }

def cutArb : Arb := { playArb .cutting with next := some (aHeld 2 .loose 2 0), phraseEnd := true }

def anOrig (src : OrigSource) : Orig :=
  { source := src, cls := 2, sync := .loose, template := 0, target := .set 1, call := some (5, 0), queuedAt := 0, own := true }

def callsetBytes : List Byte := [0, 5, 1, 11, 255, 255, 255, 0, 112, 128, 0, 3, 0, 0, 8, 0]
def amendBytes : List Byte := [0, 5, 4, 255, 255, 255, 255, 255, 255, 0, 4, 0]
def planBytes : List Byte := [0, 5, 0, 1, 0, 12, 0, 0, 0, 60, 0, 0, 0, 2, 0, 0]
def handoffBody : List Byte := [0, 5, 1, 11, 255, 255, 255, 0, 112, 128, 255, 255, 255, 0, 112, 128, 0, 3, 0, 0, 8, 0, 0]
def claimBody : List Byte := [0, 10, 0, 0, 0, 2, 0, 0, 5, 0, 0, 255, 1, 0, 1]

/-- A live call with one step, the clock SET at a time. -/
def live (p : StepSpec) (t : StepTimer) (st : CallState) (time : Nat) : State :=
  { run with
    ct := [{ aCall st .manual t with steps := [{ spec := p, timer := t }] }],
    sck := { run.sck with isSet := true, time := time, secMs := 1000 } }

/-- A step timer in a state with seconds remaining. -/
def timer (x : StepState) (r : Option Nat) : StepTimer := { StepTimer.fresh with state := x, remaining := r }

/-- An EVERY step whose window is 28,800 to 28,900 s. -/
def window (gate : Bool) : StepSpec := { aSpec .every with offset := 0, windowEnd := 100, gate := gate, limit := 3 }

/-! ### One step of each command -/

/-- R178, R38: the queues are empty, the mode is LOADING, and the level of EVAC stands. -/
theorem test_reset : let t := nx .reset { waiting with pins := { evac := true, maint := false } }
    t.ct = [] ∧ t.sul.mode = .loading ∧ t.pins.evac = true := by decide +kernel

/-- R179: 55 gives no number and shadows section 7. -/
theorem test_leave_reset : let t := nx (.leaveReset 55) State.reset
    t.nodeNo = none ∧ t.sectionNo = 7 ∧ t.sul.resetHeld = false := by decide +kernel

/-- R177, R182: format 2 and length 20,359 pass, and the sum is noted. -/
theorem test_header : let t := nx (.headerReadDone [0, 2, 18, 52, 0, 0, 79, 135]) (nx (.leaveReset 7) State.reset)
    t.sul.phase = .config ∧ t.sul.headerSum = 0x1234 := by decide +kernel

/-- R182: a length one short is LENGTH, and the node enters STORE_FAULT. -/
theorem test_header_length : let t := nx (.headerReadDone [0, 2, 18, 52, 0, 0, 79, 134]) (nx (.leaveReset 7) State.reset)
    t.sul.mode = .storeFault ∧ t.sul.outcome = some .length := by decide +kernel

/-- R181: bytes join the area and their sum. -/
theorem test_config : let s := nx (.headerReadDone [0, 2, 0, 0, 0, 0, 79, 135]) (nx (.leaveReset 7) State.reset)
    let t := nx (.configReadDone [255, 2]) s
    t.sul.sum = 257 ∧ t.sul.image = [255, 2] ∧ t.sul.mode = .loading := by decide +kernel

/-- R180, R181: bytes 24 to 34 of the section are zone 2's; a slope of 27 is 8, a spill of 30 is 20, and 0x2021 says REFUSE of classes 2 and 6 and QUIET
of class 0. -/
theorem test_zone_bytes : let sec := (List.range 74).map (fun n => BitVec.ofNat 8 n)
    let z := loadZone (zoneBytes sec .i2) .i2 false false false
    (z.base, z.floor, z.neighbours) = (24, 25, ⟨false, true, false, false⟩) ∧
    (List.range 8).map z.row.code = [.quiet, .accept, .refuse, .accept, .accept, .accept, .refuse, .accept] ∧
    (loadLu sec).zones.get .i2 = { LuZone.init with k := 31, initK := 31, q := 26, slope := 8, cmax := 28, dnight := 29, dspill := 20 } := by
  decide +kernel

/-- R65: with its reference time absent a step at its repeat limit is DONE, and one below it IDLE. -/
theorem test_replan_limit : let s := fun n => live { window false with ref := .arr } { timer .counting (some 9) with fires := n } .waiting 28850
    [2, 3].map (fun n => (((s n).replanStep 5 0).findStep 5 0).map (fun st => (st.timer.state, st.timer.remaining))) =
      [some (.idle, none), some (.done, none)] := by decide +kernel

/-- R119: at the first instant after its latest start, 5, a LOOSE waiter begins where the zone turns to it first, and is gone where its expiry is taken
first; an instant later it is MISSED by the turn. -/
theorem test_loose_waiter_at_the_tie : let h := aHeld 4 .loose 2 0
    let s := fun now => { zone2 { cutArb with next := some (aHeld 2 .joint 3 0), stopAt := some 0, wait := [h] } with sck := { run.sck with running := now } }
    [6, 7].map (fun now => ((nx (.stopInstant .i2) (s now)).za.get .i2).arb.current) = [some h, none] ∧
    ((nx (.looseWaiterExpiry .i2 ⟨9, 2⟩) (s 6)).za.get .i2).arb.wait = [] ∧
    ((nx (.stopInstant .i2) (nx (.looseWaiterExpiry .i2 ⟨9, 2⟩) (s 6))).za.get .i2).arb.state = .idle := by decide +kernel

/-- R6: a SET clock advances, and holds at 107,999. -/
theorem test_second : (nx .secondBoundary { run with sck := { run.sck with isSet := true, time := 107998, secMs := 1000 } }).sck.time = 107999 ∧
    (nx .secondBoundary { run with sck := { run.sck with isSet := true, time := 107999, secMs := 1000 } }).sck.time = 107999 := by decide +kernel

/-- R7: a CLOCK that sets 28,800. -/
theorem test_clock : let t := nx (.clock (fr [0, 0, 112, 128])) run
    t.sck.time = 28800 ∧ t.sck.isSet = true := by decide +kernel

/-- R11, R12: the call is installed WAITING, and the answer is DONE to the source. -/
theorem test_callset : let t := nx (.callset (fr callsetBytes)) run
    (t.findCall 5).map (fun c => (c.state, c.expDep, c.coaches)) = some (.waiting, some 28800, some 8) ∧
    t.lc.tx.map (fun f => (f.body, f.dst, f.tier)) = [(.answer 4 5 .done, 60, 3)] := by decide +kernel

/-- R11: a platform of another node is NOT_OWNER before any other test. -/
theorem test_callset_owner : let t := nx (.callset (fr (callsetBytes.set 3 14))) run
    t.ct = [] ∧ t.lc.tx.map (·.body) = [.answer 4 5 .notOwner] := by decide +kernel

/-- R56, R58: coaches are staged, not applied. -/
theorem test_callamend : let t := nx (.callamend (fr amendBytes)) waiting
    (t.findCall 5).map (fun c => (c.coaches, c.staged.bind (·.coaches))) = some (some 8, some 4) ∧
    t.lc.tx.map (·.body) = [.answer 5 5 .staged] := by decide +kernel

/-- R57: a REPLACE is staged. -/
theorem test_callplan : let t := nx (.callplan (fr planBytes)) waiting
    (t.findCall 5).bind (fun c => c.staged.bind (·.plan)) =
      some (.replace [{ aSpec .manual with offset := 0, sync := .joint, retry := false }]) := by decide +kernel

/-- R13, R37: the call is DROPPING and its steps stop. -/
theorem test_calldrop : let t := nx (.calldrop (fr [0, 5])) waiting
    (t.findCall 5).map (fun c => (c.state, c.steps.map (·.timer.state))) = some (.dropping, [.done]) := by decide +kernel

/-- R33: a MANUAL step is FIRED and its origination queued. -/
theorem test_trigger : let t := nx (.trigger (fr [0, 5, 0])) waiting
    (t.findStep 5 0).map (·.timer.state) = some .fired ∧ t.cmp.queue.map (·.source) = [.step 5 0] := by decide +kernel

/-- R70: the platform changed flag of a call taken over is set. -/
theorem test_handoff : let t := nx (.handoff ⟨9, 7, handoffBody⟩) run
    (t.findCall 5).map (fun c => (c.changed, c.state)) = some (true, .waiting) ∧ t.lc.tx.map (·.dst) = [9] := by decide +kernel

/-- R71: DONE settles, BUSY reverts. -/
theorem test_answer : ((nx (.answer ⟨9, 7, [9, 0, 5, 0]⟩) (handing .awaiting none)).findCall 5).map (·.awaitsRemoval) = some true ∧
    ((nx (.answer ⟨9, 7, [9, 0, 5, 8]⟩) (handing .awaiting none)).findCall 5).map (fun c => (c.state, c.handoffFailed)) = some (.bound, true) := by
  decide +kernel

/-- R69, R50: the timer's end reverts, and the platform's hold returns the binding. -/
theorem test_handoff_timeout : let t := nx (.handoffTimeout 5) (handing .awaiting (some 0))
    (t.pm.get .p0).bound = some 5 ∧ (t.pm.get .p0).hold = none := by decide +kernel

/-- R173, R185: QUERY NODE reads MAINT, and the buffer holds. -/
theorem test_query : let t := nx (.query (fr [1, 0, 0]) true) run
    t.lc.report.map (fun r => (r.kind, r.source, r.index)) = some (.zones, 60, 1) ∧ t.pins.maint = false := by decide +kernel

/-- R164: a REPORT changes nothing but the receive buffer. -/
theorem test_report : (nx (.report (fr [0, 17, 0])) { run with lc := { run.lc with rx := true } }).lc.rx = false := by decide +kernel

/-- R185: MAINT low is LOCKED; high, the attributes of an IDLE zone are applied at once. -/
theorem test_zattr : (nx (.zattr (fr [2, 0, 0, 80, 50, 1]) false) run).lc.tx.map (·.body) = [.answer 13 2 .locked] ∧
    ((nx (.zattr (fr [2, 0, 0, 80, 50, 1]) true) run).za.get .i2).base = 80 := by decide +kernel

/-- R93, R96, R112: a CLAIM for group 1 plays in zone 2 at once, on channel 0. -/
theorem test_claim : let t := nx (.claim (frAll claimBody)) run
    (t.za.get .i2).arb.state = .playing ∧ (t.rch.get .i0).map (·.claim) = some ⟨9, 0⟩ ∧
    (t.findEntry ⟨9, 0⟩).map (fun e => (e.disp, e.latest)) = some (⟨.notTarget, .notTarget, .pending, .notTarget⟩, some 5000) := by
  decide +kernel

/-- R97, R121: the claim evicted while it plays with a withdrawal pending is WITHDRAWN, and its ZSTAT says so. -/
theorem test_claim_evicts : let s := { playing with
      za := run.za.set .i2 { aZone none with arb := { playArb .playing with wdPending := true } },
      clt := aRecv 1 4 :: (List.range 15).map (fun i => { aRecv (i + 2) 3 with settled := true, zstat := .sent }) }
    let t := nx (.claim (frAll claimBody)) s
    t.findEntry ⟨9, 1⟩ = none ∧ (t.za.get .i2).arb.current.map (·.id) = some ⟨9, 0⟩ ∧
    t.lc.tx.map (·.body) = [.zstat ⟨9, 1⟩ [(.i2, .withdrawn)]] := by decide +kernel

/-- R99: the origin withdraws with cut-now, and the zone is IDLE and its channel FREE; another source does not. -/
theorem test_cede : ((nx (.cede (frAll [9, 1, 1])) playing).za.get .i2).arb.state = .idle ∧
    (nx (.cede (frAll [9, 1, 1])) playing).rch.get .i0 = none ∧
    ((nx (.cede ⟨8, 0, [9, 1, 1]⟩) playing).za.get .i2).arb.state = .playing := by decide +kernel

/-- R102: one zone PLAYED of two is PARTIAL, and the zone PREEMPTED is a retry zone. -/
theorem test_zstat : let t := nx (.zstat ⟨9, 7, [7, 0, 2, 16, 33]⟩) { run with clt := [aOwn .sent] }
    ((t.findEntry ⟨7, 0⟩).bind (·.origin)).map (·.lines) = some [{ node := 9, outcome := .partly, retryZones := ⟨false, true, false, false⟩ }] := by
  decide +kernel

/-- R163: a short frame is discarded. -/
theorem test_frame_rejected : (nx (.frameRejected [1, 2] false) { run with lc := { run.lc with rx := true } }).lc.rx = false := by decide +kernel

/-- R42: a level that differs from the accepted one waits the debounce time. -/
theorem test_occ_change : ((nx (.occChange .p0) run).pm.get .p0).wait = some 2000 := by decide +kernel

/-- R42: with a debounce time of 0 a change and its reversal at one instant leave no wait and no acceptance. -/
theorem test_debounce_zero : let s := { waiting with cfg := { run.cfg with debounceMs := 0 } }
    let t := nx (.debounceWaitExpiry .p0) (nx (.occChange .p0) (nx (.occChange .p0) s))
    t = s ∧ ((nx (.debounceWaitExpiry .p0) (nx (.occChange .p0) s)).pm.get .p0).accOcc = true := by decide +kernel

/-- R43, R45, R46: the accepted rise binds the waiting call. -/
theorem test_debounce : let s := { waiting with pm := run.pm.set .p0 { run.pm.d0 with occ := true, wait := some 0 } }
    let t := nx (.debounceWaitExpiry .p0) s
    (t.pm.get .p0).bound = some 5 ∧ (t.findCall 5).map (·.state) = some .bound := by decide +kernel

/-- R28, R44: the edge counts the delay of 20 s. -/
theorem test_doors_rise : let t := nx (.doorsRise .p0) (boundTo (aCall .bound .onDispatch .fresh))
    (t.pm.get .p0).state = .dispatch ∧ (t.findStep 5 0).map (·.timer.remaining) = some (some 20) := by decide +kernel

/-- R43. -/
theorem test_doors_fall : let s := { run with pm := run.pm.set .p0 { run.pm.d0 with doors := true, state := .dispatch } }
    ((nx (.doorsFall .p0) s).pm.get .p0).state = .occupied := by decide +kernel

/-- R52: the warning's origination has class 1. -/
theorem test_approach_rise : (nx (.approachRise .p1) run).cmp.queue.map (fun o => (o.source, o.cls)) = [(.approach .p1, 1)] := by decide +kernel

/-- R43. -/
theorem test_approach_fall : let s := { run with pm := run.pm.set .p0 { run.pm.d0 with approach := true } }
    ((nx (.approachFall .p0) s).pm.get .p0).approach = false := by decide +kernel

/-- R38: the timer takes the period, and one class 0 origination is queued. -/
theorem test_evac_rise : let t := nx .evacRise run
    t.evac.timer = some 10000 ∧ t.cmp.queue.map (fun o => (o.source, o.cls)) = [(.evac, 0)] := by decide +kernel

/-- R38: while one is queued the repeat is busy; the timer is set again. -/
theorem test_evac_timer : let s := { nx .evacRise run with evac := { timer := some 0, lastClaim := none, level := true } }
    let t := nx .evacTimerExpiry s
    t.evac.timer = some 10000 ∧ t.cmp.queue.length = 1 := by decide +kernel

/-- R39: the fall removes the queued origination and stops the timer. -/
theorem test_evac_fall : let t := nx .evacFall (nx .evacRise run)
    t.cmp.queue = [] ∧ t.evac.timer = none := by decide +kernel

/-- R127, R135: the zone is in FAULT, its channel FREE, its claim's disposition FAULT. -/
theorem test_amp_rise : let t := nx (.ampFaultRise .i2) playing
    (t.za.get .i2).arb = Arb.bare .fault ∧ t.rch.get .i0 = none ∧ (t.findEntry ⟨9, 1⟩).map (fun e => e.disp.get .i2) = some .fault := by
  decide +kernel

/-- R125, R126: a fault breaks the pair; its end beside an IDLE partner makes it WHOLE again. -/
theorem test_amp_fall : (((nx (.ampFaultRise .i0) run)).za.get .i1).pair = some .broken ∧
    ((nx (.ampFaultFall .i0) (nx (.ampFaultRise .i0) run)).za.get .i1).pair = some .whole := by decide +kernel

/-- R78, R88, R89: the text is phrase 1 and the destination, the number is the first free one, the id is written back. -/
theorem test_compose : let t := nx .compose { waiting with cmp := { waiting.cmp with queue := [anOrig (.step 5 0)] } }
    (t.findEntry ⟨7, 0⟩).map (fun e => (e.phrases, e.groups)) = some ([1, 3], 2) ∧ t.cmp.seq = 1 ∧
    (t.findStep 5 0).map (·.timer.lastClaim) = some (some ⟨7, 0⟩) := by decide +kernel

/-- R81, R82, R85: an absent time or number of coaches sets no mark where the store has no base for it. -/
theorem test_slot_no_base : let c := { aCall .waiting .manual .fresh with coaches := none }
    let x : Context := { call := some c, ref := .dep, stationNo := 11 }
    slotText run.cmp.bases x .coaches = ([], false) ∧ slotText run.cmp.bases x .timeArr = ([], false) ∧
    slotText { run.cmp.bases with coaches := 1, minute := 1 } x .coaches = ([], true) ∧
    slotText { run.cmp.bases with coaches := 1, minute := 1 } x .timeArr = ([], true) := by decide +kernel

/-- R63: the swap applies the coaches and leaves no amendment. -/
theorem test_swap : let s := nx (.callamend (fr amendBytes)) waiting
    ((nx (.swap 5) s).findCall 5).map (fun c => (c.coaches, c.staged)) = some (some 4, none) := by decide +kernel

/-- R68: a platform of another node hands the call over. -/
theorem test_swap_handoff : let s := withCall { aCall .waiting .manual .fresh with staged := some { Amendment.empty with platform := some 14 } }
    let t := nx (.swap 5) s
    (t.findCall 5).map (·.state) = some .handingOff ∧ t.lc.tx.map (fun f => (f.dst, f.tier)) = [(9, 4)] := by decide +kernel

/-- R17. -/
theorem test_call_removal : (nx (.callRemoval 5) (withCall (aCall .dropping .manual .fresh))).ct = [] := by decide +kernel

/-- R106: an unsettled entry stays. -/
theorem test_entry_removal : (nx (.entryRemoval ⟨9, 1⟩) { run with clt := [{ aRecv 1 4 with settled := true, zstat := .sent }] }).clt = [] ∧
    (nx (.entryRemoval ⟨9, 1⟩) { run with clt := [{ aRecv 1 4 with zstat := .sent }] }).clt.length = 1 := by decide +kernel

/-- R104, R105: the retry goes to group 1, the only one that holds zone 0 of node 9. -/
theorem test_window_close : let t := nx (.coverageWindowClose ⟨7, 0⟩) { waiting with clt := [aOwn .sent] }
    t.cmp.queue.map (fun o => (o.source, o.target)) = [(.retry ⟨7, 0⟩, .groups 2)] := by decide +kernel

/-- R118, R155: quiet for class 4, the level is the floor of 60 and the multiplier 32,768 / 2^5. -/
theorem test_start_instant : let t := nx (.startInstant .i2) (zone2 (playArb .leadIn))
    (t.za.get .i2).arb.state = .playing ∧ (t.lu.zones.get .i2).level = 60 ∧ (t.lu.zones.get .i2).mult = 1024 := by decide +kernel

/-- R121, R122: the claim that played is PREEMPTED and the next one plays. -/
theorem test_stop_instant : let s := { zone2 { cutArb with stopAt := some 0 } with rch := ⟨some aChan, none, none, none⟩ }
    let t := nx (.stopInstant .i2) s
    (t.za.get .i2).arb.current.map (·.id) = some ⟨9, 2⟩ ∧ (t.findEntry ⟨9, 1⟩).map (fun e => e.disp.get .i2) = some .preempted := by
  decide +kernel

/-- R121, R138: a stop one sixteenth of a millisecond before the last boundary is PREEMPTED, at the boundary PLAYED. -/
theorem test_stop_before_end : let s := fun n => { zone2 { cutArb with stopAt := some 0 } with
      rch := ⟨some { aChan with bind16 := 14, pos := 2, delivered := 2 }, none, none, none⟩, sck := { run.sck with sub := n } }
    let d := fun n => ((nx (.stopInstant .i2) (s n)).findEntry ⟨9, 1⟩).map (fun e => e.disp.get .i2)
    d 15 = some .preempted ∧ ({ s 0 with sck := { run.sck with running := 1 } } : State).zoneDelivered .i2 = true := by decide +kernel

/-- R119: a JOINT waiter at its start instant is MISSED. -/
theorem test_joint_waiter : let t := nx (.jointWaiterStart .i2 ⟨9, 2⟩) (zone2 { playArb .playing with wait := [aHeld 5 .joint 2 0] })
    (t.za.get .i2).arb.wait = [] ∧ (t.findEntry ⟨9, 2⟩).map (fun e => e.disp.get .i2) = some .missed := by decide +kernel

/-- R119: a LOOSE waiter waits until its latest start has passed. -/
theorem test_loose_waiter : let s := zone2 { playArb .playing with wait := [aHeld 5 .loose 2 0] }
    ((nx (.looseWaiterExpiry .i2 ⟨9, 2⟩) { s with sck := { s.sck with running := 5 } }).za.get .i2).arb.wait.length = 1 ∧
    ((nx (.looseWaiterExpiry .i2 ⟨9, 2⟩) { s with sck := { s.sck with running := 6 } }).za.get .i2).arb.wait.length = 0 := by decide +kernel

/-- R123: with no better waiter the zone plays on, its phrase-end stop gone. -/
theorem test_next_expiry : let s := zone2 cutArb
    let t := nx (.nextClaimExpiry .i2) { s with sck := { s.sck with running := 6 } }
    (t.za.get .i2).arb = playArb .playing := by decide +kernel

/-- R138, R136: after the last sample of the last phrase the claim is PLAYED and the zone IDLE. -/
theorem test_phrase_boundary : let s := { playing with rch := ⟨some { aChan with pos := 2, delivered := 2 }, none, none, none⟩ }
    let t := nx (.phraseBoundary .i0) s
    (t.za.get .i2).arb.state = .idle ∧ (t.findEntry ⟨9, 1⟩).map (fun e => e.disp.get .i2) = some .played := by decide +kernel

/-- R139: samples of two bytes, most significant byte first, in two's complement. -/
theorem test_store_read : let s := { playing with
      sp := { pointer := .i0, reading := some { chan := .i0, idx := 0, pos := 0, count := 2, addr := 20359, stale := false } } }
    ((nx (.storeReadComplete [1, 2, 255, 254]) s).rch.get .i0).map (·.slots) = some [{ idx := 0, pos := 0, samples := [258, -2] }] := by
  decide +kernel

/-- R146. -/
theorem test_hangover : (nx (.hangoverExpiry .i2) run).lu = run.lu := by decide +kernel

/-- R148: 250 high moves the estimate up, 249 does not. -/
theorem test_tracker : let f := fun h => { run with lu := { run.lu with
      zones := run.lu.zones.set .i2 { LuZone.init with k := 4, window := some { taken := 500, high := h } } } }
    ((nx (.trackerWindowComplete .i2) (f 250)).lu.zones.get .i2).k = 5 ∧ ((nx (.trackerWindowComplete .i2) (f 249)).lu.zones.get .i2).k = 4 := by
  decide +kernel

/-- R130. -/
theorem test_staged : let s := { run with za := run.za.set .i2 { aZone none with staged := some { row := aRow, base := 70, floor := 40 } } }
    ((nx (.stagedAttrApply .i2) s).za.get .i2).base = 70 ∧ ((nx (.stagedAttrApply .i2) s).za.get .i2).staged = none := by decide +kernel

/-- R126: an IDLE partner lets the pair re-form. -/
theorem test_pair_reform : let s := { run with za := ⟨{ aZone (some .broken) with arb := Arb.bare .rejoining }, aZone (some .broken), aZone none, aZone none⟩ }
    ((nx (.pairReform .i0) s).za.get .i0) = aZone (some .whole) := by decide +kernel

/-- R169: tier 1 waits 48 bit times. -/
theorem test_attempt : let s := { run with lc := { run.lc with tx := [aTx (.cede ⟨7, 0⟩ false) false] } }
    (nx (.attemptStart 47) s).lc.sending = false ∧ (nx (.attemptStart 48) s).lc.sending = true := by decide +kernel

/-- R163, R169. -/
theorem test_delimiter : (nx (.delimiterHeard 30) run).lc.rx = true := by decide +kernel

/-- R95, R165: an own CLAIM sent comes back, is SENT and plays. -/
theorem test_frame_sent : let s := { run with
      clt := [{ aOwn .queued with start := none, plannedEnd := none, origin := some { aPart .queued with windowEnd := none } }],
      lc := { run.lc with tx := [aTx (.claim aClaim) true] } }
    let t := nx .frameSent s
    t.lc.tx = [] ∧ (t.za.get .i2).arb.state = .playing ∧
    ((t.findEntry ⟨7, 0⟩).bind (·.origin)).map (fun o => (o.send, o.windowEnd)) = some (.sent, some 10000) := by decide +kernel

/-- R170: the first bit of the delimiter, 1, is released; the second, 0, is driven. -/
theorem test_collision : let s := { run with lc := { run.lc with tx := [aTx (.cede ⟨7, 0⟩ false) true] } }
    (nx (.collision 0) s).lc.tx.map (fun f => (f.underWay, f.fails)) = [(false, 1)] ∧ (nx (.collision 1) s).lc.tx.map (·.fails) = [0] := by
  decide +kernel

/-- R8, R145, R147: the running time advances, and a quiet zone's window counts an envelope above Vref/32. -/
theorem test_sampling : let t := nx (.samplingInstant 320 (Quad.const 11)) run
    t.sck.running = 1 ∧ (t.lu.zones.get .i2).window = some { taken := 1, high := 1 } ∧
    ((nx (.samplingInstant 320 (Quad.const 10)) run).lu.zones.get .i2).window = some { taken := 1, high := 0 } := by decide +kernel

/-- R157: -3 x 16,384 / 32,768 rounds down to -2. -/
theorem test_sample : let s := { playing with
      rch := ⟨some { aChan with slots := [{ idx := 0, pos := 0, samples := [-3, 4] }] }, none, none, none⟩,
      lu := { run.lu with zones := run.lu.zones.set .i2 { LuZone.init with mult := 16384 } } }
    (nx (.sampleDue .i0) s).audio.get .i2 = -2 := by decide +kernel

/-! ### Levels and lengths by hand -/

/-- R152: k = 31, Q = 20, S = 3, Cmax = 40: 40 x 3 / 4 is 30. -/
theorem test_compensation : compensation { LuZone.init with k := 31, q := 20, slope := 3, cmax := 40 } = 30 := by decide

/-- R156: 119 is one quarter-decibel step of 0.5 dB down, 60 is five halvings. -/
theorem test_multiplier : multiplier 119 = 30935 ∧ multiplier 60 = 1024 := by decide

/-- R176: the check of nine bytes "123456789" from all ones, most significant bit first, is 0x29B1. -/
theorem test_check : crc [49, 50, 51, 52, 53, 54, 55, 56, 57] = 0x29B1 := by decide +kernel

/-! ### Every statement's hypotheses are met

One theorem for each statement with hypotheses: each line is a clause's hypotheses on a state and operands, at the ends of their ranges where they have
ends. -/

/-- A call frame is taken where it passes the tests. -/
theorem taken {k : Nat} {f : RxFrame} {s : State} (h : (s.sul.mode == .running && s.hears k f && !s.fromUs f) = true) : CallFrameTaken k f s := by
  simp only [Bool.and_eq_true, beq_iff_eq, Bool.not_eq_true'] at h
  exact ⟨h.1.1, h.1.2, h.2⟩

def header (p : LoadPhase) : State := { State.reset with sul := { Sul.init with resetHeld := false, strap := 7, phase := p } }

def bindCallBytes (plat : Byte) : List Byte := callsetBytes.set 3 plat

theorem witness_StepTakesFrontCommand : State.reset.pending = [] := rfl

theorem witness_StrapsGiveTheNumber : State.reset.sul.resetHeld = true ∧
    (1 ≤ (1#6).toNat ∧ (1#6).toNat ≤ 48) ∧ (1 ≤ (48#6).toNat ∧ (48#6).toNat ≤ 48) ∧ (0#6).toNat = 0 ∧ 49 ≤ (49#6).toNat ∧ 49 ≤ (63#6).toNat := by
  decide

theorem witness_HeaderIsTested : (header .header).loadsNow .header = true ∧
    (let b : List Byte := [0, 3, 0, 0, 0, 0, 79, 135]; b.length = 8 ∧ field b 0 2 ≠ 2) ∧
    (let b : List Byte := [0, 2, 0, 0, 0, 0, 79, 134]; b.length = 8 ∧ field b 0 2 = 2 ∧ field b 4 4 ≠ 20359) ∧
    (let b : List Byte := [0, 2, 0, 0, 0, 0, 79, 135]; b.length = 8 ∧ field b 0 2 = 2 ∧ field b 4 4 = 20359) := by decide

theorem witness_ConfigurationAreaIsRead : (header .config).loadsNow .config = true ∧
    ((header .config).sul.image ++ List.replicate 20358 0).length < 20359 ∧
    ((header .config).sul.image ++ List.replicate 20359 0).length = 20359 ∧
    (((header .config).sul.sum + ((List.replicate 20359 (0 : Byte)).map BitVec.toNat).sum) % 65536 = (header .config).sul.headerSum) ∧
    (((header .config).sul.sum + ((List.replicate 20358 (0 : Byte) ++ [1]).map BitVec.toNat).sum) % 65536 ≠ (header .config).sul.headerSum) ∧
    (header .config).nodeNo.isSome = true ∧ ({ header .config with pins := { evac := true, maint := false } } : State).pins.evac = true := by
  have h : ∀ n : Nat, ((List.replicate n (0 : Byte)).map BitVec.toNat).sum = 0 := fun n => by rw [List.map_replicate, List.sum_replicate]; simp
  refine ⟨by decide, ?_, ?_, ?_, ?_, by decide, rfl⟩
  · rw [List.length_append, List.length_replicate]; decide
  · rw [List.length_append, List.length_replicate]; decide
  · rw [h]; decide
  · rw [List.map_append, List.sum_append, h]; decide

/-- R38: EVAC low and high at the area's end, with a number and without, the last evacuation claim QUEUED or none. -/
theorem witness_ConfigurationAreaIsRead_evac : ∀ e : Bool, let s := { header .config with pins := { evac := e, maint := false } }
    let q := { s with evac := { s.evac with lastClaim := some ⟨7, 0⟩ }, clt := [aOwn .queued] }
    s.loadsNow .config = true ∧ q.loadsNow .config = true ∧ s.pins.evac = e ∧ s.nodeNo ≠ none ∧
    ({ s with sul := { s.sul with strap := 55 } } : State).nodeNo = none ∧ s.evac.lastClaim = none ∧
    q.findEntry ⟨7, 0⟩ = some (aOwn .queued) ∧ (aOwn .queued).origin = some (aPart .queued) ∧ (aPart .queued).send = .queued := by decide +kernel

theorem witness_SecondBoundaryAdvances : let s := { run with sck := { run.sck with secMs := 1000 } }
    1000 ≤ s.sck.secMs ∧ s.ct = [] := by decide +kernel

/-- The call of a live state: R15 counts its limit from 28,800 s. -/
theorem witness_SecondBoundaryAdvances_calls : ∀ t ∈ [28819, 36000, 36001, 107998, 107999], let s := live (aSpec .atTime) .fresh .waiting t
    1000 ≤ s.sck.secMs ∧ KeysAscend s ∧ s.sck.isSet = true ∧
      ((∃ c, s.findCall 5 = some c ∧ s.expires c = decide (36001 ≤ t)) ∧ (s.sck.time < 107999 ↔ t ≠ 107999)) := by
  intro t ht
  refine ⟨le_refl _, List.pairwise_singleton _ _, rfl, ⟨_, rfl, ?_⟩, ?_⟩ <;> revert t ht <;> decide +kernel

/-- A step that counts with two seconds left, its call BOUND. -/
def counting (m : StepMode) : State :=
  { boundTo (aCall .bound m { StepTimer.fresh with state := .counting, remaining := some 2 }) with sck := { run.sck with secMs := 1000 } }

theorem witness_CountingStepLosesASecond : ∀ m : StepMode, m = .onArrive ∨ m = .onDispatch →
    1000 ≤ (counting m).sck.secMs ∧ KeysAscend (counting m) ∧ ∃ c st, (counting m).findCall 5 = some c ∧ c.state = .bound ∧ c.steps[0]? = some st ∧
      st.spec.mode = m ∧ st.timer.state = .counting ∧ st.timer.remaining = some (0 + 2) := by
  intro m _
  exact ⟨le_refl _, List.pairwise_singleton _ _, _, _, rfl, rfl, rfl, rfl, rfl, rfl⟩

/-- The steps of a live call: an AT step at 28,820 s, an EVERY step's window, a delay counted, a firing of each row of R30. -/
theorem witness_CountingStepLosesASecond_steps : ∀ st ∈ [CallState.waiting, .bound],
    (∀ x ∈ [StepState.counting, .idle], ∀ t ∈ [28819, 28820, 28880, 28881],
      let s := live (aSpec .atTime) (timer x none) st t
      ∃ c, s.findCall 5 = some c ∧ c.state = st ∧ s.findStep 5 0 = some (aStep .atTime (timer x none)) ∧
        (aSpec .atTime).fireTime c = some 28820 ∧ s.sck.time = t) ∧
    (∀ x ∈ [StepState.idle, .counting, .held], ∀ g, ∀ t ∈ [28799, 28800, 28899, 28900],
      let s := live (window g) (timer x (some 2)) st t
      ∃ c, s.findCall 5 = some c ∧ s.findStep 5 0 = some { spec := window g, timer := timer x (some 2) } ∧ (window g).fireTime c = some 28800 ∧
        (window g).closeTime c = some 28900 ∧ s.sck.time = t) ∧
    (∀ r ∈ [1, 2], ∀ m ∈ [StepMode.onArrive, .onDispatch, .manual],
      (live (aSpec m) (timer .counting (some r)) st 0).findStep 5 0 = some (aStep m (timer .counting (some r)))) ∧
    (∀ m : StepMode, ∀ n ∈ [0, 2, 255], let x := { timer .counting (some 1) with fires := n }
      let p := { aSpec m with limit := 3 }
      let s := live p x st 0
      s.stepBusy 5 0 { spec := p, timer := x } = false ∧
      ({ s with cmp := { s.cmp with queue := [anOrig (.step 5 0)] } } : State).stepBusy 5 0 { spec := p, timer := x } = true) ∧
    (∃ c, ({ run with ct := [{ aCall st .manual .fresh with staged := some Amendment.empty }] } : State).findCall 5 = some c ∧ c.staged ≠ none) := by
  intro st hst
  refine ⟨?_, ?_, ?_, ?_, ⟨_, rfl, ?_⟩⟩
  · intro x _ t _
    exact ⟨_, rfl, rfl, rfl, rfl, rfl⟩
  · intro x _ g t _
    exact ⟨_, rfl, rfl, rfl, rfl, rfl⟩
  · intro r _ m _
    rfl
  · intro m n hn
    cases m <;> revert n hn st hst <;> decide +kernel
  · simp

/-- R36, R37: the states of a call in which its steps do nothing. -/
theorem witness_CountingStepLosesASecond_frozen : ∀ st ∈ [CallState.handingOff, .dropping, .finished .departed], ∀ m : StepMode,
    (withCall (aCall st m (timer .counting (some 1)))).findCall 5 = some (aCall st m (timer .counting (some 1))) ∧ st ≠ .waiting ∧ st ≠ .bound := by
  intro st h m
  simp only [List.mem_cons, List.not_mem_nil, or_false] at h
  rcases h with rfl | rfl | rfl <;> exact ⟨rfl, by decide, by decide⟩

theorem witness_ClockFrameSetsTheClock :
    (run.hears kindClock (fr [0, 1, 165, 223]) = true ∧ field8 [0, 1, 165, 223] 0 = 0 ∧ field [0, 1, 165, 223] 1 3 = 107999) ∧
    (run.hears kindClock (fr [1, 0, 0, 0]) = true ∧ field8 [1, 0, 0, 0] 0 = 1) ∧
    (run.hears kindClock (fr [0, 1, 165, 224]) = true ∧ field8 [0, 1, 165, 224] 0 = 0 ∧ 107999 < field [0, 1, 165, 224] 1 3) ∧ run.ct = [] := by
  decide +kernel

/-- Jumps: from UNSET, forward and backward, with a call that expires and one that does not; a SKIPPED step with its time ahead, an absent reference. -/
theorem witness_ClockFrameSetsTheClock_steps :
    (waiting.sck.isSet = false ∧ KeysAscend waiting) ∧
    (∀ t ∈ [0, 28799, 28800], (live (aSpec .atTime) .fresh .waiting t).sck.isSet = true ∧ (live (aSpec .atTime) .fresh .waiting t).sck.time = t) ∧
    (∃ c, waiting.findCall 5 = some c ∧ ({ waiting with sck := { run.sck with isSet := true, time := 107999 } } : State).expires c = true ∧
      ({ waiting with sck := { run.sck with isSet := true, time := 0 } } : State).expires c = false) ∧
    (∀ t ∈ [28819, 28820], ∃ st, (live (aSpec .atTime) (timer (.skipped .late) none) .bound t).findStep 5 0 = some st ∧
      (∃ r, st.timer.state = .skipped r) ∧ st.timer.fires = 0) ∧
    (∃ c st, (live { aSpec .atTime with ref := .arr } .fresh .waiting 0).findCall 5 = some c ∧
      (live { aSpec .atTime with ref := .arr } .fresh .waiting 0).findStep 5 0 = some st ∧ st.spec.fireTime c = none) := by
  refine ⟨⟨rfl, List.pairwise_singleton _ _⟩, ?_, ⟨_, rfl, ?_, ?_⟩, ?_, ⟨_, _, rfl, rfl, rfl⟩⟩
  · intro t _
    exact ⟨rfl, rfl⟩
  · decide +kernel
  · decide +kernel
  · intro t _
    exact ⟨_, rfl, ⟨_, rfl⟩, rfl⟩

theorem witness_ClockFrameSetsTheClock_frozen : ∀ st ∈ [CallState.handingOff, .dropping, .finished .departed], ∀ m ∈ [StepMode.atTime, .every],
    (live (aSpec m) (timer .counting (some 1)) st 28900).findCall 5 ≠ none ∧ st ≠ .waiting ∧ st ≠ .bound := by decide +kernel

theorem witness_MillisecondIsCounted : let w := fun n => { run with lu := { run.lu with
      zones := run.lu.zones.set .i2 { LuZone.init with window := some { taken := n, high := 0 } } } }
    run.sck.running < 1099511627775 ∧ run.sul.mode = .running ∧ (run.za.get .i2).arb.state = .idle ∧ (run.lu.zones.get .i2).lastPlayEnd = none ∧
    (run.lu.zones.get .i2).window = none ∧ ((w 499).lu.zones.get .i2).window = some { taken := 499, high := 0 } ∧
    ((w 500).lu.zones.get .i2).window = some { taken := 500, high := 0 } ∧ State.reset.sul.mode = .loading := by decide +kernel

theorem witness_TrackerFollowsTheWindow : let w := fun n => { run with lu := { run.lu with
      zones := run.lu.zones.set .i2 { LuZone.init with window := some { taken := 500, high := n }, lastPlayEnd := some 0 } } }
    (∀ n ∈ [0, 50, 51, 249, 250, 500], ((w n).lu.zones.get .i2).window = some { taken := 500, high := n }) ∧
    ((w 0).lu.zones.get .i2).lastPlayEnd = some 0 ∧ ((w 0).za.get .i2).arb.state = .idle := by decide +kernel

theorem witness_SampleGoesToAttachedZones : playing.rch.get .i0 = some aChan ∧ aChan.cursor = some 0 ∧ aChan.pos < playing.partLen aChan 0 ∧
    aChan.bind16 + aChan.delivered ≤ 16 * playing.sck.running + 15 := by decide +kernel

/-- In tone mode, in an even and an odd segment, at its first and last sample; of the store, at a block's first and last sample and beside one that does not
hold the cursor. -/
theorem witness_SampleGoesToAttachedZones_blocks :
    (∀ i ∈ [0, 1, 9], ∀ n ∈ [0, 15999], let ch := { aChan with tone := true, cursor := some i, pos := n }
      ch.cursor = some i ∧ ch.pos < fault.partLen ch i ∧ ch.tone = true) ∧
    (let old : Block := { idx := 1, pos := 0, samples := [7, 7] }
     let b : Block := { idx := 0, pos := 0, samples := [3, 4] }
     let here := fun (n : Nat) (b : Block) => b.idx = 0 ∧ b.pos ≤ n ∧ n < b.pos + b.samples.length
     ∀ n ∈ [0, 1], let ch := { aChan with pos := n, slots := [old] ++ b :: [] }
      ch.tone = false ∧ ch.pos < run.partLen ch 0 ∧ run.dirEntry (ch.phrases.getD 0 0) = some { addr := 20359, len := 2 } ∧ here n b ∧
      (∀ x ∈ [old], ¬ here n x) ∧ ∀ x ∈ aChan.slots, ¬ here n x) := by decide +kernel

/-- R139, R140: the last sample of a block, its slot then empty; the port grants this channel's request, the first after the pointer. -/
theorem witness_SampleGoesToAttachedZones_asks : let b : Block := { idx := 0, pos := 0, samples := [3, 4] }
    let ch := { aChan with pos := 1, delivered := 1, slots := [b] }
    let s := { playing with rch := ⟨some ch, none, none, none⟩ }
    s.rch.get .i0 = some ch ∧ ch.pos < s.partLen ch 0 ∧ b.idx = 0 ∧ b.pos + b.samples.length ≤ ch.pos + 1 ∧ ch.request = false ∧ ch.unread ≠ none ∧
    s.sp.reading = none ∧
    [s.sp.pointer.next, s.sp.pointer.next.next, s.sp.pointer.next.next.next, s.sp.pointer] = [] ++ .i0 :: [.i1, .i2, .i3] ∧
    (let t := nx (.sampleDue .i0) s; (t.rch.get .i0).map (fun d => (d.slots, d.request)) = some ([], true) ∧ t.sp.pointer = .i0 ∧
      t.sp.reading = some { chan := .i0, idx := 0, pos := 0, count := 2, addr := 20359, stale := false }) := by decide +kernel

theorem witness_CallsetInstalls :
    (CallFrameTaken kindCallset (fr (bindCallBytes 14)) run ∧ callsetRefusal run (readCallset (bindCallBytes 14)) = some .notOwner) ∧
    (CallFrameTaken kindCallset (fr (callsetBytes.set 14 17)) run ∧ callsetRefusal run (readCallset (callsetBytes.set 14 17)) = some .badValue) ∧
    (CallFrameTaken kindCallset (fr callsetBytes) waiting ∧ callsetRefusal waiting (readCallset callsetBytes) = some .duplicate) ∧
    (let s := { run with ct := List.replicate 64 { aCall .waiting .manual .fresh with key := 6 } };
      CallFrameTaken kindCallset (fr callsetBytes) s ∧ callsetRefusal s (readCallset callsetBytes) = some .full) ∧
    (CallFrameTaken kindCallset (fr callsetBytes) run ∧ run.localPlat (readCallset callsetBytes).platform = some .p0 ∧
      (readCallset callsetBytes).values? = some .departure ∧ run.findCall (readCallset callsetBytes).key = none ∧ run.ct.length < 64) ∧
    (let c : Call := { aCall .waiting .manual .fresh with steps := [] };
      run.expires c = false ∧ ({ run with sck := { run.sck with isSet := true, time := 36001 } } : State).expires c = true) := by
  refine ⟨⟨taken ?_, ?_⟩, ⟨taken ?_, ?_⟩, ⟨taken ?_, ?_⟩, ⟨taken ?_, ?_⟩, ⟨taken ?_, ?_⟩, ?_⟩ <;> decide +kernel

/-- The ends of R2's and R11's ranges: keys, times, coaches, codes and lengths that pass and that do not. -/
theorem witness_CallsetInstalls_values :
    (run.localPlat 11 = some .p0 ∧ run.localPlat 12 = some .p1 ∧ run.localPlat 0 = none ∧ run.localPlat 14 = none ∧ run.localPlat 100 = none) ∧
    (∀ b ∈ [callsetBytes, callsetBytes.set 14 16, callsetBytes.set 14 0], (readCallset b).values? = some .departure) ∧
    (∀ b ∈ [callsetBytes.set 1 0, callsetBytes.set 2 3, callsetBytes.set 2 2, callsetBytes.set 14 17, callsetBytes.set 10 8, callsetBytes.set 15 1],
      (readCallset b).values? = none) ∧
    (readCallset callsetBytes).lengthFits = true ∧ (readCallset (callsetBytes.set 15 1)).lengthFits = false := by decide +kernel

theorem witness_FramesForACallAreRefusedByItsState :
    (∀ f ∈ [fr amendBytes, fr planBytes, fr [0, 5, 0]], keyRefusal run (field f.body 0 2) = some .unknownKey ∧
      keyRefusal (handing .awaiting none) (field f.body 0 2) = some .busy ∧
      keyRefusal (withCall (aCall (.finished .departed) .manual .fresh)) (field f.body 0 2) = some .badValue ∧
      keyRefusal (withCall (aCall .dropping .manual .fresh)) (field f.body 0 2) = some .badValue) ∧
    CallFrameTaken kindCallamend (fr amendBytes) run ∧ CallFrameTaken kindCallplan (fr planBytes) run ∧
    CallFrameTaken kindTrigger (fr [0, 5, 0]) run := by
  refine ⟨?_, taken ?_, taken ?_, taken ?_⟩ <;> decide +kernel

/-- R9, R10, R184: heard in STORE_FAULT by number and to all, in LOADING, in LISTEN_ONLY, with the source's own number, and with a body too short. -/
theorem witness_FramesForACallAreRefusedByItsState_modes :
    (∀ p ∈ [(kindCallset, callsetBytes), (kindCallamend, amendBytes), (kindCallplan, planBytes), (kindCalldrop, [0, 5]), (kindTrigger, [0, 5, 0]),
        (kindHandoff, handoffBody)],
      (fault.hears p.1 (fr p.2) = true ∧ fault.fromUs (fr p.2) = false ∧ fault.forUsAlone (fr p.2) = true) ∧
      (fault.hears p.1 (frAll p.2) = true ∧ fault.fromUs (frAll p.2) = false ∧ fault.forUsAlone (frAll p.2) = false) ∧
      run.fromUs ⟨7, 0, p.2⟩ = true ∧ run.hears p.1 (fr (p.2.take 1)) = false) ∧
    fault.sul.mode = .storeFault ∧ State.reset.sul.mode = .loading ∧ listen.sul.mode = .listenOnly := by decide +kernel

theorem witness_AmendmentsAreStaged : ∃ c, waiting.findCall (field amendBytes 0 2) = some c ∧ waiting.findCall (field planBytes 0 2) = some c ∧
    c.state = .waiting ∧ CallFrameTaken kindCallamend (fr amendBytes) waiting ∧ (readCallamend amendBytes).valuesOk c = true ∧
    waiting.unserved (readCallamend amendBytes).parts = false ∧ CallFrameTaken kindCallplan (fr planBytes) waiting ∧
    ∃ part, (readCallplan planBytes).part? c.revisedPlan = some part :=
  ⟨_, rfl, rfl, rfl, taken (by decide +kernel), by decide +kernel, by decide +kernel, taken (by decide +kernel),
    .replace [{ aSpec .manual with offset := 0, sync := .joint, retry := false }], by decide +kernel⟩

/-- R56, R57: 17 coaches and no part at all are BAD_VALUE, a platform that no node serves NOT_OWNER, a REVISE of a step the plan has not BAD_VALUE. -/
theorem witness_AmendmentsAreStaged_refused : ∃ c, waiting.findCall 5 = some c ∧ c.state = .waiting ∧
    (∀ b ∈ [amendBytes.set 10 17, amendBytes.set 10 0, amendBytes.set 2 0], CallFrameTaken kindCallamend (fr b) waiting ∧ field b 0 2 = 5 ∧
      (readCallamend b).valuesOk c = false) ∧
    (let b := (amendBytes.set 2 2).set 9 50; CallFrameTaken kindCallamend (fr b) waiting ∧ field b 0 2 = 5 ∧ (readCallamend b).valuesOk c = true ∧
      waiting.unserved (readCallamend b).parts = true) ∧
    (let b := (planBytes.set 2 1).set 4 1; CallFrameTaken kindCallplan (fr b) waiting ∧ field b 0 2 = 5 ∧
      (readCallplan b).part? c.revisedPlan = none) := by
  refine ⟨_, rfl, rfl, ?_, ⟨taken ?_, ?_, ?_, ?_⟩, ⟨taken ?_, ?_, ?_⟩⟩
  · intro b hb
    simp only [List.mem_cons, List.not_mem_nil, or_false] at hb
    rcases hb with rfl | rfl | rfl <;> exact ⟨taken (by decide +kernel), by decide +kernel, by decide +kernel⟩
  all_goals decide +kernel

/-- R57: no step and six, and seven; a revision of index 0, of one beyond the plan, of another mode, twice the same index, and none; a form of 2; a period
of 60 and of 59 s. -/
theorem witness_AmendmentsAreStaged_parts : let r := fun (i : Byte) => [i, 12, 0, 0, 0, 60, 0, 0, 0, 2, 0, 0]
    let f := fun (form n : Byte) (l : List Byte) => readCallplan ([0, 5, form, n] ++ l)
    let p := { aSpec .manual with offset := 0, sync := .joint, retry := false }
    (f 0 0 []).part? [] = some (.replace []) ∧ (f 0 6 (List.replicate 6 (r 0)).flatten).part? [] = some (.replace (List.replicate 6 p)) ∧
    (f 0 7 (List.replicate 7 (r 0)).flatten).part? [] = none ∧ (f 1 1 (r 0)).part? [aSpec .manual] = some (.revise [(0, p)]) ∧
    (f 1 1 (r 1)).part? [aSpec .manual] = none ∧ (f 1 1 (r 0)).part? [aSpec .every] = none ∧
    (f 1 2 (r 0 ++ r 0)).part? [aSpec .manual] = none ∧ (f 1 0 []).part? [aSpec .manual] = none ∧ (f 2 1 (r 0)).part? [aSpec .manual] = none ∧
    (f 0 1 ((r 0).set 5 59)).part? [] = none ∧ (f 0 2 (r 0)).part? [] = none := by decide +kernel

theorem witness_StagingMergesPartByPart :
    let old : Amendment := { Amendment.empty with plan := some (.replace [aSpec .manual]) }
    let new : Amendment := { Amendment.empty with arr := some 0, plan := some (.revise [(0, aSpec .manual)]) }
    new.arr ≠ none ∧ new.dep = none ∧ new.platform = none ∧ new.coaches = none ∧ new.points = none ∧ new.plan ≠ none ∧
    new.plan = some (.revise [(0, aSpec .manual)]) ∧ old.plan = some (.replace [aSpec .manual]) ∧ ([(0, aSpec .manual)].map (·.1)).Nodup := by
  decide +kernel

theorem witness_CalldropDropsTheCall : CallFrameTaken kindCalldrop (fr [0, 5]) waiting ∧ field [0, 5] 0 2 = 5 ∧
    (∃ c, waiting.findCall 5 = some c ∧ c.state ≠ .dropping ∧ c.state ≠ .handingOff) ∧ waiting.refCount 5 = 0 ∧
    (let s := withCall (aCall .dropping .manual .fresh); CallFrameTaken kindCalldrop (fr [0, 5]) s ∧ ∃ c, s.findCall 5 = some c ∧ c.state = .dropping) ∧
    (let s := handing .awaiting none; CallFrameTaken kindCalldrop (fr [0, 5]) s ∧ ∃ c, s.findCall 5 = some c ∧ c.state = .handingOff) ∧
    (CallFrameTaken kindCalldrop (fr [0, 5]) run ∧ run.findCall 5 = none) := by
  refine ⟨taken ?_, rfl, ⟨_, rfl, ?_, ?_⟩, ?_, ⟨taken ?_, _, rfl, rfl⟩, ⟨taken ?_, _, rfl, rfl⟩, taken ?_, rfl⟩ <;> decide +kernel

/-- A call with a claim of its own. -/
theorem witness_CalldropDropsTheCall_claims : let s := { waiting with clt := [aOwn .sent] }
    CallFrameTaken kindCalldrop (fr [0, 5]) s ∧ s.refCount 5 = 1 ∧
    (s.clt.filter (fun e => e.origin.isSome && e.hasKey 5)).map (·.id) = [⟨7, 0⟩] ∧ ∃ c, s.findCall 5 = some c ∧ c.state = .waiting := by
  refine ⟨taken ?_, ?_, ?_, _, rfl, rfl⟩ <;> decide +kernel

theorem witness_LeavingServiceStopsSteps : ∀ x ∈ [StepState.idle, .counting, .held, .fired, .done, .skipped .busy],
    ∃ c st, (withCall (aCall .waiting .manual { StepTimer.fresh with state := x })).findCall 5 = some c ∧ c.steps[0]? = some st ∧ st.timer.state = x := by
  intro x _
  exact ⟨_, _, rfl, rfl, rfl⟩

/-- R15: the limit of 28,800 + 7,201 s, and the second before it. -/
theorem witness_LeavingServiceStopsSteps_expires : ∀ t ∈ [36000, 36001], ∃ c, (live (aSpec .manual) .fresh .waiting t).findCall 5 = some c ∧
    (live (aSpec .manual) .fresh .waiting t).expires c = decide (t = 36001) := by
  intro t ht
  refine ⟨_, rfl, ?_⟩
  revert t; decide +kernel

theorem witness_TriggerHandsOver : ∀ m : StepMode, let s := withCall (aCall .waiting m .fresh)
    CallFrameTaken kindTrigger (fr [0, 5, 0]) s ∧ ∃ c st, s.findCall (field [0, 5, 0] 0 2) = some c ∧ c.state = .waiting ∧ c.staged = none ∧
      c.steps[field8 [0, 5, 0] 2]? = some st ∧ st.timer.state ≠ .done ∧ st.timer.state ≠ .held ∧ st.spec.mode = m ∧ s.stepBusy 5 0 st = false := by
  intro m
  refine ⟨taken ?_, _, _, rfl, rfl, rfl, rfl, ?_, ?_, rfl, ?_⟩ <;> cases m <;> decide +kernel

theorem witness_TriggerRowsAnswer : ∀ m : StepMode,
    let s := withCall (aCall .waiting m .fresh)
    let d := withCall (aCall .waiting m { StepTimer.fresh with state := .done })
    let h := withCall (aCall .waiting m { StepTimer.fresh with state := .held })
    let b := { s with cmp := { s.cmp with queue := [anOrig (.step 5 0)] } }
    let a := withCall { aCall .waiting m .fresh with staged := some Amendment.empty }
    CallFrameTaken kindTrigger (fr [0, 5, 1]) s ∧ (∃ c, s.findCall 5 = some c ∧ c.state = .waiting ∧ c.steps[field8 [0, 5, 1] 2]? = none) ∧
    (∃ c st, d.findCall 5 = some c ∧ c.steps[0]? = some st ∧ st.timer.state = .done) ∧
    (∃ c st, h.findCall 5 = some c ∧ c.steps[0]? = some st ∧ st.timer.state = .held ∧ st.spec.mode = m) ∧
    (∃ c st, b.findCall 5 = some c ∧ c.steps[0]? = some st ∧ st.timer.state = .idle ∧ b.stepBusy 5 0 st = true) ∧
    (∃ c st, a.findCall 5 = some c ∧ c.steps[0]? = some st ∧ st.timer.state = .idle ∧ a.stepBusy 5 0 st = false ∧ c.staged ≠ none) := by
  intro m
  refine ⟨taken ?_, ⟨_, rfl, rfl, rfl⟩, ⟨_, _, rfl, rfl, rfl⟩, ⟨_, _, rfl, rfl, rfl, rfl⟩, ⟨_, _, rfl, rfl, rfl, ?_⟩, ⟨_, _, rfl, rfl, rfl, ?_, ?_⟩⟩ <;>
    cases m <;> decide +kernel

theorem witness_HandoffInstalls : let f : RxFrame := ⟨9, 7, handoffBody⟩
    CallFrameTaken kindHandoff f run ∧ run.forUsAlone f = true ∧ (readHandoff f.body).values? = some .departure ∧
    (readHandoff f.body).plan? = some [] ∧ run.localPlat (readHandoff f.body).platform = some .p0 ∧ run.findCall (readHandoff f.body).key = none ∧
    run.ct.length < 64 ∧ run.sck.isSet = false := by
  refine ⟨taken ?_, ?_, ?_, ?_, ?_, ?_, ?_, rfl⟩ <;> decide +kernel

/-- R70: to all nodes, a kind no call has, a step mode no step has; another node's platform, a key held, a full table. -/
theorem witness_HandoffInstalls_refused :
    (CallFrameTaken kindHandoff (frAll handoffBody) run ∧ run.forUsAlone (frAll handoffBody) = false) ∧
    (CallFrameTaken kindHandoff ⟨9, 7, handoffBody.set 2 3⟩ run ∧ (readHandoff (handoffBody.set 2 3)).values? = none) ∧
    (let b := (handoffBody.set 22 1 ++ stepBytes 0 (aSpec .manual)).set 24 7;
      CallFrameTaken kindHandoff ⟨9, 7, b⟩ run ∧ (readHandoff b).plan? = none) ∧
    (let f : RxFrame := ⟨9, 7, handoffBody.set 3 14⟩;
      CallFrameTaken kindHandoff f run ∧ run.forUsAlone f = true ∧ (readHandoff f.body).values? ≠ none ∧ (readHandoff f.body).plan? ≠ none ∧
        run.localPlat (readHandoff f.body).platform = none) ∧
    (let f : RxFrame := ⟨9, 7, handoffBody⟩;
      CallFrameTaken kindHandoff f waiting ∧ waiting.forUsAlone f = true ∧ (readHandoff f.body).values? ≠ none ∧ (readHandoff f.body).plan? ≠ none ∧
        waiting.localPlat (readHandoff f.body).platform ≠ none ∧ waiting.findCall (readHandoff f.body).key ≠ none ∧
        (let s := { run with ct := List.replicate 64 { aCall .waiting .manual .fresh with key := 6 } };
          s.findCall (readHandoff f.body).key = none ∧ 64 ≤ s.ct.length)) := by
  refine ⟨⟨taken ?_, ?_⟩, ⟨taken ?_, ?_⟩, ⟨taken ?_, ?_⟩, ⟨taken ?_, ?_⟩, ⟨taken ?_, ?_⟩⟩ <;> decide +kernel

/-- The rows of R23: each mode, the clock UNSET and SET, before, in and after the window, a call WAITING and BOUND, the reference absent. -/
theorem witness_HandoffInstalls_starts : ∀ (m : StepMode) (set : Bool), ∀ st ∈ [CallState.waiting, .bound], ∀ t ∈ [28799, 28800, 28860, 28861, 28900],
    ∀ r : RefTime, let p := { window false with mode := m, ref := r }
      let s := { live p .fresh st t with sck := { run.sck with isSet := set, time := t } }
      ∃ c, s.findCall 5 = some c ∧ c.state = st ∧ s.findStep 5 0 = some { spec := p, timer := .fresh } ∧ StepTimer.fresh.state = .idle ∧
        (r = .dep → p.fireTime c = some 28800 ∧ p.closeTime c = some 28900) ∧ (r = .arr → p.fireTime c = none) ∧
        p.offset ≤ 0 ∧ 0 < (aSpec m).offset := by
  intro m set st _ t _ r
  refine ⟨_, rfl, rfl, rfl, rfl, ?_, ?_, le_refl _, ?_⟩
  · rintro rfl
    exact ⟨rfl, rfl⟩
  · rintro rfl
    rfl
  · cases m <;> decide

theorem witness_HandoffSettlesOrReverts : let s := handing .awaiting (some 0)
    (∃ c, s.findCall 5 = some c ∧ c.state = .handingOff ∧ c.handoff = some (aHandoff .awaiting (some 0))) ∧
    (∀ code ∈ [(0 : Byte), 8], let f : RxFrame := ⟨9, 7, [9, 0, 5, code]⟩
      s.sul.mode = .running ∧ s.hears kindAnswer f = true ∧ field f.body 1 2 = 5 ∧ field8 f.body 0 = kindHandoff ∧
      f.src.toNat = (aHandoff .awaiting (some 0)).server ∧ field8 f.body 3 = code.toNat) ∧ s.sck.isSet = false := by
  refine ⟨⟨_, rfl, rfl, rfl⟩, ?_, rfl⟩
  decide +kernel

/-- R36, R50: the clock SET, the binding still held aside and gone. -/
theorem witness_HandoffSettlesOrReverts_resumes : ∀ b : Bool,
    let s := { handing .awaiting (some 0) with
      pm := if b then (handing .awaiting (some 0)).pm else run.pm, sck := { run.sck with isSet := true, time := 28850 } }
    KeysAscend s ∧ s.sck.isSet = true ∧ (∃ c, s.findCall 5 = some c ∧ c.state = .handingOff ∧ c.handoff = some (aHandoff .awaiting (some 0))) ∧
    ((s.pm.get .p0).hold = some 5 ∨ (s.pm.get .p1).hold = some 5 ↔ b = true) := by
  intro b
  refine ⟨List.pairwise_singleton _ _, rfl, ⟨_, rfl, rfl, rfl⟩, ?_⟩
  cases b <;> decide +kernel

/-- R69, R175: an ANSWER in another mode, of another kind, for another key, from another node, not heard, and one that finds its handoff SENDING or SETTLED,
or no handoff; a timer that has not run out. -/
theorem witness_HandoffSettlesOrReverts_ignored : let s := handing .awaiting (some 1)
    let f : RxFrame := ⟨9, 7, [9, 0, 5, 0]⟩
    (s.sul.mode = .running ∧ s.hears kindAnswer f = true ∧ field8 f.body 0 = kindHandoff ∧ f.src.toNat = (aHandoff .awaiting (some 1)).server) ∧
    (∀ m ∈ [NodeMode.loading, .storeFault, .listenOnly], ({ s with sul := { s.sul with mode := m } } : State).sul.mode ≠ .running) ∧
    field8 (f.body.set 0 4) 0 ≠ kindHandoff ∧ s.findCall (field (f.body.set 2 6) 1 2) = none ∧ (8 : Byte).toNat ≠ (aHandoff .awaiting (some 1)).server ∧
    s.hears kindAnswer { f with dst := 8 } = false ∧
    (∀ p ∈ [HandoffPhase.sending, .settled], ∃ c, (handing p none).findCall 5 = some c ∧ c.handoff = some (aHandoff p none) ∧ p ≠ .awaiting) ∧
    (∃ c, waiting.findCall 5 = some c ∧ c.handoff = none) ∧ (aHandoff .awaiting (some 1)).timer ≠ some 0 := by
  refine ⟨?_, ?_, ?_, ?_, ?_, ?_, fun p hp => ⟨_, rfl, rfl, ?_⟩, ⟨_, rfl, rfl⟩, ?_⟩
  case refine_7 => revert p; decide
  all_goals decide +kernel

theorem witness_SwapAmendsTheCall : ∀ st ∈ [CallState.waiting, .bound], ∀ n ∈ [11, 12],
    let a := { Amendment.empty with platform := some n, plan := some (.replace [aSpec .manual]) }
    let c := { aCall st .manual .fresh with staged := some a }
    let s := boundTo c
    s.findCall 5 = some c ∧ c.staged = some a ∧ c.state = st ∧ s.liveCount 5 = 0 ∧
    s.platChange c a = if n = 11 then .stay else .toLocal .p1 := by
  decide +kernel

/-- A REVISE of the first step, and another call beside it; a WAITING call whose new expected time is past. -/
theorem witness_SwapAmendsTheCall_revise :
    let a := { Amendment.empty with dep := some 0, plan := some (.revise [(0, aSpec .atTime)]) }
    let c := { aCall .waiting .atTime .fresh with staged := some a }
    let s := { run with ct := [c, { aCall .waiting .every .fresh with key := 6 }], sck := { run.sck with isSet := true, time := 7201 } }
    s.findCall 5 = some c ∧ c.staged = some a ∧ s.liveCount 5 = 0 ∧ s.platChange c a = .stay ∧ KeysAscend s ∧
    ([(0, aSpec .atTime)].map (·.1)).Nodup ∧ (∃ e, s.findCall 6 = some e) ∧ s.expires { c with expDep := some 0 } = true ∧
    s.expires { c with expDep := some 1 } = false := by
  refine ⟨rfl, rfl, ?_, ?_, ?_, ?_, ⟨_, rfl⟩, ?_, ?_⟩
  case refine_3 => exact List.pairwise_pair.mpr (by decide)
  all_goals decide +kernel

/-- The rows of R64 to R66: each mode, each state, the clock SET and UNSET, the limit reached and not, a reference time present and absent. -/
theorem witness_SwapAmendsTheCall_steps : ∀ (m : StepMode) (set : Bool),
    ∀ x ∈ [StepState.idle, .counting, .held, .fired, .skipped .busy, .done], ∀ n ∈ [0, 3], ∀ r : RefTime,
      let p := { window false with mode := m, ref := r }
      let t := { timer x none with fires := n }
      let s := { live p t .waiting 28850 with sck := { run.sck with isSet := set, time := 28850 } }
      ∃ c, s.findCall 5 = some c ∧ s.findStep 5 0 = some { spec := p, timer := t } ∧ c.state = .waiting ∧ (p.limit ≤ t.fires ↔ n = 3) ∧
        (r = .dep → p.fireTime c = some 28800 ∧ p.closeTime c = some 28900) ∧ (r = .arr → p.fireTime c = none) := by
  intro m set x _ n hn r
  refine ⟨_, rfl, rfl, rfl, ?_, ?_, ?_⟩
  · simp only [List.mem_cons, List.not_mem_nil, or_false] at hn
    rcases hn with rfl | rfl <;> simp [window]
  · rintro rfl
    exact ⟨rfl, rfl⟩
  · rintro rfl
    rfl

/-- R65 to R67: a plan replaced, revised and left, the platform staying and the other one, of a call with an ON_ARRIVE or an ON_DISPATCH step that counts. -/
theorem witness_SwapAmendsTheCall_stages : ∀ m ∈ [StepMode.onArrive, .onDispatch], ∀ n ∈ [none, some 11, some 12],
    ∀ plan ∈ [none, some (PlanPart.replace [aSpec .manual]), some (.revise [(0, { aSpec .every with period := 90 })])],
    let a := { Amendment.empty with platform := n, plan := plan }
    let c := { aCall .bound m (timer .counting (some 9)) with staged := some a }
    let s := boundTo c
    KeysAscend s ∧ s.findCall 5 = some c ∧ c.staged = some a ∧ c.state = .bound ∧ s.liveCount 5 = 0 ∧
      s.platChange c a = if n = some 12 then .toLocal .p1 else .stay := by
  intro m hm n hn plan hp
  refine ⟨List.pairwise_singleton _ _, rfl, rfl, rfl, ?_, ?_⟩ <;> revert m n plan <;> decide +kernel

theorem witness_SwapHandsTheCallOver : let a := { Amendment.empty with platform := some 14 }
    let c := { aCall .bound .manual .fresh with staged := some a }
    let s := boundTo c
    s.findCall 5 = some c ∧ c.staged = some a ∧ c.state = .bound ∧ s.liveCount 5 = 0 ∧ s.platChange c a = .handOver 9 14 ∧ s.lc.tx.length < 8 ∧
    (s.pm.get .p0).bound = some 5 := by
  decide +kernel

/-- R19, R59, R60: this node's platforms, another node's and no node's; a claim of the key in use in a zone, in a channel, and in neither. -/
theorem witness_SwapHandsTheCallOver_platforms : let c := aCall .waiting .manual .fresh
    (run.platChange c Amendment.empty = .stay ∧
      [11, 12, 14, 50].map (fun n => run.platChange c { Amendment.empty with platform := some n }) =
        [.stay, .toLocal .p1, .handOver 9 14, .stay]) ∧
    (let e := { aOwn .sent with id := ⟨9, 1⟩ };
      ({ zone2 (playArb .playing) with clt := [e] } : State).liveCount 5 = 1 ∧
      ({ run with clt := [e], rch := ⟨some aChan, none, none, none⟩ } : State).liveCount 5 = 1 ∧ ({ run with clt := [e] } : State).liveCount 5 = 0) := by
  decide +kernel

/-- R63, R68: beside another call, with coaches, points and a plan amended. -/
theorem witness_SwapHandsTheCallOver_others : let a := { Amendment.empty with
      platform := some 14, coaches := some 4, points := some [7], plan := some (.replace [aSpec .atTime]) }
    let c := { aCall .bound .manual .fresh with staged := some a }
    let s := { boundTo c with ct := [c, { aCall .waiting .every .fresh with key := 6 }] }
    KeysAscend s ∧ s.findCall 5 = some c ∧ s.findCall 6 ≠ none ∧ s.liveCount 5 = 0 ∧ s.platChange c a = .handOver 9 14 ∧ s.lc.tx.length < 8 := by
  refine ⟨List.pairwise_pair.mpr (by decide), ?_⟩
  decide +kernel

/-- R68, R167, R168: a full queue whose worst frame is a ZSTAT, a REPORT, a better frame than the HANDOFF, and a ZSTAT under way. -/
theorem witness_SwapHandsTheCallOver_full : let a := { Amendment.empty with platform := some 14 }
    let c := { aCall .bound .manual .fresh with staged := some a }
    let b := List.replicate 7 (aTx (.cede ⟨7, 0⟩ false) false)
    let s := fun g => { boundTo c with lc := { run.lc with tx := b ++ g :: [] } }
    (∀ g ∈ [aTx (.zstat ⟨9, 1⟩ []) false, aTx (.report 0 1 1 0 none []) false, aTx (.cede ⟨7, 0⟩ false) false, aTx (.zstat ⟨9, 1⟩ []) true],
      (s g).findCall 5 = some c ∧ (s g).liveCount 5 = 0 ∧ (s g).platChange c a = .handOver 9 14 ∧ 8 ≤ (s g).lc.tx.length ∧
      (s g).lc.tx.Pairwise (fun x y => x.tier < y.tier ∨ (x.tier = y.tier ∧ x.queuedAt ≤ y.queuedAt)) ∧
      (∀ x ∈ (s g).lc.tx, x.tier = x.body.tier ∧ x.queuedAt ≤ (s g).now)) ∧
    KeysAscend (boundTo c) ∧ 4 < (aTx (.zstat ⟨9, 1⟩ []) false).tier ∧ 4 < (aTx (.report 0 1 1 0 none []) false).tier ∧
    (∀ g ∈ [aTx (.cede ⟨7, 0⟩ false) false, aTx (.zstat ⟨9, 1⟩ []) true], ∀ x ∈ b ++ g :: [], x.underWay = false → x.tier ≤ 4) ∧
    (∀ x ∈ ([] : List TxFrame), x.underWay = true) := by
  refine ⟨?_, List.pairwise_singleton _ _, ?_⟩ <;> decide +kernel

/-- R69, R71: the full queue drops the HANDOFF, and the call is BOUND again with its handoff failed; a REPORT gives way to it, and its buffer is empty. -/
theorem witness_SwapHandsTheCallOver_dropped : let a := { Amendment.empty with platform := some 14, coaches := some 4 }
    let c := { aCall .bound .manual .fresh with staged := some a }
    let b := List.replicate 7 (aTx (.cede ⟨7, 0⟩ false) false)
    let t := fun g => nx (.swap 5) { boundTo c with lc := { run.lc with tx := b ++ [g] } }
    ((t (aTx (.cede ⟨7, 0⟩ false) false)).findCall 5).map (fun d => (d.state, d.handoffFailed, d.changed, d.coaches)) =
      some (.bound, true, false, some 4) ∧
    ((t (aTx (.report 0 1 1 0 none []) false)).findCall 5).map (·.state) = some .handingOff ∧
    (t (aTx (.report 0 1 1 0 none []) false)).lc.tx.map (·.tier) = [1, 1, 1, 1, 1, 1, 1, 4] := by decide +kernel

theorem witness_CallLeavesTheTable :
    (let s := withCall (aCall (.finished .departed) .manual .fresh);
      (∃ c, s.findCall 5 = some c ∧ c.state = .finished .departed) ∧ ∀ e ∈ s.clt, e.origin ≠ none → e.hasKey 5 = false) ∧
    (∃ c, (withCall (aCall .dropping .manual .fresh)).findCall 5 = some c ∧ c.state = .dropping) ∧
    (∃ c, (handing .settled none).findCall 5 = some c ∧ c.state = .handingOff ∧ ∃ h, c.handoff = some h ∧ h.phase = .settled) ∧
    (∃ c, waiting.findCall 5 = some c ∧ c.state = .waiting) ∧
    (let s := { withCall (aCall .dropping .manual .fresh) with clt := [aOwn .sent] }; ∃ e ∈ s.clt, e.origin ≠ none ∧ e.hasKey 5 = true) := by
  refine ⟨⟨⟨_, rfl, rfl⟩, ?_⟩, ⟨_, rfl, rfl⟩, ⟨_, rfl, rfl, _, rfl, rfl⟩, ⟨_, rfl, rfl⟩, _, List.mem_singleton_self _, ?_, ?_⟩ <;> decide +kernel

/-- A call still being handed over, and a key not held: the event has not happened. -/
theorem witness_CallLeavesTheTable_kept :
    (∀ ph ∈ [HandoffPhase.sending, .awaiting], ∃ c h, (handing ph none).findCall 5 = some c ∧ c.state = .handingOff ∧ c.handoff = some h ∧
      h.phase = ph) ∧ run.findCall 5 = none :=
  ⟨fun _ _ => ⟨_, _, rfl, rfl, rfl, rfl⟩, rfl⟩

/-- Eight frames that wait. -/
def full : State := { run with lc := { run.lc with tx := List.replicate 8 (aTx (.cede ⟨7, 0⟩ false) false) } }

theorem framesInOrder_full : FramesInOrder full := by
  constructor <;> decide +kernel

theorem framesInOrder_run : FramesInOrder run := by
  constructor <;> decide +kernel

theorem witness_QueryFillsTheReportBuffer : FramesInOrder run ∧ FramesInOrder full ∧
    (∀ s ∈ [run, full], decodeQuery [0, 0, 0] = some (.node, 0) ∧ s.hears kindQuery (fr [0, 0, 0]) = true ∧ s.forUsAlone (fr [0, 0, 0]) = true ∧
      s.sul.mode = .running ∧ s.lc.report = none) ∧ run.lc.tx.length < 8 ∧ 8 ≤ full.lc.tx.length ∧
    (fault.hears kindQuery (fr [0, 0, 0]) = true ∧ fault.sul.mode = .storeFault) ∧
    decodeQuery [9, 0, 0] = none ∧ listen.sul.mode = .listenOnly :=
  ⟨framesInOrder_run, framesInOrder_full, by decide +kernel⟩

/-- R173: in STORE_FAULT a kind other than NODE, in each mode a key of 0 for a CALL and one beside another kind, and a buffer that holds. -/
theorem witness_QueryFillsTheReportBuffer_ignored : fault.sul.mode = .storeFault ∧ State.reset.sul.mode = .loading ∧
    (∀ b ∈ [1, 2, 3], ∀ key, decodeQuery [b, 0, 0] ≠ some (.node, key)) ∧ (∀ key, decodeQuery [4, 0, 5] ≠ some (.node, key)) ∧
    decodeQuery [4, 0, 0] = none ∧ decodeQuery [1, 0, 5] = none ∧ run.forUsAlone (frAll [0, 0, 0]) = false ∧
    (nx (.query (fr [4, 0, 5]) true) run).lc.report ≠ none := by
  refine ⟨rfl, rfl, ?_, ?_, ?_, ?_, ?_, ?_⟩
  · intro b hb key
    simp only [List.mem_cons, List.not_mem_nil, or_false] at hb
    rcases hb with rfl | rfl | rfl <;> simp [decodeQuery, field8, queryKindOf]
  · intro key
    simp [decodeQuery, field8, queryKindOf]
  all_goals decide +kernel

/-- R173: the buffer holds what the snapshot shows, of a key held and of one not held. -/
theorem witness_QueryFillsTheReportBuffer_shown : waiting.findCall 5 ≠ none ∧ run.findCall 5 = none ∧
    (nx (.query (fr [0, 0, 0]) true) run).lc.report = some (run.latch true .node 0 60) := ⟨by decide +kernel, rfl, rfl⟩

/-- An item that fits one frame's content makes one frame. -/
theorem witness_ReportFitsItsFrames : run.findCall 5 = none ∧ (run.latch true .call 5 60).leftOut = 0 ∧
    (itemBytes (.callNotHeld 5)).length ≤ 75 := by
  refine ⟨rfl, ?_, itemBytes_notHeld_length 5⟩
  show (packItems (contentCap .call) [itemBytes (.callNotHeld 5)]).2 = 0
  rw [packItems_single (itemBytes_notHeld_length 5)]

/-- R173 at the ends: eight items that fill a frame each, a ninth, one item of eight frames, one of a byte more, and one that leaves a byte. That an item
is left out cannot be shown of a report: the bytes of its items are a free value (log 8). -/
theorem witness_ReportFitsItsFrames_needs : framesNeeded 77 [] = 0 ∧ framesNeeded 77 [0] = 1 ∧ framesNeeded 77 (List.replicate 8 77) = 8 ∧
    framesNeeded 77 (List.replicate 9 77) = 9 ∧ framesNeeded 77 [616] = 8 ∧ framesNeeded 77 [617] = 9 ∧ framesNeeded 77 [76, 1, 1] = 2 ∧
    framesNeeded 77 [78, 76, 1] = 3 ∧ framesNeeded 75 [76] = 2 := by decide

theorem witness_OccIsDebounced : KeysAscend run ∧ State.reset.sul.mode = .loading ∧ run.sul.mode ≠ .loading ∧
    (let s := { run with pm := run.pm.set .p0 { run.pm.d0 with occ := true } }; (!(s.pm.get .p0).occ) = (s.pm.get .p0).accOcc) ∧
    ((!(run.pm.get .p0).occ) ≠ (run.pm.get .p0).accOcc ∧ 0 < run.cfg.debounceMs) ∧
    (let s := { run with cfg := { run.cfg with debounceMs := 0 } }; s.cfg.debounceMs = 0 ∧ (!(s.pm.get .p0).occ) = true ∧ (s.pm.get .p0).state = .empty) ∧
    (let s := { boundTo (aCall .bound .manual .fresh) with cfg := { run.cfg with debounceMs := 0 } };
      (!(s.pm.get .p0).occ) = false ∧ (s.pm.get .p0).accOcc = true ∧ (s.pm.get .p0).state ≠ .empty ∧ KeysAscend s) ∧
    (let s := { run with pm := run.pm.set .p0 { run.pm.d0 with occ := true, wait := some 0 } };
      (s.pm.get .p0).wait = some 0 ∧ (s.pm.get .p0).occ = true ∧ (s.pm.get .p0).state = .empty) ∧
    (let s := { run with pm := run.pm.set .p0 { run.pm.d0 with state := .occupied, accOcc := true, wait := some 0 } };
      (s.pm.get .p0).wait = some 0 ∧ (s.pm.get .p0).occ = false ∧ (s.pm.get .p0).state ≠ .empty) := by
  refine ⟨List.Pairwise.nil, rfl, ?_, ?_, ?_, ?_, ⟨?_, ?_, ?_, List.pairwise_singleton _ _⟩, ?_, ?_⟩ <;> decide +kernel

/-- R26, R27, R46: an open gated EVERY step, held and idle, and one ungated; an ON_ARRIVE step idle, SKIPPED(BUSY), counting, and fired. -/
theorem witness_OccIsDebounced_binds :
    (∀ g : Bool, ∀ x ∈ [StepState.counting, .held, .idle, .done],
      (live (window g) (timer x (some 2)) .bound 28850).findStep 5 0 = some { spec := window g, timer := timer x (some 2) } ∧ (window g).gate = g) ∧
    (∀ m : StepMode, ∀ x ∈ [StepState.idle, .skipped .busy, .counting], ∀ n ∈ [0, 1], ∀ d ∈ [(-1 : Int), 0, 1],
      let p := { aSpec m with offset := d }
      let t := { timer x none with fires := n }
      (live p t .bound 0).findStep 5 0 = some { spec := p, timer := t } ∧ (p.offset ≤ 0 ↔ d ≠ 1)) := by
  refine ⟨fun g x _ => ⟨rfl, rfl⟩, fun m x _ n _ d hd => ⟨rfl, ?_⟩⟩
  simp only [List.mem_cons, List.not_mem_nil, or_false] at hd
  rcases hd with rfl | rfl | rfl <;> simp

/-- R45: a call at the ends of the time window and beyond them, with the clock UNSET, and without a reference time. -/
theorem witness_OccIsDebounced_candidates : let s := fun (c : Call) (set : Bool) (t : Nat) =>
      { withCall c with sck := { run.sck with isSet := set, time := t }, pm := run.pm.set .p0 { run.pm.d0 with occ := true, wait := some 0 } }
    let c := aCall .waiting .manual .fresh
    let d := { c with expDep := none }
    (∀ p ∈ [(false, 0), (true, 25200), (true, 30600)], c ∈ (s c p.1 p.2).ct ∧ MayBind (s c p.1 p.2) .p0 c) ∧
    (∀ p ∈ [(true, 25199), (true, 30601)], ¬ MayBind (s c p.1 p.2) .p0 c) ∧
    c.Ranks 28800 ∧ d.Ranks 0 ∧ d ∈ (s d false 0).ct ∧ MayBind (s d false 0) .p0 d := by
  have h : (aCall .waiting .manual .fresh).RefersTo 28800 := Or.inr ⟨rfl, rfl⟩
  refine ⟨?_, ?_, Or.inl h, Or.inr ⟨rfl, rfl, rfl⟩, List.mem_singleton_self _, rfl, rfl, fun h => absurd h (by decide)⟩
  · intro p hp
    refine ⟨List.mem_singleton_self _, ?_⟩
    simp only [List.mem_cons, List.not_mem_nil, or_false] at hp
    rcases hp with rfl | rfl | rfl
    · exact ⟨rfl, rfl, fun h => absurd h (by decide)⟩
    all_goals exact ⟨rfl, rfl, fun _ => ⟨_, h, by decide, by decide⟩⟩
  · rintro p hp ⟨-, -, hw⟩
    obtain ⟨r, hr, h1, h2⟩ := hw (by simp only [List.mem_cons, List.not_mem_nil, or_false] at hp; rcases hp with rfl | rfl <;> rfl)
    obtain hr | ⟨-, hr⟩ := hr
    · simp [aCall] at hr
    · simp only [aCall, Option.some.injEq] at hr
      subst hr
      simp only [List.mem_cons, List.not_mem_nil, or_false] at hp
      rcases hp with rfl | rfl <;> simp at h1 h2

/-- R43, R45, R48: an accepted rise with no candidate, and an accepted fall of a platform without a bound call, one that holds a binding aside. -/
theorem witness_OccIsDebounced_unbound :
    (let s := { run with pm := run.pm.set .p0 { run.pm.d0 with occ := true, wait := some 0 } };
      (s.pm.get .p0).wait = some 0 ∧ (s.pm.get .p0).occ = true ∧ (s.pm.get .p0).state = .empty ∧ s.ct = []) ∧
    (let s := { handing .awaiting (some 0) with pm := run.pm.set .p0 { run.pm.d0 with state := .occupied, accOcc := true, wait := some 0, hold := some 5 } };
      (s.pm.get .p0).wait = some 0 ∧ (s.pm.get .p0).occ = false ∧ (s.pm.get .p0).state ≠ .empty ∧ (s.pm.get .p0).bound = none) := by decide +kernel

theorem witness_DoorsMoveThePlatform : let s := boundTo (aCall .bound .onDispatch .fresh)
    (s.pm.get .p0).doors = false ∧ KeysAscend s ∧ (s.pm.get .p0).state = .occupied ∧ (s.pm.get .p0).bound = some 5 ∧
    (∃ st, s.findStep 5 0 = some st ∧ st.spec.mode = .onDispatch ∧ st.timer.state = .idle ∧ 0 < st.spec.offset) ∧
    (run.pm.get .p0).state ≠ .occupied ∧ ({ run with pm := run.pm.set .p0 { run.pm.d0 with doors := true } }.pm.get .p0).doors = true := by
  refine ⟨rfl, List.pairwise_singleton _ _, rfl, rfl, ⟨_, rfl, rfl, rfl, ?_⟩, ?_, ?_⟩ <;> decide +kernel

/-- R28: a delay below 0, of 0 and above, in each state. -/
theorem witness_DoorsMoveThePlatform_delays : ∀ x ∈ [StepState.idle, .counting, .fired, .skipped .busy, .skipped .full, .held, .done, .skipped .late],
    ∀ d ∈ [(-1 : Int), 0, 1], let p := { aSpec .onDispatch with offset := d }
    (live p (timer x none) .bound 0).findStep 5 0 = some { spec := p, timer := timer x none } := fun _ _ _ _ => rfl

theorem witness_ApproachWarningFires : (run.pm.get .p1).approach = false ∧ run.sul.mode = .running ∧ (run.pm.get .p1).state = .empty ∧
    run.approachBusy .p1 = false ∧ ({ run with cmp := { run.cmp with queue := [anOrig (.approach .p1)] } } : State).approachBusy .p1 = true ∧
    fault.sul.mode ≠ .running := by decide +kernel

theorem witness_EvacuationRepeatsAndStops : run.pins.evac = false ∧ run.sul.mode = .running ∧ fault.sul.mode ≠ .running ∧ run.evacBusy = false ∧
    ({ run with cmp := { run.cmp with queue := [anOrig .evac] } } : State).evacBusy = true ∧
    (let s := { run with evac := { timer := some 0, lastClaim := some ⟨7, 0⟩, level := true }, pins := { evac := true, maint := false } };
      s.evac.level = true ∧ s.evac.timer = some 0 ∧ s.pins.evac = true ∧ s.evac.lastClaim = some ⟨7, 0⟩) ∧
    ({ run with pins := { evac := true, maint := false } } : State).evac.lastClaim = none := by decide +kernel

theorem witness_ComposeMakesTheClaim : ∀ src ∈ [OrigSource.step 5 0, .approach .p0, .evac, .retry ⟨7, 0⟩],
    let s := { waiting with cmp := { waiting.cmp with queue := [anOrig src] } }
    s.sul.mode = .running ∧ s.nodeNo = some 7 ∧ s.cmp.queue = [anOrig src] ∧ s.clt.length < 16 ∧ s.lc.tx.length < 8 ∧
    (s.compositionText (anOrig src)).1 ≠ [] ∧ s.cfg.targetSets.getD 1 0 ≠ 0 ∧
    (s.compositionText { anOrig src with template := 1 }).1 = [] := by decide +kernel

theorem witness_ComposeMakesTheClaim_targets : [0, 1, 2, 3].map run.targetNodes = [[], [7], [7, 9], [7, 9]] := by decide +kernel

theorem witness_SequenceNumberIsTheFirstFree : run.clt.length < 16 ∧ run.lc.tx.length < 8 := by decide +kernel

theorem witness_LongTextsAreCut : (List.replicate 32 (plainCode 1)).length ≤ 32 ∧ (limitLength run.cmp.bases (List.replicate 33 (plainCode 1))).2 = true ∧
    (limitLength run.cmp.bases (List.replicate 32 (plainCode 1))).2 = false := by decide +kernel

/-- The expansion for a step of a call, of a call being handed over, and without a call; the slots' fields present and absent, late by 60 s and by 59. -/
theorem witness_LongTextsAreCut_slots :
    (∃ c st, waiting.findCall 5 = some c ∧ c.steps[0]? = some st ∧ c.state ≠ .handingOff ∧ (anOrig (.step 5 0)).call = some (5, 0)) ∧
    (∃ c st, (handing .sending none).findCall 5 = some c ∧ c.steps[0]? = some st ∧ c.state = .handingOff ∧
      c.handoff = some (aHandoff .sending none)) ∧
    ({ anOrig .evac with call := none } : Orig).call = none ∧
    (∀ d ∈ [59, 60], let c := { aCall .waiting .manual .fresh with expDep := some (28800 + d) }
      c.scheduled .dep = some 28800 ∧ c.expected .dep = some (28800 + d)) ∧
    (let c := aCall .waiting .manual .fresh; c.dest = some 3 ∧ c.origin = none ∧ c.coaches = some 8 ∧ c.expArr = none ∧ c.expDep = some 28800) ∧
    ((28800 % 3600 < 60 ∧ ¬ 28859 % 3600 ≥ 60 ∧ 60 ≤ 28860 % 3600) ∧ run.cmp.bases.coaches = 0 ∧ (2047 : Nat) < 2040 + 8 ∧ 2039 + 8 ≤ 2047) := by
  refine ⟨⟨_, _, rfl, rfl, by decide, rfl⟩, ⟨_, _, rfl, rfl, rfl, rfl⟩, rfl, ?_, ?_, ?_⟩ <;> decide +kernel

/-- R86: 33 codes with a calling point before one that is not, with a code for other stations and without; 33 without any calling point. -/
theorem witness_LongTextsAreCut_points : let k : Spoken := { code := 9, calling := true }
    let l := List.replicate 31 (plainCode 1) ++ [k, k]
    32 < l.length ∧ l = (List.replicate 31 (plainCode 1) ++ [k]) ++ k :: [] ∧ k.calling = true ∧
    ({ run.cmp.bases with andOthers := 500 } : Bases).andOthers ≠ 0 ∧ run.cmp.bases.andOthers = 0 ∧
    (limitLength run.cmp.bases l).1.length = 32 ∧ limitLength { run.cmp.bases with andOthers := 500 } l =
      (List.replicate 31 (plainCode 1) ++ [plainCode 500], false) ∧
    (32 < (List.replicate 33 (plainCode 1)).length ∧ ∀ c ∈ List.replicate 33 (plainCode 1), c.calling = false) := by decide +kernel

theorem witness_PeerClaimIsEntered : let f := frAll claimBody
    let c : ClaimFrame := { aClaim with seq := 0, offset10 := 0 }
    decodeClaim f.body = some c ∧ run.hears kindClaim f = true ∧ run.fromUs f = false ∧ 1 ≤ f.src.toNat ∧ f.src.toNat ≤ 48 ∧
    (c.groups ≠ 0 ∧ run.hasTarget c.groups = true ∧ (∀ d ∈ run.clt, d.id ≠ ⟨9, 0⟩) ∧ run.clt.length < 16) ∧
    (let s := { run with clt := [aRecv 0 2] }; ∃ d ∈ s.clt, d.id = ⟨9, 0⟩) ∧
    (let s := { run with clt := (List.range 16).map (fun i => aRecv (i + 1) 2) };
      (∀ d ∈ s.clt, d.id ≠ ⟨9, 0⟩) ∧ 16 ≤ s.clt.length ∧ ∀ d ∈ s.clt, d.cls ≤ c.cls) ∧
    (let r := (List.range 15).map (fun i => aRecv (i + 2) 2);
      let s := { run with clt := [] ++ aRecv 1 3 :: r };
      (∀ d ∈ s.clt, d.id ≠ ⟨9, 0⟩) ∧ 16 ≤ s.clt.length ∧ c.cls < (aRecv 1 3).cls ∧ ∀ x ∈ r, x.cls < (aRecv 1 3).cls) := by
  refine ⟨?_, ?_, ?_, ?_, ?_, ?_, ⟨_, List.mem_singleton_self _, rfl⟩, ?_, ?_⟩ <;> decide +kernel

/-- An entry offered, and one evicted where it waits, where it is next, and where it is current, with a withdrawal pending and without. -/
theorem witness_PeerClaimIsEntered_evicted : (zone2 cutArb).findEntry ⟨9, 1⟩ = some (aRecv 1 4) ∧ (zone2 cutArb).whole .i2 = false ∧
    (let a := ((zone2 { playArb .playing with wait := [aHeld 5 .loose 2 0] }).za.get .i2).arb; ∃ h ∈ a.wait, h.id = ⟨9, 2⟩) ∧
    (let a := ((zone2 cutArb).za.get .i2).arb;
      (∀ h ∈ a.wait, h.id ≠ ⟨9, 2⟩) ∧ a.next = some (aHeld 2 .loose 2 0) ∧ a.current = some (aHeld 4 .loose 1 0) ∧
      (∀ w ∈ a.wait.head?, (aHeld 4 .loose 1 0).cls ≤ w.cls) ∧ (aHeld 2 .loose 2 0).id = ⟨9, 2⟩) ∧
    (∀ st ∈ [ZoneState.leadIn, .playing], ∀ wd : Bool, let a := ((zone2 { playArb st with wdPending := wd }).za.get .i2).arb;
      (∀ h ∈ a.wait, h.id ≠ ⟨9, 1⟩) ∧ a.next = none ∧ a.current = some (aHeld 4 .loose 1 0) ∧ a.state = st ∧ a.wdPending = wd ∧
        (aHeld 4 .loose 1 0).id = ⟨9, 1⟩) ∧ (aRecv 1 4).disp.get .i2 = .pending := by
  refine ⟨?_, ?_, ⟨_, List.mem_singleton_self _, rfl⟩, ?_, ?_, ?_⟩ <;> decide +kernel

/-- R92, R180, R184: a zone that a group names, one whose partner it names, one that it does not; and every zone in STORE_FAULT. -/
theorem witness_PeerClaimIsEntered_targets : let s := { run with cfg := { run.cfg with groupMap := [2 ^ 24] } }
    (s.cfg.groupMap.getD 0 0).getLsbD 24 = true ∧ s.startDisp 1 = ⟨.pending, .pending, .notTarget, .notTarget⟩ ∧
    ({ fault with cfg := s.cfg } : State).startDisp 1 = Quad.const .pending ∧ fault.startDisp 0 = Quad.const .notTarget := by decide +kernel

/-- R123, R124: the next claim of a WHOLE pair evicted with no head, a head no better, and better ones LOOSE, due and not due. -/
theorem witness_PeerClaimIsEntered_pair : ∀ w ∈ [[], [aHeld 4 .loose 3 9], [aHeld 3 .loose 3 0], [aHeld 1 .loose 3 9], [aHeld 3 .joint 3 0]],
    let a := { cutArb with wait := w }
    let s := { zone2 a with za := ⟨{ aZone (some .whole) with arb := a }, { aZone (some .whole) with arb := a }, aZone none, aZone none⟩ }
    s.unit .i0 = [.i0, .i1] ∧ (∀ y ∈ s.unit .i0, (s.za.get y).arb = a) ∧ (∀ h ∈ a.wait, h.id ≠ (⟨9, 2⟩ : ClaimId)) ∧
    a.next = some (aHeld 2 .loose 2 0) ∧ (aHeld 2 .loose 2 0).id = ⟨9, 2⟩ ∧ a.current = some (aHeld 4 .loose 1 0) ∧ a.state = .cutting := by
  decide +kernel

theorem witness_CedeWithdrawsTheClaim :
    (decodeCede [9, 1, 1] = some (⟨9, 1⟩, true) ∧ playing.hears kindCede (frAll [9, 1, 1]) = true ∧ (frAll [9, 1, 1]).src.toNat = 9 ∧
      (⟨8, 0, [9, 1, 1]⟩ : RxFrame).src.toNat ≠ 9) ∧
    playing.whole .i2 = false ∧
    (let a := ((zone2 { playArb .playing with wait := [aHeld 5 .loose 2 0] }).za.get .i2).arb; ∃ h ∈ a.wait, h.id = ⟨9, 2⟩) ∧
    (∀ st ∈ [ZoneState.leadIn, .playing], let a := ((zone2 (playArb st)).za.get .i2).arb
      (∀ h ∈ a.wait, h.id ≠ ⟨9, 1⟩) ∧ a.next = none ∧ a.current = some (aHeld 4 .loose 1 0) ∧ (aHeld 4 .loose 1 0).id = ⟨9, 1⟩ ∧ a.state = st) := by
  refine ⟨?_, ?_, ⟨_, List.mem_singleton_self _, rfl⟩, ?_⟩ <;> decide +kernel

/-- A WHOLE pair, whose members hold the same; the next claim, with no head of the wait list, a head that is no better, one that is better, not yet due
and due; the current claim of a CUTTING zone, its next claim kept; and a unit that does not hold the claim. -/
theorem witness_CedeWithdrawsTheClaim_units :
    (∀ st ∈ [ZoneState.playing, .cutting], let a := if st = .cutting then cutArb else playArb st
      let s := { run with za := ⟨{ aZone (some .whole) with arb := a }, { aZone (some .whole) with arb := a }, aZone none, aZone none⟩ }
      s.unit .i0 = [.i0, .i1] ∧ (∀ y ∈ s.unit .i0, (s.za.get y).arb = a) ∧ a.current = some (aHeld 4 .loose 1 0) ∧ a.state = st ∧ a.state.plays = true ∧
        (∀ n, a.next = some n → n.id ≠ (⟨9, 1⟩ : ClaimId)) ∧ (∀ h ∈ a.wait, h.id ≠ (⟨9, 1⟩ : ClaimId)) ∧
        (∀ h ∈ a.wait, h.id ≠ (⟨9, 8⟩ : ClaimId)) ∧ (aHeld 4 .loose 1 0).id ≠ ⟨9, 8⟩) ∧
    (∀ w ∈ [[], [aHeld 4 .loose 3 9], [aHeld 3 .loose 3 0], [aHeld 1 .loose 3 9], [aHeld 3 .joint 3 0]],
      let a := { cutArb with wait := w }
      let s := zone2 a
      s.unit .i2 = [.i2] ∧ (s.za.get .i2).arb = a ∧ a.next = some (aHeld 2 .loose 2 0) ∧ (aHeld 2 .loose 2 0).id = ⟨9, 2⟩ ∧
        (aHeld 4 .loose 1 0).id ≠ ⟨9, 2⟩ ∧ (∀ h ∈ w, h.id ≠ (⟨9, 2⟩ : ClaimId)) ∧ s.now = 0 ∧
        s.findEntry ⟨9, 2⟩ = some (aRecv 2 2) ∧ (aRecv 2 2).disp.get .i2 = .pending) := by decide +kernel

theorem witness_OwnClaimsAreWithdrawn : ∀ x ∈ [SendState.queued, .sent, .failed], let s := { run with clt := [aOwn x] }
    s.findEntry ⟨7, 0⟩ = some (aOwn x) ∧ (aOwn x).origin = some (aPart x) ∧ (aPart x).ceded = false ∧ (aPart x).send = x ∧
    s.now ≤ (aOwn x).plannedEnd.getD 0 ∧ (aOwn x).plannedEnd.getD 0 < ({ s with sck := { s.sck with running := 1 } } : State).now ∧
    (∀ f ∈ s.lc.tx, f.isClaim 0 = true → f.underWay = false) ∧ (aTx (.claim aClaim) true).isClaim 0 = true := by decide +kernel

theorem witness_EntriesAreReportedAndRemoved :
    decodeZstat [7, 0, 2, 16, 33] = some (⟨7, 0⟩, [(.i0, .played), (.i1, .preempted)]) ∧ run.hears kindZstat ⟨9, 7, [7, 0, 2, 16, 33]⟩ = true ∧
    (let e := { aRecv 1 4 with settled := true, zstat := .sent }; ({ run with clt := [e] } : State).findEntry ⟨9, 1⟩ = some e ∧ e.settled = true) ∧
    (let e := aRecv 1 4; ({ run with clt := [e] } : State).findEntry ⟨9, 1⟩ = some e ∧ e.settled = false) := by decide +kernel

/-- Entries whose settling is due and is not: received, with its ZSTAT pending and not needed, by a full queue too; and of the node's own. -/
theorem witness_EntriesAreReportedAndRemoved_settled :
    (let done := fun (e : Entry) => { e with disp := ⟨.notTarget, .notTarget, .played, .notTarget⟩ };
      (∀ x ∈ [ZstatState.pending, .notNeeded], let e := { done (aRecv 1 4) with zstat := x };
        ({ run with clt := [e] } : State).findEntry ⟨9, 1⟩ = some e ∧ e.settled = false ∧ (∀ z, e.disp.get z ≠ .pending) ∧ e.start ≠ none ∧
          e.origin = none ∧ e.zstat = x) ∧
      (let e := done (aOwn .sent); e.settled = false ∧ (∀ z, e.disp.get z ≠ .pending) ∧ e.start ≠ none ∧ e.origin = some (aPart .sent))) ∧
    (aRecv 1 4).disp.get .i2 = .pending ∧ run.nodeNo = some 7 ∧ listen.nodeNo = none ∧
    (let f := aTx (.zstat ⟨9, 1⟩ []) false;
      (txOffer run.lc.tx f).2 = none ∧ (txOffer full.lc.tx f).2 = some f ∧
      (txOffer (List.replicate 8 (aTx (.report 0 1 1 0 none []) false)) f).2 = some (aTx (.report 0 1 1 0 none []) false)) := by
  refine ⟨⟨?_, ?_⟩, ?_, ?_, ?_, ?_⟩
  · intro x _
    refine ⟨by cases x <;> decide +kernel, rfl, ?_, by simp [aRecv], rfl, rfl⟩
    intro z
    cases z <;> simp [Quad.get]
  · refine ⟨rfl, ?_, by simp [aOwn, aRecv], rfl⟩
    intro z
    cases z <;> simp [Quad.get]
  all_goals decide +kernel

theorem witness_WindowCloseDecidesTheRetry : let s := { waiting with clt := [aOwn .sent] }
    s.findEntry ⟨7, 0⟩ = some (aOwn .sent) ∧ (aOwn .sent).origin = some (aPart .sent) ∧ (aPart .sent).windowOpen = true ∧
    (aPart .sent).windowEnd = some 0 ∧ (0 : Nat) ≤ s.now ∧ (aOwn .sent).call = some (5, 0) ∧
    s.findStep 5 0 = some (aStep .manual .fresh) ∧ (aStep .manual .fresh).spec.retry = true ∧ (aPart .sent).retryUsed = false ∧
    (aPart .sent).isRetry = false ∧ (aPart .sent).noRetry = false ∧ s.retryGroups (aPart .sent).lines ≠ 0 ∧
    ({ run with clt := [aOwn .sent] } : State).findStep 5 0 = none := by decide +kernel

theorem witness_OfferIsDecided :
    (run.effCode .i2 7 = .refuse ∧ run.effCode .i2 2 ≠ .refuse ∧ (run.za.get .i2).arb = Arb.bare .idle ∧ (run.za.get .i0).arb = Arb.bare .idle) ∧
    ((zone2 (Arb.bare .fault)).za.get .i2).arb.state = .fault ∧
    (let h := aHeld 2 .joint 2 0;
      h.sync = .joint ∧ h.start < ({ run with sck := { run.sck with running := 1 } } : State).now ∧ ¬ h.start < run.now ∧ run.now < (aHeld 2 .joint 2 1).start) ∧
    (∀ st ∈ [ZoneState.leadIn, .playing], let a := ((zone2 (playArb st)).za.get .i2).arb
      a.state = st ∧ a.current = some (aHeld 4 .loose 1 0) ∧ a.next = none ∧ (aHeld 2 .loose 2 0).cls < (aHeld 4 .loose 1 0).cls ∧
      (aHeld 4 .loose 1 0).id ≠ (aHeld 2 .loose 2 0).id ∧ (aHeld 4 .loose 1 0).cls ≤ (aHeld 4 .loose 2 0).cls) ∧
    (let a := ((zone2 cutArb).za.get .i2).arb;
      a.state = .cutting ∧ a.next = some (aHeld 2 .loose 2 0) ∧ (aHeld 1 .loose 3 0).cls < (aHeld 2 .loose 2 0).cls ∧
      (aHeld 2 .loose 2 0).cls ≤ (aHeld 2 .loose 3 0).cls) := by decide +kernel

/-- A wait list of three and of four, in order, an offer and a displaced next claim that stand ahead of the last and behind it. -/
theorem witness_OfferIsDecided_waits :
    let l := fun n => (List.range n).map (fun i => { aHeld (2 + i) .loose (2 + i) 0 with arrival := i })
    (∀ n ∈ [0, 3, 4], (l n).Pairwise (fun g k => g.cls < k.cls ∨ (g.cls = k.cls ∧ g.arrival ≤ k.arrival)) ∧ (l n).length = n) ∧
    l 4 = l 3 ++ [{ aHeld 5 .loose 5 0 with arrival := 3 }] ∧
    ((aHeld 5 .loose 5 0).cls ≤ (aHeld 5 .loose 9 0).cls ∧ ¬ (aHeld 5 .loose 5 0).cls ≤ (aHeld 4 .loose 9 0).cls) ∧
    (let x := { aHeld 5 .loose 5 0 with arrival := 3 };
      x.arrival < { aHeld 5 .loose 9 0 with arrival := 4 }.arrival ∧ ¬ x.arrival < { aHeld 5 .loose 9 0 with arrival := 3 }.arrival) := by
  decide +kernel

/-- R111, R184: a WHOLE pair, a single zone, and STORE_FAULT for class 0 and another. -/
theorem witness_OfferIsDecided_codes : (run.za.get .i0).pair = some .whole ∧ (run.za.get .i2).pair ≠ some .whole ∧ fault.sul.mode = .storeFault ∧
    run.sul.mode ≠ .storeFault ∧ fault.effCode .i0 0 = .accept ∧ fault.effCode .i0 1 = .refuse ∧
    (let s := { run with za := run.za.set .i1 { aZone (some .whole) with row := { aRow with c1 := .refuse } } };
      s.effCode .i0 1 = .refuse ∧ s.effCode .i0 4 = .quiet ∧ s.effCode .i0 0 = .accept) := by decide +kernel

theorem witness_OfferIsDecided_units : (∀ y ∈ run.unit .i0, (run.za.get y).arb = (run.za.get .i0).arb) ∧ run.unit .i0 = [.i0, .i1] ∧
    ∀ y ∈ playing.unit .i2, (playing.za.get y).arb = playArb .playing := by decide +kernel

theorem witness_ZonesLeaveAndRejoin :
    ((run.za.get .i0).ampFault = false ∧ run.sul.mode ≠ .loading ∧ (run.za.get .i0).arb.state ≠ .fault ∧ (run.za.get .i0).arb.state ≠ .outOfService) ∧
    State.reset.sul.mode = .loading ∧
    (∀ p ∈ [none, some PairState.broken], ∀ st ∈ [ZoneState.idle, .playing, .fault],
      let s := { run with za := ⟨{ aZone p with arb := Arb.bare .fault, ampFault := true }, { aZone p with arb := playArb st }, aZone none, aZone none⟩ }
      (s.za.get .i0).ampFault = true ∧ s.sul.mode ≠ .loading ∧ (s.za.get .i0).arb = Arb.bare .fault ∧ (s.za.get .i0).pair = p ∧
      (s.za.get (Idx4.i0).partner).arb.state = st) ∧
    (∀ st ∈ [ZoneState.idle, .playing],
      let s := { run with za := ⟨{ aZone (some .broken) with arb := Arb.bare .rejoining, reformDue := true }, { aZone (some .broken) with arb := playArb st },
        aZone none, aZone none⟩ }
      (s.za.get .i0).arb.state = .rejoining ∧ (s.za.get .i0).pair = some .broken ∧ (s.za.get .i0).reformDue = true ∧
      (s.za.get (Idx4.i0).partner).arb.state = st ∧ st.serves = true) := by decide +kernel

/-- R126: a REJOINING zone whose partner plays and has not chosen since, and the partner whose choice marks it. -/
theorem witness_ZonesLeaveAndRejoin_marked :
    let s := { run with za := ⟨{ aZone (some .broken) with arb := Arb.bare .rejoining }, { aZone (some .broken) with arb := playArb .playing },
      aZone none, aZone none⟩ }
    (s.za.get .i0).pair = some .broken ∧ (s.za.get (Idx4.i0).partner).arb.state ≠ .idle ∧ (s.za.get .i0).reformDue = false ∧
    (s.za.get .i1).pair = some .broken ∧ (s.za.get (Idx4.i1).partner).arb.state = .rejoining ∧
    ((s.chooseNext [.i1] (playArb .playing)).za.get .i0).reformDue = true := by decide +kernel

/-- R126, R151: a pair re-formed with a partner that plays, its channel attached, and the level the rejoining member takes. -/
theorem witness_ZonesLeaveAndRejoin_plays :
    let z := { aZone (some .broken) with arb := Arb.bare .rejoining, reformDue := true }
    let p := { aZone (some .broken) with arb := playArb .playing }
    let s := { run with
      za := ⟨z, p, aZone none, aZone none⟩, rch := ⟨some { aChan with attached := ⟨false, true, false, false⟩ }, none, none, none⟩ }
    z.arb.state = .rejoining ∧ z.pair = some .broken ∧ z.reformDue = true ∧ p.arb.state.serves = true ∧ p.arb.state.plays = true ∧
    p.arb.current = some (aHeld 4 .loose 1 0) ∧ s.chanOf .i1 = some .i0 ∧
    ((nx (.pairReform .i0) s).lu.zones.get .i0).level = s.levelFor .i0 (aHeld 4 .loose 1 0) := by decide +kernel

theorem witness_InstantsAreTaken : let s := zone2 (playArb .leadIn)
    let t := { zone2 { cutArb with stopAt := some 0 } with rch := ⟨some aChan, none, none, none⟩ }
    (s.za.get .i2).arb.current = some (aHeld 4 .loose 1 0) ∧ (s.za.get .i2).arb.state = .leadIn ∧ (aHeld 4 .loose 1 0).start ≤ s.now ∧
    s.rch.get .i0 = none ∧ ((zone2 (playArb .playing)).za.get .i2).arb.state ≠ .leadIn ∧
    (t.za.get .i2).arb.current = some (aHeld 4 .loose 1 0) ∧ (t.za.get .i2).arb.state = .cutting ∧ (t.za.get .i2).arb.stopAt = some 0 ∧
    (0 : Nat) ≤ t.now ∧ (t.za.get .i2).arb.next = some (aHeld 2 .loose 2 0) ∧ (aHeld 2 .loose 2 0).tooLate t.now = false ∧
    t.findEntry ⟨9, 1⟩ = some (aRecv 1 4) ∧ (aRecv 1 4).disp.get .i2 = .pending ∧ t.zoneDelivered .i2 = false ∧
    ({ t with rch := ⟨some { aChan with pos := 2 }, none, none, none⟩ } : State).zoneDelivered .i2 = true := by decide +kernel

/-- What a zone turns to: a next claim too late, a waiter too late and one that can begin; none at all; and the instant just before the last boundary. -/
theorem witness_InstantsAreTaken_chosen : let s := fun w => { zone2 { cutArb with stopAt := some 0, wait := w } with
      rch := ⟨some { aChan with bind16 := 94, pos := 2, delivered := 2 }, none, none, none⟩, sck := { run.sck with running := 6 } }
    (∀ w ∈ [[], [aHeld 2 .joint 3 0, aHeld 4 .loose 4 6]], ((s w).za.get .i2).arb.next.toList ++ ((s w).za.get .i2).arb.wait = aHeld 2 .loose 2 0 :: w) ∧
    ((aHeld 2 .loose 2 0).latest = some 5 ∧ 5 < (s []).now ∧ (aHeld 2 .joint 3 0).start < (s []).now ∧ (s []).now ≤ (aHeld 4 .loose 4 6).start) ∧
    ((s []).findEntry ⟨9, 2⟩ = some (aRecv 2 2) ∧ (aRecv 2 2).disp.get .i2 = .pending ∧ (aHeld 2 .loose 2 0).id ≠ (aHeld 4 .loose 1 0).id) ∧
    (s []).chanOf .i2 = some .i0 ∧ (s []).zoneDelivered .i2 = true ∧
    ({ s [] with sck := { run.sck with running := 5, sub := 15 } } : State).zoneDelivered .i2 = false := by decide +kernel

/-- R134, R141: a channel bound to the claim at this instant, at another instant, and none; a code held and none held; in STORE_FAULT; a REJOINING
partner. -/
theorem witness_InstantsAreTaken_channels : let h := aHeld 4 .loose 1 0
    (zone2 (playArb .playing)).rch = ⟨none, none, none, none⟩ ∧ ((zone2 (playArb .playing)).za.get .i2).arb.current = some h ∧
    (playing.rch.get .i0 = some aChan ∧ aChan.claim = h.id ∧ aChan.bind16 = 16 * playing.sck.running + playing.sck.sub) ∧
    aChan.bind16 ≠ 16 * ({ playing with sck := { run.sck with running := 1 } } : State).sck.running ∧
    FirstHeld run [1] 0 (some 0) ∧ FirstHeld run [2] 0 none ∧ fault.sul.mode = .storeFault ∧
    (let a := { cutArb with stopAt := some 0 }
     let u := { run with za := ⟨aZone none, aZone none, { aZone (some .broken) with arb := a }, { aZone (some .broken) with arb := Arb.bare .rejoining }⟩ };
      (u.za.get .i2).pair = some .broken ∧ (u.za.get (Idx4.i2).partner).arb.state = .rejoining ∧ (u.za.get .i2).arb = a) := by
  have h1 : run.dirEntry 1 = some { addr := 20359, len := 2 } := rfl
  have h2 : run.dirEntry 2 = none := rfl
  have ha : FirstHeld run [1] 0 (some 0) := by
    refine ⟨fun j hj => ?_, nofun⟩
    cases hj
    exact ⟨le_refl _, by decide, by rw [show List.getD [1] 0 0 = 1 from rfl, h1]; simp, fun m h h' => by omega⟩
  have hb : FirstHeld run [2] 0 none := by
    refine ⟨nofun, fun _ m _ hm => ?_⟩
    simp only [List.length_cons, List.length_nil, Nat.zero_add, Nat.lt_one_iff] at hm
    subst hm
    exact h2
  exact ⟨rfl, rfl, ⟨rfl, rfl, rfl⟩, by decide, ha, hb, rfl, rfl, rfl, rfl⟩

/-- R119: no next claim that can begin, and a LOOSE waiter one instant past its latest start, and two. -/
theorem witness_InstantsAreTaken_tie : let h := aHeld 4 .loose 2 0
    let s := fun now => { zone2 { cutArb with next := some (aHeld 2 .joint 3 0), stopAt := some 0, wait := [h] } with sck := { run.sck with running := now } }
    (∀ now ∈ [6, 7], ((s now).za.get .i2).arb.next = some (aHeld 2 .joint 3 0) ∧ ((s now).za.get .i2).arb.wait = [h] ∧
      (aHeld 2 .joint 3 0).sync = .joint ∧ ¬ (s now).now ≤ (aHeld 2 .joint 3 0).start ∧ ((s now).now ≤ 5 + 1 ↔ now = 6)) ∧ h.latest = some 5 := by
  decide +kernel

theorem witness_WaitersAreMissed :
    (let s := zone2 { playArb .playing with wait := [aHeld 5 .joint 2 0] };
      ∃ h ∈ (s.za.get .i2).arb.wait, h.id = ⟨9, 2⟩ ∧ h.sync = .joint ∧ h.start ≤ s.now) ∧
    (let z := zone2 { playArb .playing with wait := [aHeld 5 .loose 2 0] };
      let s := { z with sck := { z.sck with running := 6 } };
      ∃ h ∈ (s.za.get .i2).arb.wait, h.id = ⟨9, 2⟩ ∧ h.sync = .loose ∧ ∃ l, h.latest = some l ∧ l < s.now) ∧
    (∀ h ∈ (run.za.get .i2).arb.wait, h.id ≠ ⟨9, 2⟩) ∧
    (let a := { cutArb with wait := [aHeld 3 .loose 3 9] };
      let s := { zone2 a with sck := { run.sck with running := 6 } };
      (s.za.get .i2).arb = a ∧ a.state = .cutting ∧ a.next = some (aHeld 2 .loose 2 0) ∧ (aHeld 2 .loose 2 0).sync = .loose ∧
      (aHeld 2 .loose 2 0).latest = some 5 ∧ 5 < s.now ∧ a.current = some (aHeld 4 .loose 1 0) ∧ (aHeld 3 .loose 3 9).cls < (aHeld 4 .loose 1 0).cls ∧
      2 ≤ (aHeld 3 .loose 3 9).cls ∧ (aHeld 3 .loose 3 9).sync = .loose) ∧
    (∀ w ∈ cutArb.wait.head?, (aHeld 4 .loose 1 0).cls ≤ w.cls) := by
  refine ⟨⟨_, List.mem_singleton_self _, ?_⟩, ⟨_, List.mem_singleton_self _, rfl, rfl, 5, ?_⟩, ?_, ?_, ?_⟩ <;> decide +kernel

/-- R119, R123: waiting but not due, waiting with the other sync, and a next claim at its latest start, not LOOSE, or of a zone that plays on; a better head
whose start instant is reached. -/
theorem witness_WaitersAreMissed_early :
    (let s := zone2 { playArb .playing with wait := [aHeld 5 .joint 2 1] }; ¬ ∃ h ∈ (s.za.get .i2).arb.wait, h.id = ⟨9, 2⟩ ∧ h.sync = .joint ∧ h.start ≤ s.now) ∧
    (let s := { zone2 { playArb .playing with wait := [aHeld 5 .loose 2 0] } with sck := { run.sck with running := 5 } };
      (∃ h ∈ (s.za.get .i2).arb.wait, h.id = ⟨9, 2⟩ ∧ h.sync = .loose ∧ h.latest = some s.now) ∧
      ¬ ∃ h ∈ (s.za.get .i2).arb.wait, h.id = ⟨9, 2⟩ ∧ h.sync = .joint ∧ h.start ≤ s.now) ∧
    (∀ n ∈ [aHeld 2 .loose 2 1, aHeld 2 .joint 2 0], let s := { zone2 { cutArb with next := some n } with sck := { run.sck with running := 6 } }
      (s.za.get .i2).arb.state = .cutting ∧ (s.za.get .i2).arb.next = some n ∧ (n.sync = .joint ∨ n.latest = some s.now)) ∧
    (let a := { cutArb with wait := [aHeld 1 .joint 3 0] }
     let s := { zone2 a with sck := { run.sck with running := 6 } };
      (s.za.get .i2).arb.wait = aHeld 1 .joint 3 0 :: [] ∧ (aHeld 1 .joint 3 0).cls < (aHeld 4 .loose 1 0).cls ∧ (aHeld 1 .joint 3 0).start ≤ s.now ∧
      (∀ n, a.next = some n → n.id ≠ (aHeld 4 .loose 1 0).id) ∧ s.findEntry ⟨9, 1⟩ = some (aRecv 1 4)) := by
  refine ⟨?_, ⟨⟨_, List.mem_singleton_self _, ?_⟩, ?_⟩, ?_, ?_⟩ <;> decide +kernel

/-- R119: a JOINT head at its start instant, and a LOOSE one at the first instant after its latest start. -/
theorem witness_WaitersAreMissed_turns : ∀ h ∈ [aHeld 5 .joint 2 6, aHeld 5 .loose 2 0],
    let s := { zone2 { playArb .playing with wait := [h] } with sck := { run.sck with running := 6 } }
    (s.za.get .i2).arb.next = none ∧ (s.za.get .i2).arb.wait = h :: [] ∧ h.start ≤ s.now ∧ (h.sync = .joint → s.now = h.start) ∧
    (h.sync = .loose → h.latest = some 5 ∧ s.now ≤ 5 + 1) := by decide +kernel

theorem witness_AttributesAreSet : let f := fr [2, 0, 0, 120, 120, 1]
    let g := fr [2, 0, 0, 121, 0, 1]
    (∀ s ∈ [run, fault], s.hears kindZattr f = true ∧ s.forUsAlone f = true) ∧ fault.sul.mode = .storeFault ∧ run.sul.mode = .running ∧
    (let s := { listen with sul := { listen.sul with strap := 7 } }; s.hears kindZattr f = true ∧ s.forUsAlone f = true ∧ s.sul.mode = .listenOnly) ∧
    run.hears kindZattr g = true ∧ readZattr g.body = none ∧
    (readZattr f.body).map (fun r => (r.1, r.2.2)) = some (.i2, true) ∧ (readZattr [2, 0, 0, 120, 120, 0]).map (fun r => r.2.2) = some false ∧
    (run.za.get .i2).service = true ∧
    (let s := { run with za := run.za.set .i2 { aZone none with service := false, arb := Arb.bare .outOfService, ampFault := true } };
      (s.za.get .i2).service = false ∧ (s.za.get .i2).ampFault = true) ∧
    run.forUsAlone (frAll [2, 0, 0, 0, 0, 1]) = false ∧
    (let s := { run with za := run.za.set .i2 { aZone none with staged := some { row := aRow, base := 70, floor := 40 } } };
      (s.za.get .i2).staged = some { row := aRow, base := 70, floor := 40 } ∧ (s.za.get .i2).arb.state = .idle) ∧
    (run.za.get .i2).staged = none := by decide +kernel

/-- R128, R129: a WHOLE pair that plays, its zone taken out; a zone out of service beside a partner in each state; the values that fail. -/
theorem witness_AttributesAreSet_service :
    (let r := { aZone (some .whole) with arb := playArb .playing }
      let s := { playing with za := ⟨aZone none, aZone none, r, r⟩ };
      (s.za.get .i2).service = true ∧ (s.za.get .i2).pair = some .whole ∧ aHeld 4 .loose 1 0 ∈ (s.za.get .i2).arb.held ∧
      s.findEntry (aHeld 4 .loose 1 0).id = some (aRecv 1 4) ∧ (aRecv 1 4).disp.get .i2 = .pending) ∧
    (∀ p ∈ [none, some PairState.broken], ∀ st ∈ [ZoneState.idle, .leadIn, .playing, .cutting, .fault, .outOfService, .rejoining],
      let s := { run with za := ⟨aZone none, aZone none, { aZone p with service := false, arb := Arb.bare .outOfService }, { aZone p with arb := Arb.bare st }⟩ }
      (s.za.get .i2).service = false ∧ (s.za.get .i2).ampFault = false ∧ (s.za.get .i2).pair = p ∧ (s.za.get (Idx4.i2).partner).arb.state = st) ∧
    [[4, 0, 0, 0, 0, 1], [2, 0, 3, 0, 0, 1], [2, 0, 0, 0, 121, 1], [2, 0, 0, 0, 0, 1, 0]].map readZattr = [none, none, none, none] ∧
    (readZattr [2, 128, 1, 0, 120, 3]).map (fun r => (r.1, (List.range 8).map r.2.1.row.code, r.2.1.floor, r.2.2)) =
      some (.i2, [.quiet, .accept, .accept, .accept, .accept, .accept, .accept, .refuse], 120, true) := by decide +kernel

theorem zonesKept_playing : ZonesKept playing := by
  intro z
  cases z <;> constructor <;> decide +kernel

theorem directoryInRange_run : DirectoryInRange run := by
  intro e h
  simp only [run, List.mem_singleton, Option.some.injEq] at h
  subst h
  decide

theorem zonesKept_run : ZonesKept run := by
  intro z
  cases z <;> constructor <;> decide +kernel

theorem channelsServe_run : ChannelsServe run := by
  have h : ∀ c, run.rch.get c = none := by intro c; cases c <;> rfl
  refine ⟨?_, ?_, ?_, ?_, ?_, ?_⟩
  · intro c ch hc; rw [h] at hc; exact absurd hc (by simp)
  · intro z hz; cases z <;> exact absurd hz (by decide +kernel)
  · rintro z c d ⟨ch, hc, _⟩; rw [h] at hc; exact absurd hc (by simp)
  · rintro z c ⟨ch, hc, _⟩; rw [h] at hc; exact absurd hc (by simp)
  · rintro z c _ ⟨ch, hc, _⟩; rw [h] at hc; exact absurd hc (by simp)
  · intro z; cases z <;> decide +kernel

/-- The claim played to its last sample. -/
def delivered : Chan := { aChan with pos := 2, delivered := 2 }

theorem plays_iff (z : ZoneId) : ((zone2 (playArb .playing)).za.get z).arb.state.plays = true ↔ z = .i2 := by
  cases z <;> decide +kernel

theorem channelsServe_on (ch : Chan) (h1 : ch.claim = ⟨9, 1⟩) (h2 : ch.attached = ⟨false, false, true, false⟩) :
    ChannelsServe { zone2 (playArb .playing) with rch := ⟨some ch, none, none, none⟩ } := by
  have ha : ∀ z c, State.attachedTo { zone2 (playArb .playing) with rch := ⟨some ch, none, none, none⟩ } z c → z = .i2 ∧ c = .i0 := by
    rintro z c ⟨k, hc, hz⟩
    cases c <;> simp [Quad.get] at hc
    subst hc
    rw [h2] at hz
    cases z <;> simp [Quad.get] at hz
    exact ⟨rfl, rfl⟩
  refine ⟨?_, ?_, ?_, ?_, ?_, ?_⟩
  · intro c k hc
    cases c <;> simp [Quad.get] at hc
    subst hc
    exact ⟨.i2, by rw [h2]; rfl⟩
  · intro z hz
    rw [(plays_iff z).mp hz]
    exact ⟨.i0, ch, aHeld 4 .loose 1 0, rfl, by rw [h2]; rfl, rfl, h1⟩
  · intro z c d hc hd
    rw [(ha z c hc).2, (ha z d hd).2]
  · intro z c hc
    exact (plays_iff z).mpr (ha z c hc).1
  · intro z c hz hc
    rw [(ha z c hc).1] at hz
    exact absurd (show (zone2 (playArb .playing)).whole .i2 = true from hz) (by decide +kernel)
  · intro z _
    cases z <;> rfl

theorem witness_BoundaryIsTaken : let s := { zone2 (playArb .playing) with rch := ⟨some delivered, none, none, none⟩ }
    ZonesKept s ∧ ChannelsServe s ∧ s.rch.get .i0 = some delivered ∧ s.partDone delivered = true ∧
    delivered.bind16 + delivered.delivered ≤ 16 * s.sck.running + 15 ∧ delivered.attached.get .i2 = true ∧
    (s.za.get .i2).arb.current = some (aHeld 4 .loose 1 0) ∧ s.atLast delivered = true ∧ s.atLast { delivered with phrases := [1, 1] } = false ∧
    (s.za.get .i2).arb.phraseEnd = false := by
  refine ⟨?_, channelsServe_on delivered rfl rfl, ?_⟩
  · intro z
    cases z <;> constructor <;> decide +kernel
  · decide +kernel

theorem witness_BoundaryIsTaken_on : let ch : Chan := { delivered with phrases := [1, 1] }
    let s := { zone2 (playArb .playing) with rch := ⟨some ch, none, none, none⟩ }
    ZonesKept s ∧ ChannelsServe s ∧ s.rch.get .i0 = some ch ∧ s.partDone ch = true ∧ ch.bind16 + ch.delivered ≤ 16 * s.sck.running + 15 ∧
    (s.za.get .i2).arb.current = some (aHeld 4 .loose 1 0) ∧ s.atLast ch = false ∧
    ∀ z, ch.attached.get z = true → (s.za.get z).arb.phraseEnd = false := by
  refine ⟨?_, channelsServe_on { delivered with phrases := [1, 1] } rfl rfl, ?_⟩
  · intro z
    cases z <;> constructor <;> decide +kernel
  · refine ⟨by decide +kernel, by decide +kernel, by decide +kernel, by decide +kernel, by decide +kernel, ?_⟩
    intro z
    cases z <;> decide +kernel

/-- Zones 2 and 3 play one claim; zone 2 by an arbiter of its own. -/
def playingTwo (a : Arb) (ch : Chan) : State :=
  { zone2 a with za := (zone2 a).za.set .i3 { aZone none with arb := playArb .playing }, rch := ⟨some ch, none, none, none⟩ }

theorem channelsServe_two (a : Arb) (ch : Chan) (h1 : a.state.plays = true) (h2 : a.current = some (aHeld 4 .loose 1 0)) (h3 : ch.claim = ⟨9, 1⟩)
    (h4 : ch.attached = ⟨false, false, true, true⟩) : ChannelsServe (playingTwo a ch) := by
  have hp : ∀ z, ((playingTwo a ch).za.get z).arb.state.plays = true → z = .i2 ∨ z = .i3 := by
    intro z; cases z <;> first | exact fun _ => Or.inl rfl | exact fun _ => Or.inr rfl | (intro h; cases h)
  have hz : ∀ z c, (playingTwo a ch).attachedTo z c → (z = .i2 ∨ z = .i3) ∧ c = .i0 := by
    rintro z c ⟨k, hk, hz⟩
    cases c
    · cases hk
      rw [h4] at hz
      cases z <;> first | exact absurd hz (by decide) | exact ⟨by decide, rfl⟩
    all_goals exact absurd hk (by simp [playingTwo, Quad.get])
  refine ⟨?_, ?_, ?_, ?_, ?_, ?_⟩
  · intro c k hk
    cases c
    · cases hk; exact ⟨.i2, by rw [h4]; rfl⟩
    all_goals exact absurd hk (by simp [playingTwo, Quad.get])
  · intro z h
    rcases hp z h with rfl | rfl
    · exact ⟨.i0, ch, _, rfl, by rw [h4]; rfl, h2, h3⟩
    · exact ⟨.i0, ch, aHeld 4 .loose 1 0, rfl, by rw [h4]; rfl, rfl, h3⟩
  · intro z c d h k
    rw [(hz z c h).2, (hz z d k).2]
  · intro z c h
    rcases (hz z c h).1 with rfl | rfl
    · exact h1
    · rfl
  · intro z c h k
    rcases (hz z c k).1 with rfl | rfl <;> cases h
  · intro z _
    cases z <;> rfl

theorem zonesKept_two (a : Arb) (ch : Chan) (h1 : a.state.plays = true) (h2 : a.current.isSome = true) (h3 : a.next.isSome = true ↔ a.state = .cutting)
    (h4 : a.stopAt = none) : ZonesKept (playingTwo a ch) := by
  intro z
  cases z
  case i2 =>
    have hh : a.state.holdsClaim = true := by revert h1; cases a.state <;> decide
    refine ⟨fun h => absurd (hh.symm.trans h) (by decide), fun _ => h2, h3, fun h => ?_, nofun, nofun, nofun,
      nofun⟩
    rw [show ((playingTwo a ch).za.get .i2).arb.stopAt = none from h4] at h
    cases h
  case i3 => exact ⟨nofun, fun _ => rfl, ⟨nofun, nofun⟩, nofun, nofun, nofun, nofun, nofun⟩
  all_goals exact ⟨fun _ => rfl, nofun, ⟨nofun, nofun⟩, nofun, nofun, fun _ => rfl, fun _ => rfl, fun _ => rfl⟩

/-- R120, R121: before the last phrase zone 2 has the phrase-end stop, CUTTING or with a withdrawal pending, and zone 3 plays on. -/
theorem witness_BoundaryIsTaken_stops : ∀ a ∈ [cutArb, { playArb .playing with wdPending := true, phraseEnd := true }],
    let ch : Chan := { delivered with phrases := [1, 1], attached := ⟨false, false, true, true⟩ }
    let s := playingTwo a ch
    ZonesKept s ∧ ChannelsServe s ∧ DirectoryInRange s ∧ s.rch.get .i0 = some ch ∧ s.partDone ch = true ∧ s.atLast ch = false ∧
    ch.bind16 + ch.delivered ≤ 16 * s.sck.running + 15 ∧ (s.za.get .i2).arb = a ∧ a.phraseEnd = true ∧ a.current = some (aHeld 4 .loose 1 0) ∧
    s.findEntry ⟨9, 1⟩ = some (aRecv 1 4) ∧ (aRecv 1 4).disp.get .i2 = .pending ∧ (s.za.get .i3).arb = playArb .playing := by
  intro a ha
  simp only [List.mem_cons, List.not_mem_nil, or_false] at ha
  rcases ha with rfl | rfl <;>
    exact ⟨zonesKept_two _ _ rfl rfl (by decide) rfl, channelsServe_two _ _ rfl rfl rfl rfl, directoryInRange_run, rfl, by decide +kernel,
      by decide +kernel, by decide +kernel, rfl, rfl, rfl, by decide +kernel, rfl, rfl⟩

/-- R138: the boundary is due within the millisecond, and not yet in the one before; a phrase with a sample left. -/
theorem witness_BoundaryIsTaken_early : let ch := { delivered with bind16 := 14 }
    (ch.bind16 + ch.delivered = 16 * 1 ∧ 16 * (run.sck.running) + 15 < ch.bind16 + ch.delivered) ∧ run.partDone { ch with pos := 1 } = false := by
  decide +kernel

theorem witness_StoreReadIsDelivered : let r : ReadOp := { chan := .i0, idx := 0, pos := 0, count := 2, addr := 20359, stale := false }
    let s := { playing with sp := { pointer := .i0, reading := some r } }
    s.sp.reading = some r ∧ r.stale = false ∧ ({ r with stale := true } : ReadOp).stale = true ∧ s.rch.get .i0 = some aChan ∧ aChan.cursor = some 0 ∧
    ([1, 2, 3, 4] : List Byte).length = 2 * r.count ∧ 1 ≤ r.count ∧ (0 = r.idx ∧ aChan.pos ≤ r.pos) := by decide +kernel

/-- R139: one sample of the two late, both late, and a block of a phrase gone by; a channel that asks, first after the pointer. -/
theorem witness_StoreReadIsDelivered_late : let r : ReadOp := { chan := .i0, idx := 0, pos := 0, count := 2, addr := 20359, stale := false }
    let s := fun (ch : Chan) => { playing with rch := ⟨some ch, none, none, none⟩, sp := { pointer := .i0, reading := some r } }
    (∀ n ∈ [1, 2], let ch := { aChan with pos := n }; (s ch).rch.get r.chan = some ch ∧ (0 = r.idx ∧ ch.pos < r.pos + r.count ↔ n = 1)) ∧
    (let ch := { aChan with phrases := [1, 1], cursor := some 1 }; (s ch).rch.get r.chan = some ch ∧ r.idx < 1) ∧
    (let ch := { aChan with phrases := [1, 1] };
      (nx (.storeReadComplete [1, 2, 3, 4]) (s ch)).sp =
        { pointer := .i0, reading := some { chan := .i0, idx := 1, pos := 0, count := 2, addr := 20359, stale := false } }) ∧
    (nx (.storeReadComplete [1, 2, 3, 4]) (s { aChan with pos := 1 })).rch.get .i0 =
      some { aChan with pos := 1, slots := [{ idx := 0, pos := 1, samples := [772] }], unread := none } := by decide +kernel

theorem witness_LevelTablesHold : (0 : Nat) ≤ 31 ∧ LuZone.init.cmax ≤ 40 ∧ LuZone.init.slope = 0 ∧ (11 : Nat) < 12 ∧ (120 : Nat) ≤ 120 := by decide

theorem witness_LevelIsWorkedOut : fault.sul.mode = .storeFault ∧ run.sul.mode ≠ .storeFault ∧ (run.za.get .i2).row.code 4 = .quiet ∧
    (run.za.get .i2).row.code 2 ≠ .quiet := by decide +kernel

theorem witness_TransmitQueueTakesAFrame : let w := aTx (.zstat ⟨9, 1⟩ []) false
    let u := aTx (.cede ⟨7, 0⟩ false) true
    let q := List.replicate 7 u ++ w :: []
    q.Pairwise (fun a b => a.tier ≤ b.tier) ∧ 8 ≤ q.length ∧ w.underWay = false ∧ (∀ g ∈ ([] : List TxFrame), g.underWay = true) ∧
    (aTx (.cede ⟨7, 0⟩ false) false).tier < w.tier ∧ w.tier ≤ (aTx (.zstat ⟨9, 2⟩ []) false).tier ∧
    (8 ≤ (List.replicate 8 u).length ∧ ∀ g ∈ List.replicate 8 u, g.underWay = true) ∧ ([] : List TxFrame).length < 8 := by decide +kernel

theorem witness_OriginationQueueTakesOne : let p := List.replicate 3 (anOrig .evac)
    let s := { run with cmp := { run.cmp with queue := p ++ [anOrig (.step 5 0)] } }
    s.cmp.queue.Pairwise (fun a b => a.cls ≤ b.cls) ∧ 4 ≤ s.cmp.queue.length ∧ s.cmp.queue = p ++ [anOrig (.step 5 0)] ∧
    ({ anOrig .evac with cls := 1 } : Orig).cls < (anOrig (.step 5 0)).cls ∧ (anOrig (.step 5 0)).cls ≤ (anOrig .evac).cls ∧
    run.cmp.queue.length < 4 := by decide +kernel

theorem witness_FailedFramesReachTheirOwners :
    (txOffer run.lc.tx (aTx (.cede ⟨7, 0⟩ false) false)).2 = none ∧ (txOffer full.lc.tx (aTx (.zstat ⟨9, 1⟩ []) false)).2 = some (aTx (.zstat ⟨9, 1⟩ []) false) ∧
    (∃ c, (handing .sending none).findCall 5 = some c ∧ c.state = .handingOff ∧ c.handoff = some (aHandoff .sending none)) ∧
    (∃ c, (handing .awaiting none).findCall 5 = some c ∧ c.handoff = some (aHandoff .awaiting none) ∧ (aHandoff .awaiting none).phase ≠ .sending) ∧
    run.nodeNo = some 7 ∧ (∀ x ∈ [SendState.queued, .sent], ({ run with clt := [aOwn x] } : State).findEntry ⟨7, aClaim.seq⟩ = some (aOwn x)) ∧
    ((frAll []).dst = 0 ∧ (fr []).dst ≠ 0) := by
  refine ⟨?_, ?_, ⟨_, rfl, rfl, rfl⟩, ⟨_, rfl, rfl, ?_⟩, ?_, ?_, ?_⟩ <;> decide +kernel

/-- R98: an own CLAIM that fails while queued, its coverage window without an end. -/
theorem witness_FailedFramesReachTheirOwners_window :
    let e := { aOwn .queued with start := none, plannedEnd := none, origin := some { aPart .queued with windowEnd := none } }
    let s := { run with clt := [e] }
    s.findEntry ⟨7, aClaim.seq⟩ = some e ∧ s.nodeNo = some 7 ∧
    ((s.failFrame (aTx (.claim aClaim) false)).findEntry ⟨7, 0⟩).bind (·.origin) =
      some { aPart .queued with send := .failed, windowEnd := some 10000 } := by decide +kernel

/-- R93, R95, R98: a JOINT claim and a LOOSE one, the window's end absent and set by a CEDE. -/
theorem witness_FailedFramesReachTheirOwners_latest : ∀ sync : Sync, ∀ w ∈ [none, some 4000],
    let e := { aOwn .queued with sync := sync, start := none, latest := none, plannedEnd := none, origin := some { aPart .queued with windowEnd := w } }
    let s := { run with clt := [e] }
    s.findEntry ⟨7, aClaim.seq⟩ = some e ∧ s.nodeNo = some 7 ∧ aClaim.window = some 5 ∧
    ((s.failFrame (aTx (.claim aClaim) false)).findEntry ⟨7, 0⟩).map (·.latest) = some (if sync = .joint then none else some 5000) := by
  intro sync; cases sync <;> decide +kernel

theorem witness_AttemptsBeginInTheGap : let f := aTx (.cede ⟨7, 0⟩ false) false
    let s := { run with lc := { run.lc with tx := [f] } }
    s.nodeNo = some 7 ∧ s.lc.tx = f :: [] ∧ s.sends = true ∧ 40 + 8 * f.tier + (if 0 < f.fails then 2 * 7 else 0) = 48 ∧ s.lc.rx = false ∧
    (∀ g ∈ s.lc.tx, g.underWay = false) ∧ s.sul.mode ≠ .loading ∧ run.lc.tx = [] ∧ receptionTest run.nodeNo [1, 2] false ≠ none ∧
    (let b := { run with lc := { run.lc with tx := [f], rx := true } }; b.lc.rx = true ∧ b.nodeNo = some 7 ∧ b.sends = true) := by decide +kernel

/-- A head that has failed before waits twice the node's number longer; a node in LISTEN_ONLY, and one with no number in STORE_FAULT, sends nothing. -/
theorem witness_AttemptsBeginInTheGap_failed : let f := { aTx (.cede ⟨7, 0⟩ false) false with fails := 1 }
    let s := { run with lc := { run.lc with tx := [f] } }
    s.nodeNo = some 7 ∧ s.lc.tx = f :: [] ∧ s.sends = true ∧ 40 + 8 * f.tier + (if 0 < f.fails then 2 * 7 else 0) = 62 ∧
    listen.sends = false ∧ listen.nodeNo = none ∧ ({ fault with sul := { fault.sul with strap := 0 } } : State).sends = false ∧
    (nx (.attemptStart 61) s).lc.sending = false ∧ (nx (.attemptStart 62) s).lc.sending = true := by decide +kernel

/-- R163: each test failed by a frame that passes those before it. -/
theorem witness_AttemptsBeginInTheGap_tests : let head := fun (k dst : Byte) (b : List Byte) => [k, 9, dst, BitVec.ofNat 8 b.length] ++ b
    let mk := fun (k dst : Byte) (b : List Byte) => head k dst b ++ bytes16 (crc (head k dst b)).toNat
    let good := mk 2 0 [9, 1, 1]
    [(good, true), (good.dropLast, false), ([2, 9, 0, 161] ++ List.replicate 163 0, false), (good.set 4 8, false), (mk 15 0 [], false), (mk 2 0 [9, 1], false),
      (mk 2 8 [9, 1, 1], false), (mk 2 7 [0, 1, 1], false), (mk 2 7 [9, 1, 1], false), (good, false)].map (fun p => receptionTest (some 7) p.1 p.2) =
      [some .truncation, some .truncation, some .lengthRange, some .check, some .kind, some .lengthForKind, some .destination, some .values, none, none] ∧
    run.hears kindCede (frAll [9, 1, 1]) = true ∧ State.reset.hears kindCede (frAll [9, 1, 1]) = false := by decide +kernel

theorem witness_SentFramesReachTheirOwners : (∀ g ∈ run.lc.tx, g.underWay = false) ∧
    (∀ b ∈ [TxBody.answer 4 5 .done, .zstat ⟨9, 1⟩ [], .cede ⟨7, 0⟩ false, .claim aClaim, .report 0 1 1 0 none []],
      let s := { run with lc := { run.lc with tx := [] ++ aTx b true :: [] } }
      s.lc.tx = [] ++ aTx b true :: [] ∧ (∀ g ∈ ([] ++ [] : List TxFrame), g.underWay = false) ∧ (aTx b true).underWay = true ∧ (aTx b true).body = b ∧
      s.nodeNo = some 7) ∧
    (∀ x ∈ [SendState.queued, .sent], ({ run with clt := [aOwn x] } : State).findEntry ⟨7, aClaim.seq⟩ = some (aOwn x)) ∧
    (aPart .queued).ceded = false ∧ ({ aPart .queued with windowEnd := none, ceded := true } : OriginPart).ceded = true := by decide +kernel

theorem witness_CollisionFailsTheAttempt : let f := aTx (.claim aClaim) true
    let s := { run with lc := { run.lc with tx := [] ++ f :: [] } }
    s.nodeNo = some 7 ∧ s.lc.tx = [] ++ f :: [] ∧ (∀ g ∈ ([] ++ [] : List TxFrame), g.underWay = false) ∧ f.underWay = true ∧
    frameBit 7 f 0 = some true ∧ frameBit 7 f 1 ≠ some true ∧ f.takeBack = false ∧ f.fails + 1 < 8 ∧
    8 ≤ ({ f with fails := 7 } : TxFrame).fails + 1 ∧ ({ f with takeBack := true } : TxFrame).takeBack = true ∧ f.body = .claim aClaim := by decide +kernel

theorem witness_SentFramesAreReadBack : aClaim.Fits ∧ (⟨48, 255⟩ : ClaimId).wf = true ∧
    ([(Idx4.i0, Disp.played), (.i3, .evicted)].map (fun p => p.1.toNat)).Pairwise (· < ·) ∧
    (∀ p ∈ [(Idx4.i0, Disp.played), (.i3, .evicted)], p.2 ≠ .notTarget ∧ p.2 ≠ .pending) ∧
    ((aCall .waiting .manual .fresh).handoffFrame 14).Fits ∧
    (let f := aTx (.claim aClaim) false;
      lengthOk f.body.kindCode f.body.bytes = true ∧ valuesOk f.body.kindCode f.body.bytes = true ∧ f.dst = 0) := by
  refine ⟨?_, by decide, by decide, by decide, ?_, by decide +kernel⟩
  · exact ⟨by decide, by decide, by decide, by decide, fun _ => ⟨5, rfl, by decide⟩, by simp [aClaim], by decide⟩
  · refine ⟨by decide, by decide, ?_, ?_, ?_, ?_, ?_, ?_, ?_, by decide, by decide, ?_⟩ <;>
      simp [Call.handoffFrame, aCall, aStep]
    exact ⟨by decide, by decide, by decide, by decide, by decide, by decide, by decide⟩

theorem witness_TablesStayInOrder : TablesInOrder run ∧ ∃ t, exec .evacRise run = .next t := by
  refine ⟨⟨⟨by decide, by decide, by decide, by decide, ?_⟩, List.Pairwise.nil, List.Pairwise.nil, framesInOrder_run, ⟨List.Pairwise.nil, by decide⟩,
    ⟨by decide, by decide, by decide⟩, ⟨?_, by decide⟩, directoryInRange_run⟩, _, rfl⟩
  · intro z; cases z <;> decide +kernel
  · intro z
    cases z <;> constructor <;> decide +kernel

theorem witness_ZonesStayConsistent : ZonesKept playing ∧ ∃ t, exec (.phraseBoundary .i0) playing = .next t := ⟨zonesKept_playing, _, rfl⟩

theorem loadingKept_playing : LoadingKept playing :=
  ⟨by decide +kernel, fun h => absurd h (by decide +kernel), fun h => absurd h (by decide +kernel), fun h => absurd h (by decide +kernel)⟩

theorem witness_ChannelsServeThePlayingZones : LoadingKept playing ∧ ZonesKept playing ∧ ChannelsServe playing ∧
    ∃ t, exec (.phraseBoundary .i0) playing = .next t :=
  ⟨loadingKept_playing, zonesKept_playing, channelsServe_on aChan rfl rfl, _, rfl⟩

/-- While RESET is held, and through LOADING. -/
theorem witness_ChannelsServeThePlayingZones_loading : ∀ s ∈ [State.reset, header .config],
    LoadingKept s ∧ ZonesKept s ∧ ChannelsServe s ∧ s.sul.mode = .loading := by
  have h : ∀ s : State, s.za = State.reset.za → s.rch = State.reset.rch → s.audio = State.reset.audio → s.sul.mode = .loading →
      LoadingKept s ∧ ZonesKept s ∧ ChannelsServe s ∧ s.sul.mode = .loading := by
    intro s ha hr hu hm
    have hz : ∀ z, (s.za.get z).arb = Arb.bare .outOfService ∧ (s.za.get z).pair = none := by rw [ha]; intro z; cases z <;> exact ⟨rfl, rfl⟩
    have hc : ∀ c, s.rch.get c = none := by rw [hr]; intro c; cases c <;> rfl
    have ho : ∀ z, s.audio.get z = 0 := by rw [hu]; intro z; cases z <;> rfl
    have hn : ∀ z c, ¬ s.attachedTo z c := by rintro z c ⟨ch, h, _⟩; rw [hc] at h; exact absurd h (by simp)
    have hp : ∀ z, (s.za.get z).arb.state.plays = false := fun z => by rw [(hz z).1]; rfl
    refine ⟨⟨fun _ => hm, fun _ z => (hz z).1, fun _ => hc, fun _ => ho⟩, ?_, ?_, hm⟩
    · intro z
      constructor <;> simp [(hz z).1, (hz z).2, Arb.bare, ZoneState.holdsClaim]
    · refine ⟨fun c ch h => absurd (hc c ▸ h) (by simp), fun z h => absurd h (by simp [hp]), fun z c d h => absurd h (hn z c), fun z c h => absurd h (hn z c),
        fun z c _ h => absurd h (hn z c), fun z _ => ho z⟩
  intro s hs
  simp only [List.mem_cons, List.not_mem_nil, or_false] at hs
  rcases hs with rfl | rfl <;> exact h _ rfl rfl rfl rfl

theorem witness_ModesHoldAndListenersStaySilent : Instr.evacRise ≠ .reset ∧ listen.sul.resetHeld = false ∧ listen.sul.mode ≠ .loading ∧
    SilentListener listen ∧ ∃ t, exec .evacRise listen = .next t :=
  ⟨by decide, rfl, by decide +kernel, ⟨rfl, rfl, by decide +kernel, rfl, rfl, rfl, by decide +kernel⟩, _, rfl⟩

theorem witness_ModesHoldAndListenersStaySilent_pairs : ∀ z, (run.za.get z).pair = none ↔ (run.za.get z.partner).pair = none := by
  intro z; cases z <;> decide +kernel

theorem witness_FinalDispositionsStay : let e := { aRecv 1 4 with disp := ⟨.notTarget, .notTarget, .played, .notTarget⟩ }
    let s := { playing with clt := [e] }
    ∃ t, exec (.ampFaultRise .i2) s = .next t ∧ s.findEntry ⟨9, 1⟩ = some e ∧ t.findEntry ⟨9, 1⟩ ≠ none ∧ e.disp.get .i2 ≠ .pending :=
  ⟨_, rfl, by decide +kernel, by decide +kernel, by decide⟩

end Sys2Proof.Tests
end

