-- ==== Sys2Proof/Proofs/StepWork.lean ====
section
/-!
SUPPORT. What the work of a step can change: the timers of the plans' steps, the platforms' last approach outcome, and the origination queue. Every
operation of the step timer unit does no more, so that a call's fields, its place in the table and its platform are found again after it.
-/

namespace Sys2Proof.Machine

open Sys2Proof

/-- What an operation on calls leaves, as one update of the state. -/
theorem CallSide.eq {s t : State} (h : CallSide s t) : t = { s with ct := t.ct, pm := t.pm, cmp := t.cmp, clt := t.clt } := by
  obtain ⟨hlc, hsck, hevac, hza, hrch, haudio, hsp, hlu, hsul, hcfg, hpins, hpend⟩ := h
  cases t
  subst hlc hsck hevac hza hrch haudio hsp hlu hsul hcfg hpins hpend
  rfl

/-- What an operation that may reach the link leaves, as one update of the state. -/
theorem LinkSide.eq {s t : State} (h : LinkSide s t) :
    t = { s with lc := t.lc, ct := t.ct, pm := t.pm, cmp := t.cmp, clt := t.clt, za := t.za, rch := t.rch, audio := t.audio, sp := t.sp,
                 lu := t.lu } := by
  obtain ⟨hsck, hevac, hsul, hcfg, hpins, hpend⟩ := h
  cases t
  subst hsck hevac hsul hcfg hpins hpend
  rfl

/-! ### The relation -/

/-- Two records of one call that differ in the timers of its steps at most. -/
structure TimersOnly (c d : Call) : Prop where
  fields : d = { c with steps := d.steps }
  specs : d.steps.map (·.spec) = c.steps.map (·.spec)

theorem TimersOnly.refl (c : Call) : TimersOnly c c := ⟨rfl, rfl⟩

theorem TimersOnly.trans {c d e : Call} (h : TimersOnly c d) (k : TimersOnly d e) : TimersOnly c e :=
  ⟨by rw [k.fields, h.fields], k.specs.trans h.specs⟩

theorem TimersOnly.key {c d : Call} (h : TimersOnly c d) : d.key = c.key := by rw [h.fields]
theorem TimersOnly.state {c d : Call} (h : TimersOnly c d) : d.state = c.state := by rw [h.fields]
theorem TimersOnly.refTime {c d : Call} (h : TimersOnly c d) : d.refTime = c.refTime := by rw [h.fields]; rfl
theorem TimersOnly.length {c d : Call} (h : TimersOnly c d) : d.steps.length = c.steps.length := by
  simpa using congrArg List.length h.specs

/-- A change of one step's timer changes no more of its call than that. -/
theorem modStep_timersOnly (c : Call) (i : Nat) (f : Step → Step) (hf : ∀ st, (f st).spec = st.spec) : TimersOnly c (c.modStep i f) := by
  refine ⟨rfl, List.ext_getElem? fun n => ?_⟩
  simp only [Call.modStep, List.getElem?_map, List.getElem?_modify]
  cases c.steps[n]? with
  | none => rfl
  | some st => by_cases h : i = n <;> simp [h, hf]

/-- `t` differs from `s` by the work of steps alone: their timers, the platforms' last approach outcome, and the origination queue, which keeps its
places and its order. -/
structure StepWork (s t : State) : Prop where
  frame : t = { s with ct := t.ct, pm := t.pm, cmp := t.cmp }
  calls : List.Forall₂ TimersOnly s.ct t.ct
  plats : ∀ p, t.pm.get p = { s.pm.get p with lastOutcome := (t.pm.get p).lastOutcome }
  cmp : t.cmp = { s.cmp with queue := t.cmp.queue }
  origs : s.cmp.queue.length ≤ 4 → OrigsInOrder s → t.cmp.queue.length ≤ 4 ∧ OrigsInOrder t

theorem forall₂_timersOnly_refl (l : List Call) : List.Forall₂ TimersOnly l l := List.forall₂_same.mpr fun c _ => .refl c

theorem StepWork.refl (s : State) : StepWork s s := ⟨rfl, forall₂_timersOnly_refl _, fun _ => rfl, rfl, fun h k => ⟨h, k⟩⟩

theorem StepWork.trans {s t u : State} (h : StepWork s t) (k : StepWork t u) : StepWork s u where
  frame := by rw [k.frame, h.frame]
  calls := by
    have tr : ∀ {a b c : List Call}, List.Forall₂ TimersOnly a b → List.Forall₂ TimersOnly b c → List.Forall₂ TimersOnly a c := by
      intro a b c hab
      induction hab generalizing c with
      | nil => exact fun hbc => hbc
      | cons h1 _ ih =>
        intro hbc
        cases hbc with
        | cons h2 hrest => exact .cons (h1.trans h2) (ih hrest)
    exact tr h.calls k.calls
  plats p := by rw [k.plats p, h.plats p]
  cmp := by rw [k.cmp, h.cmp]
  origs hq ho := by
    obtain ⟨hq', ho'⟩ := h.origs hq ho
    exact k.origs hq' ho'

theorem StepWork.foldl {α : Type} {f : State → α → State} (h : ∀ s a, StepWork s (f s a)) (l : List α) (s : State) :
    StepWork s (l.foldl f s) := foldl_rel StepWork .refl .trans h l s

theorem StepWork.side {s t : State} (h : StepWork s t) : CallSide s t := by
  rw [h.frame]
  exact ⟨rfl, rfl, rfl, rfl, rfl, rfl, rfl, rfl, rfl, rfl, rfl, rfl⟩

/-! ### What is found again after it -/

theorem StepWork.sck {s t : State} (h : StepWork s t) : t.sck = s.sck := h.side.sck

theorem StepWork.clt {s t : State} (h : StepWork s t) : t.clt = s.clt := by rw [h.frame]

theorem StepWork.bound {s t : State} (h : StepWork s t) (p : PlatId) : (t.pm.get p).bound = (s.pm.get p).bound := by rw [h.plats p]

theorem StepWork.hold {s t : State} (h : StepWork s t) (p : PlatId) : (t.pm.get p).hold = (s.pm.get p).hold := by rw [h.plats p]

/-- A lookup after a pointwise change of the calls that keeps their keys. -/
theorem find_forall₂ {l m : List Call} (h : List.Forall₂ TimersOnly l m) (k : Nat) :
    (∀ c, l.find? (fun c => c.key == k) = some c → ∃ d, m.find? (fun c => c.key == k) = some d ∧ TimersOnly c d) ∧
    (l.find? (fun c => c.key == k) = none → m.find? (fun c => c.key == k) = none) := by
  induction h with
  | nil => simp
  | @cons a b l m hab _ ih =>
    simp only [List.find?_cons, hab.key]
    by_cases ha : a.key = k
    · simp [ha, hab]
    · have hb : (a.key == k) = false := by simpa using ha
      simpa [hb] using ih

theorem StepWork.findCall {s t : State} (h : StepWork s t) {k : Nat} {c : Call} (hc : s.findCall k = some c) :
    ∃ d, t.findCall k = some d ∧ TimersOnly c d := (find_forall₂ h.calls k).1 c hc

theorem StepWork.findCall_none {s t : State} (h : StepWork s t) {k : Nat} (hc : s.findCall k = none) : t.findCall k = none :=
  (find_forall₂ h.calls k).2 hc

theorem StepWork.keys {s t : State} (h : StepWork s t) : t.ct.map (·.key) = s.ct.map (·.key) := by
  have hk : ∀ {l m : List Call}, List.Forall₂ TimersOnly l m → m.map (·.key) = l.map (·.key) := by
    intro l m hlm
    induction hlm with
    | nil => rfl
    | cons hab _ ih => simp [hab.key, ih]
  exact hk h.calls

theorem StepWork.expires {s t : State} (h : StepWork s t) {c d : Call} (hcd : TimersOnly c d) : t.expires d = s.expires c := by
  simp [State.expires, h.sck, hcd.state, hcd.refTime]

/-! ### The operations -/

theorem modStep_work (s : State) (k i : Nat) (f : Step → Step) (hf : ∀ st, (f st).spec = st.spec) : StepWork s (s.modStep k i f) where
  frame := rfl
  calls := by
    refine List.forall₂_map_right_iff.mpr (List.forall₂_same.mpr fun c _ => ?_)
    split
    · exact modStep_timersOnly c i f hf
    · exact .refl c
  plats _ := rfl
  cmp := rfl
  origs h k := ⟨h, ⟨k.order, k.past⟩⟩

theorem modTimer_work (s : State) (k i : Nat) (f : StepTimer → StepTimer) : StepWork s (s.modTimer k i f) :=
  modStep_work s k i _ (fun _ => rfl)

theorem setQueue_work (s : State) (q : List Orig)
    (h : s.cmp.queue.length ≤ 4 → OrigsInOrder s → q.length ≤ 4 ∧ OrigsInOrder (s.setQueue q)) : StepWork s (s.setQueue q) :=
  ⟨rfl, forall₂_timersOnly_refl _, fun _ => rfl, rfl, h⟩

/-- An origination queued now takes its place in a queue that is in order, after those of its class (R74). -/
theorem origInsert_order (s : State) (q : List Orig) (o : Orig) (h : o.queuedAt = s.now)
    (hq : OrigsInOrder (s.setQueue q)) : OrigsInOrder (s.setQueue (origInsert q o)) := by
  obtain ⟨ho, hp⟩ := hq
  have hmem : ∀ p ∈ q, p.queuedAt ≤ o.queuedAt := fun p hp' => by rw [h]; exact hp p hp'
  refine ⟨?_, ?_⟩
  · show (origInsert q o).Pairwise _
    change q.Pairwise _ at ho
    rw [← List.takeWhile_append_dropWhile (p := fun p : Orig => decide (p.cls ≤ o.cls)) (l := q)] at ho
    obtain ⟨ht, hd, htd⟩ := List.pairwise_append.mp ho
    have htake : ∀ p ∈ q.takeWhile (fun p => decide (p.cls ≤ o.cls)), p.cls ≤ o.cls := fun p hp' => by
      simpa using List.mem_takeWhile_imp hp'
    have hdrop : ∀ p ∈ q.dropWhile (fun p => decide (p.cls ≤ o.cls)), o.cls < p.cls := by
      cases hq : q.dropWhile (fun p => decide (p.cls ≤ o.cls)) with
      | nil => simp
      | cons x xs =>
        have hx : o.cls < x.cls := by
          have := List.head?_dropWhile_not (fun p : Orig => decide (p.cls ≤ o.cls)) q
          rw [hq] at this
          simpa using this
        rw [hq, List.pairwise_cons] at hd
        intro p hp'
        rcases List.mem_cons.mp hp' with rfl | hp'
        · exact hx
        · rcases hd.1 p hp' with hlt | ⟨heq, _⟩
          · exact lt_trans hx hlt
          · exact heq ▸ hx
    refine List.pairwise_append.mpr ⟨ht, List.pairwise_cons.mpr ⟨fun p hp' => .inl (hdrop p hp'), hd⟩, fun a ha b hb => ?_⟩
    rcases List.mem_cons.mp hb with rfl | hb
    · rcases lt_or_eq_of_le (htake a ha) with hlt | heq
      · exact .inl hlt
      · exact .inr ⟨heq, hmem a (List.takeWhile_subset _ ha)⟩
    · exact htd a ha b hb
  · intro p hp'
    rcases (mem_origInsert q o p).mp hp' with rfl | hp'
    · exact le_of_eq h
    · exact hp p hp'

theorem modPlatOutcome_work (s : State) (p : PlatId) (o : ApproachOutcome) :
    StepWork s (s.modPlat p (fun r => { r with lastOutcome := o })) where
  frame := rfl
  calls := forall₂_timersOnly_refl _
  plats q := by
    by_cases h : q = p
    · subst h; simp [State.modPlat]
    · simp [State.modPlat, Duo.get_set_ne _ _ h]
  cmp := rfl
  origs h k := ⟨h, ⟨k.order, k.past⟩⟩

theorem origDropped_work (s : State) (o : Orig) : StepWork s (s.origDropped o) := by
  unfold State.origDropped
  split
  · split
    · exact modStep_work s _ _ _ (fun _ => rfl)
    · exact .refl s
  · exact modPlatOutcome_work s _ _
  · exact .refl s
  · exact .refl s

/-- Handing over an origination queued now (R75). -/
theorem pushOrig_work (s : State) (o : Orig) (h : o.queuedAt = s.now) : StepWork s (s.pushOrig o) := by
  rcases pushOrig_cases s o with ⟨hl, he⟩ | ⟨hl, w, _, _, he⟩ | ⟨_, _, he⟩ <;> rw [he]
  · exact setQueue_work s _ fun _ ho => ⟨by rw [length_origInsert]; omega, origInsert_order s _ o h ho⟩
  · refine (setQueue_work s _ fun h4 ho => ⟨?_, origInsert_order s _ o h ?_⟩).trans (origDropped_work _ w)
    · rw [length_origInsert, List.length_dropLast]; omega
    · exact ⟨ho.order.sublist (List.dropLast_sublist _), fun p hp => ho.past p (List.dropLast_subset _ hp)⟩
  · exact origDropped_work s o

theorem fireStep_work (s : State) (k i : Nat) : StepWork s (s.fireStep k i) := by
  unfold State.fireStep
  split
  · split
    · exact .refl s
    · split
      · exact modTimer_work s _ _ _
      · split
        · exact modTimer_work s _ _ _
        · exact (modTimer_work s _ _ _).trans (pushOrig_work _ _ rfl)
  · exact .refl s

theorem eachStep_work {f : State → Nat → Nat → State} (h : ∀ s k i, StepWork s (f s k i)) (rs : List (Nat × Nat)) (s : State) :
    StepWork s (s.eachStep rs f) :=
  StepWork.foldl (f := fun s (r : Nat × Nat) => f s r.1 r.2) (fun s r => h s r.1 r.2) rs s

theorem openStep_work (s : State) (k i : Nat) (p : StepSpec) : StepWork s (s.openStep k i p) := by
  unfold State.openStep
  dsimp only
  split
  · exact modTimer_work s _ _ _
  · exact (modTimer_work s _ _ _).trans (fireStep_work _ _ _)

theorem windowTest_work (s : State) (k i : Nat) (c : Call) (st : Step) : StepWork s (s.windowTest k i c st) := by
  unfold State.windowTest
  repeat' split
  all_goals first
    | exact .refl s
    | exact modTimer_work s _ _ _
    | exact openStep_work s _ _ _

theorem atTest_work (s : State) (k i : Nat) (c : Call) (st : Step) : StepWork s (s.atTest k i c st) := by
  unfold State.atTest
  split
  · exact .refl s
  · dsimp only
    repeat' split
    all_goals first
      | exact modTimer_work s _ _ _
      | exact fireStep_work s _ _

theorem countDown_work (s : State) (k i : Nat) (st : Step) : StepWork s (s.countDown k i st) := by
  unfold State.countDown
  repeat' split
  · exact .refl s
  · exact (modTimer_work s _ _ _).trans (fireStep_work _ _ _)
  · exact modTimer_work s _ _ _

theorem armStep_work (s : State) (k i : Nat) (p : StepSpec) : StepWork s (s.armStep k i p) := by
  unfold State.armStep
  split
  · exact fireStep_work s _ _
  · exact modTimer_work s _ _ _

theorem tickStep_work (adv : Bool) (s : State) (k i : Nat) : StepWork s (s.tickStep adv k i) := by
  unfold State.tickStep
  repeat' (first | split | dsimp only)
  all_goals first
    | exact .refl s
    | exact fireStep_work s _ _
    | exact modTimer_work s _ _ _
    | exact windowTest_work s _ _ _ _
    | exact countDown_work s _ _ _

theorem forwardStep_work (s : State) (k i : Nat) : StepWork s (s.forwardStep k i) := by
  unfold State.forwardStep
  repeat' split
  all_goals first
    | exact .refl s
    | exact atTest_work s _ _ _ _
    | exact windowTest_work s _ _ _ _

theorem backwardStep_work (s : State) (k i : Nat) : StepWork s (s.backwardStep k i) := by
  unfold State.backwardStep
  repeat' (first | split | dsimp only)
  all_goals first
    | exact .refl s
    | exact modTimer_work s _ _ _

theorem startStep_work (s : State) (k i : Nat) : StepWork s (s.startStep k i) := by
  unfold State.startStep
  repeat' split
  all_goals first
    | exact .refl s
    | exact atTest_work s _ _ _ _
    | exact windowTest_work s _ _ _ _
    | exact armStep_work s _ _ _

theorem bindStep_work (s : State) (k i : Nat) : StepWork s (s.bindStep k i) := by
  unfold State.bindStep
  repeat' split
  all_goals first
    | exact .refl s
    | exact modTimer_work s _ _ _
    | exact armStep_work s _ _ _

theorem doorsStep_work (s : State) (k i : Nat) : StepWork s (s.doorsStep k i) := by
  unfold State.doorsStep
  repeat' split
  all_goals first
    | exact .refl s
    | exact armStep_work s _ _ _

theorem replanStep_work (s : State) (k i : Nat) : StepWork s (s.replanStep k i) := by
  unfold State.replanStep State.replanAt State.replanEvery
  repeat' (first | split | dsimp only)
  all_goals first
    | exact .refl s
    | exact atTest_work s _ _ _ _
    | exact windowTest_work s _ _ _ _
    | exact fireStep_work s _ _
    | exact modTimer_work s _ _ _

end Sys2Proof.Machine
end

