-- ==== Sys2Proof/Proofs/CallFacts.lean ====
section
/-!
SUPPORT. Facts about the call table that the statements about calls share: leaving service and the expiry tests, the list of a call's steps, the
platforms after a release, and how a frame's command completes.
-/

namespace Sys2Proof.Machine

open Sys2Proof

/-! ### Commands that complete -/

theorem takes_of {c : Instr} {s t : State} {P : State → Prop} (h : exec c s = .next t) (hp : P t) : Takes c s P := ⟨t, h, hp⟩

theorem takes_iff {c : Instr} {s t : State} {P : State → Prop} (h : exec c s = .next t) : Takes c s P ↔ P t :=
  ⟨fun ⟨u, hu, hp⟩ => by rw [h] at hu; cases hu; exact hp, fun hp => ⟨t, h, hp⟩⟩

/-- A record that is written back as it stands leaves the state as it is. -/
theorem setPm_self (s : State) : s.setPm s.pm = s := rfl

theorem OthersKept.refl (key : Nat) (s : State) : OthersKept key s s := fun _ _ => rfl

theorem OthersKept.trans {key : Nat} {s t u : State} (h : OthersKept key s t) (k : OthersKept key t u) : OthersKept key s u :=
  fun j hj => (k j hj).trans (h j hj)

theorem OthersKept.of_ct {key : Nat} {s t : State} (h : t.ct = s.ct) : OthersKept key s t := fun k _ => by
  simp [State.findCall, h]

theorem othersKept_modCall (s : State) (key : Nat) (f : Call → Call) (hf : ∀ c, (f c).key = c.key) : OthersKept key s (s.modCall key f) :=
  fun k hk => by
    rw [findCall_modCall s key k f hf]
    cases s.findCall k <;> simp [hk]

theorem findCall_modCall_self {s : State} {key : Nat} {c : Call} {f : Call → Call} (hc : s.findCall key = some c)
    (hf : ∀ c, (f c).key = c.key) : (s.modCall key f).findCall key = some (f c) := by
  rw [findCall_modCall s key key f hf, hc]
  simp

theorem findCall_key {s : State} {k : Nat} {c : Call} (h : s.findCall k = some c) : c.key = k := by
  simpa using List.find?_some h

theorem findCall_mem {s : State} {k : Nat} {c : Call} (h : s.findCall k = some c) : c ∈ s.ct := List.mem_of_find?_eq_some h

theorem findCall_eq_none {s : State} {k : Nat} : s.findCall k = none ↔ ∀ d ∈ s.ct, d.key ≠ k := by
  simp [State.findCall]

/-- With the keys in order a call is found under its key (R1). -/
theorem findCall_of_mem {s : State} (h : KeysAscend s) {c : Call} (hc : c ∈ s.ct) : s.findCall c.key = some c := by
  unfold KeysAscend at h
  unfold State.findCall
  induction hs : s.ct generalizing s with
  | nil => rw [hs] at hc; cases hc
  | cons a l ih =>
    rw [hs] at h hc
    rw [List.pairwise_cons] at h
    rcases List.mem_cons.mp hc with rfl | hc
    · simp
    · have hne : (a.key == c.key) = false := by simpa using Nat.ne_of_lt (h.1 c hc)
      rw [List.find?_cons, hne]
      exact ih (s := s.setCt l) h.2 hc rfl

/-! ### Platforms -/

theorem Duo.get_ext {α : Type} {d e : Duo α} (h : ∀ p, d.get p = e.get p) : d = e := by
  have h0 := h .p0
  have h1 := h .p1
  cases d; cases e
  simp_all [Duo.get]

theorem Plat.release_eq (key : Nat) (p : Plat) : p.release key = if p.bound = some key then { p with bound := none } else p := rfl

/-! ### Leaving service (R5, R37) -/

theorem stopSteps_key (c : Call) : c.stopSteps.key = c.key := rfl

/-- What a call is once it has left service. -/
def Call.outOfService (st : CallState) (c : Call) : Call := ({ c with state := st }).stopSteps

theorem outOfService_specs (st : CallState) (c : Call) : (c.outOfService st).steps.map (·.spec) = c.steps.map (·.spec) := by
  simp [Call.outOfService, Call.stopSteps]

theorem leaveService_eq (s : State) (key : Nat) (st : CallState) : s.leaveService key st = { s with
    ct := s.ct.map (fun c => if c.key == key then c.outOfService st else c), pm := s.pm.map (Plat.release key),
    cmp := { s.cmp with queue := s.cmp.queue.filter (fun o => !o.ofCall key) },
    clt := s.clt.map (fun e => if e.hasKey key then { e with origin := e.origin.map (fun o => { o with noRetry := true }) } else e) } := rfl

theorem findCall_leaveService (s : State) (key j : Nat) (st : CallState) :
    (s.leaveService key st).findCall j = (s.findCall j).map (fun c => if j = key then c.outOfService st else c) :=
  findCall_modCall s key j (Call.outOfService st) (fun _ => rfl)

theorem othersKept_leaveService (s : State) (key : Nat) (st : CallState) : OthersKept key s (s.leaveService key st) :=
  othersKept_modCall s key (Call.outOfService st) (fun _ => rfl)

theorem keys_leaveService (s : State) (key : Nat) (st : CallState) : (s.leaveService key st).ct.map (·.key) = s.ct.map (·.key) := by
  rw [leaveService_eq]
  simp only [List.map_map]
  refine List.map_congr_left fun c _ => ?_
  by_cases h : (c.key == key) = true
  · simp only [Function.comp_apply, if_pos h]; rfl
  · simp only [Function.comp_apply, if_neg h]

/-! ### Expiry (R15) -/

theorem expires_sck {s t : State} (h : t.sck = s.sck) (c : Call) : t.expires c = s.expires c := by simp [State.expires, h]

theorem expires_unset {s : State} (h : s.sck.isSet = false) (c : Call) : s.expires c = false := by simp [State.expires, h]

theorem expires_waiting {s : State} {c : Call} (h : s.expires c = true) : c.state = .waiting := by
  simp [State.expires] at h
  exact h.1.1

/-- When a call expires, by the reference time it has (R3, R15). -/
theorem expires_iff (s : State) (c : Call) : s.expires c = true ↔
    c.state = .waiting ∧ s.sck.isSet = true ∧ ∃ r, c.RefersTo r ∧ min (r + 7201) 107999 ≤ s.sck.time := by
  have href : ∀ r, c.refTime = some r ↔ c.RefersTo r := by
    intro r
    unfold Call.refTime Call.RefersTo
    cases c.expArr <;> simp
  unfold State.expires expiryLimit Config.maxServiceTime
  cases hr : c.refTime with
  | none => simp [← href, hr]
  | some r => simp [← href, hr, and_assoc]

theorem expiryTest_of_not {s : State} {key : Nat} (h : ∀ c, s.findCall key = some c → s.expires c = false) : s.expiryTest key = s := by
  unfold State.expiryTest
  cases hc : s.findCall key with
  | none => rfl
  | some c => simp [h c hc]

theorem expiryTest_of_expires {s : State} {key : Nat} {c : Call} (hc : s.findCall key = some c) (h : s.expires c = true) :
    s.expiryTest key = s.leaveService key (.finished .expired) := by
  simp [State.expiryTest, hc, h]

theorem expiryTest_unset {s : State} (h : s.sck.isSet = false) (key : Nat) : s.expiryTest key = s :=
  expiryTest_of_not fun c _ => expires_unset h c

/-- What the expiry test of one key leaves under any key. -/
theorem findCall_expiryTest (s : State) (key j : Nat) : (s.expiryTest key).findCall j = (s.findCall j).map (fun c =>
    if j = key ∧ s.expires c = true then c.outOfService (.finished .expired) else c) := by
  by_cases hx : ∃ c, s.findCall key = some c ∧ s.expires c = true
  · obtain ⟨c, hc, he⟩ := hx
    rw [expiryTest_of_expires hc he, findCall_leaveService]
    by_cases hj : j = key
    · subst hj; simp [hc, he]
    · simp [hj]
  · rw [expiryTest_of_not fun c hc => by simpa using fun he => hx ⟨c, hc, he⟩]
    cases hc : s.findCall j with
    | none => rfl
    | some c =>
      have hn : ¬ (j = key ∧ s.expires c = true) := fun ⟨hj, he⟩ => hx ⟨c, hj ▸ hc, he⟩
      simp [hn]

theorem findCall_expiryTest_self {s : State} {key : Nat} {c : Call} (hc : s.findCall key = some c) :
    (s.expiryTest key).findCall key = some (if s.expires c = true then c.outOfService (.finished .expired) else c) := by
  rw [findCall_expiryTest, hc]
  simp

theorem othersKept_expiryTest (s : State) (key : Nat) : OthersKept key s (s.expiryTest key) := fun k hk => by
  rw [findCall_expiryTest]
  cases s.findCall k <;> simp [hk]

theorem keys_expiryTest (s : State) (key : Nat) : (s.expiryTest key).ct.map (·.key) = s.ct.map (·.key) := by
  unfold State.expiryTest
  repeat' split
  all_goals first
    | rfl
    | exact keys_leaveService s _ _

theorem keys_expiryTestAll (ks : List Nat) (s : State) : (ks.foldl State.expiryTest s).ct.map (·.key) = s.ct.map (·.key) := by
  induction ks generalizing s with
  | nil => rfl
  | cons k ks ih => rw [List.foldl_cons, ih, keys_expiryTest]

/-- What the expiry tests of several keys leave under any key: an expired call has left service once. -/
theorem findCall_expiryTestAll (ks : List Nat) (s : State) (j : Nat) : (ks.foldl State.expiryTest s).findCall j = (s.findCall j).map (fun c =>
    if j ∈ ks ∧ s.expires c = true then c.outOfService (.finished .expired) else c) := by
  induction ks generalizing s with
  | nil => simp
  | cons k ks ih =>
    rw [List.foldl_cons, ih, findCall_expiryTest, Option.map_map]
    refine congrArg (fun f => (s.findCall j).map f) (funext fun c => ?_)
    have hs : ∀ d, (s.expiryTest k).expires d = s.expires d := expires_sck (expiryTest_side s k).sck
    have hout : s.expires (c.outOfService (.finished .expired)) = false := by
      simp [State.expires, Call.outOfService, Call.stopSteps]
    by_cases he : s.expires c = true
    · by_cases hj : j = k <;> simp [hs, he, hj, hout]
    · simp [hs, he]

theorem expiryTestAll_side (ks : List Nat) (s : State) : CallSide s (ks.foldl State.expiryTest s) :=
  CallSide.foldl (fun s k => expiryTest_side s k) ks s

/-! ### The steps of a call, in order -/

/-- The steps of one call are those of the calls with its key. -/
theorem stepRefsOf_eq (s : State) (key : Nat) :
    s.stepRefsOf key = (s.ct.filter (fun c => c.key == key)).flatMap (fun c => (List.range c.steps.length).map (fun i => (key, i))) := by
  have h : ∀ l : List Call, (l.flatMap (fun c => (List.range c.steps.length).map (fun i => (c.key, i)))).filter (fun r => r.1 == key) =
      (l.filter (fun c => c.key == key)).flatMap (fun c => (List.range c.steps.length).map (fun i => (key, i))) := by
    intro l
    induction l with
    | nil => rfl
    | cons c l ih =>
      rw [List.flatMap_cons, List.filter_append, ih, List.filter_map, List.filter_cons]
      by_cases hk : c.key = key
      · simp [hk, Function.comp_def]
      · simp [hk, Function.comp_def]
  exact h s.ct

/-- Only one call of a table in key order has a key (R1). -/
theorem filter_key_of_pairwise {l : List Call} (h : l.Pairwise (fun a b => a.key < b.key)) {key : Nat} {c : Call}
    (hc : l.find? (fun d => d.key == key) = some c) : l.filter (fun d => d.key == key) = [c] := by
  induction l with
  | nil => cases hc
  | cons a l ih =>
    rw [List.pairwise_cons] at h
    rw [List.find?_cons] at hc
    by_cases ha : a.key = key
    · have hrest : l.filter (fun d => d.key == key) = [] := by
        simp only [List.filter_eq_nil_iff, beq_iff_eq]
        intro d hd hdk
        have := h.1 d hd
        omega
      simp only [ha, beq_self_eq_true] at hc
      cases hc
      simp [ha, hrest]
    · have hb : (a.key == key) = false := by simpa using ha
      rw [hb] at hc
      simp only [List.filter_cons, hb, Bool.false_eq_true, if_false]
      exact ih h.2 hc

theorem keysAscend_iff (s : State) : KeysAscend s ↔ (s.ct.map (·.key)).Pairwise (· < ·) := by
  unfold KeysAscend
  rw [List.pairwise_map]

theorem KeysAscend.of_keys {s t : State} (h : KeysAscend s) (hk : t.ct.map (·.key) = s.ct.map (·.key)) : KeysAscend t := by
  rw [keysAscend_iff] at h ⊢
  rw [hk]
  exact h

/-- The steps of a call in a table in key order, by ascending index. -/
theorem stepRefsOf_of_find {s : State} (h : KeysAscend s) {key : Nat} {c : Call} (hc : s.findCall key = some c) :
    s.stepRefsOf key = (List.range c.steps.length).map (fun i => (key, i)) := by
  rw [stepRefsOf_eq, filter_key_of_pairwise h hc]
  simp

theorem filter_key_insertCall (c : Call) (l : List Call) (h : ∀ d ∈ l, d.key ≠ c.key) :
    (insertCall c l).filter (fun d => d.key == c.key) = [c] := by
  induction l with
  | nil => simp [insertCall]
  | cons a l ih =>
    have ha : a.key ≠ c.key := h a (List.mem_cons_self ..)
    have hl : ∀ d ∈ l, d.key ≠ c.key := fun d hd => h d (List.mem_cons_of_mem _ hd)
    have hnil : l.filter (fun d => d.key == c.key) = [] := by simpa using hl
    simp only [insertCall]
    split
    · simp [ha, hnil]
    · simp [ha, ih hl]

/-- The steps of a call just put in the table. -/
theorem stepRefsOf_insertCall {s : State} {c : Call} (h : s.findCall c.key = none) :
    (s.setCt (insertCall c s.ct)).stepRefsOf c.key = (List.range c.steps.length).map (fun i => (c.key, i)) := by
  rw [stepRefsOf_eq, State.setCt_ct, filter_key_insertCall c s.ct (findCall_eq_none.mp h)]
  simp

theorem eachStep_range (s : State) (key n : Nat) (f : State → Nat → Nat → State) :
    s.eachStep ((List.range n).map (fun i => (key, i))) f = (List.range n).foldl (fun w i => f w key i) s := by
  simp [State.eachStep, List.foldl_map]

theorem rangeSteps_work {f : State → Nat → Nat → State} (h : ∀ s k i, StepWork s (f s k i)) (key n : Nat) (s : State) :
    StepWork s ((List.range n).foldl (fun w i => f w key i) s) :=
  StepWork.foldl (f := fun w i => f w key i) (fun s i => h s key i) _ s

/-- With no call there is no step. -/
theorem stepRefs_nil {s : State} (h : s.ct = []) : s.stepRefs = [] := by simp [State.stepRefs, h]

end Sys2Proof.Machine
end

