-- ==== Sys2Proof/Proofs/Calls.lean ====
section
/-!
PROOFS. The statements about reset, the clock's commands, and calls that come, go and leave service.
-/

namespace Sys2Proof.Machine

open Sys2Proof

/-! ### Reset -/

/-- Settles O55: every block of the reset state is evaluated. -/
theorem resetStateIsSafe : Obligations.ResetStateIsSafe where
  tables :=
    { places := ⟨by decide, by decide, by decide, by decide, fun z => by cases z <;> decide⟩
      keys := .nil
      ids := .nil
      frames := ⟨.nil, by simp [State.reset, Lc.init], by simp [State.reset, Lc.init]⟩
      origs := ⟨.nil, by simp [State.reset, Cmp.init]⟩
      clock := ⟨by decide, fun _ => rfl, by decide⟩
      levels := ⟨fun z => by cases z <;> exact ⟨by decide, by decide, by decide, by decide, by decide, by decide, by rintro a ⟨⟩⟩, by decide⟩
      directory := by simp [DirectoryInRange, State.reset, Cfg.init] }
  zones z := by cases z <;> exact ⟨fun _ => rfl, by decide, by decide, by decide, by decide, by decide, by decide, by decide⟩
  channels :=
    { bound := by rintro c ch h; cases c <;> cases h
      playing := by rintro z h; cases z <;> cases h
      only := by rintro z c d ⟨ch, h, _⟩; cases c <;> cases h
      attached := by rintro z c ⟨ch, h, _⟩; cases c <;> cases h
      shared := by rintro z c _ ⟨ch, h, _⟩; cases c <;> cases h
      silent := by rintro z _; cases z <;> rfl }
  loading := ⟨fun _ => rfl, fun _ z => by cases z <;> rfl, fun _ c => by cases c <;> rfl, fun _ z => by cases z <;> rfl⟩

/-! ### Removal (R16, R17) -/

theorem awaitsRemoval_iff (c : Call) : c.awaitsRemoval = true ↔
    (∃ r, c.state = .finished r) ∨ c.state = .dropping ∨ (c.state = .handingOff ∧ ∃ h, c.handoff = some h ∧ h.phase = .settled) := by
  unfold Call.awaitsRemoval
  cases c.state <;> simp
  cases c.handoff <;> simp

theorem refCount_eq_zero (s : State) (key : Nat) : s.refCount key = 0 ↔ ¬ ∃ e ∈ s.clt, e.origin ≠ none ∧ e.hasKey key = true := by
  simp [State.refCount, List.filter_eq_nil_iff, Option.isSome_iff_ne_none]

/-- Settles O24, by the cases of the removal test. -/
theorem callLeavesTheTable : Obligations.CallLeavesTheTable := by
  intro key s
  refine ⟨?_, fun h => takes_of rfl ?_⟩
  · rintro ⟨c, hc, ha⟩ hn
    refine takes_of rfl ?_
    have htest : (c.awaitsRemoval && s.refCount key == 0) = true := by
      simp [(awaitsRemoval_iff c).mpr ha, (refCount_eq_zero s key).mpr hn]
    simp only [hc, htest, if_true]
    refine ⟨rfl, by simp [State.findCall], fun k hk => ?_⟩
    simp only [State.findCall, State.setCt_ct, List.find?_filter]
    congr 1
    funext d
    by_cases hd : d.key = k
    · simp [hd, hk]
    · simp [hd]
  · cases hc : s.findCall key with
    | none => rfl
    | some c =>
      have htest : (c.awaitsRemoval && s.refCount key == 0) = false := by
        rw [Bool.and_eq_false_iff]
        rcases h with h | h
        · exact .inl (by simpa using fun ha => h ⟨c, hc, (awaitsRemoval_iff c).mp ha⟩)
        · exact .inr (by simpa using fun h0 => (refCount_eq_zero s key).mp h0 h)
      simp [htest]

/-! ### Leaving service (R5, R15, R37) -/

theorem findStep_of_findCall {s : State} {key i : Nat} {c : Call} (h : s.findCall key = some c) : s.findStep key i = c.steps[i]? := by
  simp [State.findStep, h]

/-- Settles O17, by what leaving service does under its own and every other key. -/
theorem leavingServiceStopsSteps : Obligations.LeavingServiceStopsSteps := by
  refine ⟨fun s key c e hc => ⟨rfl, othersKept_leaveService s key e, ?_, fun p => ?_, expiryTest_of_expires hc, fun hx => ?_⟩, ?_⟩
  · exact ⟨c.outOfService e, by simp [findCall_leaveService, hc], rfl, rfl⟩
  · simp [leaveService_eq, Plat.release_eq]
  · exact expiryTest_of_not fun d hd => by rw [hc] at hd; cases hd; exact hx
  · intro s key i c st e hc hst
    have hfind : (s.leaveService key e).findCall key = some (c.outOfService e) := by simp [findCall_leaveService, hc]
    refine ⟨{ st with timer := stopTimer st.timer }, ?_, rfl, ?_⟩
    · rw [findStep_of_findCall hfind]
      simp [Call.outOfService, Call.stopSteps, hst]
    · have hrow : ∀ t : StepTimer, (stopTimer t).fires = t.fires ∧ (stopTimer t).last = t.last ∧
          (stopTimer t).lastClaim = t.lastClaim ∧ (stopTimer t).notLoaded = t.notLoaded ∧
          (t.state = .idle ∨ t.state = .counting ∨ t.state = .held → (stopTimer t).state = .done ∧ (stopTimer t).remaining = none) ∧
          ((∃ r, t.state = .skipped r) ∨ t.state = .fired ∨ t.state = .done → stopTimer t = t) := by
        intro t
        unfold stopTimer doneTimer
        cases t.state <;> simp [StepState.unfinished]
      exact hrow st.timer

/-! ### The clock (R6, R7) -/

/-- What the steps' work and the expiry tests after it leave of every call's state (R15). -/
theorem expires_of_work {s t w : State} (hw : StepWork w t) (hct : w.ct = s.ct) (adv : Prop) [Decidable adv] :
    Expires adv s (if adv then t.expiryTests else t) := by
  have hfind : ∀ k, w.findCall k = s.findCall k := fun k => by simp [State.findCall, hct]
  have hkeys : t.ct.map (·.key) = s.ct.map (·.key) := by rw [hw.keys, hct]
  refine ⟨?_, fun k c hc => ?_⟩
  · split
    · exact (keys_expiryTestAll _ t).trans hkeys
    · exact hkeys
  · obtain ⟨d, hd, hcd⟩ := hw.findCall ((hfind k).trans hc)
    by_cases ha : adv
    · simp only [ha, if_true, not_true, false_or, forall_const]
      have hmem : k ∈ t.ct.map (·.key) := List.mem_map.mpr ⟨d, findCall_mem hd, findCall_key hd⟩
      have hex : ∀ x, t.expiryTests.expires x = t.expires x := expires_sck (expiryTests_side t).sck
      have hdc : t.expires d = t.expires c := by simp [State.expires, hcd.state, hcd.refTime]
      have hfin : t.expiryTests.findCall k = some (if t.expires c = true then d.outOfService (.finished .expired) else d) := by
        unfold State.expiryTests
        rw [findCall_expiryTestAll, hd]
        simp only [Option.map_some, hmem, true_and, hdc]
      refine ⟨_, hfin, fun he => ?_, fun he => ?_⟩
      · rw [if_pos ((hex c).symm.trans he)]; rfl
      · rw [if_neg (by rw [← hex c, he]; decide)]; exact hcd.state
    · simp only [ha, if_false, not_false_eq_true, true_or, forall_const]
      exact ⟨d, hd, fun h => h.elim, hcd.state⟩

theorem advances_iff (k : Sck) : (k.advances = true) = (k.isSet = true ∧ k.time < 107999) := by
  unfold Sck.advances
  rw [Bool.and_eq_true, decide_eq_true_eq]
  rfl

theorem expiryTests_nil {s : State} (h : s.ct = []) : s.expiryTests = s := by simp [State.expiryTests, h]

theorem second_eq (s : State) : s.second =
    (let w := s.stepRefs.foldl (fun w r => w.tickStep s.sck.advances r.1 r.2) (s.setSck s.sck.tick)
     if s.sck.advances then w.expiryTests else w) := rfl

/-- Settles O6: the steps' work and the expiry tests change calls, platforms, originations and the marks of claims alone. -/
theorem secondBoundaryAdvances : Obligations.SecondBoundaryAdvances := by
  refine ⟨expires_iff, fun s hs => takes_of (t := s.second) ?_ ?_⟩
  · show Host.Outcome.next (if 1000 ≤ s.sck.secMs then s.second else s) = _
    rw [if_pos hs]
  have hw : StepWork (s.setSck s.sck.tick) (s.stepRefs.foldl (fun w r => w.tickStep s.sck.advances r.1 r.2) (s.setSck s.sck.tick)) :=
    eachStep_work (f := State.tickStep s.sck.advances) (tickStep_work _) _ _
  have hside : CallSide (s.setSck s.sck.tick) s.second := by
    rw [second_eq]
    dsimp only
    split
    · exact hw.side.trans (expiryTests_side _)
    · exact hw.side
  have hsck : s.second.sck = s.sck.tick := hside.sck
  refine ⟨?_, ?_, fun hct => ?_, ?_, fun _ => ?_⟩
  · rw [hsck]; exact hside.eq
  · rw [hsck]; rfl
  · rw [hsck, second_eq]
    simp only [stepRefs_nil hct, List.foldl_nil]
    split
    · exact expiryTests_nil hct
    · rfl
  · rw [hsck]; exact second_eq s
  · have h : Expires (s.sck.advances = true) s s.second := expires_of_work hw rfl (s.sck.advances = true)
    rw [advances_iff] at h
    exact h

/-- A live call is WAITING or BOUND (R22). -/
theorem live_iff (c : Call) : c.live = true ↔ c.state = .waiting ∨ c.state = .bound := by simp [Call.live]

theorem not_live {c : Call} (hw : c.state ≠ .waiting) (hb : c.state ≠ .bound) : c.live = false := by simp [Call.live, hw, hb]

theorem unfinished_iff (t : StepState) : t.unfinished = true ↔ t = .idle ∨ t = .counting ∨ t = .held := by
  cases t <;> simp [StepState.unfinished]

theorem isSkipped_iff (t : StepState) : t.isSkipped = true ↔ ∃ r, t = .skipped r := by
  cases t <;> simp [StepState.isSkipped]

/-- The test of an AT step's fire time, by how late it is (R23, R34, R64). -/
theorem atTest_tested (w : State) (k i : Nat) (c : Call) (st : Step) {ft : Int} (h : st.spec.fireTime c = some ft) :
    AtTested w (w.atTest k i c st) k i ft := by
  unfold State.atTest
  simp only [h]
  refine ⟨fun ha => by simp [ha], fun hd hl => ?_, fun hl => ?_⟩
  · rw [if_neg (by omega), if_pos hl]
  · rw [if_neg (by omega), if_neg (by omega)]

theorem openStep_opens (w : State) (k i : Nat) (p : StepSpec) : WindowOpens w (w.openStep k i p) k i p := ⟨_, rfl, rfl⟩

/-- The test of an unfinished EVERY step's window (R25, R34). -/
theorem windowTest_tested (w : State) (k i : Nat) (c : Call) (st : Step) {start stop : Int} (h : st.spec.fireTime c = some start)
    (h' : st.spec.closeTime c = some stop) (hu : st.timer.state.unfinished = true) :
    WindowTested w (w.windowTest k i c st) k i st start stop := by
  unfold State.windowTest
  simp only [h, h', hu, Bool.not_true, Bool.false_eq_true, if_false]
  refine ⟨fun hc => ?_, fun hb hi ho => ?_, fun hb hi ho => ?_, fun hb hi => ?_⟩
  · rw [if_pos hc]; rfl
  · rw [if_neg (by omega), if_pos ⟨hi, ho⟩]; exact openStep_opens w k i st.spec
  · rw [if_neg (by omega), if_neg (by omega)]
  · rw [if_neg (by omega), if_neg (by simp [hi])]

theorem windowTest_finished (w : State) (k i : Nat) (c : Call) (st : Step) (hu : st.timer.state.unfinished = false) :
    w.windowTest k i c st = w := by
  unfold State.windowTest
  split
  · simp [hu]
  · rfl

theorem fireTime_none_iff_closeTime_none (p : StepSpec) (c : Call) : p.fireTime c = none ↔ p.closeTime c = none := by
  simp [StepSpec.fireTime, StepSpec.closeTime]

theorem setClock_eq (s : State) (v : Nat) : s.setClock v =
    (let u := s.setSck { s.sck with time := v, isSet := true, secMs := 0 }
     State.expiryTests (if s.sck.isSet = false ∨ s.sck.time < v then s.stepRefs.foldl (fun w r => w.forwardStep r.1 r.2) u
       else if v < s.sck.time then s.stepRefs.foldl (fun w r => w.backwardStep r.1 r.2) u else u)) := by
  unfold State.setClock State.eachStep
  simp only [Bool.or_eq_true, Bool.not_eq_eq_eq_not, Bool.not_true, decide_eq_true_eq]
  rfl

theorem jump_work (s u : State) (v : Nat) : StepWork u
    (if s.sck.isSet = false ∨ s.sck.time < v then s.stepRefs.foldl (fun w r => w.forwardStep r.1 r.2) u
     else if v < s.sck.time then s.stepRefs.foldl (fun w r => w.backwardStep r.1 r.2) u else u) := by
  repeat' split
  · exact eachStep_work forwardStep_work _ _
  · exact eachStep_work backwardStep_work _ _
  · exact .refl u

theorem clockValue_of {b : List Byte} {v : Nat} (h : (field8 b 0 = 0 ∧ v = field b 1 3 ∧ v ≤ 107999) ∨ (field8 b 0 = 1 ∧ v = 0)) :
    clockValue b = some v := by
  unfold clockValue
  rcases h with ⟨h0, rfl, h1⟩ | ⟨h0, rfl⟩
  · simp [h0, Config.maxServiceTime, h1]
  · simp [h0]

theorem clockValue_late {b : List Byte} (h0 : field8 b 0 = 0) (h : 107999 < field b 1 3) : clockValue b = none := by
  unfold clockValue
  simp only [h0]
  exact if_neg (Nat.not_le.mpr h)

/-! A live call's step at a jump, by its mode (R34, R35). -/

section LiveStep

variable {w : State} {k i : Nat} {c : Call} {st : Step}

theorem forwardStep_atTime (hc : w.findCall k = some c) (hst : w.findStep k i = some st) (hl : c.live = true) (hm : st.spec.mode = .atTime) :
    w.forwardStep k i = if st.timer.state = .counting ∨ st.timer.state = .idle then w.atTest k i c st else w := by
  simp [State.forwardStep, hc, hst, hl, hm]

theorem forwardStep_every (hc : w.findCall k = some c) (hst : w.findStep k i = some st) (hl : c.live = true) (hm : st.spec.mode = .every) :
    w.forwardStep k i = w.windowTest k i c st := by
  simp [State.forwardStep, hc, hst, hl, hm]

theorem forwardStep_other (hc : w.findCall k = some c) (hst : w.findStep k i = some st) (ha : st.spec.mode ≠ .atTime)
    (he : st.spec.mode ≠ .every) : w.forwardStep k i = w := by
  simp only [State.forwardStep, hc, hst]
  cases hm : st.spec.mode <;> simp_all

theorem backwardStep_atTime (hc : w.findCall k = some c) (hst : w.findStep k i = some st) (hl : c.live = true) (hm : st.spec.mode = .atTime)
    {ft : Int} (hft : st.spec.fireTime c = some ft) :
    w.backwardStep k i =
      if st.timer.state = .counting ∨ (st.timer.state.isSkipped ∧ st.timer.fires = 0 ∧ (w.sck.time : Int) < ft) then
        w.modTimer k i (fun m => { m with state := .counting, remaining := some (ft - w.sck.time).toNat })
      else w := by
  simp [State.backwardStep, hc, hst, hl, hm, hft]

theorem backwardStep_other (hc : w.findCall k = some c) (hst : w.findStep k i = some st)
    (h : st.spec.mode ≠ .atTime ∨ st.spec.fireTime c = none) : w.backwardStep k i = w := by
  simp only [State.backwardStep, hc, hst]
  rcases h with h | h
  · cases hm : st.spec.mode <;> simp_all
  · cases hm : st.spec.mode <;> simp [h]

end LiveStep

/-- Settles O8: the frame's order by its value, then each step by its mode. -/
theorem clockFrameSetsTheClock : Obligations.ClockFrameSetsTheClock := by
  refine ⟨fun f s hh => ⟨fun v hv => ?_, fun h0 hl => ?_⟩, fun w k i c hc hnw hnb => ?_, fun w k i c st hc hst hlive => ?_⟩
  · have hexec : exec (.clock f) s = .next (s.frameEnd.setClock v) := by
      show Host.Outcome.next _ = _
      simp [hears_frameEnd, hh, clockValue_of hv]
    refine takes_of hexec ?_
    have hw := jump_work s.frameEnd (s.frameEnd.setSck { s.sck with time := v, isSet := true, secMs := 0 }) v
    have hside : CallSide (s.frameEnd.setSck { s.sck with time := v, isSet := true, secMs := 0 }) (s.frameEnd.setClock v) := by
      rw [setClock_eq]
      exact hw.side.trans (expiryTests_side _)
    have hsck : (s.frameEnd.setClock v).sck = { s.sck with time := v, isSet := true, secMs := 0 } := hside.sck
    refine ⟨?_, hsck, fun hct => ?_, ?_, fun _ => ?_⟩
    · rw [hsck]; exact hside.eq
    · have hnil : s.frameEnd.stepRefs = [] := stepRefs_nil hct
      rw [hsck, setClock_eq]
      simp only [hnil, List.foldl_nil, ite_self]
      exact expiryTests_nil hct
    · rw [hsck]; exact setClock_eq s.frameEnd v
    · have h := expires_of_work hw rfl True
      rw [if_pos trivial] at h
      rw [setClock_eq]
      exact h
  · refine takes_of rfl ?_
    simp [clockValue_late h0 hl, frameEnd_eq]
  · have hl := not_live hnw hnb
    have hs : ∀ st, w.findStep k i = some st → w.forwardStep k i = w ∧ w.backwardStep k i = w := fun st hst => by
      simp [State.forwardStep, State.backwardStep, hc, hst, hl]
    cases hst : w.findStep k i with
    | none => simp [State.forwardStep, State.backwardStep, hc, hst]
    | some st => exact hs st hst
  · have hl : c.live = true := (live_iff c).mpr hlive
    refine ⟨fun hm ft hft => ⟨fun hs => ?_, fun h1 h2 => ?_, ?_⟩,
      fun hm => ⟨backwardStep_other hc hst (.inl (by simp [hm])), fun start stop hs hc' => ⟨fun hu => ?_, fun h1 h2 h3 => ?_⟩⟩,
      fun h1 h2 => ⟨forwardStep_other hc hst h1 h2, backwardStep_other hc hst (.inl h1)⟩,
      fun hn => ⟨?_, backwardStep_other hc hst (.inr hn)⟩⟩
    · rw [forwardStep_atTime hc hst hl hm, if_pos hs]; exact atTest_tested w k i c st hft
    · rw [forwardStep_atTime hc hst hl hm, if_neg (by simp [h1, h2])]
    · rw [backwardStep_atTime hc hst hl hm hft]
      exact ⟨fun h => if_pos (by simpa [isSkipped_iff] using h), fun h => if_neg (by simpa [isSkipped_iff] using h)⟩
    · rw [forwardStep_every hc hst hl hm]
      exact windowTest_tested w k i c st hs hc' ((unfinished_iff _).mpr hu)
    · rw [forwardStep_every hc hst hl hm]
      exact windowTest_finished w k i c st (by rw [← Bool.not_eq_true, unfinished_iff]; simp [h1, h2, h3])
    · cases hm : st.spec.mode
      case atTime => rw [forwardStep_atTime hc hst hl hm]; simp [State.atTest, hn]
      case every => rw [forwardStep_every hc hst hl hm]; simp [State.windowTest, hn]
      all_goals exact forwardStep_other hc hst (by simp [hm]) (by simp [hm])

end Sys2Proof.Machine
end

