-- ==== Sys2Proof/Proofs/CallFrames.lean ====
section
/-!
PROOFS. The statements about the frames that name a call: CALLSET, HANDOFF, and the refusals.
-/

namespace Sys2Proof.Machine

open Sys2Proof

/-! ### Whose platform a number is, and the value tests (R3, R11, R19) -/

/-- Which local platform a station platform number names (R11, R19). -/
theorem localPlat_iff (s : State) (n : Nat) (p : PlatId) : s.localPlat n = some p ↔
    1 ≤ n ∧ n ≤ 99 ∧ (s.pm.get p).stationNo = n ∧ (p = .p1 → (s.pm.get .p0).stationNo ≠ n) := by
  unfold State.localPlat
  by_cases hn : n = 0 ∨ 99 < n
  · rw [if_pos hn]
    refine ⟨nofun, fun ⟨h1, h2, _⟩ => ?_⟩
    omega
  · rw [if_neg hn]
    have h1 : 1 ≤ n := by omega
    have h2 : n ≤ 99 := by omega
    by_cases h0 : s.pm.d0.stationNo = n
    · cases p <;> simp [h0, h1, h2, Duo.get]
    · by_cases hp : s.pm.d1.stationNo = n <;> cases p <;> simp [h0, hp, h1, h2, Duo.get]

theorem callKindOf_eq (n : Nat) : callKindOf n = [CallKind.arrival, .departure, .turn][n]? := by
  rcases n with _ | _ | _ | n <;> rfl

theorem timeOk_iff (o : Option Nat) : timeOk o = true ↔ ∀ t, o = some t → t ≤ 107999 := by
  cases o with
  | none => simp [timeOk]
  | some t => simp only [timeOk, decide_eq_true_eq, Option.some.injEq, forall_eq']; rfl

theorem requiredTimes_iff (k : CallKind) (arr dep : Option Nat) : requiredTimes k arr dep = true ↔ TimesPresent k arr dep := by
  unfold TimesPresent
  cases k <;> simp [requiredTimes, Option.isSome_iff_ne_none]

theorem departsAfter_iff (arr dep : Option Nat) : departsAfter arr dep = true ↔ ∀ x y, arr = some x → dep = some y → x ≤ y := by
  cases arr <;> cases dep <;> simp [departsAfter]

/-- The value tests of R11, one by one. -/
theorem values_iff (b : CallBody) (k : CallKind) : b.values? = some k ↔ CallValues b k := by
  have htests : b.values? = some k ↔ callKindOf b.kind = some k ∧
      (b.key != 0 && requiredTimes k b.schArr b.schDep && timeOk b.schArr && timeOk b.schDep && timeOk b.expArr && timeOk b.expDep &&
        (k != .turn || departsAfter b.schArr b.schDep) && b.coaches ≤ 16 && b.dest ≤ 2047 && b.origin ≤ 2047 &&
        b.points.length ≤ 20 && b.points.all codeOk && b.lengthFits) = true := by
    unfold CallBody.values?
    cases hk : callKindOf b.kind with
    | none => simp
    | some j =>
      simp only [Option.bind_eq_bind, Option.bind_some, Option.some.injEq]
      constructor
      · intro h
        split at h
        · cases h; exact ⟨rfl, ‹_›⟩
        · cases h
      · rintro ⟨rfl, h⟩
        rw [if_pos h]
  rw [htests, callKindOf_eq]
  simp only [Bool.and_eq_true, bne_iff_ne, Bool.or_eq_true, decide_eq_true_eq, timeOk_iff, requiredTimes_iff, departsAfter_iff,
    List.all_eq_true, codeOk]
  constructor
  · rintro ⟨h0, ⟨⟨⟨⟨⟨⟨⟨⟨⟨⟨⟨⟨hkey, hpres⟩, ha⟩, hd⟩, hea⟩, hed⟩, ht⟩, hco⟩, hde⟩, hor⟩, hpl⟩, hpc⟩, hl⟩⟩
    refine ⟨h0, hkey, hpres, ?_, fun hk => ?_, hco, hde, hor, ⟨hpl, hpc⟩, hl⟩
    · rintro t (h | h | h | h)
      exacts [ha t h, hd t h, hea t h, hed t h]
    · rcases ht with h | h
      · exact absurd hk h
      · exact h
  · rintro ⟨h0, hkey, hpres, htimes, ht, hco, hde, hor, ⟨hpl, hpc⟩, hl⟩
    refine ⟨h0, ⟨⟨⟨⟨⟨⟨⟨⟨⟨⟨⟨⟨hkey, hpres⟩, fun t h => htimes t (.inl h)⟩, fun t h => htimes t (.inr (.inl h))⟩,
      fun t h => htimes t (.inr (.inr (.inl h)))⟩, fun t h => htimes t (.inr (.inr (.inr h)))⟩, ?_⟩, hco⟩, hde⟩, hor⟩, hpl⟩, hpc⟩, hl⟩⟩
    by_cases hk : k = .turn
    · exact .inr (ht hk)
    · exact .inl hk

/-! ### Installing a call (R12, R70) -/

theorem findCall_insertCall {s : State} {c : Call} (h : s.findCall c.key = none) (j : Nat) :
    (s.setCt (insertCall c s.ct)).findCall j = if j = c.key then some c else s.findCall j :=
  find_insertCall c s.ct j (findCall_eq_none.mp h)

/-- A call is put in the table, its steps start in index order, and the expiry test of it follows (R12, R23, R70). -/
theorem install_eq {s : State} {c : Call} (h : s.findCall c.key = none) : s.install c =
    ((List.range c.steps.length).foldl (fun w i => w.startStep c.key i) (s.setCt (insertCall c s.ct))).expiryTest c.key := by
  unfold State.install
  dsimp only
  rw [stepRefsOf_insertCall h, eachStep_range]

theorem findCall_insertCall_self {s : State} {c : Call} (h : s.findCall c.key = none) :
    (s.setCt (insertCall c s.ct)).findCall c.key = some c := by rw [findCall_insertCall h, if_pos rfl]

theorem othersKept_insertCall {s : State} {c : Call} (h : s.findCall c.key = none) :
    OthersKept c.key s (s.setCt (insertCall c s.ct)) := fun k hk => by rw [findCall_insertCall h, if_neg hk]

theorem takesAnswering_of {c : Instr} {f : RxFrame} {kind key : Nat} {code : AnswerCode} {s u : State} {P : State → Prop}
    (h : exec c s = .next (u.answer f kind key code)) (hp : P u) : TakesAnswering c f kind key code s P := ⟨u, h, hp⟩

/-! ### CALLSET (R9 to R12) -/

theorem exec_callset {f : RxFrame} {s : State} (h : CallFrameTaken kindCallset f s) : exec (.callset f) s =
    .next (State.answered f kindCallset (field f.body 0 2) (s.frameEnd.takeCallset (readCallset f.body))) :=
  congrArg Host.Outcome.next (callFrame_taken h _)

/-- A CALLSET that meets a refusal changes nothing (R11). -/
theorem takeCallset_refused {s : State} {b : CallBody} {code : AnswerCode} (h : callsetRefusal s b = some code) :
    s.takeCallset b = (s, code) := by
  unfold callsetRefusal at h
  unfold State.takeCallset Config.maxCalls
  cases hp : s.localPlat b.platform with
  | none => simpa [hp] using h
  | some p =>
    cases hv : b.values? with
    | none => simpa [hp, hv] using h
    | some k =>
      simp only [hp, hv, reduceCtorEq, if_false] at h ⊢
      by_cases hc : (s.findCall b.key).isSome = true
      · rw [if_pos hc] at h ⊢
        cases h; rfl
      · rw [if_neg hc] at h ⊢
        by_cases h64 : 64 ≤ s.ct.length
        · rw [if_pos h64] at h ⊢
          cases h; rfl
        · rw [if_neg h64] at h
          cases h

/-- Settles O12: the tests in their order, then the call put in the table with no step to start. -/
theorem callsetInstalls : Obligations.CallsetInstalls := by
  refine ⟨localPlat_iff, values_iff, fun b => by simp [readCallset], fun f s hf => ⟨fun code hcode => ?_, ?_⟩⟩
  · refine takesAnswering_of (u := s.frameEnd) ?_ rfl
    rw [exec_callset hf, takeCallset_refused (s := s.frameEnd) hcode]
    rfl
  · intro p k hp hv hfree hroom c
    have hc : s.frameEnd.findCall c.key = none := hfree
    have hinst : s.frameEnd.install c = (s.frameEnd.setCt (insertCall c s.ct)).expiryTest c.key := install_eq hc
    have hput : (s.frameEnd.setCt (insertCall c s.ct)).findCall c.key = some c := findCall_insertCall_self hc
    have hexp : ∀ d, (s.frameEnd.setCt (insertCall c s.ct)).expires d = s.expires d := expires_sck rfl
    have hfind : (s.frameEnd.install c).findCall c.key =
        some (if s.expires c = true then c.outOfService (.finished .expired) else c) := by
      rw [hinst, findCall_expiryTest_self hput, hexp]
    refine takesAnswering_of (u := s.frameEnd.install c) ?_ ⟨(install_side _ c).eq, ?_, fun hx => ?_, fun hx => ?_⟩
    · rw [exec_callset hf]
      have htake : s.frameEnd.takeCallset (readCallset f.body) = (s.frameEnd.install c, .done) := by
        unfold State.takeCallset Config.maxCalls
        have h1 : s.frameEnd.localPlat (readCallset f.body).platform = some p := hp
        have h3 : s.frameEnd.findCall (readCallset f.body).key = none := hfree
        have h4 : ¬ 64 ≤ s.frameEnd.ct.length := Nat.not_le.mpr hroom
        simp only [h1, hv, h3, if_neg h4, Option.isSome_none, Bool.false_eq_true, if_false]
        rfl
      rw [htake]
      rfl
    · rw [hinst]
      exact (othersKept_insertCall hc).trans (othersKept_expiryTest _ _)
    · refine ⟨by rw [show (readCallset f.body).key = c.key from rfl, hfind, hx]; rfl, ?_⟩
      rw [hinst, expiryTest_of_not]
      · rfl
      · intro d hd
        rw [hput] at hd
        cases hd
        rw [hexp, hx]
    · rw [show (readCallset f.body).key = c.key from rfl, hfind, if_pos hx]
      rfl

/-! ### Refusals (R9, R10, R33, R56, R57) -/

theorem callFrame_storeFault {kind : Nat} {f : RxFrame} {s : State} (hm : s.sul.mode = .storeFault) (hh : s.hears kind f = true)
    (hu : s.fromUs f = false) (act : State → State) :
    s.callFrame kind f act =
      if s.forUsAlone f then s.frameEnd.answer f kind (field f.body 0 2) .storeFault else s.frameEnd := by
  have h1 : s.frameEnd.hears kind f = true := hh
  have h2 : s.frameEnd.fromUs f = false := hu
  have h3 : s.frameEnd.sul.mode = .storeFault := hm
  have h4 : s.frameEnd.forUsAlone f = s.forUsAlone f := rfl
  simp [State.callFrame, h1, h2, h3, h4]

theorem callFrame_silent {kind : Nat} {f : RxFrame} {s : State} (hm : s.sul.mode = .loading ∨ s.sul.mode = .listenOnly)
    (act : State → State) : s.callFrame kind f act = s.frameEnd := by
  have h3 : s.frameEnd.sul.mode = s.sul.mode := rfl
  unfold State.callFrame
  dsimp only
  split
  · rfl
  · rcases hm with hm | hm <;> rw [h3, hm]

/-- What a call frame does outside RUNNING, or when it is not heard or is the node's own (R9, R10, R164, R184). -/
theorem outside_running {c : Instr} {kind : Nat} {f : RxFrame} {s : State} {act : State → State}
    (h : exec c s = .next (s.callFrame kind f act)) :
    (s.sul.mode = .storeFault → s.hears kind f = true → s.fromUs f = false →
      (s.forUsAlone f = true →
        TakesAnswering c f kind (field f.body 0 2) .storeFault s (fun u => u = { s with lc := { s.lc with rx := false } })) ∧
      (s.forUsAlone f = false → Takes c s (fun u => u = { s with lc := { s.lc with rx := false } }))) ∧
    (s.sul.mode = .loading ∨ s.sul.mode = .listenOnly ∨ s.hears kind f = false ∨ s.fromUs f = true →
      Takes c s (fun u => u = { s with lc := { s.lc with rx := false } })) := by
  refine ⟨fun hm hh hu => ⟨fun ha => ?_, fun ha => ?_⟩, fun hd => ?_⟩
  · refine takesAnswering_of (u := s.frameEnd) ?_ rfl
    rw [h, callFrame_storeFault hm hh hu, if_pos ha]
  · refine takes_of (t := s.frameEnd) ?_ rfl
    rw [h, callFrame_storeFault hm hh hu, if_neg (by simp [ha])]
  · refine takes_of (t := s.frameEnd) ?_ rfl
    rw [h]
    rcases hd with hd | hd | hd | hd
    · rw [callFrame_silent (.inl hd)]
    · rw [callFrame_silent (.inr hd)]
    · rw [callFrame_discarded (.inl hd)]
    · rw [callFrame_discarded (.inr hd)]

/-- Why a frame naming a call is refused by its key: no call has it, or its call's state refuses it. -/
theorem keyRefusal_cases {s : State} {key : Nat} {code : AnswerCode} (h : keyRefusal s key = some code) :
    (s.findCall key = none ∧ code = .unknownKey) ∨ ∃ c, s.findCall key = some c ∧ stateRefusal c = some code := by
  unfold keyRefusal at h
  cases hc : s.findCall key with
  | none => rw [hc] at h; cases h; exact .inl ⟨rfl, rfl⟩
  | some c =>
    refine .inr ⟨c, rfl, ?_⟩
    rw [hc] at h
    unfold stateRefusal
    cases hs : c.state <;> simp_all

/-- A call frame that answers `code` and changes nothing, once taken. -/
theorem refused_of {c : Instr} {kind : Nat} {f : RxFrame} {s : State} {r : State → State × AnswerCode} {code : AnswerCode}
    (h : exec c s = .next (s.callFrame kind f (fun s => State.answered f kind (field f.body 0 2) (r s)))) (hf : CallFrameTaken kind f s)
    (hr : r s.frameEnd = (s.frameEnd, code)) :
    TakesAnswering c f kind (field f.body 0 2) code s (fun u => u = { s with lc := { s.lc with rx := false } }) := by
  refine takesAnswering_of (u := s.frameEnd) ?_ rfl
  rw [h, callFrame_taken hf, hr]
  rfl

/-- Settles O13: by the mode, the reception and the source, then by the key and its call's state. -/
theorem framesForACallAreRefusedByItsState : Obligations.FramesForACallAreRefusedByItsState := by
  refine ⟨fun f s => ⟨outside_running rfl, outside_running rfl, outside_running rfl, outside_running rfl, outside_running rfl,
    outside_running rfl⟩, fun f s code hr => ⟨fun hf => refused_of rfl hf ?_, fun hf => refused_of rfl hf ?_, fun hf => refused_of rfl hf ?_⟩⟩
  all_goals
    have hfind : s.frameEnd.findCall (field f.body 0 2) = s.findCall (field f.body 0 2) := rfl
    rcases keyRefusal_cases hr with ⟨hc, rfl⟩ | ⟨c, hc, hs⟩
  · simp [State.takeAmend, readCallamend, hfind, hc]
  · simp [State.takeAmend, readCallamend, hfind, hc, hs]
  · simp [State.takePlan, readCallplan, hfind, hc]
  · simp [State.takePlan, readCallplan, hfind, hc, hs]
  · simp [State.takeTrigger, hfind, hc]
  · simp [State.takeTrigger, hfind, hc, hs]

/-! ### HANDOFF received (R9, R15, R23, R70) -/

/-- How a step of a live call starts, by its mode (R23). -/
theorem startStep_starts {w : State} {k i : Nat} {c : Call} {st : Step} (hc : w.findCall k = some c) (hst : w.findStep k i = some st)
    (hi : st.timer.state = .idle) : StepStarts w (w.startStep k i) k i c st.spec := by
  have hat : st.spec.mode = .atTime → w.startStep k i = if w.sck.isSet then w.atTest k i c st else w := fun hm => by
    simp [State.startStep, hc, hst, hm]
  have hev : st.spec.mode = .every → ∀ start, st.spec.fireTime c = some start →
      w.startStep k i = if w.sck.isSet ∧ start ≤ (w.sck.time : Int) then w.windowTest k i c st else w := fun hm start hs => by
    simp [State.startStep, hc, hst, hm, hs]
  refine ⟨fun hm hu => ?_, fun hm hset ft hft => ?_, fun hm hset start stop hs hcl => ?_, fun hm => ⟨fun hb => ?_, fun hb => ?_⟩, fun hm => ?_⟩
  · rcases hm with hm | hm
    · rw [hat hm]
      rcases hu with hu | hu
      · simp [hu]
      · simp [State.atTest, hu]
    · rcases hu with hu | hu
      · cases hs : st.spec.fireTime c with
        | none => simp [State.startStep, hc, hst, hm, hs]
        | some start => rw [hev hm start hs]; simp [hu]
      · simp [State.startStep, hc, hst, hm, hu]
  · rw [hat hm, if_pos hset]
    exact atTest_tested w k i c st hft
  · have ht := windowTest_tested w k i c st hs hcl (by rw [hi]; rfl)
    rw [hev hm start hs]
    refine ⟨fun hb => if_neg (by omega), fun ho hb => ?_, fun ho hx => ?_⟩
    · rw [if_pos ⟨hset, ho⟩]; exact ht.opens hb hi ho
    · rw [if_pos ⟨hset, ho⟩]; exact ht.closes hx
  · have h : w.startStep k i = w.armStep k i st.spec := by simp [State.startStep, hc, hst, hm, hb]
    rw [h]
    exact ⟨fun hp => by simp [State.armStep, Int.not_le.mpr hp], fun hp => by simp [State.armStep, hp]⟩
  · simp [State.startStep, hc, hst, hm, hb]
  · rcases hm with hm | hm <;> simp [State.startStep, hc, hst, hm]

/-- With the clock UNSET no step of a WAITING call starts (R23). -/
theorem startStep_unset {w : State} {k i : Nat} {c : Call} (hc : w.findCall k = some c) (hw : c.state = .waiting)
    (hset : w.sck.isSet = false) : w.startStep k i = w := by
  unfold State.startStep
  rw [hc]
  cases hst : w.findStep k i with
  | none => rfl
  | some st =>
    cases hm : st.spec.mode
    case every => cases hs : st.spec.fireTime c <;> simp [hset, hs, hm]
    all_goals simp [hset, hw, hm]

theorem startSteps_unset {w : State} {k : Nat} {c : Call} (hc : w.findCall k = some c) (hw : c.state = .waiting)
    (hset : w.sck.isSet = false) (l : List Nat) : l.foldl (fun w i => w.startStep k i) w = w := by
  induction l with
  | nil => rfl
  | cons i l ih => rw [List.foldl_cons, startStep_unset hc hw hset, ih]

theorem exec_handoff {f : RxFrame} {s : State} (h : CallFrameTaken kindHandoff f s) :
    exec (.handoff f) s = .next (s.frameEnd.handoffFrame f) := congrArg Host.Outcome.next (callFrame_taken h _)

theorem handoffFrame_taken {f : RxFrame} {s : State} {k : CallKind} {plan : List StepSpec} (ha : s.forUsAlone f = true)
    (hv : (readHandoff f.body).values? = some k) (hp : (readHandoff f.body).plan? = some plan) :
    s.handoffFrame f = State.answered f kindHandoff (field f.body 0 2) (s.takeHandoff (readHandoff f.body) k plan) := by
  simp [State.handoffFrame, hv, hp, ha]

theorem handoffFrame_discarded {f : RxFrame} {s : State}
    (h : s.forUsAlone f = false ∨ (readHandoff f.body).values? = none ∨ (readHandoff f.body).plan? = none) : s.handoffFrame f = s := by
  unfold State.handoffFrame
  cases hv : (readHandoff f.body).values? <;> cases hp : (readHandoff f.body).plan? <;> simp_all

/-- Settles O20: the refusals in their order, and the call installed with its steps started one after the other. -/
theorem handoffInstalls : Obligations.HandoffInstalls := by
  refine ⟨fun w k i c st hc hst _ hi => startStep_starts hc hst hi, fun f s hf => ?_, fun f s hf ha => ?_⟩
  · have hloc : s.frameEnd.localPlat = s.localPlat := rfl
    have hfnd : s.frameEnd.findCall = s.findCall := rfl
    have hlen : s.frameEnd.ct.length = s.ct.length := rfl
    refine ⟨fun hd => takes_of (exec_handoff hf) (handoffFrame_discarded (s := s.frameEnd) hd), fun ha hv hp => ?_⟩
    obtain ⟨k, hk⟩ := Option.ne_none_iff_exists'.mp hv
    obtain ⟨plan, hplan⟩ := Option.ne_none_iff_exists'.mp hp
    have hexec : ∀ code, s.frameEnd.takeHandoff (readHandoff f.body) k plan = (s.frameEnd, code) →
        TakesAnswering (.handoff f) f kindHandoff (readHandoff f.body).key code s (fun u => u = { s with lc := { s.lc with rx := false } }) := by
      intro code ht
      refine takesAnswering_of (u := s.frameEnd) ?_ rfl
      rw [exec_handoff hf, handoffFrame_taken (s := s.frameEnd) ha hk hplan, ht]
      rfl
    refine ⟨fun hl => hexec _ ?_, fun hl hc => hexec _ ?_, fun hl hc h64 => hexec _ ?_⟩
    · simp only [State.takeHandoff, hloc, hl]
    · obtain ⟨p, hp⟩ := Option.ne_none_iff_exists'.mp hl
      simp only [State.takeHandoff, hloc, hp, hfnd, Option.isSome_iff_ne_none.mpr hc, if_true]
    · obtain ⟨p, hp⟩ := Option.ne_none_iff_exists'.mp hl
      have h64' : Config.maxCalls ≤ s.ct.length := h64
      simp only [State.takeHandoff, hloc, hp, hfnd, hlen, hc, Option.isSome_none, Bool.false_eq_true, if_false, if_pos h64']
  · intro b p k plan hv hp hl hfree hroom c
    have hc : s.frameEnd.findCall c.key = none := hfree
    have hlen : c.steps.length = plan.length := List.length_map ..
    have hinst : s.frameEnd.install c =
        ((List.range plan.length).foldl (fun w i => w.startStep c.key i) (s.frameEnd.setCt (insertCall c s.ct))).expiryTest c.key :=
      hlen ▸ install_eq hc
    have hput : (s.frameEnd.setCt (insertCall c s.ct)).findCall c.key = some c := findCall_insertCall_self hc
    have hwork := rangeSteps_work startStep_work c.key plan.length (s.frameEnd.setCt (insertCall c s.ct))
    obtain ⟨d, hd, hcd⟩ := hwork.findCall hput
    have hspec : d.steps.map (·.spec) = plan := by rw [hcd.specs]; simp [c, Function.comp_def]
    have hexp : ∀ w : State, CallSide (s.frameEnd.setCt (insertCall c s.ct)) w → w.expires d = s.expires c := fun w hw => by
      simp only [State.expires, hw.sck, hcd.state, hcd.refTime]; rfl
    refine takesAnswering_of (u := s.frameEnd.install c) ?_ ⟨(install_side _ c).eq, ?_, hinst, fun hset => ?_⟩
    · rw [exec_handoff hf, handoffFrame_taken (s := s.frameEnd) ha hv hp]
      have htake : s.frameEnd.takeHandoff (readHandoff f.body) k plan = (s.frameEnd.install c, .done) := by
        have h1 : s.frameEnd.localPlat b.platform = some p := hl
        have h3 : s.frameEnd.findCall b.key = none := hfree
        have h4 : ¬ Config.maxCalls ≤ s.frameEnd.ct.length := Nat.not_le.mpr hroom
        unfold State.takeHandoff
        rw [h1]
        dsimp only
        rw [h3, if_neg h4]
        rfl
      rw [htake]
      rfl
    · have hfind : (s.frameEnd.install c).findCall c.key =
          some (if s.expires c = true then d.outOfService (.finished .expired) else d) := by
        rw [hinst, findCall_expiryTest_self hd, hexp _ hwork.side]
      refine ⟨_, hfind, ?_, ?_, ?_⟩
      · split
        · rw [hcd.fields]; rfl
        · rw [hcd.fields]
      · split
        · rw [outOfService_specs, hspec]
        · exact hspec
      · split
        · rfl
        · rw [hcd.state]
    · have hset' : (s.frameEnd.setCt (insertCall c s.ct)).sck.isSet = false := hset
      rw [hinst, startSteps_unset hput rfl hset', expiryTest_unset hset']
      rfl

end Sys2Proof.Machine
end

