-- ==== Sys2Proof/Proofs/Handoffs.lean ====
section
/-!
PROOFS. The statements about a handoff's answer and about a dropped call, with what a reverted handoff does said once.
-/

namespace Sys2Proof.Machine

open Sys2Proof

/-! ### A handoff reverts (R36, R50, R71) -/

/-- The state in which a reverted call's steps resume: its flag and state returned, and the binding that a platform held for it. -/
def State.revertedCall (s : State) (key : Nat) (h : HandoffCtx) : State :=
  (s.setPm (s.pm.map (Plat.restore key))).modCall key (fun c =>
    { c with
      changed := h.preChanged, handoffFailed := true, handoff := none,
      state := if Plat.holds key s.pm.d0 || Plat.holds key s.pm.d1 then .bound else .waiting })

/-- A reverted call whose steps have resumed, where the clock is SET. -/
def State.resumedCall (s : State) (key : Nat) (h : HandoffCtx) : State :=
  if s.sck.isSet then (s.revertedCall key h).eachStep ((s.revertedCall key h).stepRefsOf key) State.forwardStep else s.revertedCall key h

theorem revertHandoff_eq {s : State} {key : Nat} {c : Call} {h : HandoffCtx} (hc : s.findCall key = some c) (hs : c.state = .handingOff)
    (hh : c.handoff = some h) : s.revertHandoff key =
      if Plat.holds key s.pm.d0 || Plat.holds key s.pm.d1 then s.resumedCall key h else (s.resumedCall key h).expiryTest key := by
  simp only [State.revertHandoff, hc, hs, hh]
  rfl

theorem resumedCall_work (s : State) (key : Nat) (h : HandoffCtx) : StepWork (s.revertedCall key h) (s.resumedCall key h) := by
  unfold State.resumedCall
  split
  · exact eachStep_work forwardStep_work _ _
  · exact .refl _

theorem findCall_revertedCall {s : State} {key : Nat} {c : Call} (h : HandoffCtx) (hc : s.findCall key = some c) :
    (s.revertedCall key h).findCall key = some { c with
      changed := h.preChanged, handoffFailed := true, handoff := none,
      state := if Plat.holds key s.pm.d0 || Plat.holds key s.pm.d1 then .bound else .waiting } := by
  have hc' : (s.setPm (s.pm.map (Plat.restore key))).findCall key = some c := hc
  exact findCall_modCall_self hc' (fun _ => rfl)

theorem othersKept_revertedCall (s : State) (key : Nat) (h : HandoffCtx) : OthersKept key s (s.revertedCall key h) :=
  othersKept_modCall (s.setPm (s.pm.map (Plat.restore key))) key _ (fun _ => rfl)

theorem keys_modCall (s : State) (key : Nat) (f : Call → Call) (hf : ∀ c, (f c).key = c.key) :
    (s.modCall key f).ct.map (·.key) = s.ct.map (·.key) := by
  simp only [State.modCall, State.setCt_ct, List.map_map]
  refine List.map_congr_left fun c _ => ?_
  by_cases h : (c.key == key) = true
  · simp only [Function.comp_apply, if_pos h, hf]
  · simp only [Function.comp_apply, if_neg h]

theorem keys_revertedCall (s : State) (key : Nat) (h : HandoffCtx) : (s.revertedCall key h).ct.map (·.key) = s.ct.map (·.key) :=
  keys_modCall (s.setPm (s.pm.map (Plat.restore key))) key _ (fun _ => rfl)

theorem held_iff (s : State) (key : Nat) : (Plat.holds key s.pm.d0 || Plat.holds key s.pm.d1) = true ↔
    (s.pm.get .p0).hold = some key ∨ (s.pm.get .p1).hold = some key := by simp [Plat.holds, Duo.get]

theorem held_iff_exists (s : State) (key : Nat) : (Plat.holds key s.pm.d0 || Plat.holds key s.pm.d1) = true ↔
    ∃ p, (s.pm.get p).hold = some key := by
  rw [held_iff]
  refine ⟨fun h => h.elim (fun h => ⟨_, h⟩) (fun h => ⟨_, h⟩), ?_⟩
  rintro ⟨_ | _, h⟩
  · exact .inl h
  · exact .inr h

/-- The steps of a reverted call resume in index order (R36). -/
theorem resumedCall_eq {s : State} (hk : KeysAscend s) {key : Nat} {c : Call} (h : HandoffCtx) (hc : s.findCall key = some c) :
    s.resumedCall key h = if s.sck.isSet then (List.range c.steps.length).foldl (fun w i => w.forwardStep key i) (s.revertedCall key h)
      else s.revertedCall key h := by
  have hrefs := stepRefsOf_of_find (hk.of_keys (keys_revertedCall s key h)) (findCall_revertedCall h hc)
  rw [State.resumedCall, hrefs, eachStep_range]

/-- What a handoff that reverts leaves (R36, R50, R71). -/
theorem revertHandoff_reverted {s : State} {key : Nat} {c : Call} {h : HandoffCtx} (hc : s.findCall key = some c)
    (hs : c.state = .handingOff) (hh : c.handoff = some h) : HandoffReverted key c h s (s.revertHandoff key) := by
  have heq := revertHandoff_eq hc hs hh
  have hwork := resumedCall_work s key h
  have hside := revertHandoff_side s key
  obtain ⟨d, hd, hcd⟩ := hwork.findCall (findCall_revertedCall h hc)
  refine ⟨by rw [hside.lc]; exact hside.eq, by rw [hside.lc], ?_, fun p hp => ?_, fun hk => ?_⟩
  · by_cases hheld : (Plat.holds key s.pm.d0 || Plat.holds key s.pm.d1) = true
    · rw [if_pos hheld] at heq
      refine ⟨d, by rw [heq, hd], ?_⟩
      rw [hcd.fields]
      refine ⟨rfl, rfl, rfl, rfl, rfl, rfl, rfl, rfl, rfl, fun _ => if_pos hheld, fun hn => ?_⟩
      obtain ⟨p, hp⟩ := (held_iff_exists s key).mp hheld
      exact absurd hp (hn p)
    · rw [if_neg hheld] at heq
      refine ⟨_, by rw [heq, findCall_expiryTest_self hd], ?_⟩
      have hwait : d.state = .waiting := by rw [hcd.state]; exact if_neg hheld
      have hex : ¬ ∃ p, (s.pm.get p).hold = some key := fun hp => hheld ((held_iff_exists s key).mpr hp)
      split
      · refine ⟨?_, ?_, ?_, ?_, ?_, ?_, ?_, ?_, ?_, fun hp => absurd hp hex, fun _ => .inr rfl⟩ <;> rw [hcd.fields] <;> rfl
      · refine ⟨?_, ?_, ?_, ?_, ?_, ?_, ?_, ?_, ?_, fun hp => absurd hp hex, fun _ => .inl hwait⟩ <;> rw [hcd.fields]
  · have hheld : (Plat.holds key s.pm.d0 || Plat.holds key s.pm.d1) = true := (held_iff_exists s key).mpr ⟨p, hp⟩
    have hpm : (s.revertedCall key h).pm.get p = { s.pm.get p with hold := none, bound := some key } := by
      simp [State.revertedCall, State.modCall, Plat.restore, hp]
    rw [heq, if_pos hheld, hwork.hold p, hwork.bound p, hpm]
    exact ⟨rfl, rfl⟩
  · intro held v w
    have hv : v = s.revertedCall key h := by
      have hst : (if held then CallState.bound else .waiting) =
          if Plat.holds key s.pm.d0 || Plat.holds key s.pm.d1 then CallState.bound else .waiting := by
        simp only [held_iff]; rfl
      simp only [v, hside.lc, hst]
      rfl
    have hw : w = s.resumedCall key h := by
      rw [resumedCall_eq hk h hc, ← hv]
    rw [heq, ← hw]
    by_cases hp : held
    · rw [if_pos ((held_iff s key).mpr hp), if_pos hp]
    · rw [if_neg (fun hx => hp ((held_iff s key).mp hx)), if_neg hp]

/-- The receive buffer plays no part in what a handoff that reverts leaves. -/
theorem HandoffReverted.of_rx {s t : State} {key : Nat} {c : Call} {h : HandoffCtx} {b : Bool}
    (k : HandoffReverted key c h (s.setLc { s.lc with rx := b }) t) : HandoffReverted key c h s t :=
  ⟨k.frame, k.link, k.call, k.binding, k.resumes⟩

/-- With the clock UNSET a handoff that reverts changes its own call and the platforms alone. -/
theorem revertHandoff_unset {s : State} {key : Nat} {c : Call} {h : HandoffCtx} (hc : s.findCall key = some c) (hs : c.state = .handingOff)
    (hh : c.handoff = some h) (hset : s.sck.isSet = false) : s.revertHandoff key = s.revertedCall key h := by
  have hw : s.resumedCall key h = s.revertedCall key h := by simp [State.resumedCall, hset]
  rw [revertHandoff_eq hc hs hh, hw]
  split
  · rfl
  · exact expiryTest_unset (s := s.revertedCall key h) hset key

/-! ### ANSWER and the handoff timer (R69, R175) -/

/-- Which handoff waits for its answer (R69). -/
theorem awaitingHandoff_iff (s : State) (key : Nat) (h : HandoffCtx) : s.awaitingHandoff key = some h ↔
    ∃ c, s.findCall key = some c ∧ c.state = .handingOff ∧ c.handoff = some h ∧ h.phase = .awaiting := by
  unfold State.awaitingHandoff
  cases hc : s.findCall key with
  | none => simp
  | some c =>
    simp only [Option.some.injEq, exists_eq_left']
    cases hs : c.state <;> cases hh : c.handoff <;> simp
    constructor
    · rintro ⟨hp, rfl⟩
      exact ⟨rfl, hp⟩
    · rintro ⟨rfl, hp⟩
      exact ⟨hp, rfl⟩

theorem exec_answer_taken {f : RxFrame} {s : State} (hm : s.sul.mode = .running) (hh : s.hears kindAnswer f = true) :
    exec (.answer f) s =
      .next (s.frameEnd.takeAnswer f.src.toNat (field8 f.body 0) (field f.body 1 2) (field8 f.body 3)) := by
  have h1 : (s.frameEnd.hears kindAnswer f && s.frameEnd.isRunning) = true := by
    rw [hears_frameEnd, hh]
    simp [State.isRunning, State.frameEnd, hm]
  exact congrArg Host.Outcome.next (if_pos h1)

theorem exec_answer_ignored {f : RxFrame} {s : State} (h : ¬ (s.sul.mode = .running ∧ s.hears kindAnswer f = true)) :
    exec (.answer f) s = .next s.frameEnd := by
  have h1 : ¬ (s.frameEnd.hears kindAnswer f && s.frameEnd.isRunning) = true := by
    rw [hears_frameEnd]
    simp only [Bool.and_eq_true, State.isRunning, State.frameEnd, State.setLc_sul, beq_iff_eq]
    exact fun ⟨a, b⟩ => h ⟨b, a⟩
  exact congrArg Host.Outcome.next (if_neg h1)

theorem findCall_settleHandoff {s : State} {key : Nat} {c : Call} (hc : s.findCall key = some c) :
    (s.settleHandoff key).findCall key =
      some { c with handoff := c.handoff.map (fun h => { h with phase := .settled, timer := none }) } := by
  have hc' : (((s.setPm (s.pm.map (Plat.unhold key))).removeOrigs (Orig.ofCall key)).markNoRetry key).findCall key = some c := hc
  exact findCall_modCall_self hc' (fun _ => rfl)

/-- Settles O21: an ANSWER or a timeout meets an AWAITING handoff or none. -/
theorem handoffSettlesOrReverts : Obligations.HandoffSettlesOrReverts := by
  refine ⟨fun f s hn => ?_, fun key s hn => takes_of rfl ?_, fun s key c h hc hs hh hp => ⟨fun f hm hr hkey hkind hsrc => ⟨fun h0 => ?_,
    fun h0 => ?_⟩, fun ht => ?_⟩⟩
  · by_cases hrun : s.sul.mode = .running ∧ s.hears kindAnswer f = true
    · refine takes_of (exec_answer_taken hrun.1 hrun.2) ?_
      have hnone : ∀ h, s.frameEnd.awaitingHandoff (field f.body 1 2) = some h →
          ¬ (field8 f.body 0 = kindHandoff ∧ f.src.toNat = h.server) := by
        intro h hw hks
        obtain ⟨c, hc, hs, hh, hp⟩ := (awaitingHandoff_iff s.frameEnd _ _).mp hw
        exact hn ⟨hrun.1, hrun.2, hks.1, c, h, hc, hs, hh, hp, hks.2⟩
      unfold State.takeAnswer
      cases hw : s.frameEnd.awaitingHandoff (field f.body 1 2) with
      | none => rfl
      | some h => exact if_neg (hnone h hw)
    · exact takes_of (exec_answer_ignored hrun) rfl
  · cases hw : s.awaitingHandoff key with
    | none => rfl
    | some h =>
      obtain ⟨c, hc, hs, hh, hp⟩ := (awaitingHandoff_iff s _ _).mp hw
      exact if_neg fun ht => hn ⟨c, h, hc, hs, hh, hp, ht⟩
  · have hw : s.frameEnd.awaitingHandoff key = some h := (awaitingHandoff_iff s.frameEnd _ _).mpr ⟨c, hc, hs, hh, hp⟩
    have htake : s.frameEnd.takeAnswer f.src.toNat (field8 f.body 0) (field f.body 1 2) (field8 f.body 3) = s.frameEnd.settleHandoff key := by
      simp only [State.takeAnswer, hw, hkind, hsrc, and_self, if_true, h0, hkey]
      rfl
    refine takes_of (exec_answer_taken hm hr) ?_
    rw [htake]
    have hfind : (s.frameEnd.settleHandoff key).findCall key = some { c with handoff := some { h with phase := .settled, timer := none } } := by
      rw [findCall_settleHandoff (s := s.frameEnd) hc, hh]
      rfl
    refine ⟨(settleHandoff_side _ key).eq, othersKept_modCall (s := (((s.frameEnd.setPm (s.pm.map (Plat.unhold key))).removeOrigs
      (Orig.ofCall key)).markNoRetry key)) key _ (fun _ => rfl), ⟨_, hfind, rfl, ?_⟩, fun p => ?_, rfl, rfl⟩
    · simp [Call.awaitsRemoval, hs]
    · show (s.pm.map (Plat.unhold key)).get p = _
      rw [Duo.get_map]
      rfl
  · have hw : s.frameEnd.awaitingHandoff key = some h := (awaitingHandoff_iff s.frameEnd _ _).mpr ⟨c, hc, hs, hh, hp⟩
    have htake : s.frameEnd.takeAnswer f.src.toNat (field8 f.body 0) (field f.body 1 2) (field8 f.body 3) = s.frameEnd.revertHandoff key := by
      have hne : field8 f.body 3 ≠ answerCode .done := h0
      simp only [State.takeAnswer, hw, hkind, hsrc, and_self, if_true, if_neg hne, hkey]
    refine takes_of (exec_answer_taken hm hr) ?_
    rw [htake]
    refine ⟨(revertHandoff_reverted (s := s.frameEnd) hc hs hh).of_rx, congrArg Lc.rx (revertHandoff_side s.frameEnd key).lc, fun hset => ?_⟩
    rw [revertHandoff_unset (s := s.frameEnd) hc hs hh hset]
    exact ⟨othersKept_revertedCall s.frameEnd key h, rfl, rfl⟩
  · have hw : s.awaitingHandoff key = some h := (awaitingHandoff_iff s _ _).mpr ⟨c, hc, hs, hh, hp⟩
    refine takes_of (t := s.revertHandoff key) ?_ ⟨revertHandoff_reverted hc hs hh, (revertHandoff_side s key).lc, fun hset => ?_⟩
    · show Host.Outcome.next _ = _
      rw [hw]
      exact congrArg Host.Outcome.next (if_pos ht)
    · rw [revertHandoff_unset hc hs hh hset]
      exact ⟨othersKept_revertedCall s key h, rfl, rfl⟩

/-! ### What the link's work leaves of calls (R98, R100, R101, R168) -/

/-- `t` has the call table, the platforms and the originations of `s`. -/
structure OffCalls (s t : State) : Prop where
  ct : t.ct = s.ct
  pm : t.pm = s.pm
  cmp : t.cmp = s.cmp

theorem OffCalls.refl (s : State) : OffCalls s s := ⟨rfl, rfl, rfl⟩

theorem OffCalls.trans {s t u : State} (h : OffCalls s t) (k : OffCalls t u) : OffCalls s u :=
  ⟨k.ct.trans h.ct, k.pm.trans h.pm, k.cmp.trans h.cmp⟩

theorem ZoneSide.offCalls {s t : State} (h : ZoneSide s t) : OffCalls s t := ⟨h.ct, h.pm, h.cmp⟩

theorem setTx_offCalls (s : State) (q : List TxFrame) : OffCalls s (s.setTx q) := ⟨rfl, rfl, rfl⟩

theorem lowFail_offCalls (s : State) (f : TxFrame) : OffCalls s (s.lowFail f) := by
  unfold State.lowFail
  split <;> exact ⟨rfl, rfl, rfl⟩

theorem enqueueLow_offCalls (s : State) (b : TxBody) (dst : Nat) : OffCalls s (s.enqueueLow b dst) := by
  unfold State.enqueueLow
  dsimp only
  split
  · exact setTx_offCalls s _
  · exact (setTx_offCalls s _).trans (lowFail_offCalls _ _)

theorem settleEntry_offCalls (s : State) (id : ClaimId) : OffCalls s (s.settleEntry id) := by
  unfold State.settleEntry
  repeat' (first | split | dsimp only)
  all_goals first
    | exact ⟨rfl, rfl, rfl⟩
    | exact ((modEntry_side s _ _).trans (modEntry_side _ _ _)).offCalls.trans (enqueueLow_offCalls _ _ _)

theorem settle_offCalls (s : State) : OffCalls s s.settle := foldl_rel OffCalls .refl .trans settleEntry_offCalls _ s

theorem sendFailed_offCalls (s : State) (c : ClaimFrame) : OffCalls s (s.sendFailed c) := by
  unfold State.sendFailed
  dsimp only
  repeat' split
  all_goals first
    | exact .refl s
    | exact ((modEntry_side s _ _).trans (offerEntry_side _ _)).offCalls.trans (settle_offCalls _)

theorem cedeFailed_offCalls (s : State) (id : ClaimId) (c : Bool) : OffCalls s (s.cedeFailed id c) :=
  ((withdrawZones_side s id c).trans (modOrigin_side _ _ _)).offCalls.trans (settle_offCalls _)

/-- What a frame's failure does to calls: nothing, or it reverts the handoff of a call that is HANDING_OFF (R69, R168). -/
theorem failFrame_calls (s : State) (f : TxFrame) : OffCalls s (s.failFrame f) ∨ ∃ key, s.failFrame f = s.revertHandoff key := by
  unfold State.failFrame
  split
  · exact .inl (sendFailed_offCalls s _)
  · exact .inl (cedeFailed_offCalls s _ _)
  · unfold State.handoffFailed
    repeat' split
    all_goals first
      | exact .inl (.refl s)
      | exact .inr ⟨_, rfl⟩
  · exact .inl (.refl s)
  · exact .inl (lowFail_offCalls s f)
  · exact .inl (lowFail_offCalls s f)

/-! ### CALLDROP (R5, R10, R13, R14) -/

/-- The call with a key is in DROPPING and no platform is bound to it. -/
structure Dropped (key : Nat) (s : State) : Prop where
  call : ∃ d, s.findCall key = some d ∧ d.state = .dropping
  released : ∀ p, (s.pm.get p).bound ≠ some key

theorem Dropped.offCalls {key : Nat} {s t : State} (h : Dropped key s) (k : OffCalls s t) : Dropped key t :=
  ⟨by simpa [State.findCall, k.ct] using h.call, by simpa [k.pm] using h.released⟩

theorem Dropped.work {key : Nat} {s t : State} (h : Dropped key s) (k : StepWork s t) : Dropped key t := by
  obtain ⟨d, hd, hs⟩ := h.call
  obtain ⟨e, he, hde⟩ := k.findCall hd
  exact ⟨⟨e, he, hde.state.trans hs⟩, fun p => by rw [k.bound p]; exact h.released p⟩

/-- A release of a platform binds nothing. -/
theorem release_bound {key k : Nat} {p : Plat} (h : p.bound ≠ some key) : (Plat.release k p).bound ≠ some key := by
  unfold Plat.release
  split
  · simp
  · exact h

theorem Dropped.expiryTest {key : Nat} {s : State} (h : Dropped key s) (k : Nat) : Dropped key (s.expiryTest k) := by
  obtain ⟨d, hd, hs⟩ := h.call
  have hex : s.expires d = false := by
    by_contra hx
    have := expires_waiting (Bool.not_eq_false _ ▸ hx)
    rw [hs] at this
    cases this
  refine ⟨⟨d, by simp [findCall_expiryTest, hd, hex], hs⟩, fun p => ?_⟩
  unfold State.expiryTest
  repeat' split
  · rw [leaveService_eq]
    simp only [Duo.get_map]
    exact release_bound (h.released p)
  · exact h.released p
  · exact h.released p

/-- No other call's handoff binds a platform to a dropped call. -/
theorem Dropped.revertHandoff {key : Nat} {s : State} (h : Dropped key s) (k : Nat) : Dropped key (s.revertHandoff k) := by
  obtain ⟨d, hd, hds⟩ := h.call
  by_cases hx : ∃ c x, s.findCall k = some c ∧ c.state = .handingOff ∧ c.handoff = some x
  · obtain ⟨c, x, hc, hs, hh⟩ := hx
    have hne : key ≠ k := by
      rintro rfl
      rw [hd] at hc
      cases hc
      rw [hds] at hs
      cases hs
    have hrev : Dropped key (s.revertedCall k x) := by
      refine ⟨⟨d, by rw [othersKept_revertedCall s k x key hne, hd], hds⟩, fun p => ?_⟩
      show ((s.pm.map (Plat.restore k)).get p).bound ≠ _
      rw [Duo.get_map, Plat.restore]
      split
      · simpa using Ne.symm hne
      · exact h.released p
    rw [revertHandoff_eq hc hs hh]
    have hres := hrev.work (resumedCall_work s k x)
    split
    · exact hres
    · exact hres.expiryTest k
  · have hsame : s.revertHandoff k = s := by
      unfold State.revertHandoff
      cases hc : s.findCall k with
      | none => rfl
      | some c =>
        dsimp only
        split
        · exact absurd ⟨c, _, hc, ‹_›, ‹_›⟩ hx
        · rfl
    rw [hsame]
    exact h

theorem Dropped.enqueue {key : Nat} {s : State} (h : Dropped key s) (b : TxBody) (dst : Nat) : Dropped key (s.enqueue b dst) := by
  unfold State.enqueue
  dsimp only
  split
  · exact h.offCalls (setTx_offCalls s _)
  · rename_i f _
    have hq := h.offCalls (setTx_offCalls s (txOffer s.lc.tx (s.newFrame b dst)).1)
    rcases failFrame_calls (s.setTx (txOffer s.lc.tx (s.newFrame b dst)).1) f with hf | ⟨k, hf⟩
    · exact hq.offCalls hf
    · rw [hf]
      exact hq.revertHandoff k

theorem Dropped.withdrawOwn {key : Nat} {s : State} (h : Dropped key s) (cut : Bool) (id : ClaimId) : Dropped key (s.withdrawOwn cut id) := by
  unfold State.withdrawOwn
  repeat' split
  all_goals first
    | exact h
    | exact (h.offCalls (modOrigin_side s _ _).offCalls).enqueue _ _
    | exact h.offCalls ((setTx_offCalls s _).trans (modOrigin_side _ _ _).offCalls)
    | exact h.offCalls (((setTx_offCalls s _).trans (modEntry_side _ _ _).offCalls).trans (settle_offCalls _))
    | exact h.offCalls (((modOrigin_side s _ _).trans (withdrawZones_side _ _ _)).offCalls.trans (settle_offCalls _))

theorem Dropped.withdrawAll {key : Nat} {s : State} (h : Dropped key s) (ids : List ClaimId) :
    Dropped key (ids.foldl (fun w id => w.withdrawOwn false id) s) := by
  induction ids generalizing s with
  | nil => exact h
  | cons id ids ih => exact ih (h.withdrawOwn false id)

theorem exec_calldrop {f : RxFrame} {s : State} (h : CallFrameTaken kindCalldrop f s) : exec (.calldrop f) s =
    .next (State.answered f kindCalldrop (field f.body 0 2) (s.frameEnd.takeDrop (field f.body 0 2))) :=
  congrArg Host.Outcome.next (callFrame_taken h _)

/-- Marking the origin entries of a call leaves the entries' ids, keys and origins in place. -/
theorem withdrawn_ids (s : State) (key : Nat) (st : CallState) :
    ((s.leaveService key st).clt.filter (fun e => e.origin.isSome && e.hasKey key)).map (·.id) =
      (s.clt.filter (fun e => e.origin.isSome && e.hasKey key)).map (·.id) := by
  rw [leaveService_eq]
  simp only
  induction s.clt with
  | nil => rfl
  | cons e l ih =>
    rw [List.map_cons, List.filter_cons, List.filter_cons]
    by_cases hk : e.hasKey key = true
    · have hk' : ({ e with origin := e.origin.map (fun o => { o with noRetry := true }) } : Entry).hasKey key = true := hk
      by_cases ho : e.origin.isSome = true
      · simp [hk, hk', ho, ih]
      · simp [hk, ho, ih]
    · simp [hk, ih]

/-- Without an origin entry of the call nothing is marked. -/
theorem markNoRetry_none {l : List Entry} {key : Nat} (h : ¬ ∃ e ∈ l, e.origin ≠ none ∧ e.hasKey key = true) :
    l.map (fun e => if e.hasKey key then { e with origin := e.origin.map (fun o => { o with noRetry := true }) } else e) = l := by
  refine (List.map_congr_left fun e he => ?_).trans (List.map_id' l)
  split
  · rename_i hk
    have ho : e.origin = none := by
      by_contra ho
      exact h ⟨e, he, ho, hk⟩
    cases e
    simp only at ho
    subst ho
    rfl
  · rfl

/-- Settles O16: the call leaves service, then its claims are withdrawn in arrival order. -/
theorem calldropDropsTheCall : Obligations.CalldropDropsTheCall := by
  intro f s hf key
  have hfind : s.frameEnd.findCall key = s.findCall key := rfl
  have hrefuse : ∀ code, s.frameEnd.takeDrop key = (s.frameEnd, code) →
      TakesAnswering (.calldrop f) f kindCalldrop key code s (fun u => u = { s with lc := { s.lc with rx := false } }) := fun code ht =>
    takesAnswering_of (u := s.frameEnd) (by rw [exec_calldrop hf, ht]; rfl) rfl
  refine ⟨fun c hc hnd hnh => ?_, fun c hc hs => hrefuse _ ?_, fun c hc hs => hrefuse _ ?_, fun hc => hrefuse _ ?_⟩
  · have htake : s.frameEnd.takeDrop key = ((s.frameEnd.leaveService key .dropping).withdrawCall key, .done) := by
      unfold State.takeDrop
      rw [hfind, hc]
      cases hs : c.state <;> simp_all
    have hleft : (s.frameEnd.leaveService key .dropping).findCall key = some (c.outOfService .dropping) := by
      simp [findCall_leaveService, hfind, hc]
    have hpm : ∀ p, (s.frameEnd.leaveService key .dropping).pm.get p =
        if (s.pm.get p).bound = some key then { s.pm.get p with bound := none } else s.pm.get p := fun p => Duo.get_map ..
    have hdrop : Dropped key (s.frameEnd.leaveService key .dropping) :=
      ⟨⟨_, hleft, rfl⟩, fun p => by rw [hpm]; split <;> simp_all⟩
    have hall : (s.frameEnd.leaveService key .dropping).withdrawCall key =
        ((s.clt.filter (fun e => e.origin.isSome && e.hasKey key)).map (·.id)).foldl (fun w id => w.withdrawOwn false id)
          (s.frameEnd.leaveService key .dropping) :=
      congrArg (List.foldl (fun w id => State.withdrawOwn w false id) _) (withdrawn_ids s.frameEnd key .dropping)
    refine takesAnswering_of (by rw [exec_calldrop hf, htake]; rfl) ?_
    have hend := hdrop.withdrawAll ((s.clt.filter (fun e => e.origin.isSome && e.hasKey key)).map (·.id))
    rw [← hall] at hend
    refine ⟨hend.call, hend.released, ?_, ⟨_, hall, ?_⟩, fun h0 => ?_⟩
    · exact ((leaveService_side s.frameEnd key .dropping).link.trans (withdrawCall_side _ key)).eq
    · exact ⟨(leaveService_side s.frameEnd key .dropping).eq, othersKept_leaveService s.frameEnd key .dropping, hleft, rfl, rfl, hpm⟩
    · have hnone := (refCount_eq_zero s key).mp h0
      have hnil : s.clt.filter (fun e => e.origin.isSome && e.hasKey key) = [] := by
        simpa [State.refCount] using h0
      rw [hall, hnil]
      refine ⟨?_, othersKept_leaveService s.frameEnd key .dropping, hleft, rfl, hpm⟩
      have hclt : (s.frameEnd.leaveService key .dropping).clt = s.clt := markNoRetry_none hnone
      have := (leaveService_side s.frameEnd key .dropping).eq
      rw [hclt] at this
      exact this
  · simp [State.takeDrop, hfind, hc, hs]
  · simp [State.takeDrop, hfind, hc, hs]
  · simp [State.takeDrop, hfind, hc]

end Sys2Proof.Machine
end

