-- ==== Sys2Proof/Proofs/LinkFrames.lean ====
section
/-!
PROOFS. The statements about frames that fail, are sent, or lose the link: what each does at its owner.
-/

namespace Sys2Proof.Machine

open Sys2Proof

theorem modEntry_congr (s : State) (id : ClaimId) {f g : Entry → Entry} (h : ∀ e, f e = g e) : s.modEntry id f = s.modEntry id g := by
  rw [funext h]

theorem findEntry_modEntry_self {s : State} {id : ClaimId} {e : Entry} {f : Entry → Entry} (he : s.findEntry id = some e)
    (hf : ∀ e, (f e).id = e.id) : (s.modEntry id f).findEntry id = some (f e) := by
  rw [findEntry_modEntry s id id f hf, he]
  simp

theorem findEntry_modEntry_ne (s : State) {id k : ClaimId} (f : Entry → Entry) (hf : ∀ e, (f e).id = e.id) (hk : k ≠ id) :
    (s.modEntry id f).findEntry k = s.findEntry k := by
  rw [findEntry_modEntry s id k f hf]
  cases s.findEntry k <;> simp [hk]

/-- The ZSTAT state QUEUED of an entry becomes another, and any other state stays (R101). -/
theorem ifQueued_eq (z : ZstatState) (e : Entry) : (if e.zstat = .queued then { e with zstat := z } else e) =
    { e with zstat := if e.zstat = .queued then z else e.zstat } := by
  split <;> rfl

/-! ### A CLAIM timed at its anchor (R93, R95, R98) -/

theorem isQueued_iff (e : Entry) : e.isQueued = true ↔ ∃ o, e.origin = some o ∧ o.send = .queued := by
  unfold Entry.isQueued
  cases e.origin <;> simp

/-- The entry of an own CLAIM as it is timed when its frame was sent or failed (R93, R95, R98). -/
theorem fixOwn_timed {s : State} {id : ClaimId} {e : Entry} {o : OriginPart} (c : ClaimFrame) (send : SendState) (localOnly : Bool)
    (he : s.findEntry id = some e) (ho : e.origin = some o) :
    OwnClaimTimed s (s.modEntry id (fun e => e.fixOwn c s.now (s.plannedMs e.phrases) send localOnly)) id e o c send localOnly where
  frame := ⟨rfl, fun _ hk => findEntry_modEntry_ne s _ (fun _ => rfl) hk⟩
  entry := by
    refine ⟨match o.windowEnd with
      | some w => min w (s.now + 10 * c.offset10 + s.plannedMs e.phrases + 10000)
      | none => s.now + 10 * c.offset10 + s.plannedMs e.phrases + 10000, ?_, fun hw => by rw [hw], fun w _ hw => by rw [hw]⟩
    refine (findEntry_modEntry_self (f := fun e => e.fixOwn c s.now (s.plannedMs e.phrases) send localOnly) he fun _ => rfl).trans
      (congrArg some ?_)
    simp only [Option.map_some, Entry.fixOwn, Entry.anchor, ho, OriginPart.shorten, Option.getD_some, Config.coverageMs,
      Bool.or_comm]
    cases e.sync <;> cases o.windowEnd <;> rfl

theorem shortenWindow_eq (s : State) (id : ClaimId) (t : Nat) : s.modOrigin id (fun o => o.shorten t) = s.modEntry id (fun e => { e with
    origin := e.origin.map (fun o => { o with windowEnd := some (match o.windowEnd with
      | some w => min w t
      | none => t) }) }) := by
  refine modEntry_congr s id fun e => ?_
  cases e.origin with
  | none => rfl
  | some o =>
    cases hw : o.windowEnd <;> simp only [Option.map_some, OriginPart.shorten, hw]

/-! ### Frames that fail (R98, R100, R101, R168) -/

theorem enqueue_kept {s : State} {b : TxBody} {dst : Nat} (h : (txOffer s.lc.tx (s.newFrame b dst)).2 = none) :
    s.enqueue b dst = s.setTx (txOffer s.lc.tx (s.newFrame b dst)).1 := by
  unfold State.enqueue
  dsimp only
  rw [h]

theorem enqueue_fails {s : State} {b : TxBody} {dst : Nat} {g : TxFrame} (h : (txOffer s.lc.tx (s.newFrame b dst)).2 = some g) :
    s.enqueue b dst = (s.setTx (txOffer s.lc.tx (s.newFrame b dst)).1).failFrame g := by
  unfold State.enqueue
  dsimp only
  rw [h]

theorem lowFail_zstat {s : State} {f : TxFrame} {id : ClaimId} {zones : List (ZoneId × Disp)} (h : f.body = .zstat id zones) :
    s.lowFail f = s.modEntry id (fun e => { e with zstat := if e.zstat = .queued then .failed else e.zstat }) := by
  unfold State.lowFail
  rw [h]
  exact modEntry_congr s id fun e => by simp only [beq_iff_eq]; exact ifQueued_eq .failed e

theorem failFrame_zstat {s : State} {f : TxFrame} {id : ClaimId} {zones : List (ZoneId × Disp)} (h : f.body = .zstat id zones) :
    s.failFrame f = s.modEntry id (fun e => { e with zstat := if e.zstat = .queued then .failed else e.zstat }) := by
  rw [← lowFail_zstat h]
  unfold State.failFrame
  rw [h]

theorem failFrame_report {s : State} {f : TxFrame} {k i n l : Nat} {key : Option Nat} {c : List Byte}
    (h : f.body = .report k i n l key c) : s.failFrame f = s.setReport none := by
  unfold State.failFrame
  rw [h]
  unfold State.lowFail
  rw [h]

theorem failFrame_handoff {s : State} {f : TxFrame} {h : HandoffFrame} (hb : f.body = .handoff h) : s.failFrame f = s.handoffFailed h.key := by
  unfold State.failFrame
  rw [hb]

theorem failFrame_cede {s : State} {f : TxFrame} {id : ClaimId} {cut : Bool} (hb : f.body = .cede id cut) :
    s.failFrame f = s.cedeFailed id cut := by
  unfold State.failFrame
  rw [hb]

theorem failFrame_claim {s : State} {f : TxFrame} {c : ClaimFrame} (hb : f.body = .claim c) : s.failFrame f = s.sendFailed c := by
  unfold State.failFrame
  rw [hb]

theorem failFrame_answer {s : State} {f : TxFrame} {k key : Nat} {code : AnswerCode} (hb : f.body = .answer k key code) :
    s.failFrame f = s := by
  unfold State.failFrame
  rw [hb]

/-- A failed HANDOFF reverts its handoff while it is SENDING, and does nothing else (R69). -/
theorem handoffFailed_cases {s : State} {key : Nat} {c : Call} (hc : s.findCall key = some c) :
    (c.handoff = none ∨ (∃ x, c.handoff = some x ∧ x.phase ≠ .sending) → s.handoffFailed key = s) ∧
    (∀ x, c.handoff = some x → x.phase = .sending → s.handoffFailed key = s.revertHandoff key) := by
  unfold State.handoffFailed
  rw [hc]
  refine ⟨?_, fun x hx hp => ?_⟩
  · rintro (hn | ⟨x, hx, hp⟩)
    · simp [hn]
    · simp [hx, hp]
  · simp [hx, hp]

/-- Settles O50, frame by frame. -/
theorem failedFramesReachTheirOwners : Obligations.FailedFramesReachTheirOwners := by
  refine ⟨fun s b dst => ⟨enqueue_kept, fun g => enqueue_fails⟩, fun s f => ⟨fun k key code => failFrame_answer,
    fun id zones => failFrame_zstat, fun k i n l key c => failFrame_report, fun h c hb hc => ⟨fun hx => ?_, fun x hs hx hp => ?_⟩,
    fun id cut hb => ?_, fun c n hb hn => ⟨fun hq => ?_, fun e o he ho hq => ?_⟩⟩,
    fun s f kind key code => ⟨fun h0 hcode => ?_, fun h0 => ?_⟩⟩
  · rw [failFrame_handoff hb, (handoffFailed_cases hc).1 hx]
  · rw [failFrame_handoff hb, (handoffFailed_cases hc).2 x hx hp]
    exact revertHandoff_reverted hc hs hx
  · rw [failFrame_cede hb, State.cedeFailed, shortenWindow_eq]
    rfl
  · rw [failFrame_claim hb]
    unfold State.sendFailed
    simp only [hn]
    cases he : s.findEntry ⟨n, c.seq⟩ with
    | none => rfl
    | some e =>
      refine if_neg fun hx => ?_
      obtain ⟨o, ho, hsend⟩ := (isQueued_iff e).mp hx
      exact hq e o he ho hsend
  · rw [failFrame_claim hb]
    refine ⟨_, ?_, fixOwn_timed c .failed true he ho⟩
    have hx : e.isQueued = true := (isQueued_iff e).mpr ⟨o, ho, hq⟩
    unfold State.sendFailed
    simp only [hn, he, hx, if_true]
  · unfold State.answer unanswered
    rcases hcode with rfl | rfl <;> simp [h0]
  · refine if_neg ?_
    unfold unanswered
    rw [Bool.and_eq_true, Bool.or_eq_true, beq_iff_eq, beq_iff_eq, beq_iff_eq]
    rintro ⟨hd, hcode⟩
    rcases h0 with h0 | ⟨h1, h2⟩
    · exact h0 hd
    · exact hcode.elim h1 h2

/-! ### The frame under way (R165, R168, R170) -/

section UnderWay

variable {s : State} {l m : List TxFrame} {f : TxFrame}

theorem underWay_eq (hq : s.lc.tx = l ++ f :: m) (hn : ∀ g ∈ l ++ m, g.underWay = false) (hu : f.underWay = true) :
    s.lc.underWay = some f := by
  have hl : l.find? (fun g => g.underWay) = none := by
    simpa using fun g hg => hn g (List.mem_append_left _ hg)
  simp [Lc.underWay, hq, List.find?_append, hl, hu]

theorem dropUnderWay_eq (hq : s.lc.tx = l ++ f :: m) (hn : ∀ g ∈ l ++ m, g.underWay = false) (hu : f.underWay = true) :
    s.dropUnderWay = s.setTx (l ++ m) := by
  have hl : l.filter (fun g => !g.underWay) = l := List.filter_eq_self.mpr fun g hg => by simp [hn g (List.mem_append_left _ hg)]
  have hm : m.filter (fun g => !g.underWay) = m := List.filter_eq_self.mpr fun g hg => by simp [hn g (List.mem_append_right _ hg)]
  simp [State.dropUnderWay, hq, List.filter_append, hl, hm, hu]

theorem exec_frameSent (hq : s.lc.tx = l ++ f :: m) (hn : ∀ g ∈ l ++ m, g.underWay = false) (hu : f.underWay = true) :
    exec .frameSent s = .next ((s.setTx (l ++ m)).frameReturned f) := by
  show Host.Outcome.next _ = _
  rw [underWay_eq hq hn hu, ← dropUnderWay_eq hq hn hu]

theorem exec_collision {bit own : Nat} (hown : s.nodeNo = some own) (hq : s.lc.tx = l ++ f :: m)
    (hn : ∀ g ∈ l ++ m, g.underWay = false) (hu : f.underWay = true) :
    exec (.collision bit) s = .next (if frameBit own f bit = some true then (s.setLc { s.lc with rx := true }).collide own f else s) := by
  show Host.Outcome.next _ = _
  rw [underWay_eq hq hn hu, hown]

end UnderWay

/-- Settles O52: the frame leaves the queue, then its owner acts by its kind. -/
theorem sentFramesReachTheirOwners : Obligations.SentFramesReachTheirOwners := by
  intro s
  refine ⟨fun hn => takes_of rfl ?_, ?_⟩
  · have hnone : s.lc.underWay = none := by simpa [Lc.underWay] using hn
    rw [hnone]
  intro l f m hq hn hu v
  have hexec : ∀ {t}, v.frameReturned f = t → exec .frameSent s = .next t := fun h => h ▸ exec_frameSent hq hn hu
  refine ⟨fun k key code hb => takes_of (hexec ?_) rfl, fun id zones hb => takes_of (hexec ?_) rfl, fun h hb => takes_of (hexec ?_) rfl,
    fun k i n lo key c hb => ⟨fun r hr hlt => takes_of (hexec ?_) rfl, fun hr => takes_of (hexec ?_) rfl⟩,
    fun id cut hb => takes_of (hexec ?_) rfl, fun c n hb hown => ⟨fun hx => takes_of (hexec ?_) rfl, fun e o he ho hsend => ?_⟩⟩
  · unfold State.frameReturned; rw [hb]
  · unfold State.frameReturned; rw [hb]
    exact modEntry_congr v id fun e => ifQueued_eq .sent e
  · unfold State.frameReturned; rw [hb]; rfl
  · have hr' : v.lc.report = some r := hr
    unfold State.frameReturned; rw [hb]
    simp only [State.reportSent, hr', if_pos hlt]
    rfl
  · unfold State.frameReturned; rw [hb]
    cases hrep : s.lc.report with
    | none =>
      have hr' : v.lc.report = none := hrep
      simp only [State.reportSent, hr']
      exact congrArg (fun x => v.setLc { v.lc with report := x }) hr'
    | some r =>
      have hr' : v.lc.report = some r := hrep
      have hge := hr r hrep
      simp only [State.reportSent, hr', if_neg (Nat.not_lt.mpr hge)]
      rfl
  · unfold State.frameReturned; rw [hb]
    simp only [State.ownCede, State.takeCede, if_true, shortenWindow_eq]
    rfl
  · have hown' : v.nodeNo = some n := hown
    unfold State.frameReturned; rw [hb]
    simp only [State.ownClaim, hown']
    cases he : v.findEntry ⟨n, c.seq⟩ with
    | none => rfl
    | some e =>
      refine if_neg fun hq' => ?_
      obtain ⟨o, ho, hs⟩ := (isQueued_iff e).mp hq'
      exact hx e o he ho hs
  · have hown' : v.nodeNo = some n := hown
    have he' : v.findEntry ⟨n, c.seq⟩ = some e := he
    have hq' : e.isQueued = true := (isQueued_iff e).mpr ⟨o, ho, hsend⟩
    refine takes_of (hexec rfl) ⟨_, fixOwn_timed c .sent false he' ho, fun hc => ?_, fun hc => ?_⟩
    all_goals
      unfold State.frameReturned; rw [hb]
      simp only [State.ownClaim, hown', he', hq', if_true, ho, hc, Bool.false_eq_true, if_false]

/-- Settles O53: the frame is taken back, fails, or waits with one failure more. -/
theorem collisionFailsTheAttempt : Obligations.CollisionFailsTheAttempt := by
  intro bit own s l m f hown hq hn hu v
  have hdrop : (s.setLc { s.lc with rx := true }).dropUnderWay = v := dropUnderWay_eq (s := s.setLc { s.lc with rx := true }) hq hn hu
  refine ⟨fun hbit => ⟨fun ht hf => ?_, fun ht hf => ?_, fun c ht hb => ?_⟩, fun hbit => ?_⟩
  · refine takes_of (t := (s.setLc { s.lc with rx := true }).collide own f) (by rw [exec_collision hown hq hn hu, if_pos hbit]) ?_
    have hmap : ∀ k : List TxFrame, (∀ g ∈ k, g.underWay = false) → k.map TxFrame.collided = k := fun k hk =>
      (List.map_congr_left fun g hg => by simp [TxFrame.collided, hk g hg]).trans (List.map_id k)
    have htx : s.lc.tx.map TxFrame.collided = l ++ { f with underWay := false, fails := f.fails + 1 } :: m := by
      rw [hq, List.map_append, List.map_cons, hmap l fun g hg => hn g (List.mem_append_left _ hg),
        hmap m fun g hg => hn g (List.mem_append_right _ hg)]
      simp [TxFrame.collided, hu]
    have h8 : ¬ Config.maxAttempts ≤ f.fails + 1 := Nat.not_le.mpr hf
    have hc : (s.setLc { s.lc with rx := true }).collide own f =
        (s.setLc { s.lc with rx := true }).setTx (s.lc.tx.map TxFrame.collided) := by
      simp only [State.collide, ht, Bool.false_eq_true, if_false, if_neg h8]
      rfl
    rw [hc, htx]
    rfl
  · refine takes_of (t := (s.setLc { s.lc with rx := true }).collide own f) (by rw [exec_collision hown hq hn hu, if_pos hbit]) ?_
    have h8 : Config.maxAttempts ≤ f.fails + 1 := hf
    simp only [State.collide, ht, Bool.false_eq_true, if_false, if_pos h8, hdrop]
  · refine takes_of (t := (s.setLc { s.lc with rx := true }).collide own f) (by rw [exec_collision hown hq hn hu, if_pos hbit]) ?_
    simp only [State.collide, ht, if_true, State.heldTakeBack, hb, hdrop]
  · exact takes_of (by rw [exec_collision hown hq hn hu, if_neg hbit]) rfl

end Sys2Proof.Machine
end

