-- ==== Sys2Proof/Proofs/Reports.lean ====
section
/-!
The report buffer: how the items of a snapshot fill its frames (R173), and what a QUERY does (R164, R173, R174).
-/

namespace Sys2Proof.Machine

open Sys2Proof

/-! ### Filling the frames (R173) -/

theorem pieces_flatten (cap n : Nat) (b : List Byte) : (pieces cap n b).flatten = b := by
  induction n generalizing b with
  | zero => simp [pieces]
  | succ n ih =>
    rw [pieces]
    split
    · simp
    · rw [List.flatten_cons, ih, List.take_append_drop]

theorem pieces_ne_nil (cap n : Nat) (b : List Byte) : pieces cap n b ≠ [] := by
  cases n with
  | zero => simp [pieces]
  | succ n => rw [pieces]; split <;> simp

theorem pieces_fits {cap n : Nat} {b : List Byte} (h : b.length ≤ cap) : pieces cap n b = [b] := by
  cases n with
  | zero => rfl
  | succ n => rw [pieces, if_pos h]

theorem pieces_le {cap n : Nat} (hc : 0 < cap) {b : List Byte} (h : b.length ≤ n) : ∀ x ∈ pieces cap n b, x.length ≤ cap := by
  induction n generalizing b with
  | zero => simp_all [pieces]
  | succ n ih =>
    rw [pieces]
    split
    · simpa
    · have hd : (b.drop cap).length ≤ n := by simp; omega
      intro x hx
      rcases List.mem_cons.mp hx with rfl | hx
      · simp
      · exact ih hd x hx

/-- How many pieces an item is cut into, and the length of the last: the numbers of `framesWith`. -/
theorem pieces_tally {cap n : Nat} (hc : 0 < cap) {b : List Byte} (h : b.length ≤ n) :
    (pieces cap n b).length = max 1 ((b.length + cap - 1) / cap) ∧
    ∀ x, (pieces cap n b).getLast? = some x → x.length = b.length - cap * ((b.length - 1) / cap) := by
  induction n generalizing b with
  | zero =>
    have h0 : b.length = 0 := by omega
    have h1 : (cap - 1) / cap = 0 := Nat.div_eq_of_lt (by omega)
    rw [List.length_eq_zero_iff] at h0
    simp [pieces, h0, h1]
  | succ n ih =>
    by_cases hb : b.length ≤ cap
    · rw [pieces_fits hb]
      have h1 : (b.length - 1) / cap = 0 := Nat.div_eq_of_lt (by omega)
      have h2 : (b.length + cap - 1) / cap ≤ 1 := by rw [Nat.div_le_iff_le_mul_add_pred hc]; omega
      constructor
      · simp only [List.length_singleton]; omega
      · simp [h1]
    · obtain ⟨hn, hl⟩ := ih (b := b.drop cap) (by simp; omega)
      have hs1 : (b.length + cap - 1) / cap = (b.length - 1) / cap + 1 := by
        rw [← Nat.add_div_right _ hc]; congr 1; omega
      have hs2 : (b.length - 1) / cap = (b.length - cap - 1) / cap + 1 := by
        rw [← Nat.add_div_right _ hc]; congr 1; omega
      have hs3 : (b.length - cap + cap - 1) / cap = (b.length - 1) / cap := by congr 1; omega
      rw [List.length_drop] at hn hl
      rw [pieces, if_neg hb]
      constructor
      · rw [List.length_cons, hn, hs3, hs1, hs2]
        generalize (b.length - cap - 1) / cap = q
        omega
      · intro x hx
        rw [List.getLast?_cons_of_ne_nil (pieces_ne_nil cap n _)] at hx
        rw [hl x hx, hs2, Nat.mul_add, Nat.mul_one]
        omega

theorem placeItem_ne_nil (cap : Nat) (fr : List (List Byte)) (b : List Byte) : placeItem cap fr b ≠ [] := by
  unfold placeItem
  split
  · split
    · simp
    · simp [pieces_ne_nil]
  · exact pieces_ne_nil _ _ _

/-- The three ways an item is placed, the last frame told apart from those before it. -/
theorem placeItem_cases (cap : Nat) (fr : List (List Byte)) (b : List Byte) :
    (∃ l cur, fr = l ++ [cur] ∧ cur.length + b.length ≤ cap ∧ placeItem cap fr b = l ++ [cur ++ b]) ∨
    ((∀ cur, fr.getLast? = some cur → cap < cur.length + b.length) ∧ placeItem cap fr b = fr ++ pieces cap b.length b) := by
  rcases List.eq_nil_or_concat' fr with rfl | ⟨l, cur, rfl⟩
  · exact .inr ⟨by simp, by simp [placeItem]⟩
  · by_cases h : cur.length + b.length ≤ cap
    · exact .inl ⟨l, cur, rfl, h, by simp [placeItem, h]⟩
    · exact .inr ⟨by simp; omega, by simp [placeItem, h]⟩

theorem placeItem_flatten (cap : Nat) (fr : List (List Byte)) (b : List Byte) : (placeItem cap fr b).flatten = fr.flatten ++ b := by
  obtain ⟨l, cur, rfl, -, he⟩ | ⟨-, he⟩ := placeItem_cases cap fr b <;> rw [he]
  · simp
  · simp [pieces_flatten]

theorem placeItem_length (cap : Nat) (fr : List (List Byte)) (b : List Byte) : fr.length ≤ (placeItem cap fr b).length := by
  obtain ⟨l, cur, rfl, -, he⟩ | ⟨-, he⟩ := placeItem_cases cap fr b <;> rw [he] <;> simp

theorem placeItem_le {cap : Nat} (hc : 0 < cap) {fr : List (List Byte)} (h : ∀ x ∈ fr, x.length ≤ cap) (b : List Byte) :
    ∀ x ∈ placeItem cap fr b, x.length ≤ cap := by
  obtain ⟨l, cur, rfl, hf, he⟩ | ⟨-, he⟩ := placeItem_cases cap fr b <;> rw [he] <;> intro x hx <;> rcases List.mem_append.mp hx with hx | hx
  · exact h x (List.mem_append_left _ hx)
  · rw [List.mem_singleton.mp hx, List.length_append]; exact hf
  · exact h x hx
  · exact pieces_le hc le_rfl x hx

/-- What stands whole in a frame still does when an item more is placed. -/
theorem placeItem_keeps {cap : Nat} {fr : List (List Byte)} {a : List Byte} (h : ∃ x ∈ fr, a <:+: x) (b : List Byte) :
    ∃ x ∈ placeItem cap fr b, a <:+: x := by
  obtain ⟨x, hx, ha⟩ := h
  obtain ⟨l, cur, rfl, -, he⟩ | ⟨-, he⟩ := placeItem_cases cap fr b <;> rw [he]
  · rcases List.mem_append.mp hx with hx | hx
    · exact ⟨x, List.mem_append_left _ hx, ha⟩
    · rw [List.mem_singleton.mp hx] at ha
      exact ⟨cur ++ b, by simp, ha.trans (List.prefix_append cur b).isInfix⟩
  · exact ⟨x, List.mem_append_left _ hx, ha⟩

/-- An item that fits in one frame's content is placed whole. -/
theorem placeItem_whole {cap : Nat} (fr : List (List Byte)) {b : List Byte} (h : b.length ≤ cap) : ∃ x ∈ placeItem cap fr b, b <:+: x := by
  obtain ⟨l, cur, rfl, -, he⟩ | ⟨-, he⟩ := placeItem_cases cap fr b <;> rw [he]
  · exact ⟨cur ++ b, by simp, (List.suffix_append cur b).isInfix⟩
  · exact ⟨b, by simp [pieces_fits h], List.infix_rfl⟩

/-- Frames filled, counted as `framesWith` counts: how many, and the bytes in the last of them. -/
def Tallies (fr : List (List Byte)) (r : Nat × Nat) : Prop := fr.length = r.1 ∧ ∀ x, fr.getLast? = some x → x.length = r.2

theorem placeItem_tally {cap : Nat} (hc : 0 < cap) {fr : List (List Byte)} {r : Nat × Nat} (h : Tallies fr r) (b : List Byte) :
    Tallies (placeItem cap fr b) (framesWith cap r b.length) := by
  obtain ⟨hn, hl⟩ := h
  obtain ⟨l, cur, rfl, hf, he⟩ | ⟨hf, he⟩ := placeItem_cases cap fr b
  · have hcur : cur.length = r.2 := hl cur (by simp)
    rw [List.length_append, List.length_singleton] at hn
    rw [he, framesWith, if_pos (by omega)]
    simp [Tallies, hcur, ← hn]
  · obtain ⟨pn, pl⟩ := pieces_tally hc (b := b) le_rfl
    have hcond : ¬ (r.1 ≠ 0 ∧ r.2 + b.length ≤ cap) := by
      rintro ⟨h0, hle⟩
      obtain ⟨cur, hcur⟩ : ∃ cur, fr.getLast? = some cur :=
        Option.ne_none_iff_exists'.mp (by rw [ne_eq, List.getLast?_eq_none_iff]; rintro rfl; exact h0 hn.symm)
      have := hf cur hcur
      have := hl cur hcur
      omega
    rw [he, framesWith, if_neg hcond]
    refine ⟨by rw [List.length_append, hn, pn], fun x hx => pl x ?_⟩
    rwa [List.getLast?_append_of_ne_nil _ (pieces_ne_nil _ _ _)] at hx

/-- The frames that items fill when none is left out. -/
def filled (cap : Nat) (items : List (List Byte)) : List (List Byte) := items.foldl (placeItem cap) []

theorem filled_append_singleton (cap : Nat) (l : List (List Byte)) (b : List Byte) :
    filled cap (l ++ [b]) = placeItem cap (filled cap l) b := by simp [filled]

theorem filled_flatten (cap : Nat) (l : List (List Byte)) : (filled cap l).flatten = l.flatten := by
  induction l using List.reverseRecOn with
  | nil => rfl
  | append_singleton l b ih => rw [filled_append_singleton, placeItem_flatten, ih]; simp

theorem filled_le {cap : Nat} (hc : 0 < cap) (l : List (List Byte)) : ∀ x ∈ filled cap l, x.length ≤ cap := by
  induction l using List.reverseRecOn with
  | nil => simp [filled]
  | append_singleton l b ih => rw [filled_append_singleton]; exact placeItem_le hc ih b

theorem filled_whole {cap : Nat} {l : List (List Byte)} {b : List Byte} (hb : b ∈ l) (h : b.length ≤ cap) : ∃ x ∈ filled cap l, b <:+: x := by
  induction l using List.reverseRecOn with
  | nil => simp at hb
  | append_singleton l a ih =>
    rw [filled_append_singleton]
    rcases List.mem_append.mp hb with hb | hb
    · exact placeItem_keeps (ih hb) a
    · rw [List.mem_singleton.mp hb] at h ⊢; exact placeItem_whole _ h

theorem filled_length_append (cap : Nat) (l m : List (List Byte)) : (filled cap l).length ≤ (filled cap (l ++ m)).length := by
  induction m using List.reverseRecOn with
  | nil => simp
  | append_singleton m b ih =>
    rw [← List.append_assoc, filled_append_singleton]
    exact ih.trans (placeItem_length _ _ _)

theorem filled_length {cap : Nat} (hc : 0 < cap) (l : List (List Byte)) : (filled cap l).length = framesNeeded cap (l.map List.length) := by
  suffices h : Tallies (filled cap l) ((l.map List.length).foldl (framesWith cap) (0, 0)) from h.1
  induction l using List.reverseRecOn with
  | nil => exact ⟨rfl, by simp [filled]⟩
  | append_singleton l b ih =>
    rw [filled_append_singleton, List.map_append, List.foldl_append]
    exact placeItem_tally hc ih b

/-- Packing splits the items into those held, which fill at most eight frames, and those left out, the first of which would not have ended within the
eighth (R173). -/
theorem packItems_spec (cap : Nat) (l : List (List Byte)) : ∃ held out, l = held ++ out ∧ packItems cap l = (filled cap held, out.length) ∧
    (filled cap held).length ≤ 8 ∧ ∀ x rest, out = x :: rest → 8 < (filled cap (held ++ [x])).length := by
  induction l using List.reverseRecOn with
  | nil => exact ⟨[], [], rfl, rfl, by simp [filled], by simp⟩
  | append_singleton l b ih =>
    obtain ⟨held, out, rfl, hp, h8, hout⟩ := ih
    have hstep : packItems cap (held ++ out ++ [b]) = packItem cap (filled cap held, out.length) b := by
      rw [packItems, List.foldl_append, ← packItems, hp]; rfl
    rw [hstep, packItem]
    cases out with
    | cons x rest =>
      refine ⟨held, x :: rest ++ [b], by simp, by simp, h8, ?_⟩
      intro y tl hy
      obtain ⟨rfl, -⟩ := List.cons.inj hy
      exact hout x rest rfl
    | nil =>
      by_cases hfit : (placeItem cap (filled cap held) b).length ≤ 8
      · refine ⟨held ++ [b], [], by simp, by simp [hfit, filled_append_singleton], by rwa [filled_append_singleton], by simp⟩
      · refine ⟨held, [b], by simp, by simp [hfit], h8, ?_⟩
        intro x rest hx
        obtain ⟨rfl, -⟩ := List.cons.inj hx
        rw [filled_append_singleton]
        omega

theorem contentCap_eq (k : QueryKind) : contentCap k = if k = .call then 75 else 77 := by cases k <;> rfl

theorem atLeastOne_length (l : List (List Byte)) : (atLeastOne l).length = max 1 l.length := by
  cases l with
  | nil => rfl
  | cons a l => simp [atLeastOne]

theorem atLeastOne_flatten (l : List (List Byte)) : (atLeastOne l).flatten = l.flatten := by cases l <;> rfl

theorem mem_atLeastOne {l : List (List Byte)} {x : List Byte} (h : x ∈ atLeastOne l) : x ∈ l ∨ x = [] := by
  cases l with
  | nil => exact .inr (by simpa [atLeastOne] using h)
  | cons a l => exact .inl h

theorem mem_atLeastOne_of_mem {l : List (List Byte)} {x : List Byte} (h : x ∈ l) : x ∈ atLeastOne l := by
  cases l with
  | nil => simp at h
  | cons a l => exact h

/-- Settles O26, from what packing holds and leaves out (`packItems_spec`) and what the frames of the items held contain. -/
theorem reportFitsItsFrames : Obligations.ReportFitsItsFrames := by
  intro s maint k key source r
  have hc : 0 < contentCap k := by cases k <;> decide
  obtain ⟨hb, ob, hsplit, hp, h8, hout⟩ := packItems_spec (contentCap k) ((s.snapshot maint k key).map itemBytes)
  obtain ⟨held, out, hsnap, rfl, rfl⟩ := List.map_eq_append_iff.mp hsplit
  have hcont : r.contents = atLeastOne (filled (contentCap k) (held.map itemBytes)) := congrArg (fun p : List (List Byte) × Nat => atLeastOne p.1) hp
  have hleft : r.leftOut = out.length := (congrArg Prod.snd hp).trans (List.length_map _)
  have hrs : r.snapshot = held ++ out := hsnap
  have htake : r.snapshot.take (r.snapshot.length - r.leftOut) = held := by rw [hrs, hleft]; simp
  have hneed : ∀ l : List ReportItem, framesNeeded (contentCap k) (l.map (fun x => (itemBytes x).length)) =
      (filled (contentCap k) (l.map itemBytes)).length := fun l => by rw [filled_length hc, List.map_map]; rfl
  have hflat : r.contents.flatten = (held.map itemBytes).flatten := by rw [hcont, atLeastOne_flatten, filled_flatten]
  have hfirst : ∀ x rest, out = x :: rest → 8 < (filled (contentCap k) ((held ++ [x]).map itemBytes)).length := by
    intro x rest hx
    subst hx
    simpa using hout (itemBytes x) (rest.map itemBytes) rfl
  rw [← contentCap_eq]
  refine ⟨?_, ?_, ?_, ?_, ?_, ⟨?_, ?_⟩, ?_, ?_⟩
  · rw [hcont, atLeastOne_length]; omega
  · rw [hcont, atLeastOne_length]; omega
  · intro b hb
    rw [hcont] at hb
    rcases mem_atLeastOne hb with hb | rfl
    · exact filled_le hc _ b hb
    · simp
  · rw [hleft, hrs]; simp
  · intro h0
    rw [hflat, hrs, List.length_eq_zero_iff.mp (hleft.symm.trans h0), List.append_nil]
  · beta_reduce
    rw [hneed, hrs, hleft]
    cases out with
    | nil => simpa using h8
    | cons x rest =>
      have hmono := filled_length_append (contentCap k) ((held ++ [x]).map itemBytes) (rest.map itemBytes)
      rw [← List.map_append, List.append_assoc, List.singleton_append] at hmono
      have := hfirst x rest rfl
      simp only [List.length_cons]
      omega
  · rintro _ rfl
    beta_reduce
    rw [htake, hneed, hcont, atLeastOne_length]
    refine ⟨rfl, fun hne => ?_⟩
    cases out with
    | nil => exact absurd hleft hne
    | cons x rest => exact ⟨x, rest, hrs, by rw [hneed]; exact hfirst x rest rfl⟩
  · simp only [htake]
    refine ⟨hflat, fun x hx hle => ?_⟩
    obtain ⟨b, hb, hi⟩ := filled_whole (List.mem_map_of_mem hx) hle
    exact ⟨b, hcont ▸ mem_atLeastOne_of_mem hb, hi⟩
  · rintro rfl hn
    have hone : s.snapshot maint .call key = [.callNotHeld key] := by simp [State.snapshot, hn]
    have hpack := packItems_single (itemBytes_notHeld_length key)
    simp only [r, State.latch, hone, List.map_cons, List.map_nil, hpack]
    exact ⟨trivial, rfl, trivial⟩

/-! ### The snapshot (R18, R54, R74, R108, R131, R143, R173) -/

theorem channelLine_eq (s : State) (c : ChanId) : s.channelLine c =
    { bound := (s.rch.get c).map (fun ch => (ch.claim, s.now - ch.bind16 / 16, ch.cursor, ch.pos, ch.attached)),
      tone := ((s.rch.get c).map (·.tone)).getD false } := by
  unfold State.channelLine
  cases s.rch.get c <;> rfl

theorem callLine_eq (s : State) (c : Call) : s.callLine c = .callLine c.key c.kind (s.pm.get c.platform).stationNo c.state
    (if c.expArr = none then c.expDep else c.expArr) (decide (c.staged ≠ none)) c.handoffFailed := by
  unfold State.callLine Call.refTime
  cases c.expArr <;> cases c.staged <;> rfl

/-! ### QUERY (R164, R173, R174) -/

theorem tier_le (b : TxBody) : b.tier ≤ 6 := by
  cases b with
  | claim c =>
    simp only [TxBody.tier]
    split_ifs <;> omega
  | _ => simp [TxBody.tier]

/-- A report's frame has the worst tier, so it displaces none: where the queue is full the report is dropped (R166, R167, R168). -/
theorem enqueue_report_full {s : State} (h : FramesInOrder s) (h8 : 8 ≤ s.lc.tx.length) (r : ReportBuf) (i dst : Nat) :
    s.enqueue (r.frame i) dst = s.setReport none := by
  have hworst : ∀ w ∈ s.lc.tx, w.tier ≤ 6 := fun w hw => h.tiers w hw ▸ tier_le w.body
  have hoff : txOffer s.lc.tx (s.newFrame (r.frame i) dst) = (s.lc.tx, some (s.newFrame (r.frame i) dst)) := by
    obtain ⟨hlt, -⟩ | ⟨-, w, hw, ht, -⟩ | ⟨-, -, he⟩ := txOffer_cases s.lc.tx (s.newFrame (r.frame i) dst)
    · omega
    · exact absurd (hworst w (txWorst_mem hw).1) (Nat.not_le.mpr ht)
    · exact he
  rw [enqueue_fails (congrArg Prod.snd hoff), hoff, failFrame_report rfl]
  rfl

theorem exec_query {f : RxFrame} {maint : Bool} {s : State} {k : QueryKind} {key : Nat} (hd : decodeQuery f.body = some (k, key)) :
    exec (.query f maint) s = .next (if s.hears kindQuery f && s.forUsAlone f && s.queryTaken k && s.lc.report.isNone
      then s.frameEnd.takeQuery maint k key f.src.toNat else s.frameEnd) := by
  simp only [exec, execQuery, hd]
  rfl

theorem queryTaken_iff (s : State) (k : QueryKind) :
    s.queryTaken k = true ↔ s.sul.mode = .running ∨ (s.sul.mode = .storeFault ∧ k = .node) := by
  simp [State.queryTaken, State.isRunning, State.inStoreFault]

/-- Settles O25: the snapshot is unfolded line by line, and the queue takes the first frame or drops the report (`enqueue_report_full`). -/
theorem queryFillsTheReportBuffer : Obligations.QueryFillsTheReportBuffer := by
  refine ⟨fun s maint key => ⟨?_, rfl, rfl, ?_, ?_, ?_⟩, fun f maint s hs => ⟨?_, ?_, ?_⟩⟩
  · simp only [State.snapshot, channelLine_eq]
    rfl
  · simp only [State.snapshot, funext (callLine_eq s)]
  · intro c hc
    simp [State.snapshot, hc]
  · intro hn
    simp [State.snapshot, hn]
  · intro k key hd hh ha hm hr
    have hx := exec_query (maint := maint) (s := s) hd
    rw [if_pos (by simp [hh, ha, (queryTaken_iff s k).mpr hm, hr])] at hx
    refine takes_of hx ?_
    set r := s.latch maint k key f.src.toNat with hrdef
    set u : State := { s with
      lc := { s.lc with rx := false, report := some r },
      pins := if k = .node then { s.pins with maint := maint } else s.pins } with hu
    have hq : s.frameEnd.takeQuery maint k key f.src.toNat = u.enqueue (r.frame 1) f.src.toNat := by
      unfold State.takeQuery
      cases k <;> rfl
    rw [hq]
    have hus : FramesInOrder u := ⟨hs.order, hs.tiers, hs.past⟩
    by_cases hlt : s.lc.tx.length < 8
    · have hoff : txOffer u.lc.tx (u.newFrame (r.frame 1) f.src.toNat) = (txInsert s.lc.tx (u.newFrame (r.frame 1) f.src.toNat), none) := by
        simp [txOffer, Config.maxTx, hu, hlt]
      rw [enqueue_kept (congrArg Prod.snd hoff), hoff]
      exact ⟨rfl, rfl, fun _ => ⟨r, rfl, rfl, rfl, rfl, rfl, rfl, rfl, rfl⟩, fun h => by omega⟩
    · rw [enqueue_report_full hus (Nat.not_lt.mp hlt)]
      exact ⟨rfl, rfl, fun h => absurd h hlt, fun _ => ⟨rfl, rfl⟩⟩
  · intro h
    cases hd : decodeQuery f.body with
    | none => exact takes_of (t := s.frameEnd) (by simp only [exec, execQuery, hd]) rfl
    | some kk =>
      obtain ⟨k, key⟩ := kk
      have hx := exec_query (maint := maint) (s := s) hd
      rw [if_neg] at hx
      · exact takes_of hx rfl
      · simp only [Bool.and_eq_true, queryTaken_iff, Option.isNone_iff_eq_none, hd] at h ⊢
        grind
  · exact takes_of rfl rfl

end Sys2Proof.Machine
end

