-- ==== Sys2Proof/Proofs/Occupancy.lean ====
section
/-!
OCC: the debounce wait, the call that an accepted rise binds, and the call that an accepted fall finishes (R41 to R50).
-/

namespace Sys2Proof.Machine

open Sys2Proof

/-! ### One platform's record -/

theorem Duo.set_set {α : Type} (d : Duo α) (p : PlatId) (v w : α) : (d.set p v).set p w = d.set p w := by cases p <;> rfl

theorem Duo.set_get {α : Type} (d : Duo α) (p : PlatId) : d.set p (d.get p) = d := by cases p <;> rfl

theorem modPlat_modPlat (s : State) (p : PlatId) (f g : Plat → Plat) : (s.modPlat p f).modPlat p g = s.modPlat p (fun r => g (f r)) := by
  unfold State.modPlat
  simp only [State.setPm_pm, Duo.get_set_self, Duo.set_set]
  rfl

theorem modPlat_plat (s : State) (p : PlatId) (f : Plat → Plat) : (s.modPlat p f).pm.get p = f (s.pm.get p) := Duo.get_set_self _ _ _

theorem modPlat_plat_ne (s : State) {p q : PlatId} (f : Plat → Plat) (h : q ≠ p) : (s.modPlat p f).pm.get q = s.pm.get q :=
  Duo.get_set_ne _ _ h

/-! ### A step at the binding (R26, R27, R46) -/

theorem armStep_begins (w : State) (k i : Nat) (p : StepSpec) : DelayBegins w (w.armStep k i p) k i p where
  counts h := by simp [State.armStep, Int.not_le.mpr h]
  fires h := by simp [State.armStep, h]

theorem bindStep_binds {w : State} {k i : Nat} {st : Step} (h : w.findStep k i = some st) : StepBinds w (w.bindStep k i) k i st where
  reloads hm hg ht := by simp [State.bindStep, h, hm, hg, ht, StepTimer.reload]
  every hm hx := by
    have hno : ¬ (st.spec.gate = true ∧ st.timer.state = .counting) := by
      rintro ⟨hg, ht⟩
      rcases hx with hx | ⟨hx, -⟩
      · exact Bool.false_ne_true (hx.symm.trans hg)
      · exact hx ht
    simp [State.bindStep, h, hm, hno]
  arms hm hf ht := by
    have he : w.bindStep k i = w.armStep k i st.spec := by simp [State.bindStep, h, hm, hf, ht]
    rw [he]
    exact armStep_begins w k i st.spec
  onArrive hm hx := by
    have hno : ¬ (st.timer.fires = 0 ∧ (st.timer.state = .idle ∨ st.timer.state = .skipped .busy)) := by tauto
    simp [State.bindStep, h, hm, hno]
  others he ha := by
    cases hm : st.spec.mode <;> simp_all [State.bindStep]

/-! ### The call that a rise binds (R45) -/

theorem refersTo_iff (c : Call) (r : Nat) : c.RefersTo r ↔ c.refTime = some r := by
  unfold Call.RefersTo Call.refTime
  cases c.expArr <;> simp

theorem ranks_refTime (c : Call) : c.Ranks (c.refTime.getD 0) := by
  unfold Call.Ranks Call.RefersTo Call.refTime
  cases c.expArr <;> cases c.expDep <;> simp

theorem candidate_iff (s : State) (p : PlatId) (c : Call) : s.candidate p c = true ↔ MayBind s p c := by
  have hw : (!s.sck.isSet || (match c.refTime with
        | some r => decide ((s.sck.time : Int) - 1800 ≤ (r : Int)) && decide ((r : Int) ≤ (s.sck.time : Int) + 3600)
        | none => false)) = true ↔
      (s.sck.isSet = true → ∃ r, c.RefersTo r ∧ (s.sck.time : Int) - 1800 ≤ r ∧ (r : Int) ≤ s.sck.time + 3600) := by
    simp only [refersTo_iff]
    cases s.sck.isSet <;> cases c.refTime <;> simp
  unfold State.candidate
  rw [Bool.and_eq_true, Bool.and_eq_true, beq_iff_eq, beq_iff_eq, and_assoc]
  exact ⟨fun ⟨h1, h2, h3⟩ => ⟨h1, h2, hw.mp h3⟩, fun ⟨h1, h2, h3⟩ => ⟨h1, h2, hw.mpr h3⟩⟩

/-- One call goes before another where one is chosen to bind: the smaller reference time, the lower key among equals. -/
def Call.Before (c d : Call) : Prop := c.refTime.getD 0 < d.refTime.getD 0 ∨ (c.refTime.getD 0 = d.refTime.getD 0 ∧ c.key ≤ d.key)

theorem Call.Before.refl (c : Call) : c.Before c := .inr ⟨rfl, le_rfl⟩

theorem Call.Before.trans {c d e : Call} (h : c.Before d) (k : d.Before e) : c.Before e := by
  unfold Call.Before at *
  omega

theorem earlier_before {a b : Call} (h : a.key < b.key) : (earlier a b).Before a ∧ (earlier a b).Before b := by
  unfold earlier Call.Before
  split <;> omega

theorem earlier_mem (a b : Call) : earlier a b = a ∨ earlier a b = b := by
  unfold earlier
  split
  · exact .inr rfl
  · exact .inl rfl

/-- Of calls in key order, the one that the choice comes to goes before each. -/
theorem foldl_earlier (l : List Call) (a : Call) (h : (a :: l).Pairwise (fun x y => x.key < y.key)) :
    l.foldl earlier a ∈ a :: l ∧ ∀ d ∈ a :: l, (l.foldl earlier a).Before d := by
  induction l generalizing a with
  | nil => exact ⟨List.mem_singleton.mpr rfl, fun d hd => by rw [List.mem_singleton.mp hd]; exact .refl a⟩
  | cons b l ih =>
    obtain ⟨ha, hb⟩ := List.pairwise_cons.mp h
    obtain ⟨hbl, hl⟩ := List.pairwise_cons.mp hb
    have hnext : (earlier a b :: l).Pairwise (fun x y => x.key < y.key) := by
      refine List.pairwise_cons.mpr ⟨fun d hd => ?_, hl⟩
      rcases earlier_mem a b with he | he <;> rw [he]
      · exact ha d (List.mem_cons_of_mem _ hd)
      · exact hbl d hd
    obtain ⟨hmem, hall⟩ := ih (earlier a b) hnext
    obtain ⟨hea, heb⟩ := earlier_before (ha b (List.mem_cons_self ..))
    have hx := hall _ (List.mem_cons_self ..)
    refine ⟨?_, fun d hd => ?_⟩
    · rw [List.foldl_cons]
      rcases List.mem_cons.mp hmem with hm | hm
      · rw [hm]
        rcases earlier_mem a b with he | he <;> simp [he]
      · exact List.mem_cons_of_mem _ (List.mem_cons_of_mem _ hm)
    · rcases List.mem_cons.mp hd with rfl | hd
      · exact hx.trans hea
      rcases List.mem_cons.mp hd with rfl | hd
      · exact hx.trans heb
      · exact hall d (List.mem_cons_of_mem _ hd)

theorem chosenCall_none {s : State} {p : PlatId} (h : ∀ c ∈ s.ct, ¬ MayBind s p c) : s.chosenCall p = none := by
  have hf : s.ct.filter (s.candidate p) = [] :=
    List.filter_eq_nil_iff.mpr fun c hc => by rw [candidate_iff]; exact h c hc
  simp [State.chosenCall, hf]

/-- In a table in key order the call chosen is the candidate that goes before every other. -/
theorem chosenCall_of_first {s : State} (hk : KeysAscend s) {p : PlatId} {c : Call} (hc : c ∈ s.ct) (hb : MayBind s p c)
    (hfirst : ∀ d ∈ s.ct, MayBind s p d → c.Before d) : s.chosenCall p = some c := by
  have hmem : c ∈ s.ct.filter (s.candidate p) := List.mem_filter.mpr ⟨hc, (candidate_iff s p c).mpr hb⟩
  have hpair := List.Pairwise.filter (s.candidate p) hk
  unfold State.chosenCall
  cases hf : s.ct.filter (s.candidate p) with
  | nil => rw [hf] at hmem; cases hmem
  | cons a l =>
    rw [hf] at hmem hpair
    obtain ⟨hx, hall⟩ := foldl_earlier l a hpair
    have hxf : l.foldl earlier a ∈ s.ct.filter (s.candidate p) := hf ▸ hx
    obtain ⟨hxct, hxc⟩ := List.mem_filter.mp hxf
    have h1 := hall c hmem
    have h2 := hfirst _ hxct ((candidate_iff s p _).mp hxc)
    have hkey : (l.foldl earlier a).key = c.key := by unfold Call.Before at h1 h2; omega
    have hfind := findCall_of_mem hk hxct
    rw [hkey, findCall_of_mem hk hc] at hfind
    exact hfind.symm

/-! ### An accepted level (R43, R45, R46, R48, R50) -/

/-- A platform that an accepted rise finds EMPTY, before a call is bound to it. -/
def Plat.risen (r : Plat) : Plat := { r with accOcc := true, wait := none, state := if r.doors then .dispatch else .occupied, bound := none }

/-- A platform that an accepted fall has emptied. -/
def Plat.emptied (r : Plat) : Plat := { r with accOcc := false, wait := none, state := .empty, bound := none, hold := none }

theorem acceptOcc_rise {s : State} {p : PlatId} (ho : (s.pm.get p).occ = true) (he : (s.pm.get p).state = .empty) : s.acceptOcc p =
    match s.chosenCall p with
    | some c => (s.modPlat p Plat.risen).bindCall p c.key
    | none => s.modPlat p Plat.risen := by
  simp only [State.acceptOcc, ho, if_true, State.acceptRise, modPlat_plat, he, modPlat_modPlat]
  rfl

/-- The wait that has run out leaves no trace in the level accepted. -/
theorem acceptOcc_wait (s : State) (p : PlatId) (w : Option Nat) : (s.modPlat p (fun r => { r with wait := w })).acceptOcc p = s.acceptOcc p := by
  unfold State.acceptOcc
  simp only [modPlat_plat, modPlat_modPlat]

/-- A call bound, each of its steps told so in index order (R46). -/
theorem bindCall_eq {s : State} (hk : KeysAscend s) (p : PlatId) {key : Nat} {c : Call} (hc : s.findCall key = some c) : s.bindCall p key =
    (List.range c.steps.length).foldl (fun w i => w.bindStep key i)
      ((s.modPlat p (fun r => { r with bound := some key })).modCall key (fun d => { d with state := .bound })) := by
  have hc' : (s.modPlat p (fun r => { r with bound := some key })).findCall key = some c := hc
  have hkeys := keys_modCall (s.modPlat p (fun r => { r with bound := some key })) key (fun d => { d with state := .bound }) (fun _ => rfl)
  have hrefs := stepRefsOf_of_find (hk.of_keys hkeys) (findCall_modCall_self hc' (f := fun d => { d with state := .bound }) (fun _ => rfl))
  rw [State.bindCall, hrefs, eachStep_range]

theorem chosenCall_mem {s : State} (hk : KeysAscend s) {p : PlatId} {c : Call} (h : s.chosenCall p = some c) : c ∈ s.ct := by
  have hpair := List.Pairwise.filter (s.candidate p) hk
  unfold State.chosenCall at h
  cases hf : s.ct.filter (s.candidate p) with
  | nil => rw [hf] at h; cases h
  | cons a l =>
    rw [hf] at h hpair
    cases h
    exact List.mem_of_mem_filter (hf ▸ (foldl_earlier l a hpair).1)

theorem acceptOcc_accepts_rise {s : State} (hk : KeysAscend s) {p : PlatId} (ho : (s.pm.get p).occ = true) (he : (s.pm.get p).state = .empty) :
    AcceptsRise p s (s.acceptOcc p) := by
  have hacc := acceptOcc_rise ho he
  have hfirst : ∀ c ∈ s.ct, MayBind s p c →
      (∀ d ∈ s.ct, MayBind s p d → ∀ m n, c.Ranks m → d.Ranks n → m < n ∨ (m = n ∧ c.key ≤ d.key)) → s.chosenCall p = some c :=
    fun c hc hb hf => chosenCall_of_first hk hc hb fun d hd hdb => hf d hd hdb _ _ (ranks_refTime c) (ranks_refTime d)
  cases hch : s.chosenCall p with
  | none =>
    rw [hch] at hacc
    rw [hacc]
    refine ⟨rfl, ?_, fun _ => rfl, fun c hc hb hf => ?_⟩
    · rw [modPlat_plat]
      exact ⟨rfl, rfl, rfl, rfl⟩
    · exact absurd ((hfirst c hc hb hf).symm.trans hch) (by simp)
  | some c =>
    rw [hch] at hacc
    have hct := chosenCall_mem hk hch
    have hc : (s.modPlat p Plat.risen).findCall c.key = some c := findCall_of_mem hk hct
    have hbind := hacc.trans (bindCall_eq (s := s.modPlat p Plat.risen) hk p hc)
    rw [modPlat_modPlat] at hbind
    have hv : ((s.modPlat p (fun r => { r.risen with bound := some c.key })).modCall c.key (fun d => { d with state := .bound })).findCall c.key =
        some { c with state := .bound } := findCall_modCall_self (findCall_of_mem hk hct) (fun _ => rfl)
    have hwork := rangeSteps_work bindStep_work c.key c.steps.length
      ((s.modPlat p (fun r => { r.risen with bound := some c.key })).modCall c.key (fun d => { d with state := .bound }))
    rw [← hbind] at hwork
    have hplat : ((s.acceptOcc p).pm.get p) = { (s.pm.get p).risen with
        bound := some c.key, lastOutcome := ((s.acceptOcc p).pm.get p).lastOutcome } := by
      have := hwork.plats p
      rwa [State.modCall, State.setCt_pm, modPlat_plat] at this
    refine ⟨hwork.frame, ?_, fun hno => ?_, fun c' hc' hb' hf' => ?_⟩
    · rw [hplat]
      exact ⟨rfl, rfl, rfl, rfl⟩
    · exact absurd (hch.symm.trans (chosenCall_none hno)) (by simp)
    · obtain rfl := Option.some.inj (hch.symm.trans (hfirst c' hc' hb' hf'))
      obtain ⟨d, hd, htim⟩ := hwork.findCall hv
      refine ⟨by rw [hplat], ⟨d, hd, htim.state, by rw [htim.fields]⟩, hbind⟩

theorem finish_eq (k : CallKind) : k.finish = if k = .arrival then .arrived else .departed := by cases k <;> rfl

theorem acceptOcc_fall {s : State} {p : PlatId} (ho : (s.pm.get p).occ = false) (he : (s.pm.get p).state ≠ .empty) : s.acceptOcc p =
    match (s.pm.get p).bound with
    | none => s.modPlat p Plat.emptied
    | some key =>
      match s.findCall key with
      | some c => (s.modPlat p Plat.emptied).leaveService key (.finished c.kind.finish)
      | none => s.modPlat p Plat.emptied := by
  simp only [State.acceptOcc, ho, Bool.false_eq_true, if_false, State.acceptFall, modPlat_plat, he, modPlat_modPlat]
  rfl

theorem acceptOcc_accepts_fall {s : State} {p : PlatId} (ho : (s.pm.get p).occ = false) (he : (s.pm.get p).state ≠ .empty) :
    AcceptsFall p s (s.acceptOcc p) := by
  have hacc := acceptOcc_fall ho he
  have hemptied : (s.modPlat p Plat.emptied).pm.get p = (s.pm.get p).emptied := modPlat_plat s p _
  cases hb : (s.pm.get p).bound with
  | none =>
    rw [hb] at hacc
    rw [hacc]
    exact ⟨rfl, hemptied, fun _ => rfl, fun _ _ h => (by simp [hb] at h), fun _ _ h => (by simp [hb] at h)⟩
  | some key =>
    rw [hb] at hacc
    cases hc : s.findCall key with
    | none =>
      simp only [hc] at hacc
      rw [hacc]
      refine ⟨rfl, hemptied, fun h => (by simp [hb] at h), ?_, ?_⟩
      · rintro key' c h hc'
        cases hb.symm.trans h
        simp [hc] at hc'
      · rintro key' c h hc'
        cases hb.symm.trans h
        simp [hc] at hc'
    | some c =>
      simp only [hc] at hacc
      have hrel : ∀ q, (s.acceptOcc p).pm.get q = ((s.modPlat p Plat.emptied).pm.get q).release key := by
        intro q
        rw [hacc, leaveService_eq]
        exact Duo.get_map _ _ _
      refine ⟨?_, ?_, fun h => (by simp [hb] at h), ?_, ?_⟩
      · rw [hacc]
        exact ((modPlat_side s p _).trans (leaveService_side _ _ _)).eq
      · rw [hrel, hemptied]
        rfl
      · rintro key' c' h hc'
        cases hb.symm.trans h
        cases hc.symm.trans hc'
        rw [hacc]
        refine ⟨othersKept_leaveService (s.modPlat p Plat.emptied) key _, ?_⟩
        have hv : (s.modPlat p Plat.emptied).findCall key = some c := hc
        rw [findCall_leaveService, hv, finish_eq]
        simp [Call.outOfService]
      · rintro key' c' h hc'
        cases hb.symm.trans h
        cases hc.symm.trans hc'
        refine ⟨by rw [hacc]; rfl, by rw [hacc]; rfl, fun q hq => ?_⟩
        rw [hrel, modPlat_plat_ne s _ hq, Plat.release_eq]

/-! ### The pin (R41, R42) -/

theorem exec_occChange (p : PlatId) (s : State) : exec (.occChange p) s =
    .next (if s.sul.mode = .loading then s.modPlat p (fun r => { r with occ := !r.occ })
      else (s.modPlat p (fun r => { r with occ := !r.occ })).occMoved p) := by
  by_cases h : s.sul.mode = .loading <;> simp [exec, execOccChange, State.loaded, State.modPlat, h]

theorem exec_debounceWaitExpiry {p : PlatId} {s : State} (hm : s.sul.mode ≠ .loading) (hw : (s.pm.get p).wait = some 0) :
    exec (.debounceWaitExpiry p) s = .next (s.acceptOcc p) := by
  simp [exec, execDebounceWaitExpiry, State.loaded, hm, hw]

/-- The change of the pin's level to the accepted one ends the wait (R41). -/
theorem exec_occChange_back {p : PlatId} {s : State} (hm : s.sul.mode ≠ .loading) (h : (!(s.pm.get p).occ) = (s.pm.get p).accOcc) :
    exec (.occChange p) s = .next (s.modPlat p (fun r => { r with occ := !r.occ, wait := none })) := by
  rw [exec_occChange, if_neg hm, State.occMoved, modPlat_plat, if_pos h, modPlat_modPlat]

/-- The change of the pin's level from the accepted one begins a full wait (R41). -/
theorem exec_occChange_away {p : PlatId} {s : State} (hm : s.sul.mode ≠ .loading) (h : (!(s.pm.get p).occ) ≠ (s.pm.get p).accOcc) :
    exec (.occChange p) s = .next (s.modPlat p (fun r => { r with occ := !r.occ, wait := some s.cfg.debounceMs })) := by
  rw [exec_occChange, if_neg hm, State.occMoved, modPlat_plat, if_neg h, modPlat_modPlat]
  rfl

/-- Settles O27: the pin's changes come to one record of the platform, and an accepted level is `acceptOcc_accepts_rise` or `acceptOcc_accepts_fall`. -/
theorem occIsDebounced : Obligations.OccIsDebounced := by
  refine ⟨fun _ _ _ _ h => bindStep_binds h, ?_⟩
  intro p s hk r lvl s'
  refine ⟨?_, ?_, ?_, ?_, ?_, ?_⟩
  · intro hm
    exact takes_of ((exec_occChange p s).trans (congrArg _ (if_pos hm))) rfl
  · intro hm h
    exact takes_of (exec_occChange_back hm h) rfl
  · intro hm h
    exact takes_of (exec_occChange_away hm h) rfl
  · intro hm h h0
    have hx := exec_occChange_away hm h
    have hw : ((s.modPlat p (fun r => { r with occ := !r.occ, wait := some s.cfg.debounceMs })).pm.get p).wait = some 0 := by
      rw [modPlat_plat, h0]
    have hy := exec_debounceWaitExpiry (s := s.modPlat p (fun r => { r with occ := !r.occ, wait := some s.cfg.debounceMs })) hm hw
    have hacc := acceptOcc_wait s' p (some s.cfg.debounceMs)
    have hs' : s'.pm.get p = { r with occ := lvl } := Duo.get_set_self _ _ _
    have hu : s'.modPlat p (fun r => { r with wait := some s.cfg.debounceMs }) =
        s.modPlat p (fun r => { r with occ := !r.occ, wait := some s.cfg.debounceMs }) := modPlat_modPlat s p (fun r => { r with occ := !r.occ }) _
    rw [hu] at hacc
    rw [hacc] at hy
    refine ⟨fun hl hst => takes_of hx ⟨rfl, takes_of hy ?_⟩, fun hl hst => takes_of hx ⟨rfl, takes_of hy ?_⟩⟩
    · exact acceptOcc_accepts_rise (s := s') hk (by rw [hs']; exact hl) (by rw [hs']; exact hst)
    · exact acceptOcc_accepts_fall (s := s') (by rw [hs']; exact hl) (by rw [hs']; exact hst)
  · intro hm h
    have hne : (!(s.pm.get p).occ) ≠ (s.pm.get p).accOcc := by
      rw [← h]
      exact Bool.not_ne_self _
    refine takes_of (exec_occChange_away hm hne) ?_
    have hback : (!((s.modPlat p (fun r => { r with occ := !r.occ, wait := some s.cfg.debounceMs })).pm.get p).occ) =
        ((s.modPlat p (fun r => { r with occ := !r.occ, wait := some s.cfg.debounceMs })).pm.get p).accOcc := by
      rw [modPlat_plat]
      exact (Bool.not_not _).trans h
    refine takes_of (exec_occChange_back (s := s.modPlat p (fun r => { r with occ := !r.occ, wait := some s.cfg.debounceMs })) hm hback) ?_
    rw [modPlat_modPlat]
    simp only [Bool.not_not]
    rfl
  · intro hm hw
    exact ⟨fun ho he => takes_of (exec_debounceWaitExpiry hm hw) (acceptOcc_accepts_rise hk ho he),
      fun ho he => takes_of (exec_debounceWaitExpiry hm hw) (acceptOcc_accepts_fall ho he)⟩

end Sys2Proof.Machine
end

