-- ==== Sys2Proof/Proofs/Swaps.lean ====
section
/-!
SWAP to a platform that another node serves: who serves a platform, the live-claim count, the stages of the swap, and the HANDOFF frame that enters the
queue or fails at its arrival (R59, R60, R63, R68, R167).
-/

namespace Sys2Proof.Machine

open Sys2Proof

/-! ### The live-claim count (R60) -/

theorem hasKey_iff (e : Entry) (key : Nat) : e.hasKey key = true ↔ ∃ i, e.call = some (key, i) := by
  unfold Entry.hasKey
  cases e.call with
  | none => simp
  | some x => cases x; simp

theorem arbHolds_iff (a : Arb) (id : ClaimId) : a.holds id = true ↔ ∃ h, (a.current = some h ∨ a.next = some h ∨ h ∈ a.wait) ∧ h.id = id := by
  unfold Arb.holds
  cases a.current <;> cases a.next <;> simp [or_and_right, exists_or, or_assoc]

theorem claimLive_iff (s : State) (id : ClaimId) : s.claimLive id = true ↔ InUse s id := by
  have hchan : ∀ c, (match s.rch.get c with
      | some ch => ch.claim == id
      | none => false) = true ↔ ∃ ch, s.rch.get c = some ch ∧ ch.claim = id := by
    intro c
    cases s.rch.get c <;> simp
  unfold State.claimLive InUse
  rw [Bool.or_eq_true, List.any_eq_true, List.any_eq_true]
  simp only [arbHolds_iff]
  refine or_congr ⟨fun ⟨z, _, h⟩ => ⟨z, h⟩, fun ⟨z, h⟩ => ⟨z, ?_, h⟩⟩ ⟨fun ⟨c, _, h⟩ => ⟨c, (hchan c).mp h⟩, fun ⟨c, h⟩ => ⟨c, ?_, (hchan c).mpr h⟩⟩
  · cases z <;> decide
  · cases c <;> decide

theorem liveCount_eq_zero (s : State) (key : Nat) :
    s.liveCount key = 0 ↔ ∀ e ∈ s.clt, (∃ i, e.call = some (key, i)) → ¬ InUse s e.id := by
  unfold State.liveCount
  rw [List.length_eq_zero_iff, List.filter_eq_nil_iff]
  simp only [Bool.and_eq_true, hasKey_iff, claimLive_iff, not_and]

/-! ### Who serves a platform (R59) -/

theorem lowestServer_none {no m : Nat} {l : List (Nat × Nat)} (h : ∀ x ∈ l, ¬ (x.1 = no ∨ x.2 = no)) : lowestServer no m l = none := by
  induction l generalizing m with
  | nil => rfl
  | cons a l ih =>
    rw [lowestServer, if_neg (h a (List.mem_cons_self ..))]
    exact ih fun x hx => h x (List.mem_cons_of_mem _ hx)

theorem lowestServer_some {no m i : Nat} {l : List (Nat × Nat)} {x : Nat × Nat} (hi : l[i]? = some x) (hx : x.1 = no ∨ x.2 = no)
    (h : ∀ j < i, ∀ y, l[j]? = some y → ¬ (y.1 = no ∨ y.2 = no)) : lowestServer no m l = some (m + i) := by
  induction l generalizing m i with
  | nil => simp at hi
  | cons a l ih =>
    cases i with
    | zero =>
      obtain rfl : a = x := by simpa using hi
      rw [lowestServer, if_pos hx]
      rfl
    | succ i =>
      rw [lowestServer, if_neg (h 0 (Nat.succ_pos i) a rfl), ih (by simpa using hi) fun j hj y hy => h (j + 1) (by omega) y (by simpa using hy)]
      exact congrArg some (by omega)

theorem platChange_here {s : State} {c : Call} {a : Amendment} {n : Nat} {p : PlatId} (ha : a.platform = some n) (h1 : 1 ≤ n) (h2 : n ≤ 99)
    (hp : s.localPlat n = some p) : s.platChange c a = if p = c.platform then .stay else .toLocal p := by
  have hn : ¬ (n = 0 ∨ 99 < n) := by omega
  simp [State.platChange, ha, State.server, hn, hp]

theorem platChange_there {s : State} {c : Call} {a : Amendment} {n : Nat} (ha : a.platform = some n) (h1 : 1 ≤ n) (h2 : n ≤ 99)
    (hp : s.localPlat n = none) : s.platChange c a = ((lowestServer n 1 s.cfg.platformMap).map (.handOver · n)).getD .stay := by
  have hn : ¬ (n = 0 ∨ 99 < n) := by omega
  cases hl : lowestServer n 1 s.cfg.platformMap <;> simp [State.platChange, ha, State.server, hn, hp, hl]

/-! ### The stages of a swap (R63, R68) -/

/-- What the stages that bring the plan into line change of the calls and the platforms: the steps of the call `key`, the timers of the other calls'
steps, and of a platform nothing of its bindings. -/
structure Replanned (key : Nat) (s t : State) : Prop where
  side : CallSide s t
  call : ∀ c, s.findCall key = some c → ∃ d, t.findCall key = some d ∧ d = { c with steps := d.steps }
  others : ∀ k e, k ≠ key → s.findCall k = some e → ∃ e', t.findCall k = some e' ∧ TimersOnly e e'
  bound : ∀ p, (t.pm.get p).bound = (s.pm.get p).bound
  hold : ∀ p, (t.pm.get p).hold = (s.pm.get p).hold

theorem Replanned.trans {key : Nat} {s t u : State} (h : Replanned key s t) (k : Replanned key t u) : Replanned key s u where
  side := h.side.trans k.side
  call c hc := by
    obtain ⟨d, hd, he⟩ := h.call c hc
    obtain ⟨d', hd', he'⟩ := k.call d hd
    exact ⟨d', hd', by rw [he', he]⟩
  others j e hj he := by
    obtain ⟨d, hd, ht⟩ := h.others j e hj he
    obtain ⟨d', hd', ht'⟩ := k.others j d hj hd
    exact ⟨d', hd', ht.trans ht'⟩
  bound p := (k.bound p).trans (h.bound p)
  hold p := (k.hold p).trans (h.hold p)

theorem StepWork.replanned {s t : State} (h : StepWork s t) (key : Nat) : Replanned key s t where
  side := h.side
  call _ hc := (h.findCall hc).imp fun _ hd => ⟨hd.1, hd.2.fields⟩
  others _ _ _ he := h.findCall he
  bound := h.bound
  hold := h.hold

theorem modCall_replanned (s : State) (key : Nat) {f : Call → Call} (hf : ∀ c, f c = { c with steps := (f c).steps }) :
    Replanned key s (s.modCall key f) where
  side := modCall_side s key f
  call c hc := ⟨f c, findCall_modCall_self hc fun c => by rw [hf], hf c⟩
  others k e hk he := ⟨e, (othersKept_modCall s key f (fun c => by rw [hf]) k hk).trans he, .refl e⟩
  bound _ := rfl
  hold _ := rfl

theorem revise_replanned (key : Nat) (revs : List (Nat × StepSpec)) (s : State) :
    Replanned key s (revs.foldl (fun s r => s.modStep key r.1 (reviseStep r.2)) s) := by
  induction revs generalizing s with
  | nil => exact (StepWork.refl s).replanned key
  | cons r revs ih => exact (modCall_replanned s key (f := fun c => c.modStep r.1 (reviseStep r.2)) fun _ => rfl).trans (ih _)

/-- The state in which a REPLACE starts the new steps (R63). -/
def State.replaced (s : State) (key : Nat) (l : List StepSpec) : State :=
  ((s.removeOrigs (Orig.ofCall key)).markNoRetry key).modCall key (fun c =>
    { c with steps := l.map (fun p => { spec := p, timer := StepTimer.fresh }) })

theorem replaced_replanned (s : State) (key : Nat) (l : List StepSpec) : Replanned key s (s.replaced key l) := by
  have hq : Replanned key s ((s.removeOrigs (Orig.ofCall key)).markNoRetry key) :=
    ⟨(removeOrigs_side s _).trans (markNoRetry_side _ key), fun c hc => ⟨c, hc, rfl⟩, fun _ e _ he => ⟨e, he, .refl e⟩, fun _ => rfl, fun _ => rfl⟩
  exact hq.trans (modCall_replanned _ key fun _ => rfl)

theorem replan_eq (s : State) (key : Nat) (a : Amendment) : s.replan key a =
    match a.plan with
    | none => s.eachStep (s.stepRefsOf key) State.replanStep
    | some (.replace l) => (s.replaced key l).eachStep ((s.replaced key l).stepRefsOf key) State.startStep
    | some (.revise revs) =>
      let v := revs.foldl (fun s r => s.modStep key r.1 (reviseStep r.2)) s
      v.eachStep (v.stepRefsOf key) State.replanStep := by
  unfold State.replan State.applyPlan
  rcases a.plan with _ | _ | _ <;> rfl

theorem replan_replanned (s : State) (key : Nat) (a : Amendment) : Replanned key s (s.replan key a) := by
  rw [replan_eq]
  rcases a.plan with _ | l | revs
  · exact (eachStep_work replanStep_work _ s).replanned key
  · exact (replaced_replanned s key l).trans ((eachStep_work startStep_work _ _).replanned key)
  · exact (revise_replanned key revs s).trans ((eachStep_work replanStep_work _ _).replanned key)

theorem amend_eq (c : Call) (a : Amendment) : c.amend a = { c with
    expArr := if a.arr = none then c.expArr else a.arr, expDep := if a.dep = none then c.expDep else a.dep,
    coaches := if a.coaches = none then c.coaches else a.coaches, points := a.points.getD c.points, staged := none } := by
  unfold Call.amend
  cases a.arr <;> cases a.dep <;> cases a.coaches <;> rfl

theorem fieldsAmended_eq (key : Nat) (a : Amendment) (s : State) : FieldsAmended key a s = s.modCall key (·.amend a) := by
  simp only [FieldsAmended, amend_eq]

theorem reviseStep_eq (p : StepSpec) (st : Step) : reviseStep p st =
    { spec := p,
      timer := { st.timer with notLoaded := st.timer.notLoaded || decide (st.spec.mode = .every ∧ p.period ≠ st.spec.period) } } := by
  unfold reviseStep
  by_cases h : st.spec.mode = .every ∧ p.period ≠ st.spec.period
  · simp [h]
  · simp only [h, if_false, decide_false, Bool.or_false]

theorem keys_modStep (s : State) (key i : Nat) (f : Step → Step) : (s.modStep key i f).ct.map (·.key) = s.ct.map (·.key) :=
  keys_modCall s key _ fun _ => rfl

/-- Revisions keep the calls' keys and the number of the steps (R57). -/
theorem revise_kept (key : Nat) (revs : List (Nat × StepSpec)) {s : State} {c : Call} (hc : s.findCall key = some c) :
    let v := revs.foldl (fun s r => s.modStep key r.1 (reviseStep r.2)) s
    v.ct.map (·.key) = s.ct.map (·.key) ∧ ∃ d, v.findCall key = some d ∧ d.steps.length = c.steps.length := by
  induction revs generalizing s c with
  | nil => exact ⟨rfl, c, hc, rfl⟩
  | cons r revs ih =>
    obtain ⟨hk, d, hd, hl⟩ := ih (findCall_modCall_self hc (f := fun c => c.modStep r.1 (reviseStep r.2)) fun _ => rfl)
    exact ⟨hk.trans (keys_modStep s key r.1 _), d, hd, hl.trans (by simp [Call.modStep])⟩

/-- In a table in key order the plan is brought into line as `PlanAmended` says (R63, R66). -/
theorem replan_planAmended {s : State} (hk : KeysAscend s) {key : Nat} {c : Call} (hc : s.findCall key = some c) (a : Amendment) :
    s.replan key a = PlanAmended key c.steps.length a s := by
  rw [replan_eq]
  unfold PlanAmended
  rcases a.plan with _ | l | revs
  · simp only
    rw [stepRefsOf_of_find hk hc, eachStep_range]
  · have hrefs := stepRefsOf_of_find (s := s.replaced key l) (hk.of_keys (keys_modCall ((s.removeOrigs (Orig.ofCall key)).markNoRetry key) key _ fun _ => rfl))
      (findCall_modCall_self (s := (s.removeOrigs (Orig.ofCall key)).markNoRetry key) hc fun _ => rfl)
    simp only [hrefs, eachStep_range, List.length_map]
    rfl
  · obtain ⟨hkeys, d, hd, hl⟩ := revise_kept key revs hc
    have hrefs := stepRefsOf_of_find (hk.of_keys hkeys) hd
    simp only [hrefs, eachStep_range, hl]
    simp only [funext (reviseStep_eq _)]

/-- Stages 1 and 2 of a swap of the call `c` to the platform `n` of node `k`: its fields amended and the handoff noted (R63, R68). -/
def State.noteHandoff (s : State) (c : Call) (a : Amendment) (k n : Nat) : State :=
  (s.modCall c.key (·.amend a)).modCall c.key (fun d => { d with changed := true, handoffFailed := false, handoff := some (handoffNoted c k n) })

theorem findCall_noteHandoff {s : State} {c : Call} (hc : s.findCall c.key = some c) (a : Amendment) (k n : Nat) :
    (s.noteHandoff c a k n).findCall c.key = some { c.amend a with
      changed := true, handoffFailed := false, handoff := some (handoffNoted c k n) } :=
  findCall_modCall_self (findCall_modCall_self hc (f := (·.amend a)) fun _ => rfl) fun _ => rfl

theorem othersKept_noteHandoff (s : State) (c : Call) (a : Amendment) (k n : Nat) : OthersKept c.key s (s.noteHandoff c a k n) :=
  (othersKept_modCall s c.key (·.amend a) fun _ => rfl).trans (othersKept_modCall (s.modCall c.key (·.amend a)) c.key
    (fun d => { d with changed := true, handoffFailed := false, handoff := some (handoffNoted c k n) }) fun _ => rfl)

theorem keys_noteHandoff (s : State) (c : Call) (a : Amendment) (k n : Nat) :
    (s.noteHandoff c a k n).ct.map (·.key) = s.ct.map (·.key) :=
  (keys_modCall (s.modCall c.key (·.amend a)) c.key
    (fun d => { d with changed := true, handoffFailed := false, handoff := some (handoffNoted c k n) }) fun _ => rfl).trans
    (keys_modCall s c.key (·.amend a) fun _ => rfl)

/-- A swap of the call `c` to the platform `n` of node `k` up to the HANDOFF frame, by the model's own stages. -/
def State.setForHandoff (s : State) (c : Call) (a : Amendment) (k n : Nat) : State :=
  let v := (s.noteHandoff c a k n).replan c.key a
  (v.modCall c.key (fun d => { d with state := .handingOff })).setPm (v.pm.map (Plat.setAside c.key))

theorem setForHandoff_side (s : State) (c : Call) (a : Amendment) (k n : Nat) : CallSide s (s.setForHandoff c a k n) :=
  ((((modCall_side s _ _).trans (modCall_side _ _ _)).trans (replan_replanned _ _ a).side).trans (modCall_side _ _ _)).trans (setPm_side _ _)

theorem findCall_setForHandoff {s : State} {c : Call} (hc : s.findCall c.key = some c) (a : Amendment) (k n : Nat) :
    ∃ d, (s.setForHandoff c a k n).findCall c.key = some d ∧ HandedOver c a k n d := by
  obtain ⟨d, hd, he⟩ := (replan_replanned _ c.key a).call _ (findCall_noteHandoff hc a k n)
  refine ⟨{ d with state := .handingOff }, findCall_modCall_self hd fun _ => rfl, ?_⟩
  rw [HandedOver, he, amend_eq]

theorem others_setForHandoff (s : State) (c : Call) (a : Amendment) (k n : Nat) {j : Nat} {e : Call} (hj : j ≠ c.key) (he : s.findCall j = some e) :
    ∃ e', (s.setForHandoff c a k n).findCall j = some e' ∧ TimersOnly e e' := by
  obtain ⟨e', he', ht⟩ := (replan_replanned _ c.key a).others j e hj ((othersKept_noteHandoff s c a k n j hj).trans he)
  exact ⟨e', (othersKept_modCall _ c.key (fun d => { d with state := .handingOff }) (fun _ => rfl) j hj).trans he', ht⟩

theorem plat_setForHandoff (s : State) (c : Call) (a : Amendment) (k n : Nat) {p : PlatId} (hb : (s.pm.get p).bound = some c.key) :
    ((s.setForHandoff c a k n).pm.get p).bound = none ∧ ((s.setForHandoff c a k n).pm.get p).hold = some c.key := by
  have hbound := ((replan_replanned (s.noteHandoff c a k n) c.key a).bound p).trans hb
  have hget : (s.setForHandoff c a k n).pm.get p = Plat.setAside c.key (((s.noteHandoff c a k n).replan c.key a).pm.get p) := Duo.get_map _ _ _
  rw [hget, Plat.setAside, if_pos hbound]
  exact ⟨rfl, rfl⟩

theorem setForHandoff_eq {s : State} (hk : KeysAscend s) {c : Call} (hc : s.findCall c.key = some c) (a : Amendment) (k n : Nat) :
    s.setForHandoff c a k n = handedOverState s c.key k n c a := by
  have hplan := replan_planAmended (hk.of_keys (keys_noteHandoff s c a k n)) (findCall_noteHandoff hc a k n) a
  unfold handedOverState State.setForHandoff
  rw [fieldsAmended_eq, hplan]
  rfl

/-! ### The HANDOFF frame (R68, R167) -/

theorem exec_swap_handOver {s : State} {key : Nat} {c : Call} {a : Amendment} {k n : Nat} (hc : s.findCall key = some c) (ha : c.staged = some a)
    (hs : c.state = .waiting ∨ c.state = .bound) (hl : s.liveCount key = 0) (hp : s.platChange c a = .handOver k n) :
    exec (.swap key) s = .next (((s.setForHandoff c a k n).sendHandoff c.key k n).swapExpiry c) := by
  have hkey := findCall_key hc
  have hlive : c.live = true := by rcases hs with hs | hs <;> simp [Call.live, hs]
  have hdue : s.swapDue c = true := by simp [State.swapDue, hlive, ha, hkey, hl]
  simp only [exec, execSwap, hc, ha, hdue, if_true, State.swapCall, hp]
  rfl

theorem sendHandoff_eq {w : State} {c d : Call} (hd : w.findCall c.key = some d) (k n : Nat) :
    w.sendHandoff c.key k n = w.enqueue (.handoff (d.handoffFrame n)) k := by
  simp only [State.sendHandoff, hd]

/-- The expiry test of a swap is not made of a call that is not WAITING (R63). -/
theorem swapExpiry_of_not_waiting {u : State} {c d : Call} (hd : u.findCall c.key = some d) (h : d.state ≠ .waiting) : u.swapExpiry c = u := by
  simp only [State.swapExpiry, hd, h, false_and, if_false]

theorem expiryTest_idem (s : State) (key : Nat) : (s.expiryTest key).expiryTest key = s.expiryTest key := by
  refine expiryTest_of_not fun d hd => ?_
  rw [expires_sck (expiryTest_side s key).sck]
  rw [findCall_expiryTest] at hd
  obtain ⟨c, -, rfl⟩ := Option.map_eq_some_iff.mp hd
  by_cases hx : s.expires c = true
  · rw [if_pos ⟨rfl, hx⟩]
    exact Bool.eq_false_iff.mpr fun he => absurd (expires_waiting he) (by simp [Call.outOfService, Call.stopSteps])
  · rw [if_neg fun h => hx h.2]
    exact Bool.eq_false_iff.mpr hx

/-- A swap whose handoff reverted at once makes no expiry test but the one the revert made (R15, R63). -/
theorem swapExpiry_revertHandoff {w : State} {c d : Call} {h : HandoffCtx} (hd : w.findCall c.key = some d) (hs : d.state = .handingOff)
    (hh : d.handoff = some h) : (w.revertHandoff c.key).swapExpiry c = w.revertHandoff c.key := by
  have heq := revertHandoff_eq hd hs hh
  by_cases hheld : (Plat.holds c.key w.pm.d0 || Plat.holds c.key w.pm.d1) = true
  · rw [if_pos hheld] at heq
    obtain ⟨e, he, hed⟩ := (resumedCall_work w c.key h).findCall (findCall_revertedCall h hd)
    rw [heq]
    refine swapExpiry_of_not_waiting he ?_
    rw [hed.state]
    simp [hheld]
  · rw [if_neg hheld] at heq
    rw [heq, State.swapExpiry]
    split
    · split
      · exact expiryTest_idem _ _
      · rfl
    · rfl

/-! ### A full queue (R167) -/

theorem reverse_split {l m : List TxFrame} (g : TxFrame) : (l ++ g :: m).reverse = m.reverse ++ g :: l.reverse := by simp

theorem txWorst_split {l m : List TxFrame} {g : TxFrame} (hg : g.underWay = false) (hm : ∀ x ∈ m, x.underWay = true) :
    txWorst (l ++ g :: m) = some g := by
  have hno : m.reverse.find? (fun x => !x.underWay) = none := by simpa using hm
  rw [txWorst, reverse_split, List.find?_append, hno]
  simp [hg]

theorem txDropWorst_split {l m : List TxFrame} {g : TxFrame} (hg : g.underWay = false) (hm : ∀ x ∈ m, x.underWay = true) :
    txDropWorst (l ++ g :: m) = l ++ m := by
  rw [txDropWorst, reverse_split, List.eraseP_append_right _ (by simpa using hm), List.eraseP_cons_of_pos (by simp [hg])]
  simp

/-- A frame of a tier worse than 4 is a ZSTAT or a REPORT (R166). -/
theorem body_of_tier {b : TxBody} (h : 4 < b.tier) : (∃ id zones, b = .zstat id zones) ∨ ∃ k i n lo key c, b = .report k i n lo key c := by
  cases b with
  | claim c =>
    simp only [TxBody.tier] at h
    split_ifs at h <;> omega
  | zstat id zones => exact .inl ⟨id, zones, rfl⟩
  | report k i n lo key c => exact .inr ⟨k, i, n, lo, key, c, rfl⟩
  | _ => simp [TxBody.tier] at h

/-- Settles O23: `setForHandoff` is the swap up to its frame, which enters the queue, displaces its worst frame, or fails at its arrival. -/
theorem swapHandsTheCallOver : Obligations.SwapHandsTheCallOver := by
  refine ⟨liveCount_eq_zero, ?_, ?_⟩
  · intro s c a here there
    refine ⟨fun ha => by simp [State.platChange, ha], fun n ha h1 h2 => ⟨fun p hp => ?_, fun hno => ?_⟩⟩
    · exact platChange_here ha h1 h2 ((localPlat_iff s n p).mpr ⟨h1, h2, hp.1, hp.2⟩)
    · have hp : s.localPlat n = none := Option.eq_none_iff_forall_ne_some.mpr fun p hp =>
        hno p ⟨((localPlat_iff s n p).mp hp).2.2.1, ((localPlat_iff s n p).mp hp).2.2.2⟩
      have hx := platChange_there (c := c) ha h1 h2 hp
      refine ⟨fun k hk hlow => ?_, fun hnone => ?_⟩
      · obtain ⟨hk1, x, hget, hmem⟩ := hk
        have hserver := lowestServer_some (m := 1) hget hmem fun j hj y hy hyn => hlow (j + 1) (by omega) ⟨by omega, y, by simpa using hy, hyn⟩
        rw [hx, hserver]
        exact congrArg (PlatChange.handOver · n) (by omega)
      · have hserver := lowestServer_none (no := n) (m := 1) (l := s.cfg.platformMap) fun x hx hxn => by
          obtain ⟨i, hi⟩ := List.mem_iff_getElem?.mp hx
          exact hnone (i + 1) ⟨by omega, x, by simpa using hi, hxn⟩
        rw [hx, hserver]
        rfl
  · intro key s c a k n hc ha hs hl hp
    obtain rfl := findCall_key hc
    have hexec := exec_swap_handOver hc ha hs hl hp
    have hside := setForHandoff_side s c a k n
    obtain ⟨d, hd, hover⟩ := findCall_setForHandoff hc a k n
    have hst : d.state = .handingOff := by rw [hover]
    have hctx : d.handoff = some (handoffNoted c k n) := by rw [hover]
    have hframe : (s.setForHandoff c a k n).newFrame (.handoff (d.handoffFrame n)) k = handoffQueued d k n s.now := by
      rw [State.newFrame, State.now, hside.sck]
      rfl
    rw [sendHandoff_eq hd] at hexec
    refine ⟨fun hlt => ?_, fun hfull hk hfr => ?_⟩
    · have hoff : txOffer (s.setForHandoff c a k n).lc.tx ((s.setForHandoff c a k n).newFrame (.handoff (d.handoffFrame n)) k) =
          (txInsert s.lc.tx (handoffQueued d k n s.now), none) := by
        rw [hframe, hside.lc]
        simp [txOffer, Config.maxTx, hlt]
      rw [enqueue_kept (congrArg Prod.snd hoff), hoff] at hexec
      have hend := swapExpiry_of_not_waiting (u := (s.setForHandoff c a k n).setTx (txInsert s.lc.tx (handoffQueued d k n s.now))) hd (by simp [hst])
      refine takes_of (hexec.trans (congrArg Host.Outcome.next hend)) ⟨?_, ⟨d, hd, hover, rfl⟩, fun e j hj he => ?_, fun hk => ?_, fun p hb => ?_⟩
      · exact congrArg (fun u => u.setTx (txInsert s.lc.tx (handoffQueued d k n s.now))) hside.eq
      · obtain ⟨e', he', ht⟩ := others_setForHandoff s c a k n hj he
        exact ⟨e', he', by rw [ht.fields], ht.specs⟩
      · rw [← setForHandoff_eq hk hc]
        rfl
      · exact plat_setForHandoff s c a k n hb
    · intro w
      have hw : w = s.setForHandoff c a k n := (setForHandoff_eq hk hc a k n).symm
      rw [← hw] at hexec hside hd hframe
      refine ⟨d, hd, hover, fun hall => ?_, ?_⟩
      · have hoff : txOffer w.lc.tx (w.newFrame (.handoff (d.handoffFrame n)) k) = (s.lc.tx, some (handoffQueued d k n s.now)) := by
          rw [hframe, hside.lc]
          obtain ⟨hlt, -⟩ | ⟨-, g, hg, ht, -⟩ | ⟨-, -, he⟩ := txOffer_cases s.lc.tx (handoffQueued d k n s.now)
          · omega
          · obtain ⟨hmem, hup⟩ := txWorst_mem hg
            exact absurd (hall g hmem hup) (Nat.not_le.mpr ht)
          · exact he
        have hself : w.setTx s.lc.tx = w := by
          rw [State.setTx, ← hside.lc]
          rfl
        have hrev := revertHandoff_reverted hd hst hctx
        have hdk : d.key = c.key := findCall_key hd
        have hfail : w.failFrame (handoffQueued d k n s.now) = w.revertHandoff c.key := by
          rw [failFrame_handoff rfl]
          simp only [State.handoffFailed, hdk, hd, hctx]
          rfl
        rw [enqueue_fails (congrArg Prod.snd hoff), hoff, hself, hfail, swapExpiry_revertHandoff hd hst hctx] at hexec
        exact takes_of hexec ⟨hrev, (revertHandoff_side w c.key).lc.trans hside.lc⟩
      · intro l g m hq hg hm ht u
        have hoff : txOffer w.lc.tx (w.newFrame (.handoff (d.handoffFrame n)) k) = (txInsert (l ++ m) (handoffQueued d k n s.now), some g) := by
          rw [hframe, hside.lc, hq]
          rw [hq] at hfull
          have h8 : 8 ≤ l.length + (m.length + 1) := by simpa using hfull
          simp [txOffer, Config.maxTx, h8, txWorst_split hg hm, txDropWorst_split hg hm, handoffQueued, ht]
        have hu : w.setTx (txInsert (l ++ m) (handoffQueued d k n s.now)) = u := by
          simp only [State.setTx, hside.lc]
          rfl
        rw [enqueue_fails (congrArg Prod.snd hoff), hoff, hu] at hexec
        have htier : 4 < g.body.tier := by
          rw [← hfr.tiers g (by simp [hq])]
          exact ht
        have hend : ∀ v : State, v.ct = w.ct → v.swapExpiry c = v := fun v hv =>
          swapExpiry_of_not_waiting (d := d) (by rw [State.findCall, hv]; exact hd) (by simp [hst])
        obtain ⟨id, zones, hb⟩ | ⟨k', i, n', lo, key', b, hb⟩ := body_of_tier htier
        · rw [failFrame_zstat hb, hend] at hexec
          · exact takes_of hexec (.inl ⟨id, zones, hb, rfl⟩)
          · rfl
        · rw [failFrame_report hb, hend] at hexec
          · exact takes_of hexec (.inr ⟨k', i, n', lo, key', b, hb, rfl⟩)
          · rfl

end Sys2Proof.Machine
end

