-- ==== Sys2Proof/Proofs/Keeping.lean ====
section
/-!
SUPPORT. What every operation keeps, said once of each: the orders and ranges of the tables, the configuration, and a listener's silence. `Keeps I s t`
speaks of a state `t` on the way from `s`; an operation's lemma takes it from one state on the way to the next.
-/

namespace Sys2Proof.Machine

open Sys2Proof

/-! ### What is kept -/

/-- A transmit queue in its places and its order (R166). -/
def FrameQueue (now : Nat) (q : List TxFrame) : Prop :=
  q.length ≤ 8 ∧ q.Pairwise (fun a b => a.tier < b.tier ∨ (a.tier = b.tier ∧ a.queuedAt ≤ b.queuedAt)) ∧ (∀ f ∈ q, f.tier = f.body.tier) ∧
  ∀ f ∈ q, f.queuedAt ≤ now

/-- An origination queue in its places and its order (R74). -/
def OrigQueue (now : Nat) (q : List Orig) : Prop :=
  q.length ≤ 4 ∧ q.Pairwise (fun a b => a.cls < b.cls ∨ (a.cls = b.cls ∧ a.queuedAt ≤ b.queuedAt)) ∧ ∀ o ∈ q, o.queuedAt ≤ now

/-- The ranges of a zone record (R109, R130). -/
def Zone.Fits (r : Zone) : Prop := r.arb.wait.length ≤ 4 ∧ r.floor ≤ 120 ∧ ∀ a, r.staged = some a → a.floor ≤ 120

/-- The ranges of the level unit's record of a zone (R148, R155, R156). -/
def LuZone.Fits (u : LuZone) : Prop := u.k ≤ 31 ∧ u.level ≤ 120 ∧ 32 ≤ u.mult ∧ u.mult ≤ 32768

/-- Pairs are present on both sides or on neither (R124). -/
def PairsMatch (s : State) : Prop := ∀ z, (s.za.get z).pair = none ↔ (s.za.get z.partner).pair = none

/-- A state `t` reached from `s` outside loading: where the tables of `s` are in order, so are those of `t`; where `s` listens in silence, so does `t`;
the configuration stands. `I` says what more is known of the ids in the claim table of `t`. -/
structure Keeps (I : List ClaimId → Prop) (s t : State) : Prop where
  ids : I (t.clt.map (·.id))
  calls : TablesInOrder s → t.ct.length ≤ 64 ∧ t.ct.Pairwise (fun a b => a.key < b.key)
  noCalls : SilentListener s → t.ct = []
  entries : TablesInOrder s → t.clt.length ≤ 16 ∧ t.clt.Pairwise (fun a b => a.id ≠ b.id)
  noZstats : SilentListener s → ∀ e ∈ t.clt, e.zstat = .notNeeded
  frames : TablesInOrder s → FrameQueue t.sck.running t.lc.tx
  noFrames : SilentListener s → t.lc.tx = []
  origs : TablesInOrder s → OrigQueue t.sck.running t.cmp.queue
  noOrigs : SilentListener s → t.cmp.queue = []
  clock : TablesInOrder s → t.sck.time ≤ 107999 ∧ (t.sck.isSet = false → t.sck.time = 0) ∧ t.sck.running ≤ 1099511627775
  zones : TablesInOrder s → ∀ z, (t.za.get z).Fits
  levels : TablesInOrder s → ∀ z, (t.lu.zones.get z).Fits
  sul : t.sul = s.sul
  cfg : t.cfg = s.cfg
  templates : t.cmp.templates = s.cmp.templates
  bases : t.cmp.bases = s.cmp.bases
  lu : t.lu = { s.lu with zones := t.lu.zones }
  luZones : ∀ z, t.lu.zones.get z = { s.lu.zones.get z with
    k := (t.lu.zones.get z).k, window := (t.lu.zones.get z).window, lastPlayEnd := (t.lu.zones.get z).lastPlayEnd,
    level := (t.lu.zones.get z).level, mult := (t.lu.zones.get z).mult }
  neighbours : ∀ z, (t.za.get z).neighbours = (s.za.get z).neighbours
  pairs : PairsMatch s → ∀ z, (t.za.get z).pair = none ↔ (s.za.get z).pair = none
  stations : ∀ p, (t.pm.get p).stationNo = (s.pm.get p).stationNo

/-- Nothing more is known of the ids in the claim table. -/
def AnyIds : List ClaimId → Prop := fun _ => True

theorem Keeps.refl {I : List ClaimId → Prop} {s : State} (h : I (s.clt.map (·.id))) : Keeps I s s where
  ids := h
  calls h := ⟨h.places.calls, h.keys⟩
  noCalls h := h.calls
  entries h := ⟨h.places.entries, h.ids⟩
  noZstats h := h.zstats
  frames h := ⟨h.places.frames, h.frames.order, h.frames.tiers, h.frames.past⟩
  noFrames h := h.frames
  origs h := ⟨h.places.originations, h.origs.order, h.origs.past⟩
  noOrigs h := h.originations
  clock h := ⟨h.clock.time, h.clock.unset, h.clock.running⟩
  zones h z := ⟨h.places.waiting z, (h.levels.zones z).floor, (h.levels.zones z).stagedFloor⟩
  levels h z := ⟨(h.levels.zones z).k, (h.levels.zones z).level, (h.levels.zones z).multLow, (h.levels.zones z).multHigh⟩
  sul := rfl
  cfg := rfl
  templates := rfl
  bases := rfl
  lu := rfl
  luZones _ := rfl
  neighbours _ := rfl
  pairs _ _ := Iff.rfl
  stations _ := rfl

theorem Keeps.tables {I : List ClaimId → Prop} {s t : State} (h : Keeps I s t) (hs : TablesInOrder s) : TablesInOrder t := by
  obtain ⟨hc, hk⟩ := h.calls hs
  obtain ⟨he, hi⟩ := h.entries hs
  obtain ⟨hf, ho, ht, hp⟩ := h.frames hs
  obtain ⟨hq, hqo, hqp⟩ := h.origs hs
  obtain ⟨h1, h2, h3⟩ := h.clock hs
  have hz := h.zones hs
  have hl := h.levels hs
  refine ⟨⟨hc, he, hf, hq, fun z => (hz z).1⟩, hk, hi, ⟨ho, ht, hp⟩, ⟨hqo, hqp⟩, ⟨h1, h2, h3⟩, ⟨fun z => ?_, ?_⟩, ?_⟩
  · refine ⟨(hl z).1, ?_, (hl z).2.1, (hl z).2.2.1, (hl z).2.2.2, (hz z).2.1, (hz z).2.2⟩
    rw [h.luZones z]
    exact (hs.levels.zones z).initK
  · rw [h.lu]
    exact hs.levels.floor
  · unfold DirectoryInRange
    rw [h.cfg]
    exact hs.directory

theorem Keeps.silent {I : List ClaimId → Prop} {s t : State} (h : Keeps I s t) (hs : SilentListener s) : SilentListener t where
  mode := by rw [h.sul]; exact hs.mode
  released := by rw [h.sul]; exact hs.released
  unnumbered := by
    have hn : t.nodeNo = s.nodeNo := by unfold State.nodeNo; rw [h.sul]
    exact hn.trans hs.unnumbered
  calls := h.noCalls hs
  originations := h.noOrigs hs
  frames := h.noFrames hs
  zstats := h.noZstats hs

section

variable {I : List ClaimId → Prop} {s t : State}

/-! ### Parts that nothing is promised of -/

theorem channels_keeps (h : Keeps I s t) {u : State} (hu : u = { t with rch := u.rch, sp := u.sp, audio := u.audio }) : Keeps I s u := by
  rw [hu]
  exact { h with }

theorem setRx_keeps (h : Keeps I s t) (b : Bool) : Keeps I s (t.setLc { t.lc with rx := b }) := { h with }

theorem frameEnd_keeps (h : Keeps I s t) : Keeps I s t.frameEnd := { h with }

theorem setReport_keeps (h : Keeps I s t) (r : Option ReportBuf) : Keeps I s (t.setReport r) := { h with }

theorem setEvac_keeps (h : Keeps I s t) (v : Evac) : Keeps I s (t.setEvac v) := { h with }

theorem setPins_keeps (h : Keeps I s t) (v : Pins) : Keeps I s (t.setPins v) := { h with }

theorem reach16_keeps (h : Keeps I s t) (d : Nat) : Keeps I s (t.reach16 d) := by
  unfold State.reach16
  split
  · exact { h with }
  · exact h

/-! ### The claim table -/

theorem setClt_keeps (h : Keeps AnyIds s t) {l : List Entry} (he : TablesInOrder s → l.length ≤ 16 ∧ l.Pairwise (fun a b => a.id ≠ b.id))
    (hz : SilentListener s → ∀ e ∈ l, e.zstat = .notNeeded) : Keeps AnyIds s (t.setClt l) :=
  { h with ids := trivial, entries := he, noZstats := hz }

theorem mapClt_keeps (h : Keeps I s t) {f : Entry → Entry} (hid : ∀ e, (f e).id = e.id)
    (hz : SilentListener s → ∀ e, e.zstat = .notNeeded → (f e).zstat = .notNeeded) : Keeps I s (t.setClt (t.clt.map f)) := by
  have hids : (t.clt.map f).map (·.id) = t.clt.map (·.id) := by simp [Function.comp_def, hid]
  refine { h with ids := hids.symm ▸ h.ids, entries := fun hs => ?_, noZstats := fun hs e he => ?_ }
  · obtain ⟨hl, hp⟩ := h.entries hs
    exact ⟨(List.length_map _).trans_le hl, List.pairwise_map.mpr (hp.imp fun {a b} hab => by rwa [hid, hid])⟩
  · obtain ⟨d, hd, rfl⟩ := List.mem_map.mp he
    exact hz hs d (h.noZstats hs d hd)

theorem modEntry_keeps (h : Keeps I s t) (id : ClaimId) {f : Entry → Entry} (hid : ∀ e, (f e).id = e.id)
    (hz : SilentListener s → ∀ e, e.zstat = .notNeeded → (f e).zstat = .notNeeded) : Keeps I s (t.modEntry id f) := by
  refine mapClt_keeps h (fun e => ?_) fun hs e he => ?_
  · split
    · exact hid e
    · rfl
  · split
    · exact hz hs e he
    · exact he

theorem modOrigin_keeps (h : Keeps I s t) (id : ClaimId) (f : OriginPart → OriginPart) : Keeps I s (t.modOrigin id f) :=
  modEntry_keeps h id (fun _ => rfl) fun _ _ he => he

theorem filterClt_keeps (h : Keeps AnyIds s t) (p : Entry → Bool) : Keeps AnyIds s (t.setClt (t.clt.filter p)) :=
  setClt_keeps h (fun hs => ⟨(List.length_filter_le _ _).trans (h.entries hs).1, (h.entries hs).2.filter p⟩)
    fun hs e he => h.noZstats hs e (List.mem_of_mem_filter he)

theorem writeDisp_keeps (h : Keeps I s t) (id : ClaimId) (z : ZoneId) (d : Disp) : Keeps I s (t.writeDisp id z d) := by
  refine modEntry_keeps h id (fun e => ?_) fun _ e he => ?_
  · split <;> rfl
  · split <;> exact he

theorem foldl_keeps {α : Type} {f : State → α → State} (h : Keeps I s t) (hf : ∀ u a, Keeps I s u → Keeps I s (f u a)) (l : List α) :
    Keeps I s (l.foldl f t) := by
  induction l generalizing t with
  | nil => exact h
  | cons a l ih => exact ih (hf t a h)

theorem writeDisps_keeps (h : Keeps I s t) (id : ClaimId) (zs : List ZoneId) (d : Disp) : Keeps I s (t.writeDisps id zs d) :=
  foldl_keeps h (fun _ z hu => writeDisp_keeps hu id z d) zs

theorem markNoRetry_keeps (h : Keeps I s t) (key : Nat) : Keeps I s (t.markNoRetry key) := by
  refine mapClt_keeps h (fun e => ?_) fun _ e he => ?_
  · split <;> rfl
  · split <;> exact he

/-! ### The transmit queue -/

theorem setTx_keeps (h : Keeps I s t) {q : List TxFrame} (hq : TablesInOrder s → FrameQueue t.sck.running q) (hs : SilentListener s → q = []) :
    Keeps I s (t.setTx q) := { h with frames := hq, noFrames := hs }

theorem FrameQueue.sublist {now : Nat} {q r : List TxFrame} (h : FrameQueue now q) (hr : r.Sublist q) : FrameQueue now r := by
  obtain ⟨hl, ho, ht, hp⟩ := h
  exact ⟨hr.length_le.trans hl, ho.sublist hr, fun f hf => ht f (hr.subset hf), fun f hf => hp f (hr.subset hf)⟩

/-- A change of a frame that leaves its tier, its instant and its body keeps the queue in order. -/
theorem FrameQueue.map {now : Nat} {q : List TxFrame} (h : FrameQueue now q) {f : TxFrame → TxFrame} (htier : ∀ g, (f g).tier = g.tier)
    (hat : ∀ g, (f g).queuedAt = g.queuedAt) (hbody : ∀ g, (f g).body = g.body) : FrameQueue now (q.map f) := by
  obtain ⟨hl, ho, ht, hp⟩ := h
  refine ⟨by rwa [List.length_map], List.pairwise_map.mpr (ho.imp fun {a b} hab => by rwa [htier, htier, hat, hat]), ?_, ?_⟩
  · intro g hg
    obtain ⟨x, hx, rfl⟩ := List.mem_map.mp hg
    rw [htier, hbody]
    exact ht x hx
  · intro g hg
    obtain ⟨x, hx, rfl⟩ := List.mem_map.mp hg
    rw [hat]
    exact hp x hx

theorem filterTx_keeps (h : Keeps I s t) (p : TxFrame → Bool) : Keeps I s (t.setTx (t.lc.tx.filter p)) :=
  setTx_keeps h (fun hs => (h.frames hs).sublist List.filter_sublist) fun hs => by rw [h.noFrames hs]; rfl

theorem mapTx_keeps (h : Keeps I s t) {f : TxFrame → TxFrame} (htier : ∀ g, (f g).tier = g.tier) (hat : ∀ g, (f g).queuedAt = g.queuedAt)
    (hbody : ∀ g, (f g).body = g.body) : Keeps I s (t.setTx (t.lc.tx.map f)) :=
  setTx_keeps h (fun hs => (h.frames hs).map htier hat hbody) fun hs => by rw [h.noFrames hs]; rfl

theorem txInsert_order {now : Nat} {q : List TxFrame} {f : TxFrame} (h : FrameQueue now q) (hf : f.queuedAt = now) :
    (txInsert q f).Pairwise (fun a b => a.tier < b.tier ∨ (a.tier = b.tier ∧ a.queuedAt ≤ b.queuedAt)) := by
  obtain ⟨-, ho, -, hp⟩ := h
  have hsplit := List.takeWhile_append_dropWhile (p := fun g : TxFrame => decide (g.tier ≤ f.tier)) (l := q)
  have hbefore : ∀ g ∈ q.takeWhile (fun g => decide (g.tier ≤ f.tier)), g.tier ≤ f.tier :=
    fun g hg => of_decide_eq_true (List.mem_takeWhile_imp (p := fun g : TxFrame => decide (g.tier ≤ f.tier)) hg)
  rw [← hsplit, List.pairwise_append] at ho
  obtain ⟨h1, h2, h12⟩ := ho
  have hafter : ∀ g ∈ q.dropWhile (fun g => decide (g.tier ≤ f.tier)), f.tier < g.tier := by
    cases hd : q.dropWhile (fun g => decide (g.tier ≤ f.tier)) with
    | nil => simp
    | cons d l =>
      have hne : q.dropWhile (fun g => decide (g.tier ≤ f.tier)) ≠ [] := by rw [hd]; simp
      have hfirst : f.tier < d.tier := by
        have := List.head_dropWhile_not (fun g : TxFrame => decide (g.tier ≤ f.tier)) hne
        simpa [hd] using this
      rw [hd, List.pairwise_cons] at h2
      intro g hg
      rcases List.mem_cons.mp hg with rfl | hg
      · exact hfirst
      · have := h2.1 g hg
        omega
  have hpast : ∀ g ∈ q, g.queuedAt ≤ f.queuedAt := fun g hg => hf ▸ hp g hg
  refine List.pairwise_append.mpr ⟨h1, List.pairwise_cons.mpr ⟨fun g hg => .inl (hafter g hg), h2⟩, fun g hg d hd => ?_⟩
  rcases List.mem_cons.mp hd with rfl | hd
  · have := hbefore g hg
    have := hpast g ((List.takeWhile_sublist _).subset hg)
    omega
  · exact h12 g hg d hd

/-- A frame's arrival leaves the queue in its places and its order (R166, R167). -/
theorem txOffer_queue {now : Nat} {q : List TxFrame} {f : TxFrame} (h : FrameQueue now q) (hf : f.queuedAt = now) (ht : f.tier = f.body.tier) :
    FrameQueue now (txOffer q f).1 := by
  have hin : ∀ r : List TxFrame, FrameQueue now r → r.length < 8 → FrameQueue now (txInsert r f) := by
    intro r hr hlt
    refine ⟨by rw [length_txInsert]; omega, txInsert_order hr hf, fun g hg => ?_, fun g hg => ?_⟩
    · rcases (mem_txInsert r f g).mp hg with rfl | hg
      · exact ht
      · exact hr.2.2.1 g hg
    · rcases (mem_txInsert r f g).mp hg with rfl | hg
      · exact hf.le
      · exact hr.2.2.2 g hg
  obtain ⟨hlt, he⟩ | ⟨-, w, hw, -, he⟩ | ⟨-, -, he⟩ := txOffer_cases q f <;> rw [he]
  · exact hin q h hlt
  · refine hin _ (h.sublist (txDropWorst_sublist q)) ?_
    have := List.length_eraseP_add_one (p := fun g : TxFrame => !g.underWay) (List.mem_reverse.mpr (txWorst_mem hw).1) (by simp [(txWorst_mem hw).2])
    rw [txDropWorst, List.length_reverse]
    rw [List.length_reverse] at this
    have := h.1
    omega
  · exact h

theorem lowFail_keeps (h : Keeps I s t) (f : TxFrame) : Keeps I s (t.lowFail f) := by
  unfold State.lowFail
  split
  · refine modEntry_keeps h _ (fun e => ?_) fun _ e he => ?_
    · split <;> rfl
    · simp [he]
  · exact setReport_keeps h _
  · exact h

theorem offerTx_keeps (h : Keeps I s t) (hl : ¬ SilentListener s) (b : TxBody) (dst : Nat) :
    Keeps I s (t.setTx (txOffer t.lc.tx (t.newFrame b dst)).1) :=
  setTx_keeps h (fun hs => txOffer_queue (h.frames hs) rfl rfl) fun hs => absurd hs hl

theorem enqueueLow_keeps (h : Keeps I s t) (hl : ¬ SilentListener s) (b : TxBody) (dst : Nat) : Keeps I s (t.enqueueLow b dst) := by
  have h1 := offerTx_keeps h hl b dst
  unfold State.enqueueLow
  dsimp only
  split
  · exact h1
  · exact lowFail_keeps h1 _

/-- Settling sends no ZSTAT for a silent listener, none of whose entries has one to send (R101, R183). -/
theorem settleEntry_keeps (h : Keeps I s t) (id : ClaimId) : Keeps I s (t.settleEntry id) := by
  unfold State.settleEntry
  split
  · exact h
  · rename_i e he
    split
    · have h1 : Keeps I s (t.modEntry id (fun e => { e with settled := true })) := modEntry_keeps h id (fun _ => rfl) fun _ _ he => he
      dsimp only
      split
      · split
        · exact modOrigin_keeps h1 id _
        · exact h1
      · split
        · rename_i hp
          have hl : ¬ SilentListener s := fun hs => by
            rw [h.noZstats hs e (List.mem_of_find?_eq_some he)] at hp
            exact absurd hp (by decide)
          refine enqueueLow_keeps (modEntry_keeps h1 id ?_ fun hs => absurd hs hl) hl _ _
          exact fun _ => rfl
        · exact h1
    · exact h

theorem settle_keeps (h : Keeps I s t) : Keeps I s t.settle := foldl_keeps h (fun _ id hu => settleEntry_keeps hu id) _

/-! ### Zone records and the level unit -/

theorem Keeps.waits (h : Keeps I s t) (z : ZoneId) : TablesInOrder s → (t.za.get z).arb.wait.length ≤ 4 := fun hs => (h.zones hs z).1

theorem modZone_keeps (h : Keeps I s t) (z : ZoneId) {f : Zone → Zone} (hf : TablesInOrder s → (f (t.za.get z)).Fits)
    (hn : (f (t.za.get z)).neighbours = (t.za.get z).neighbours)
    (hp : PairsMatch s → ((f (t.za.get z)).pair = none ↔ (t.za.get z).pair = none)) : Keeps I s (t.modZone z f) := by
  have hget : ∀ y, (t.modZone z f).za.get y = if y = z then f (t.za.get z) else t.za.get y := fun y => Quad.get_set _ _ _ _
  refine { h with zones := fun hs y => ?_, neighbours := fun y => ?_, pairs := fun hs y => ?_ } <;> rw [hget]
  · split
    · exact hf hs
    · exact h.zones hs y
  · split
    · rename_i hy
      rw [hn, ← hy]
      exact h.neighbours y
    · exact h.neighbours y
  · split
    · rename_i hy
      rw [hp hs, ← hy]
      exact h.pairs hs y
    · exact h.pairs hs y

/-- A change of a zone record's marks alone. -/
theorem modZone_marks_keeps (h : Keeps I s t) (z : ZoneId) {f : Zone → Zone} (hf : ∀ r, f r = { r with
    service := (f r).service, ampFault := (f r).ampFault, reformDue := (f r).reformDue }) : Keeps I s (t.modZone z f) :=
  modZone_keeps h z (fun hs => by rw [hf]; exact h.zones hs z) (by rw [hf]) fun _ => by rw [hf]

theorem modLu_keeps (h : Keeps I s t) (z : ZoneId) {f : LuZone → LuZone} (hf : TablesInOrder s → (f (t.lu.zones.get z)).Fits)
    (hu : f (t.lu.zones.get z) = { t.lu.zones.get z with
      k := (f (t.lu.zones.get z)).k, window := (f (t.lu.zones.get z)).window, lastPlayEnd := (f (t.lu.zones.get z)).lastPlayEnd,
      level := (f (t.lu.zones.get z)).level, mult := (f (t.lu.zones.get z)).mult }) : Keeps I s (t.modLu z f) := by
  have hget : ∀ y, (t.modLu z f).lu.zones.get y = if y = z then f (t.lu.zones.get z) else t.lu.zones.get y := fun y => Quad.get_set _ _ _ _
  have hlu : (t.modLu z f).lu = { s.lu with zones := (t.modLu z f).lu.zones } := by
    unfold State.modLu
    rw [State.setLu_lu, h.lu]
  refine { h with levels := fun hs y => ?_, lu := hlu, luZones := fun y => ?_ } <;> rw [hget]
  · split
    · exact hf hs
    · exact h.levels hs y
  · split
    · rename_i hy
      subst hy
      rw [hu, h.luZones y]
    · exact h.luZones y

theorem multiplier_range (n : Nat) : 32 ≤ multiplier n ∧ multiplier n ≤ 32768 := by
  have hall : ∀ a, a < 121 → 32 ≤ gainTable.getD (a % 12) 0 / 2 ^ (a / 12) ∧ gainTable.getD (a % 12) 0 / 2 ^ (a / 12) ≤ 32768 := by decide
  exact hall (120 - n) (by omega)

theorem levelFor_le (h : Keeps I s t) (hs : TablesInOrder s) (z : ZoneId) (c : Held) : t.levelFor z c ≤ 120 := by
  have hz : (t.za.get z).floor ≤ 120 := (h.zones hs z).2.1
  have he : t.lu.eFloor ≤ 120 := by rw [h.lu]; exact hs.levels.floor
  have hf : t.floorFor z c.cls ≤ 120 := by
    unfold State.floorFor
    split <;> omega
  unfold State.levelFor
  split
  · decide
  · dsimp only
    split
    · exact hf
    · omega

theorem applyLevel_keeps (h : Keeps I s t) (z : ZoneId) : Keeps I s (t.applyLevel z) := by
  unfold State.applyLevel
  split
  · exact modLu_keeps h z (fun hs => ⟨(h.levels hs z).1, levelFor_le h hs z _, multiplier_range _⟩) rfl
  · exact h

theorem applyLevels_keeps (h : Keeps I s t) (zs : List ZoneId) : Keeps I s (t.applyLevels zs) := foldl_keeps h (fun _ z hu => applyLevel_keeps hu z) zs

theorem sampleZone_keeps (h : Keeps I s t) (v : Nat) (e : Quad Nat) (z : ZoneId) : Keeps I s (t.sampleZone v e z) := by
  unfold State.sampleZone
  split
  · exact modLu_keeps h z (fun hs => h.levels hs z) rfl
  · exact h

/-! ### Zones enter a state (R110, R113) -/

theorem putZoneArb_keeps (h : Keeps I s t) {a : Arb} (ha : TablesInOrder s → a.wait.length ≤ 4) (z : ZoneId) : Keeps I s (t.putZoneArb a z) := by
  have h1 : Keeps I s (t.modZone z (fun r => { r with arb := a })) := modZone_keeps h z (fun hs => ⟨ha hs, (h.zones hs z).2⟩) rfl fun _ => Iff.rfl
  have h2 : ∀ u, Keeps I s u → Keeps I s (u.modLu z (fun u => { u with lastPlayEnd := some t.now })) := fun u hu =>
    modLu_keeps hu z (fun hs => hu.levels hs z) rfl
  have h3 : ∀ u, Keeps I s u → Keeps I s (u.modLu z (fun u => { u with window := none })) := fun u hu =>
    modLu_keeps hu z (fun hs => hu.levels hs z) rfl
  unfold State.putZoneArb
  dsimp only
  split
  · split
    · exact h3 _ (h2 _ h1)
    · exact h3 _ h1
  · split
    · exact h2 _ h1
    · exact h1

theorem putArb_keeps (h : Keeps I s t) {a : Arb} (ha : TablesInOrder s → a.wait.length ≤ 4) (zs : List ZoneId) : Keeps I s (t.putArb zs a) :=
  foldl_keeps h (fun _ z hu => putZoneArb_keeps hu ha z) zs

theorem enter_keeps (h : Keeps I s t) {r : Arb × List ClaimId} (hr : TablesInOrder s → r.1.wait.length ≤ 4) (zs : List ZoneId) :
    Keeps I s (t.enter zs r) := by
  have h1 := foldl_keeps (putArb_keeps h hr zs) (fun u id hu => writeDisps_keeps hu id zs .missed) r.2
  unfold State.enter
  dsimp only
  split
  · refine applyLevels_keeps (channels_keeps h1 ?_) zs
    rw [attachZones_frame]
  · exact h1

theorem turnToWait_wait (w : List Held) (now : Nat) : (turnToWait w now).1.wait.length ≤ w.length := by
  obtain ⟨miss, rest, rfl, -, hnone, hsome⟩ := takeFirst_cases now w
  unfold turnToWait
  cases rest with
  | nil =>
    simp only [hnone rfl]
    exact Nat.zero_le _
  | cons n r =>
    simp only [(hsome n r rfl).2, Held.begun, List.length_append, List.length_cons]
    omega

theorem choose_wait (a : Arb) (now : Nat) : (a.choose now).1.wait.length ≤ a.wait.length := by
  unfold Arb.choose
  split
  · split
    · exact turnToWait_wait _ _
    · exact le_rfl
  · exact turnToWait_wait _ _

theorem markReform_keeps (h : Keeps I s t) (z : ZoneId) : Keeps I s (t.markReform z) := by
  unfold State.markReform
  dsimp only
  split
  · exact modZone_marks_keeps h _ fun _ => rfl
  · exact h

theorem chooseNext_keeps (h : Keeps I s t) {a : Arb} (ha : TablesInOrder s → a.wait.length ≤ 4) (zs : List ZoneId) : Keeps I s (t.chooseNext zs a) :=
  foldl_keeps (enter_keeps h (fun hs => (choose_wait a _).trans (ha hs)) zs) (fun _ z hu => markReform_keeps hu z) zs

theorem detachZones_keeps (h : Keeps I s t) (zs : List ZoneId) : Keeps I s (t.detachZones zs) :=
  channels_keeps h (by rw [detachZones_frame])

theorem stopUnit_keeps (h : Keeps I s t) (z : ZoneId) (c : StopCause) : Keeps I s (t.stopUnit z c) := by
  unfold State.stopUnit
  dsimp only
  split
  · exact h
  · exact chooseNext_keeps (writeDisps_keeps (detachZones_keeps h _) _ _ _) (h.waits z) _

theorem putCutting_keeps (h : Keeps I s t) (z : ZoneId) {a : Arb} (ha : TablesInOrder s → a.wait.length ≤ 4) : Keeps I s (t.putCutting z a) := by
  unfold State.putCutting
  dsimp only
  split
  · exact stopUnit_keeps (putArb_keeps h ha _) z _
  · exact putArb_keeps h ha _

/-! ### Offers, withdrawal and eviction in a zone -/

theorem offerWait_keeps (h : Keeps I s t) (z : ZoneId) {a : Arb} (ha : TablesInOrder s → a.wait.length ≤ 4) (c : Held) :
    Keeps I s (t.offerWait z a c) := by
  have h1 : Keeps I s (t.putArb (t.unit z) { a with wait := (waitEnter Held.aheadOfOffer a.wait c).1 }) :=
    putArb_keeps h (fun hs => (waitEnter_spec _ _ c (ha hs)).1) _
  unfold State.offerWait
  dsimp only
  split
  · exact h1
  · exact writeDisps_keeps h1 _ _ _

theorem displaceNext_keeps (h : Keeps I s t) (z : ZoneId) {a : Arb} (ha : TablesInOrder s → a.wait.length ≤ 4) (o c : Held) :
    Keeps I s (t.displaceNext z a o c) := by
  have hw : TablesInOrder s → (waitEnter Held.aheadOfDisplaced a.wait o).1.length ≤ 4 := fun hs => (waitEnter_spec _ _ o (ha hs)).1
  unfold State.displaceNext
  dsimp only
  split
  · exact putCutting_keeps h z hw
  · exact putCutting_keeps (writeDisps_keeps h _ _ _) z hw

theorem offerUnit_keeps (h : Keeps I s t) (c : Held) (z : ZoneId) : Keeps I s (t.offerUnit c z) := by
  have hw := h.waits z
  have hchoose : TablesInOrder s → (({ (t.za.get z).arb with next := some c } : Arb).choose t.now).1.wait.length ≤ 4 :=
    fun hs => (choose_wait _ _).trans (hw hs)
  unfold State.offerUnit
  dsimp only
  split
  · exact writeDisps_keeps h _ _ _
  · split
    · exact writeDisps_keeps h _ _ _
    · exact writeDisps_keeps h _ _ _
    · exact writeDisps_keeps h _ _ _
    · exact enter_keeps h hchoose _
    · split
      · split
        · exact enter_keeps (writeDisps_keeps h _ _ _) hchoose _
        · exact offerWait_keeps h z hw c
      · exact offerWait_keeps h z hw c
    · split
      · split
        · exact putCutting_keeps h z hw
        · exact offerWait_keeps h z hw c
      · exact offerWait_keeps h z hw c
    · split
      · split
        · exact displaceNext_keeps h z hw _ c
        · exact offerWait_keeps h z hw c
      · exact offerWait_keeps h z hw c

theorem offerEntry_keeps (h : Keeps I s t) (id : ClaimId) : Keeps I s (t.offerEntry id) := by
  unfold State.offerEntry
  split
  · exact h
  · refine foldl_keeps h (fun u z hu => ?_) _
    split
    · exact offerUnit_keeps hu _ z
    · exact hu

theorem nextLeft_keeps (h : Keeps I s t) (z : ZoneId) {a : Arb} (ha : TablesInOrder s → a.wait.length ≤ 4) : Keeps I s (t.nextLeft z a) := by
  have hback : Keeps I s (t.putArb (t.unit z) { a with state := .playing, next := none, stopAt := none, phraseEnd := a.wdPending }) := by
    refine putArb_keeps h (fun hs => ?_) _
    exact ha hs
  unfold State.nextLeft
  dsimp only
  split
  · rename_i w rest c hwait hcur
    split
    · refine putCutting_keeps h z fun hs => ?_
      have := ha hs
      rw [hwait, List.length_cons] at this
      exact (Nat.le_succ _).trans this
    · exact hback
  · exact hback

theorem filter_wait {l : List Held} (p : Held → Bool) (h : l.length ≤ 4) : (l.filter p).length ≤ 4 := (List.length_filter_le p l).trans h

theorem withdrawUnit_keeps (h : Keeps I s t) (id : ClaimId) (c : Bool) (z : ZoneId) : Keeps I s (t.withdrawUnit id c z) := by
  have hw := h.waits z
  unfold State.withdrawUnit
  dsimp only
  split
  · exact writeDisps_keeps (putArb_keeps h (fun hs => filter_wait _ (hw hs)) _) _ _ _
  · split
    · exact nextLeft_keeps (writeDisps_keeps h _ _ _) z hw
    · split
      · split
        · split
          · exact stopUnit_keeps h z _
          · refine putArb_keeps h (fun hs => ?_) _
            exact hw hs
        · exact chooseNext_keeps (writeDisps_keeps h _ _ _) hw _
      · exact h

theorem withdrawZones_keeps (h : Keeps I s t) (id : ClaimId) (c : Bool) : Keeps I s (t.withdrawZones id c) := by
  refine foldl_keeps h (fun u z hu => ?_) _
  split
  · exact withdrawUnit_keeps hu id c z
  · exact hu

theorem evictUnit_keeps (h : Keeps I s t) (id : ClaimId) (z : ZoneId) : Keeps I s (t.evictUnit id z) := by
  have hw := h.waits z
  unfold State.evictUnit
  dsimp only
  split
  · exact putArb_keeps h (fun hs => filter_wait _ (hw hs)) _
  · split
    · exact nextLeft_keeps h z hw
    · split
      · split
        · exact stopUnit_keeps h z _
        · exact chooseNext_keeps h hw _
      · exact h

theorem evictZones_keeps (h : Keeps I s t) (id : ClaimId) : Keeps I s (t.evictZones id) := foldl_keeps h (fun _ z hu => evictUnit_keeps hu id z) _

theorem missWaiter_keeps (h : Keeps I s t) (z : ZoneId) (id : ClaimId) : Keeps I s (t.missWaiter z id) :=
  writeDisps_keeps (putArb_keeps h (fun hs => filter_wait _ (h.waits z hs)) _) _ _ _

/-! ### Pairs, faults and service -/

/-- With pairs present on both sides or on neither, a zone paired on the way has a paired partner (R124). -/
theorem Keeps.partner_paired (h : Keeps I s t) (hs : PairsMatch s) {z : ZoneId} (hz : (t.za.get z).pair ≠ none) : (t.za.get z.partner).pair ≠ none :=
  fun hp => hz ((h.pairs hs z).mpr ((hs z).mpr ((h.pairs hs z.partner).mp hp)))

/-- A present pair takes another state on both its members. -/
theorem setPair_keeps (h : Keeps I s t) {z : ZoneId} (hz : (t.za.get z).pair ≠ none) {f : Zone → Zone} (p : PairState)
    (hf : ∀ r, f r = { r with pair := some p, reformDue := (f r).reformDue }) : Keeps I s ((t.modZone z f).modZone z.partner f) := by
  have h1 : Keeps I s (t.modZone z f) := modZone_keeps h z (fun hs => by rw [hf]; exact h.zones hs z) (by rw [hf]) fun _ => by rw [hf]; simp [hz]
  refine modZone_keeps h1 _ (fun hs => by rw [hf]; exact h1.zones hs _) (by rw [hf]) fun hs => ?_
  have hp : ((t.modZone z f).za.get z.partner).pair ≠ none := h1.partner_paired hs (by
    rw [State.modZone, State.setZa_za, Quad.get_set_self, hf]
    simp)
  rw [hf]
  simp [hp]

theorem breakPair_keeps (h : Keeps I s t) (z : ZoneId) : Keeps I s (t.breakPair z) := by
  unfold State.breakPair
  split
  · rename_i hw
    have hpair : (t.za.get z).pair = some .whole := by simpa [State.whole] using hw
    exact setPair_keeps h (by simp [hpair]) .broken fun _ => rfl
  · exact h

theorem makeWhole_keeps (h : Keeps I s t) {z : ZoneId} (hz : (t.za.get z).pair ≠ none) : Keeps I s (t.makeWhole z) :=
  setPair_keeps h hz .whole fun _ => rfl

theorem clearZone_keeps (h : Keeps I s t) (z : ZoneId) (st : ZoneState) : Keeps I s (t.clearZone z st) := by
  have h1 := foldl_keeps (breakPair_keeps h z) (fun u (c : Held) hu => writeDisp_keeps hu c.id z .fault) ((t.breakPair z).za.get z).arb.held
  have h2 : Keeps I s _ := putZoneArb_keeps (channels_keeps h1 (detachZone_frame _ z)) (a := Arb.bare st) (fun _ => Nat.zero_le _) z
  have h3 := modZone_marks_keeps h2 z (f := fun r => { r with reformDue := false }) fun _ => rfl
  exact modZone_marks_keeps h3 z.partner (f := fun r => { r with reformDue := false }) fun _ => rfl

theorem putZoneArb_pair (t : State) (a : Arb) (z : ZoneId) : ((t.putZoneArb a z).za.get z).pair = (t.za.get z).pair := by
  rw [putZoneArb_za, Quad.get_set_self]

theorem returnZone_keeps (h : Keeps I s t) (z : ZoneId) : Keeps I s (t.returnZone z) := by
  have hput : ∀ st, Keeps I s (t.putZoneArb (Arb.bare st) z) := fun st => putZoneArb_keeps h (fun _ => Nat.zero_le _) z
  unfold State.returnZone
  split
  · exact hput _
  · rename_i p hp
    split
    · exact makeWhole_keeps (hput _) (by rw [putZoneArb_pair, hp]; simp)
    all_goals exact hput _

theorem joinZone_frame (t : State) (z y : ZoneId) : t.joinZone z y = { t with rch := (t.joinZone z y).rch } := by
  unfold State.joinZone
  repeat' split
  all_goals rfl

theorem reform_keeps (h : Keeps I s t) {z : ZoneId} (hr : t.reforms z = true) : Keeps I s (t.reform z) := by
  have hpair : (t.za.get z).pair ≠ none := by
    simp only [State.reforms, Bool.and_eq_true, beq_iff_eq] at hr
    simp [hr.1.2]
  have h1 : Keeps I s ((t.putZoneArb (t.za.get z.partner).arb z).makeWhole z) :=
    makeWhole_keeps (putZoneArb_keeps h (h.waits z.partner) z) (by rwa [putZoneArb_pair])
  unfold State.reform
  dsimp only
  split
  · exact applyLevel_keeps (channels_keeps h1 (by rw [joinZone_frame])) z
  · exact h1

theorem applyStaged_keeps (h : Keeps I s t) (z : ZoneId) : Keeps I s (t.applyStaged z) := by
  unfold State.applyStaged
  split
  · rename_i a ha
    split
    · exact modZone_keeps h z (fun hs => ⟨h.waits z hs, (h.zones hs z).2.2 a ha, by simp⟩) rfl fun _ => Iff.rfl
    · exact h
  · exact h

end

end Sys2Proof.Machine
end

