-- ==== Sys2Proof/Proofs/KeepingCalls.lean ====
section
/-!
SUPPORT. What the operations on calls, platforms, originations and frames keep, in the same form.
-/

namespace Sys2Proof.Machine

open Sys2Proof

section

variable {I : List ClaimId → Prop} {s t : State}

/-! ### When a node is no silent listener -/

theorem Keeps.loud_of_call (h : Keeps I s t) {key : Nat} {c : Call} (hc : t.findCall key = some c) : ¬ SilentListener s := fun hs => by
  have hmem := findCall_mem hc
  rw [h.noCalls hs] at hmem
  cases hmem

theorem Keeps.loud_of_nodeNo (h : Keeps I s t) {n : Nat} (hn : t.nodeNo = some n) : ¬ SilentListener s := fun hs =>
  absurd (hn.symm.trans (h.silent hs).unnumbered) (by simp)

theorem Keeps.loud_of_mode (h : Keeps I s t) (hm : t.sul.mode ≠ .listenOnly) : ¬ SilentListener s := fun hs => hm (h.silent hs).mode

theorem Keeps.loud_of_running (h : Keeps I s t) (hr : t.isRunning = true) : ¬ SilentListener s :=
  h.loud_of_mode (by simp only [State.isRunning, beq_iff_eq] at hr; simp [hr])

/-! ### Calls and platforms -/

theorem modCall_keeps (h : Keeps I s t) (key : Nat) {f : Call → Call} (hf : ∀ c, (f c).key = c.key) : Keeps I s (t.modCall key f) := by
  have hkeys := keys_modCall t key f hf
  have hlen : (t.modCall key f).ct.length = t.ct.length := by simpa using congrArg List.length hkeys
  have ha : KeysAscend t → KeysAscend (t.modCall key f) := fun ha => ha.of_keys hkeys
  refine { h with calls := fun hs => ⟨hlen.trans_le (h.calls hs).1, ha (h.calls hs).2⟩, noCalls := fun hs => ?_ }
  exact List.length_eq_zero_iff.mp (by rw [hlen, h.noCalls hs]; rfl)

theorem setPm_keeps (h : Keeps I s t) {v : Duo Plat} (hv : ∀ p, (v.get p).stationNo = (t.pm.get p).stationNo) : Keeps I s (t.setPm v) :=
  { h with stations := fun p => (hv p).trans (h.stations p) }

theorem modPlat_keeps (h : Keeps I s t) (p : PlatId) {f : Plat → Plat} (hf : ∀ r, (f r).stationNo = r.stationNo) : Keeps I s (t.modPlat p f) := by
  refine setPm_keeps h fun q => ?_
  by_cases hq : q = p
  · rw [hq, Duo.get_set_self, hf]
  · rw [Duo.get_set_ne _ _ hq]

theorem mapPm_keeps (h : Keeps I s t) {f : Plat → Plat} (hf : ∀ r, (f r).stationNo = r.stationNo) : Keeps I s (t.setPm (t.pm.map f)) :=
  setPm_keeps h fun p => by rw [Duo.get_map, hf]

/-! ### The origination queue -/

theorem OrigQueue.sublist {now : Nat} {q r : List Orig} (h : OrigQueue now q) (hr : r.Sublist q) : OrigQueue now r := by
  obtain ⟨hl, ho, hp⟩ := h
  exact ⟨hr.length_le.trans hl, ho.sublist hr, fun o ho => hp o (hr.subset ho)⟩

theorem setQueue_keeps (h : Keeps I s t) {q : List Orig} (hq : q.Sublist t.cmp.queue) : Keeps I s (t.setQueue q) :=
  { h with origs := fun hs => (h.origs hs).sublist hq, noOrigs := fun hs => List.sublist_nil.mp (h.noOrigs hs ▸ hq) }

theorem removeOrigs_keeps (h : Keeps I s t) (p : Orig → Bool) : Keeps I s (t.removeOrigs p) := setQueue_keeps h List.filter_sublist

/-- The work of steps keeps what is kept, but that it may hand an origination over. -/
theorem StepWork.keeps {u : State} (w : StepWork t u) (h : Keeps I s t) (hq : SilentListener s → u.cmp.queue = []) : Keeps I s u := by
  have hkeys : KeysAscend t → KeysAscend u := fun hk => hk.of_keys w.keys
  have hlen : u.ct.length = t.ct.length := by simpa using congrArg List.length w.keys
  have hu := w.frame
  have horigs : TablesInOrder s → OrigQueue t.sck.running u.cmp.queue := fun hs => by
    obtain ⟨hl, ho, hp⟩ := h.origs hs
    obtain ⟨hl', hin⟩ := w.origs hl ⟨ho, hp⟩
    have hpast := hin.past
    unfold State.now at hpast
    rw [w.sck] at hpast
    exact ⟨hl', hin.order, hpast⟩
  have hct : SilentListener s → u.ct = [] := fun hs => List.length_eq_zero_iff.mp (by rw [hlen, h.noCalls hs]; rfl)
  have hcmp := w.cmp
  have hst : ∀ p, (u.pm.get p).stationNo = (s.pm.get p).stationNo := fun p => by rw [w.plats p]; exact h.stations p
  have htem : u.cmp.templates = s.cmp.templates := by rw [hcmp]; exact h.templates
  have hbas : u.cmp.bases = s.cmp.bases := by rw [hcmp]; exact h.bases
  rw [hu]
  exact { h with
    calls := fun hs => ⟨hlen.trans_le (h.calls hs).1, hkeys (h.calls hs).2⟩, noCalls := hct, origs := horigs, noOrigs := hq,
    templates := htem, bases := hbas, stations := hst }

theorem pushOrig_keeps (h : Keeps I s t) (hl : ¬ SilentListener s) {o : Orig} (ho : o.queuedAt = t.now) : Keeps I s (t.pushOrig o) :=
  (pushOrig_work t o ho).keeps h fun hs => absurd hs hl

theorem modStep_keeps (h : Keeps I s t) (key i : Nat) (f : Step → Step) : Keeps I s (t.modStep key i f) := modCall_keeps h key fun _ => rfl

theorem modTimer_keeps (h : Keeps I s t) (key i : Nat) (f : StepTimer → StepTimer) : Keeps I s (t.modTimer key i f) := modStep_keeps h key i _

/-- A silent listener has no call, so no step does anything. -/
theorem eachStep_keeps (h : Keeps I s t) {f : State → Nat → Nat → State} (hf : ∀ u k i, StepWork u (f u k i)) {rs : List (Nat × Nat)}
    (hrs : t.ct = [] → rs = []) : Keeps I s (t.eachStep rs f) := by
  refine (eachStep_work hf rs t).keeps h fun hs => ?_
  rw [hrs (h.noCalls hs)]
  exact h.noOrigs hs

theorem stepRefsOf_nil {u : State} (h : u.ct = []) (key : Nat) : u.stepRefsOf key = [] := by simp [stepRefsOf_eq, h]

/-! ### Calls leave service, platforms bind and complete -/

theorem release_station (key : Nat) (r : Plat) : (r.release key).stationNo = r.stationNo := by
  rw [Plat.release_eq]
  split <;> rfl

theorem leaveService_keeps (h : Keeps I s t) (key : Nat) (st : CallState) : Keeps I s (t.leaveService key st) :=
  mapPm_keeps (markNoRetry_keeps (removeOrigs_keeps (modCall_keeps h key (f := Call.outOfService st) fun _ => rfl) _) key) (release_station key)

theorem expiryTest_keeps (h : Keeps I s t) (key : Nat) : Keeps I s (t.expiryTest key) := by
  unfold State.expiryTest
  split
  · split
    · exact leaveService_keeps h key _
    · exact h
  · exact h

theorem expiryTests_keeps (h : Keeps I s t) : Keeps I s t.expiryTests := foldl_keeps h (fun _ k hu => expiryTest_keeps hu k) _

theorem bindCall_keeps (h : Keeps I s t) (p : PlatId) (key : Nat) : Keeps I s (t.bindCall p key) :=
  eachStep_keeps (modCall_keeps (modPlat_keeps h p (f := fun r => { r with bound := some key }) fun _ => rfl) key
    (f := fun c => { c with state := .bound }) fun _ => rfl) bindStep_work fun hn => stepRefsOf_nil hn key

theorem acceptRise_keeps (h : Keeps I s t) (p : PlatId) : Keeps I s (t.acceptRise p) := by
  have h1 : Keeps I s (t.modPlat p (fun r => { r with state := if r.doors then .dispatch else .occupied, bound := none })) :=
    modPlat_keeps h p fun _ => rfl
  unfold State.acceptRise
  dsimp only
  split
  · split
    · exact bindCall_keeps h1 p _
    · exact h1
  · exact h

theorem acceptFall_keeps (h : Keeps I s t) (p : PlatId) : Keeps I s (t.acceptFall p) := by
  have h1 : Keeps I s (t.modPlat p (fun r => { r with state := .empty, bound := none, hold := none })) := modPlat_keeps h p fun _ => rfl
  unfold State.acceptFall
  dsimp only
  split
  · exact h
  · split
    · exact h1
    · split
      · exact leaveService_keeps h1 _ _
      · exact h1

theorem acceptOcc_keeps (h : Keeps I s t) (p : PlatId) : Keeps I s (t.acceptOcc p) := by
  have h1 : Keeps I s (t.modPlat p (fun r => { r with accOcc := (t.pm.get p).occ, wait := none })) := modPlat_keeps h p fun _ => rfl
  unfold State.acceptOcc
  dsimp only
  split
  · exact acceptRise_keeps h1 p
  · exact acceptFall_keeps h1 p

theorem occMoved_keeps (h : Keeps I s t) (p : PlatId) : Keeps I s (t.occMoved p) := by
  unfold State.occMoved
  split
  · exact modPlat_keeps h p fun _ => rfl
  · exact modPlat_keeps h p fun _ => rfl

/-! ### Handoffs, installing, swaps -/

theorem restore_station (key : Nat) (r : Plat) : (r.restore key).stationNo = r.stationNo := by
  unfold Plat.restore
  split <;> rfl

theorem unhold_station (key : Nat) (r : Plat) : (r.unhold key).stationNo = r.stationNo := by
  unfold Plat.unhold
  split <;> rfl

theorem setAside_station (key : Nat) (r : Plat) : (r.setAside key).stationNo = r.stationNo := by
  unfold Plat.setAside
  split <;> rfl

theorem revertHandoff_keeps (h : Keeps I s t) (key : Nat) : Keeps I s (t.revertHandoff key) := by
  cases hc : t.findCall key with
  | none => rwa [State.revertHandoff, hc]
  | some c =>
    by_cases hst : c.state = .handingOff
    · cases hctx : c.handoff with
      | none => simpa [State.revertHandoff, hc, hst, hctx] using h
      | some ctx =>
        have h1 : Keeps I s (t.revertedCall key ctx) := modCall_keeps (mapPm_keeps h (restore_station key)) key fun _ => rfl
        have h2 : Keeps I s (t.resumedCall key ctx) :=
          (resumedCall_work t key ctx).keeps h1 fun hs => absurd hs (h.loud_of_call hc)
        rw [revertHandoff_eq hc hst hctx]
        split
        · exact h2
        · exact expiryTest_keeps h2 key
    · have hno : t.revertHandoff key = t := by
        simp only [State.revertHandoff, hc]
        split
        · rename_i heq _
          exact absurd heq hst
        · rfl
      rwa [hno]

theorem settleHandoff_keeps (h : Keeps I s t) (key : Nat) : Keeps I s (t.settleHandoff key) :=
  modCall_keeps (markNoRetry_keeps (removeOrigs_keeps (mapPm_keeps h (unhold_station key)) _) key) key
    (f := fun c => { c with handoff := c.handoff.map (fun h => { h with phase := .settled, timer := none }) }) fun _ => rfl

theorem insertCall_keeps (h : Keeps I s t) (hl : ¬ SilentListener s) {c : Call} (hroom : t.ct.length < 64) (hnew : t.findCall c.key = none) :
    Keeps I s (t.setCt (insertCall c t.ct)) :=
  { h with
    calls := fun hs => ⟨by have := length_insertCall c t.ct; simp only [State.setCt_ct]; omega,
      pairwise_insertCall c t.ct (h.calls hs).2 (findCall_eq_none.mp hnew)⟩,
    noCalls := fun hs => absurd hs hl }

theorem install_keeps (h : Keeps I s t) (hl : ¬ SilentListener s) {c : Call} (hroom : t.ct.length < 64) (hnew : t.findCall c.key = none) :
    Keeps I s (t.install c) :=
  expiryTest_keeps (eachStep_keeps (insertCall_keeps h hl hroom hnew) startStep_work fun hn => stepRefsOf_nil hn c.key) c.key

theorem stage_keeps (h : Keeps I s t) (key : Nat) (a : Amendment) : Keeps I s (t.stage key a) := modCall_keeps h key fun _ => rfl

theorem replan_keeps (h : Keeps I s t) (key : Nat) (a : Amendment) : Keeps I s (t.replan key a) := by
  rw [replan_eq]
  rcases a.plan with _ | l | revs
  · exact eachStep_keeps h replanStep_work fun hn => stepRefsOf_nil hn key
  · have h1 : Keeps I s (t.replaced key l) := modCall_keeps (markNoRetry_keeps (removeOrigs_keeps h _) key) key fun _ => rfl
    exact eachStep_keeps h1 startStep_work fun hn => stepRefsOf_nil hn key
  · have h1 := foldl_keeps h (f := fun u (r : Nat × StepSpec) => u.modStep key r.1 (reviseStep r.2)) (fun u r hu => modStep_keeps hu key r.1 _) revs
    exact eachStep_keeps h1 replanStep_work fun hn => stepRefsOf_nil hn key

/-! ### Frames that fail, the queue, withdrawals -/

theorem fixOwn_keeps (h : Keeps I s t) (id : ClaimId) (c : ClaimFrame) (send : SendState) (localOnly : Bool) :
    Keeps I s (t.modEntry id (fun e => e.fixOwn c t.now (t.plannedMs e.phrases) send localOnly)) :=
  modEntry_keeps h id (f := fun e => e.fixOwn c t.now (t.plannedMs e.phrases) send localOnly) (fun _ => rfl) fun _ _ he => he

theorem sendFailed_keeps (h : Keeps I s t) (c : ClaimFrame) : Keeps I s (t.sendFailed c) := by
  unfold State.sendFailed
  dsimp only
  split
  · exact h
  · split
    · exact h
    · split
      · exact settle_keeps (offerEntry_keeps (fixOwn_keeps h _ _ _ _) _)
      · exact h

theorem cedeFailed_keeps (h : Keeps I s t) (id : ClaimId) (c : Bool) : Keeps I s (t.cedeFailed id c) :=
  settle_keeps (modOrigin_keeps (withdrawZones_keeps h id c) id _)

theorem handoffFailed_keeps (h : Keeps I s t) (key : Nat) : Keeps I s (t.handoffFailed key) := by
  unfold State.handoffFailed
  split
  · split
    · split
      · exact revertHandoff_keeps h key
      · exact h
    · exact h
  · exact h

theorem failFrame_keeps (h : Keeps I s t) (f : TxFrame) : Keeps I s (t.failFrame f) := by
  unfold State.failFrame
  split
  · exact sendFailed_keeps h _
  · exact cedeFailed_keeps h _ _
  · exact handoffFailed_keeps h _
  · exact h
  · exact lowFail_keeps h f
  · exact lowFail_keeps h f

theorem enqueue_keeps (h : Keeps I s t) (hl : ¬ SilentListener s) (b : TxBody) (dst : Nat) : Keeps I s (t.enqueue b dst) := by
  have h1 := offerTx_keeps h hl b dst
  unfold State.enqueue
  dsimp only
  split
  · exact h1
  · exact failFrame_keeps h1 _

theorem takeBack_keeps (h : Keeps I s t) (id : ClaimId) : Keeps I s (t.takeBack id) :=
  settle_keeps (modEntry_keeps (filterTx_keeps h _) id (f := Entry.unsent) (fun _ => rfl) fun _ _ _ => rfl)

theorem holdTakeBack_keeps (h : Keeps I s t) (id : ClaimId) (c : Bool) : Keeps I s (t.holdTakeBack id c) := by
  refine modOrigin_keeps (mapTx_keeps h (fun g => ?_) (fun g => ?_) fun g => ?_) id _
  all_goals split <;> rfl

theorem withdrawOwn_keeps (h : Keeps I s t) (hl : ¬ SilentListener s) (c : Bool) (id : ClaimId) : Keeps I s (t.withdrawOwn c id) := by
  unfold State.withdrawOwn
  split
  · exact h
  · split
    · exact h
    · split
      · exact h
      · split
        · split
          · exact enqueue_keeps (modOrigin_keeps h id _) hl _ _
          · exact h
        · split
          · exact holdTakeBack_keeps h id c
          · exact takeBack_keeps h id
        · exact settle_keeps (withdrawZones_keeps (modOrigin_keeps h id _) id c)

theorem withdrawCall_keeps (h : Keeps I s t) (hl : ¬ SilentListener s) (key : Nat) : Keeps I s (t.withdrawCall key) :=
  foldl_keeps h (fun _ id hu => withdrawOwn_keeps hu hl false id) _

theorem takeCede_keeps (h : Keeps I s t) (src : Nat) (id : ClaimId) (c : Bool) : Keeps I s (t.takeCede src id c) := by
  unfold State.takeCede
  split
  · exact settle_keeps (withdrawZones_keeps h id c)
  · exact h

theorem ownCede_keeps (h : Keeps I s t) (id : ClaimId) (c : Bool) : Keeps I s (t.ownCede id c) := takeCede_keeps (modOrigin_keeps h id _) _ id c

theorem ownClaim_keeps (h : Keeps I s t) (c : ClaimFrame) : Keeps I s (t.ownClaim c) := by
  unfold State.ownClaim
  dsimp only
  split
  · exact h
  · rename_i n hn
    have hl := h.loud_of_nodeNo hn
    split
    · exact h
    · rename_i e _
      have h1 : Keeps I s ((t.modEntry ⟨n, c.seq⟩ (fun e => e.fixOwn c t.now (t.plannedMs e.phrases) .sent false)).offerEntry ⟨n, c.seq⟩).settle :=
        settle_keeps (offerEntry_keeps (fixOwn_keeps h _ _ _ _) _)
      split
      · split
        · split
          · exact enqueue_keeps h1 hl _ _
          · exact h1
        · exact h1
      · exact h

theorem answer_keeps (h : Keeps I s t) (hl : ¬ SilentListener s) (f : RxFrame) (k key : Nat) (c : AnswerCode) : Keeps I s (t.answer f k key c) := by
  unfold State.answer
  split
  · exact h
  · exact enqueue_keeps h hl _ _

/-- A call frame acts in RUNNING alone, and is answered there and in STORE_FAULT. -/
theorem callFrame_keeps (h : Keeps I s t) (k : Nat) (f : RxFrame) {act : State → State}
    (hact : ∀ u, Keeps I s u → ¬ SilentListener s → Keeps I s (act u)) : Keeps I s (t.callFrame k f act) := by
  have h1 := frameEnd_keeps h
  unfold State.callFrame
  dsimp only
  split
  · exact h1
  · split
    · rename_i hm
      exact hact _ h1 (h1.loud_of_mode (by simp [hm]))
    · rename_i hm
      split
      · exact answer_keeps h1 (h1.loud_of_mode (by simp [hm])) f _ _ _
      · exact h1
    · exact h1

end

end Sys2Proof.Machine
end

