-- ==== Sys2Proof/Proofs/KeepingTables.lean ====
section
/-!
SUPPORT. What is kept as entries come and go and time goes on, and the tables at the end of loading.
-/

namespace Sys2Proof.Machine

open Sys2Proof

section

variable {I : List ClaimId → Prop} {s t : State}

/-! ### Entries come and go (R88, R96, R97) -/

theorem Keeps.anyIds (h : Keeps I s t) : Keeps AnyIds s t := { h with ids := trivial }

theorem start_keeps (s : State) : Keeps AnyIds s s := .refl trivial

/-- Up to the entry's own removal an eviction leaves the claim table's ids as they are. -/
theorem evict_keeps (h : Keeps AnyIds s t) (id : ClaimId) :
    Keeps AnyIds s (t.evict id) ∧ (t.evict id).clt.map (·.id) = (t.clt.map (·.id)).filter (· != id) := by
  have h0 : Keeps (· = t.clt.map (·.id)) s t := { h with ids := rfl }
  have h1 : Keeps (· = t.clt.map (·.id)) s ((t.evictZones id).modEntry id (fun e =>
      { e with disp := e.disp.map (fun d => if d = .pending then .evicted else d) })).settle :=
    settle_keeps (modEntry_keeps (evictZones_keeps h0 id) id (fun _ => rfl) fun _ _ he => he)
  refine ⟨filterClt_keeps h1.anyIds _, ?_⟩
  rw [← h1.ids]
  exact (List.filter_map (f := fun e : Entry => e.id) (p := fun i => i != id)).symm

theorem appendClt_keeps (h : Keeps AnyIds s t) {e : Entry} (hroom : TablesInOrder s → t.clt.length < 16) (hnew : TablesInOrder s → ∀ d ∈ t.clt, d.id ≠ e.id)
    (hz : SilentListener s → e.zstat = .notNeeded) : Keeps AnyIds s (t.setClt (t.clt ++ [e])) := by
  refine setClt_keeps h (fun hs => ⟨?_, ?_⟩) fun hs d hd => ?_
  · have := hroom hs
    rw [List.length_append, List.length_singleton]
    omega
  · refine List.pairwise_append.mpr ⟨(h.entries hs).2, List.pairwise_singleton _ _, fun d hd b hb => ?_⟩
    rw [List.mem_singleton.mp hb]
    exact hnew hs d hd
  · rcases List.mem_append.mp hd with hd | hd
    · exact h.noZstats hs d hd
    · rw [List.mem_singleton.mp hd]
      exact hz hs

theorem enterClaim_keeps (h : Keeps AnyIds s t) {src : Nat} {c : ClaimFrame} (hroom : TablesInOrder s → t.clt.length < 16)
    (hnew : ∀ d ∈ t.clt, d.id ≠ ⟨src, c.seq⟩) : Keeps AnyIds s (t.enterClaim src c) := by
  refine settle_keeps (offerEntry_keeps (appendClt_keeps h hroom (fun _ => hnew) fun hs => ?_) _)
  have hm : t.sul.mode = .listenOnly := (h.silent hs).mode
  simp [State.receivedEntry, Entry.anchor, hm]

theorem evictee_mem {cls : AnnClass} {e : Entry} (h : t.evictee cls = some e) : e ∈ t.clt := by
  have hfold : ∀ (l : List Entry) (a : Entry), l.foldl worseEntry a ∈ a :: l := by
    intro l
    induction l with
    | nil => simp
    | cons b l ih =>
      intro a
      have hab : worseEntry a b = a ∨ worseEntry a b = b := by unfold worseEntry; split <;> simp
      rcases List.mem_cons.mp (ih (worseEntry a b)) with hm | hm
      · rw [List.foldl_cons, hm]
        rcases hab with he | he <;> simp [he]
      · exact List.mem_cons_of_mem _ (List.mem_cons_of_mem _ hm)
  unfold State.evictee at h
  split at h
  · cases h
  · rename_i a l hl
    cases h
    exact List.mem_of_mem_filter (hl ▸ hfold l a)

theorem peerClaim_keeps (h : Keeps AnyIds s t) (src : Nat) (c : ClaimFrame) : Keeps AnyIds s (t.peerClaim src c) := by
  unfold State.peerClaim
  split
  · exact h
  · split
    · exact h
    · split
      · exact h
      · rename_i hfree
        have hnew : ∀ d ∈ t.clt, d.id ≠ ⟨src, c.seq⟩ := by simpa [State.findEntry] using hfree
        split
        · exact enterClaim_keeps h (fun _ => by assumption) hnew
        · split
          · rename_i e he
            obtain ⟨h1, hids⟩ := evict_keeps h e.id
            refine enterClaim_keeps h1 (fun hs => ?_) fun d hd => ?_
            · have hlt : ((t.clt.map (·.id)).filter (· != e.id)).length < (t.clt.map (·.id)).length :=
                List.length_filter_lt_length_iff_exists.mpr ⟨e.id, List.mem_map_of_mem (evictee_mem he), by simp⟩
              have hle := (h.entries hs).1
              rw [← hids, List.length_map, List.length_map] at hlt
              omega
            · have hm : d.id ∈ (t.evict e.id).clt.map (·.id) := List.mem_map_of_mem hd
              rw [hids] at hm
              obtain ⟨x, hx, hxd⟩ := List.mem_map.mp (List.mem_of_mem_filter hm)
              rw [← hxd]
              exact hnew x hx
          · exact h

/-- The sequence number of the CLAIM that a queued frame carries. -/
def TxFrame.claimSeq (f : TxFrame) : Option Nat :=
  match f.body with
  | .claim c => some c.seq
  | _ => none

theorem isClaim_iff (f : TxFrame) (n : Nat) : f.isClaim n = true ↔ f.claimSeq = some n := by
  unfold TxFrame.isClaim TxFrame.claimSeq
  cases f.body <;> simp

/-- With fewer than 16 entries and 8 frames one of the 256 sequence numbers is free, and a composed claim takes a free one (R88). -/
theorem nextSeq_free (hc : t.clt.length < 16) (hq : t.lc.tx.length < 8) (own : Nat) : t.findEntry ⟨own, t.nextSeq own⟩ = none := by
  have hnodup : ((List.range 256).map (fun k => (t.cmp.seq + k) % 256)).Nodup := by
    refine List.Nodup.map_on (fun i hi j hj hij => ?_) List.nodup_range
    have := List.mem_range.mp hi
    have := List.mem_range.mp hj
    omega
  unfold State.nextSeq
  cases hf : ((List.range 256).map (fun k => (t.cmp.seq + k) % 256)).find? (t.seqFree own) with
  | some n =>
    have hfree := List.find?_some hf
    simp only [State.seqFree, Bool.and_eq_true, Option.isNone_iff_eq_none] at hfree
    exact hfree.1
  | none =>
    have hused : ((List.range 256).map (fun k => (t.cmp.seq + k) % 256)) ⊆ t.clt.map (·.id.seq) ++ t.lc.tx.filterMap TxFrame.claimSeq := by
      intro n hn
      have hno := List.find?_eq_none.mp hf n hn
      rw [List.mem_append]
      by_cases he : (t.findEntry ⟨own, n⟩).isNone = true
      · right
        have hany : t.lc.tx.any (fun f => f.isClaim n) = true := by simpa [State.seqFree, he] using hno
        obtain ⟨f, hfm, hfc⟩ := List.any_eq_true.mp hany
        exact List.mem_filterMap.mpr ⟨f, hfm, (isClaim_iff f n).mp hfc⟩
      · left
        obtain ⟨e, he⟩ := Option.ne_none_iff_exists'.mp (mt Option.isNone_iff_eq_none.mpr he)
        have hid : e.id = ⟨own, n⟩ := by simpa using List.find?_some he
        exact List.mem_map.mpr ⟨e, List.mem_of_find?_eq_some he, by rw [hid]⟩
    have hle := (hnodup.subperm hused).length_le
    have := List.length_filterMap_le TxFrame.claimSeq t.lc.tx
    simp only [List.length_map, List.length_range, List.length_append] at hle
    omega

theorem writeBack_keeps (h : Keeps I s t) (src : OrigSource) (id : ClaimId) : Keeps I s (t.writeBack src id) := by
  unfold State.writeBack
  split
  · exact modTimer_keeps h _ _ _
  · exact modPlat_keeps h _ fun _ => rfl
  · exact setEvac_keeps h _
  · exact h

theorem composeOrig_keeps (h : Keeps AnyIds s t) (hl : ¬ SilentListener s) (hc : t.clt.length < 16) (hq : t.lc.tx.length < 8) (own : Nat) (o : Orig) :
    Keeps AnyIds s (t.composeOrig own o) := by
  have hfree := nextSeq_free hc hq own
  unfold State.composeOrig
  dsimp only
  split
  · exact h
  · have h1 : Keeps AnyIds s (t.setCmp { t.cmp with seq := (t.nextSeq own + 1) % 256 }) := { h with }
    refine writeBack_keeps (enqueue_keeps (appendClt_keeps h1 (fun _ => hc) (fun _ d hd hid => ?_) fun hs => absurd hs hl) hl _ _) _ _
    have hno := List.find?_eq_none.mp hfree d hd
    exact hno (beq_iff_eq.mpr hid)

/-! ### The clocks (R6, R7, R8) -/

theorem FrameQueue.later {now m : Nat} {q : List TxFrame} (h : FrameQueue now q) (hm : now ≤ m) : FrameQueue m q :=
  ⟨h.1, h.2.1, h.2.2.1, fun f hf => (h.2.2.2 f hf).trans hm⟩

theorem OrigQueue.later {now m : Nat} {q : List Orig} (h : OrigQueue now q) (hm : now ≤ m) : OrigQueue m q :=
  ⟨h.1, h.2.1, fun o ho => (h.2.2 o ho).trans hm⟩

theorem setSck_keeps (h : Keeps I s t) {k : Sck} (hr : t.sck.running ≤ k.running)
    (hk : TablesInOrder s → k.time ≤ 107999 ∧ (k.isSet = false → k.time = 0) ∧ k.running ≤ 1099511627775) : Keeps I s (t.setSck k) :=
  { h with frames := fun hs => (h.frames hs).later hr, origs := fun hs => (h.origs hs).later hr, clock := hk }

theorem second_keeps (h : Keeps I s t) : Keeps I s t.second := by
  have h1 : Keeps I s (t.setSck t.sck.tick) := by
    refine setSck_keeps h le_rfl fun hs => ?_
    obtain ⟨ht, hu, hr⟩ := h.clock hs
    refine ⟨?_, fun hset => ?_, hr⟩
    · simp only [Sck.tick, Config.maxServiceTime]
      split <;> omega
    · have hset' : t.sck.isSet = false := hset
      simp [Sck.tick, hset', hu hset']
  have h2 := eachStep_keeps h1 (tickStep_work t.sck.advances) (rs := (t.setSck t.sck.tick).stepRefs) stepRefs_nil
  unfold State.second
  dsimp only
  split
  · exact expiryTests_keeps h2
  · exact h2

theorem clockValue_le {b : List Byte} {v : Nat} (h : clockValue b = some v) : v ≤ 107999 := by
  unfold clockValue at h
  split at h
  · split at h
    · cases h
      assumption
    · cases h
  · cases h
    exact Nat.zero_le _
  · cases h

theorem setClock_keeps (h : Keeps I s t) {v : Nat} (hv : v ≤ 107999) : Keeps I s (t.setClock v) := by
  have h1 : Keeps I s (t.setSck { t.sck with time := v, isSet := true, secMs := 0 }) :=
    setSck_keeps h le_rfl fun hs => ⟨hv, by simp, (h.clock hs).2.2⟩
  unfold State.setClock
  dsimp only
  refine expiryTests_keeps ?_
  split
  · exact eachStep_keeps h1 forwardStep_work stepRefs_nil
  · split
    · exact eachStep_keeps h1 backwardStep_work stepRefs_nil
    · exact h1

theorem millisecond_keeps (h : Keeps I s t) (hr : t.sck.running < 1099511627775) : Keeps I s t.millisecond := by
  have h1 : Keeps I s (t.setSck t.sck.millisecond) :=
    setSck_keeps h (Nat.le_succ _) fun hs => ⟨(h.clock hs).1, (h.clock hs).2.1, hr⟩
  have h2 := mapPm_keeps (setEvac_keeps h1 { t.evac with timer := countMs t.evac.timer }) (f := fun p => { p with wait := countMs p.wait }) fun _ => rfl
  exact { h2 with
    calls := fun hs => ⟨(List.length_map _).trans_le (h.calls hs).1, List.pairwise_map.mpr (h.calls hs).2⟩
    noCalls := fun hs => List.map_eq_nil_iff.mpr (h.noCalls hs) }

/-! ### The end of loading (R40, R109, R181, R182) -/

/-- The tables stay in order where the call table, the claim table, the queues and the clock stand and the rest takes values in range. -/
theorem TablesInOrder.of_load (h : TablesInOrder s) (hct : t.ct = s.ct) (hclt : t.clt = s.clt) (htx : t.lc.tx = s.lc.tx) (hsck : t.sck = s.sck)
    (hq : t.cmp.queue.Sublist s.cmp.queue) (hza : ∀ z, (t.za.get z).Fits)
    (hlu : ∀ z, (t.lu.zones.get z).Fits ∧ (t.lu.zones.get z).initK ≤ 31) (he : t.lu.eFloor ≤ 120) (hdir : DirectoryInRange t) :
    TablesInOrder t where
  places := ⟨by rw [hct]; exact h.places.calls, by rw [hclt]; exact h.places.entries, by rw [htx]; exact h.places.frames,
    hq.length_le.trans h.places.originations, fun z => (hza z).1⟩
  keys := by unfold KeysAscend; rw [hct]; exact h.keys
  ids := by unfold IdsDistinct; rw [hclt]; exact h.ids
  frames := ⟨by rw [htx]; exact h.frames.order, by rw [htx]; exact h.frames.tiers, by rw [htx, State.now, hsck]; exact h.frames.past⟩
  origs := ⟨h.origs.order.sublist hq, fun o ho => by rw [State.now, hsck]; exact h.origs.past o (hq.subset ho)⟩
  clock := ⟨by rw [hsck]; exact h.clock.time, by rw [hsck]; exact h.clock.unset, by rw [hsck]; exact h.clock.running⟩
  levels := ⟨fun z => ⟨(hlu z).1.1, (hlu z).2, (hlu z).1.2.1, (hlu z).1.2.2.1, (hlu z).1.2.2.2, (hza z).2.1, (hza z).2.2⟩, he⟩
  directory := hdir

theorem TablesInOrder.zoneFits (h : TablesInOrder s) (z : ZoneId) : (s.za.get z).Fits := ((start_keeps s).zones h) z

theorem TablesInOrder.luFits (h : TablesInOrder s) (z : ZoneId) : (s.lu.zones.get z).Fits ∧ (s.lu.zones.get z).initK ≤ 31 :=
  ⟨((start_keeps s).levels h) z, (h.levels.zones z).initK⟩

theorem setSul_tables (h : TablesInOrder s) (v : Sul) : TablesInOrder (s.setSul v) :=
  h.of_load rfl rfl rfl rfl (List.Sublist.refl _) h.zoneFits h.luFits h.levels.floor h.directory

theorem parts_map_mem {w n : Nat} {b : List Byte} {e : DirEntry} (h : some e ∈ (parts w n b).map loadDirEntry) : 1 ≤ e.len ∧ e.len ≤ 160000 := by
  obtain ⟨l, -, hl⟩ := List.mem_map.mp h
  unfold loadDirEntry at hl
  dsimp only at hl
  split at hl
  · cases hl
  · cases hl
    dsimp only
    omega

theorem loadCfg_directory (image sec : List Byte) {e : DirEntry} (h : some e ∈ (loadCfg image sec).directory) : 1 ≤ e.len ∧ e.len ≤ 160000 := by
  unfold loadCfg at h
  exact parts_map_mem h

theorem loadZone_fits (b : List Byte) (z : ZoneId) (paired amp ampPartner : Bool) : (loadZone b z paired amp ampPartner).Fits :=
  ⟨Nat.zero_le _, Nat.min_le_left _ _, by simp [loadZone]⟩

theorem loadLuZone_fits (b : List Byte) : (loadLuZone b).Fits ∧ (loadLuZone b).initK ≤ 31 := by
  simp only [LuZone.Fits, loadLuZone, LuZone.init]
  omega

/-- The blocks take the values of an image that lie in range. -/
theorem setLoaded_tables (h : TablesInOrder s) {cfg : Cfg} {lu : Lu} {cmp : Cmp} {za : Quad Zone} {pm : Duo Plat} (hq : cmp.queue = [])
    (hza : ∀ z, (za.get z).Fits) (hlu : ∀ z, (lu.zones.get z).Fits ∧ (lu.zones.get z).initK ≤ 31) (he : lu.eFloor ≤ 120)
    (hdir : ∀ e, some e ∈ cfg.directory → 1 ≤ e.len ∧ e.len ≤ 160000) :
    TablesInOrder (((((s.setCfg cfg).setLu lu).setCmp cmp).setZa za).setPm pm) :=
  h.of_load rfl rfl rfl rfl (by simp [hq]) hza hlu he hdir

theorem loadZones_fits (s : State) (sec : List Byte) (z : ZoneId) : ((s.loadZones sec).get z).Fits := by
  rw [State.loadZones, Quad.get_tabulate]
  exact loadZone_fits _ _ _ _ _

theorem loadLu_fits (sec : List Byte) (z : ZoneId) : ((loadLu sec).zones.get z).Fits ∧ ((loadLu sec).zones.get z).initK ≤ 31 := by
  have hz : (loadLu sec).zones.get z = loadLuZone (zoneBytes sec z) := Quad.get_tabulate _ _
  rw [hz]
  exact loadLuZone_fits _

theorem loadLu_floor (sec : List Byte) : (loadLu sec).eFloor ≤ 120 := by
  simp only [loadLu]
  omega

theorem loadImage_tables (h : TablesInOrder s) (image : List Byte) : TablesInOrder (s.loadImage image) := by
  unfold State.loadImage
  exact setLoaded_tables h rfl (loadZones_fits _ _) (loadLu_fits _) (loadLu_floor _) fun _ => loadCfg_directory _ _

theorem faultValues_tables (h : TablesInOrder s) : TablesInOrder s.faultValues := by
  refine h.of_load rfl rfl rfl rfl (List.Sublist.refl _) (fun z => ?_) h.luFits h.levels.floor (by simp [DirectoryInRange, State.faultValues, Cfg.init])
  simp only [State.faultValues, State.setZa_za, Quad.get_map]
  exact ⟨Nat.zero_le _, Nat.zero_le _, by simp [Zone.init]⟩

theorem fireEvac_keeps (h : Keeps I s t) (hl : ¬ SilentListener s) : Keeps I s t.fireEvac := by
  have h1 := setEvac_keeps h { t.evac with timer := some (1000 * t.cfg.evacPeriod) }
  unfold State.fireEvac
  dsimp only
  split
  · exact h1
  · exact pushOrig_keeps h1 hl rfl

theorem enterRunning_keeps (h : Keeps I s t) (hl : ¬ SilentListener s) : Keeps I s t.enterRunning := by
  have h1 := setEvac_keeps h { t.evac with level := t.pins.evac }
  unfold State.enterRunning
  dsimp only
  split
  · exact fireEvac_keeps h1 hl
  · exact h1

theorem startPm_keeps (h : Keeps I s t) : Keeps I s t.startPm := occMoved_keeps (occMoved_keeps h .p0) .p1

/-- The node at the end of loading, its mode entered and every block's values taken. -/
def State.loadEnded (s : State) (o : LoadOutcome) : State :=
  let u := s.setSul { s.sul with mode := s.modeFor o, phase := .over, outcome := some o, image := [] }
  if o = .good then u.loadImage s.sul.image else u.faultValues

theorem endLoading_eq (s : State) (o : LoadOutcome) : s.endLoading o =
    if s.modeFor o = .running then (s.loadEnded o).startPm.enterRunning else (s.loadEnded o).startPm := rfl

theorem loadEnded_mode (s : State) (o : LoadOutcome) : (s.loadEnded o).sul.mode = s.modeFor o := by
  unfold State.loadEnded
  dsimp only
  split <;> rfl

theorem loadEnded_tables (h : TablesInOrder s) (o : LoadOutcome) : TablesInOrder (s.loadEnded o) := by
  unfold State.loadEnded
  dsimp only
  split
  · exact loadImage_tables (setSul_tables h _) _
  · exact faultValues_tables (setSul_tables h _)

theorem endLoading_tables (h : TablesInOrder s) (o : LoadOutcome) : TablesInOrder (s.endLoading o) := by
  have h1 := startPm_keeps (start_keeps (s.loadEnded o))
  have hu := loadEnded_tables h o
  rw [endLoading_eq]
  split
  · rename_i hm
    exact (enterRunning_keeps h1 fun hs => absurd ((loadEnded_mode s o).symm.trans hs.mode) (by simp [hm])).tables hu
  · exact h1.tables hu

end

end Sys2Proof.Machine
end

