-- ==== Sys2Proof/Proofs/KeepingCommands.lean ====
section
/-!
PROOFS. What each command keeps, and the two statements about all of them.
-/

namespace Sys2Proof.Machine

open Sys2Proof

section

variable (s : State)

/-! ### Frames received -/

theorem hears_loaded {t : State} {k : Nat} {f : RxFrame} (h : t.hears k f = true) : t.sul.mode ≠ .loading := by
  simp only [State.hears, State.loaded, Bool.and_eq_true, bne_iff_ne] at h
  exact h.1.1.1

theorem clock_keeps (f : RxFrame) : Takes (.clock f) s (Keeps AnyIds s) := by
  have h := frameEnd_keeps (start_keeps s)
  refine takes_of rfl ?_
  split
  · split
    · exact setClock_keeps h (clockValue_le (by assumption))
    · exact h
  · exact h

/-- A call frame's command keeps what the act on its call keeps. -/
theorem answered_keeps {c : Instr} {k : Nat} {f : RxFrame} {key : Nat} {r : State → State × AnswerCode}
    (hc : exec c s = .next (s.callFrame k f (fun u => State.answered f k key (r u))))
    (hr : ∀ u, Keeps AnyIds s u → ¬ SilentListener s → Keeps AnyIds s (r u).1) : Takes c s (Keeps AnyIds s) :=
  takes_of hc (callFrame_keeps (start_keeps s) k f fun u hu hl => answer_keeps (hr u hu hl) hl f _ _ _)

theorem callset_keeps (f : RxFrame) : Takes (.callset f) s (Keeps AnyIds s) := by
  refine answered_keeps s rfl fun u hu hl => ?_
  unfold State.takeCallset
  split
  · exact hu
  · split
    · exact hu
    · split
      · exact hu
      · rename_i k _ hdup
        split
        · exact hu
        · rename_i hfull
          exact install_keeps hu hl (Nat.not_le.mp hfull) (by simpa [CallBody.call] using hdup)

theorem callamend_keeps (f : RxFrame) : Takes (.callamend f) s (Keeps AnyIds s) := by
  refine answered_keeps s rfl fun u hu _ => ?_
  unfold State.takeAmend
  split
  · exact hu
  · split
    · exact hu
    · split
      · exact hu
      · split
        · exact hu
        · exact stage_keeps hu _ _

theorem callplan_keeps (f : RxFrame) : Takes (.callplan f) s (Keeps AnyIds s) := by
  refine answered_keeps s rfl fun u hu _ => ?_
  unfold State.takePlan
  split
  · exact hu
  · split
    · exact hu
    · split
      · exact hu
      · exact stage_keeps hu _ _

theorem calldrop_keeps (f : RxFrame) : Takes (.calldrop f) s (Keeps AnyIds s) := by
  refine answered_keeps s rfl fun u hu hl => ?_
  unfold State.takeDrop
  split
  · exact hu
  · split
    · exact hu
    · exact hu
    · exact withdrawCall_keeps (leaveService_keeps hu _ _) hl _

theorem triggerStep_keeps {u : State} (hu : Keeps AnyIds s u) (hl : ¬ SilentListener s) (key i : Nat) (c : Call) (st : Step) :
    Keeps AnyIds s (u.triggerStep key i c st).1 := by
  have htimer := fun f => modTimer_keeps hu key i f
  unfold State.triggerStep
  dsimp only
  split
  · exact hu
  · split
    · exact hu
    · split
      · dsimp only
        split
        · exact htimer _
        · exact hu
      · split
        · split
          · exact htimer _
          · exact hu
        · unfold State.triggerFire
          dsimp only
          split
          · exact pushOrig_keeps (htimer _) hl rfl
          · exact pushOrig_keeps hu hl rfl

theorem trigger_keeps (f : RxFrame) : Takes (.trigger f) s (Keeps AnyIds s) := by
  refine answered_keeps s rfl fun u hu hl => ?_
  unfold State.takeTrigger
  split
  · exact hu
  · split
    · exact hu
    · split
      · exact hu
      · exact triggerStep_keeps s hu hl _ _ _ _

theorem handoff_keeps (f : RxFrame) : Takes (.handoff f) s (Keeps AnyIds s) := by
  refine takes_of rfl (callFrame_keeps (start_keeps s) _ f fun u hu hl => ?_)
  unfold State.handoffFrame
  dsimp only
  split
  · split
    · refine answer_keeps ?_ hl f _ _ _
      unfold State.takeHandoff
      split
      · exact hu
      · split
        · exact hu
        · rename_i hdup
          split
          · exact hu
          · rename_i hfull
            exact install_keeps hu hl (Nat.not_le.mp hfull) (by simpa [CallBody.call] using hdup)
    · exact hu
  · exact hu

theorem answerFrame_keeps (f : RxFrame) : Takes (.answer f) s (Keeps AnyIds s) := by
  have h := frameEnd_keeps (start_keeps s)
  refine takes_of rfl ?_
  split
  · unfold State.takeAnswer
    split
    · split
      · split
        · exact settleHandoff_keeps h _
        · exact revertHandoff_keeps h _
      · exact h
    · exact h
  · exact h

theorem handoffTimeout_keeps (key : Nat) : Takes (.handoffTimeout key) s (Keeps AnyIds s) := by
  refine takes_of rfl ?_
  split
  · split
    · exact revertHandoff_keeps (start_keeps s) _
    · exact start_keeps s
  · exact start_keeps s

theorem query_keeps (f : RxFrame) (maint : Bool) : Takes (.query f maint) s (Keeps AnyIds s) := by
  have h := frameEnd_keeps (start_keeps s)
  refine takes_of rfl ?_
  split
  · rename_i k key _
    split
    · rename_i hq
      simp only [Bool.and_eq_true] at hq
      have hl : ¬ SilentListener s := h.loud_of_mode fun hm => by
        have := (queryTaken_iff _ k).mp hq.1.2
        simp [hm] at this
      refine enqueue_keeps (setReport_keeps ?_ _) hl _ _
      split
      · exact setPins_keeps h _
      · exact h
    · exact h
  · exact h

theorem readZattr_floor {b : List Byte} {z : ZoneId} {a : StagedAttr} {on : Bool} (h : readZattr b = some (z, a, on)) : a.floor ≤ 120 := by
  simp only [readZattr, Option.bind_eq_bind, Option.bind_eq_some_iff] at h
  obtain ⟨y, -, h⟩ := h
  split at h
  · rename_i hok
    simp only [Bool.and_eq_true, decide_eq_true_eq] at hok
    cases h
    exact hok.2
  · cases h

theorem setService_keeps {t : State} (h : Keeps AnyIds s t) (z : ZoneId) (on : Bool) : Keeps AnyIds s (t.setService z on) := by
  have h1 : Keeps AnyIds s (t.modZone z (fun r => { r with service := on })) := modZone_marks_keeps h z fun _ => rfl
  have h2 : TablesInOrder s → ∀ y, (t.lu.zones.get y).initK ≤ 31 := fun hs y => by
    rw [h.luZones y]
    exact (hs.levels.zones y).initK
  unfold State.setService
  split
  · exact h
  · dsimp only
    split
    · have h3 : Keeps AnyIds s ((t.modZone z (fun r => { r with service := on })).modLu z (fun u => { u with k := u.initK })) :=
        modLu_keeps h1 z (fun hs => ⟨h2 hs z, (h.levels hs z).2⟩) rfl
      split
      · exact putZoneArb_keeps h3 (fun _ => Nat.zero_le _) z
      · exact returnZone_keeps h3 z
    · exact settle_keeps (clearZone_keeps h1 z _)

theorem zattr_keeps (f : RxFrame) (maint : Bool) : Takes (.zattr f maint) s (Keeps AnyIds s) := by
  have h := frameEnd_keeps (start_keeps s)
  refine takes_of rfl ?_
  split
  · split
    · rename_i hm
      have hl := h.loud_of_mode (by simp [hm])
      refine answer_keeps ?_ hl f _ _ _
      have h1 := setPins_keeps h { s.frameEnd.pins with maint := maint }
      unfold State.takeZattr
      dsimp only
      split
      · exact h1
      · split
        · exact h1
        · rename_i z a on hz
          have h2 := setService_keeps s h1 z on
          exact applyStaged_keeps (modZone_keeps h2 z (f := fun r => { r with staged := some a })
            (fun hs => ⟨h2.waits z hs, (h2.zones hs z).2.1, fun b hb => by cases hb; exact readZattr_floor hz⟩) rfl fun _ => Iff.rfl) z
    · rename_i hm
      exact answer_keeps h (h.loud_of_mode (by simp [hm])) f _ _ _
    · exact h
  · exact h

theorem claim_keeps (f : RxFrame) : Takes (.claim f) s (Keeps AnyIds s) := by
  have h := frameEnd_keeps (start_keeps s)
  refine takes_of rfl ?_
  split
  · split
    · unfold State.takeClaim
      split
      · exact ownClaim_keeps h _
      · split
        · exact peerClaim_keeps h _ _
        · exact h
    · exact h
  · exact h

theorem cede_keeps (f : RxFrame) : Takes (.cede f) s (Keeps AnyIds s) := by
  have h := frameEnd_keeps (start_keeps s)
  refine takes_of rfl ?_
  split
  · split
    · exact takeCede_keeps h _ _ _
    · exact h
  · exact h

theorem zstat_keeps (f : RxFrame) : Takes (.zstat f) s (Keeps AnyIds s) := by
  have h := frameEnd_keeps (start_keeps s)
  refine takes_of rfl ?_
  split
  · split
    · exact modOrigin_keeps h _ _
    · exact h
  · exact h

theorem frameRejected_keeps (bytes : List Byte) (truncated : Bool) : Takes (.frameRejected bytes truncated) s (Keeps AnyIds s) := by
  refine takes_of rfl ?_
  split
  · exact start_keeps s
  · exact frameEnd_keeps (start_keeps s)

/-! ### Pins -/

theorem occChange_keeps (p : PlatId) : Takes (.occChange p) s (Keeps AnyIds s) := by
  have h : Keeps AnyIds s (s.modPlat p (fun r => { r with occ := !r.occ })) := modPlat_keeps (start_keeps s) p fun _ => rfl
  refine takes_of rfl ?_
  split
  · exact occMoved_keeps h p
  · exact h

theorem debounceWaitExpiry_keeps (p : PlatId) : Takes (.debounceWaitExpiry p) s (Keeps AnyIds s) := by
  refine takes_of rfl ?_
  split
  · exact acceptOcc_keeps (start_keeps s) p
  · exact start_keeps s

theorem doorsRise_keeps (p : PlatId) : Takes (.doorsRise p) s (Keeps AnyIds s) := by
  have h : Keeps AnyIds s (s.modPlat p (fun r => { r with doors := true })) := modPlat_keeps (start_keeps s) p fun _ => rfl
  refine takes_of rfl ?_
  split
  · exact start_keeps s
  · unfold State.doorsEdge
    dsimp only
    split
    · have h1 := modPlat_keeps h p (f := fun r => { r with state := .dispatch }) fun _ => rfl
      split
      · exact eachStep_keeps h1 doorsStep_work fun hn => stepRefsOf_nil hn _
      · exact h1
    · exact h

theorem doorsFall_keeps (p : PlatId) : Takes (.doorsFall p) s (Keeps AnyIds s) := by
  refine takes_of rfl ?_
  split
  · exact modPlat_keeps (start_keeps s) p fun _ => rfl
  · exact start_keeps s

theorem approachRise_keeps (p : PlatId) : Takes (.approachRise p) s (Keeps AnyIds s) := by
  refine takes_of rfl ?_
  split
  · exact start_keeps s
  · have h : Keeps AnyIds s (s.modPlat p (fun r => { r with approach := true })) := modPlat_keeps (start_keeps s) p fun _ => rfl
    dsimp only
    split
    · rename_i hr
      have hl := h.loud_of_running (Bool.and_eq_true_iff.mp hr).1
      unfold State.fireApproach
      split
      · exact modPlat_keeps h p fun _ => rfl
      · exact pushOrig_keeps (modPlat_keeps h p (f := fun r => { r with lastOutcome := .originated }) fun _ => rfl) hl rfl
    · exact h

theorem approachFall_keeps (p : PlatId) : Takes (.approachFall p) s (Keeps AnyIds s) :=
  takes_of rfl (modPlat_keeps (start_keeps s) p fun _ => rfl)

theorem evacRise_keeps : Takes .evacRise s (Keeps AnyIds s) := by
  refine takes_of rfl ?_
  split
  · exact start_keeps s
  · have h := setPins_keeps (start_keeps s) { s.pins with evac := true }
    dsimp only
    split
    · rename_i hr
      exact fireEvac_keeps (setEvac_keeps h _) (h.loud_of_running hr)
    · exact h

theorem evacTimerExpiry_keeps : Takes .evacTimerExpiry s (Keeps AnyIds s) := by
  refine takes_of rfl ?_
  split
  · rename_i hr
    simp only [Bool.and_eq_true] at hr
    exact fireEvac_keeps (start_keeps s) ((start_keeps s).loud_of_running hr.1.1)
  · exact start_keeps s

theorem evacFall_keeps : Takes .evacFall s (Keeps AnyIds s) := by
  refine takes_of rfl ?_
  split
  · have h := setPins_keeps (start_keeps s) { s.pins with evac := false }
    dsimp only
    split
    · rename_i hr
      have hl := h.loud_of_running hr
      have h1 := removeOrigs_keeps (setEvac_keeps h { s.evac with level := false, timer := none }) Orig.isEvac
      refine setEvac_keeps ?_ _
      unfold State.withdrawEvac
      split
      · exact withdrawOwn_keeps h1 hl _ _
      · exact h1
    · exact h
  · exact start_keeps s

theorem ampFaultRise_keeps (z : ZoneId) : Takes (.ampFaultRise z) s (Keeps AnyIds s) := by
  refine takes_of rfl ?_
  split
  · exact start_keeps s
  · have h : Keeps AnyIds s (s.modZone z (fun r => { r with ampFault := true })) := modZone_marks_keeps (start_keeps s) z fun _ => rfl
    dsimp only
    split
    · exact settle_keeps (clearZone_keeps h z _)
    · exact h

theorem ampFaultFall_keeps (z : ZoneId) : Takes (.ampFaultFall z) s (Keeps AnyIds s) := by
  refine takes_of rfl ?_
  split
  · have h : Keeps AnyIds s (s.modZone z (fun r => { r with ampFault := false })) := modZone_marks_keeps (start_keeps s) z fun _ => rfl
    dsimp only
    split
    · exact returnZone_keeps h z
    · exact h
  · exact start_keeps s

/-! ### The tables' events -/

theorem compose_keeps : Takes .compose s (Keeps AnyIds s) := by
  refine takes_of rfl ?_
  split
  · rename_i o rest own hq hn
    split
    · rename_i hr
      simp only [State.composable, Bool.and_eq_true, decide_eq_true_eq] at hr
      have h := setQueue_keeps (start_keeps s) (q := rest) (by rw [hq]; exact List.sublist_cons_self _ _)
      exact composeOrig_keeps h (h.loud_of_nodeNo hn) hr.2.1.2 hr.2.2 own o
    · exact start_keeps s
  · exact start_keeps s

theorem swap_keeps (key : Nat) : Takes (.swap key) s (Keeps AnyIds s) := by
  refine takes_of rfl ?_
  split
  · rename_i c hc
    have hl := (start_keeps s).loud_of_call hc
    split
    · rename_i a _
      split
      · have h1 : Keeps AnyIds s (s.modCall c.key (·.amend a)) := modCall_keeps (start_keeps s) c.key fun _ => rfl
        have hplat : ∀ ch, Keeps AnyIds s ((s.modCall c.key (·.amend a)).swapPlatform c ch) := by
          intro ch
          cases ch with
          | stay => exact h1
          | toLocal p =>
            exact mapPm_keeps (modCall_keeps h1 c.key (f := fun d => { d with platform := p, changed := true }) fun _ => rfl) (release_station c.key)
          | handOver k n => exact modCall_keeps h1 c.key fun _ => rfl
        have hstate : ∀ u ch, Keeps AnyIds s u → Keeps AnyIds s (u.swapState c.key ch) := by
          intro u ch hu
          cases ch with
          | stay => exact hu
          | toLocal p => exact modCall_keeps hu c.key fun _ => rfl
          | handOver k n =>
            have h2 := mapPm_keeps (modCall_keeps hu c.key (f := fun d => { d with state := .handingOff }) fun _ => rfl) (setAside_station c.key)
            unfold State.swapState State.sendHandoff
            dsimp only
            split
            · exact enqueue_keeps h2 hl _ _
            · exact h2
        have h5 := hstate _ (s.platChange c a) (replan_keeps (hplat (s.platChange c a)) c.key a)
        unfold State.swapCall State.swapExpiry
        dsimp only
        split
        · split
          · exact expiryTest_keeps h5 _
          · exact h5
        · exact h5
      · exact start_keeps s
    · exact start_keeps s
  · exact start_keeps s

theorem callRemoval_keeps (key : Nat) : Takes (.callRemoval key) s (Keeps AnyIds s) := by
  refine takes_of rfl ?_
  split
  · split
    · exact { start_keeps s with
        calls := fun hs => ⟨(List.length_filter_le _ _).trans hs.places.calls, List.Pairwise.filter _ hs.keys⟩
        noCalls := fun hs => by rw [State.setCt_ct, hs.calls]; rfl }
    · exact start_keeps s
  · exact start_keeps s

theorem entryRemoval_keeps (id : ClaimId) : Takes (.entryRemoval id) s (Keeps AnyIds s) := by
  refine takes_of rfl ?_
  split
  · split
    · exact filterClt_keeps (start_keeps s) _
    · exact start_keeps s
  · exact start_keeps s

theorem retryDue_keyed {e : Entry} {o : OriginPart} {r : Orig} (h : s.retryDue e o = some r) : s.ct ≠ [] ∧ r.queuedAt = s.now := by
  unfold State.retryDue at h
  split at h
  · cases h
  · split at h
    · cases h
    · rename_i st hst
      refine ⟨fun hn => ?_, ?_⟩
      · simp [State.findStep, State.findCall, hn] at hst
      · split at h
        · cases h
          rfl
        · cases h

theorem coverageWindowClose_keeps (id : ClaimId) : Takes (.coverageWindowClose id) s (Keeps AnyIds s) := by
  refine takes_of rfl ?_
  split
  · split
    · split
      · unfold State.closeWindow
        split
        · rename_i r hr
          obtain ⟨hct, hnow⟩ := retryDue_keyed s hr
          exact pushOrig_keeps (modOrigin_keeps (start_keeps s) _ _) (fun hs => hct hs.calls) hnow
        · exact modOrigin_keeps (start_keeps s) _ _
      · exact start_keeps s
    · exact start_keeps s
  · exact start_keeps s

/-! ### Zones and channels -/

theorem startInstant_keeps (z : ZoneId) : Takes (.startInstant z) s (Keeps AnyIds s) := by
  refine takes_of rfl ?_
  split
  · split
    · refine enter_keeps (start_keeps s) (fun hs => ?_) _
      exact hs.places.waiting z
    · exact start_keeps s
  · exact start_keeps s

theorem stopInstant_keeps (z : ZoneId) : Takes (.stopInstant z) s (Keeps AnyIds s) := by
  refine takes_of rfl ?_
  split
  · exact settle_keeps (stopUnit_keeps (start_keeps s) z _)
  · exact start_keeps s

theorem jointWaiterStart_keeps (z : ZoneId) (id : ClaimId) : Takes (.jointWaiterStart z id) s (Keeps AnyIds s) := by
  refine takes_of rfl ?_
  split
  · exact settle_keeps (missWaiter_keeps (start_keeps s) z id)
  · exact start_keeps s

theorem looseWaiterExpiry_keeps (z : ZoneId) (id : ClaimId) : Takes (.looseWaiterExpiry z id) s (Keeps AnyIds s) := by
  refine takes_of rfl ?_
  split
  · exact settle_keeps (missWaiter_keeps (start_keeps s) z id)
  · exact start_keeps s

theorem nextClaimExpiry_keeps (z : ZoneId) : Takes (.nextClaimExpiry z) s (Keeps AnyIds s) := by
  refine takes_of rfl ?_
  split
  · split
    · exact settle_keeps (nextLeft_keeps (writeDisps_keeps (start_keeps s) _ _ _) z ((start_keeps s).waits z))
    · exact start_keeps s
  · exact start_keeps s

theorem phraseBoundary_keeps (c : ChanId) : Takes (.phraseBoundary c) s (Keeps AnyIds s) := by
  refine takes_of rfl ?_
  split
  · rename_i ch _
    split
    · have h1 := reach16_keeps (start_keeps s) ch.due16
      unfold State.boundary
      dsimp only
      refine settle_keeps (foldl_keeps ?_ (fun u z hu => ?_) _)
      · split
        · exact h1
        · exact channels_keeps h1 rfl
      · unfold State.boundaryUnit
        split
        · exact stopUnit_keeps hu z _
        · exact applyLevels_keeps hu _
    · exact start_keeps s
  · exact start_keeps s

theorem deliver_frame (t : State) (r : ReadOp) (bytes : List Byte) : t.deliver r bytes = { t with rch := (t.deliver r bytes).rch } := by
  unfold State.deliver
  split
  · rfl
  · split <;> rfl

theorem grant_keeps {t : State} (h : Keeps AnyIds s t) : Keeps AnyIds s t.grant := channels_keeps h (by rw [grant_frame])

theorem storeReadComplete_keeps (bytes : List Byte) : Takes (.storeReadComplete bytes) s (Keeps AnyIds s) := by
  refine takes_of rfl ?_
  split
  · have h1 : Keeps AnyIds s (s.setSp { s.sp with reading := none }) := channels_keeps (start_keeps s) rfl
    exact grant_keeps s (channels_keeps h1 (by rw [deliver_frame]))
  · exact start_keeps s

theorem sampleDue_keeps (c : ChanId) : Takes (.sampleDue c) s (Keeps AnyIds s) := by
  refine takes_of rfl ?_
  split
  · rename_i ch _
    split
    · have h1 : Keeps AnyIds s ((s.reach16 ch.due16).setAudio ((s.reach16 ch.due16).output ch ch.sample)) :=
        channels_keeps (reach16_keeps (start_keeps s) _) rfl
      exact grant_keeps s (channels_keeps h1 rfl)
    · exact start_keeps s
  · exact start_keeps s

theorem nextK_le {k n : Nat} (h : k ≤ 31) : nextK k n ≤ 31 := by
  unfold nextK
  split_ifs <;> omega

theorem trackerWindowComplete_keeps (z : ZoneId) : Takes (.trackerWindowComplete z) s (Keeps AnyIds s) := by
  refine takes_of rfl ?_
  split
  · split
    · exact modLu_keeps (start_keeps s) z (fun hs => ⟨nextK_le (hs.levels.zones z).k, ((start_keeps s).levels hs z).2⟩) rfl
    · exact start_keeps s
  · exact start_keeps s

theorem pairReform_keeps (z : ZoneId) : Takes (.pairReform z) s (Keeps AnyIds s) := by
  refine takes_of rfl ?_
  split
  · exact reform_keeps (start_keeps s) (by assumption)
  · exact start_keeps s

/-! ### Time and the link -/

theorem secondBoundary_keeps : Takes .secondBoundary s (Keeps AnyIds s) := by
  refine takes_of rfl ?_
  split
  · exact second_keeps (start_keeps s)
  · exact start_keeps s

theorem samplingInstant_keeps (vref : Nat) (envelope : Quad Nat) : Takes (.samplingInstant vref envelope) s (Keeps AnyIds s) := by
  refine takes_of rfl ?_
  split
  · have h := millisecond_keeps (start_keeps s) (by assumption)
    dsimp only
    split
    · exact foldl_keeps h (fun u z hu => sampleZone_keeps hu vref envelope z) _
    · exact h
  · exact start_keeps s

theorem startHead_queue {now : Nat} {q : List TxFrame} (h : FrameQueue now q) : FrameQueue now (startHead q) := by
  cases q with
  | nil => exact h
  | cons f rest =>
    obtain ⟨hl, ho, ht, hp⟩ := h
    rw [List.pairwise_cons] at ho
    rw [List.forall_mem_cons] at ht hp
    exact ⟨hl, List.pairwise_cons.mpr ho, List.forall_mem_cons.mpr ht, List.forall_mem_cons.mpr hp⟩

theorem attemptStart_keeps (idle : Nat) : Takes (.attemptStart idle) s (Keeps AnyIds s) := by
  refine takes_of rfl ?_
  split
  · exact setTx_keeps (start_keeps s) (fun hs => startHead_queue ((start_keeps s).frames hs)) fun hs => by rw [hs.frames]; rfl
  · exact start_keeps s

theorem delimiterHeard_keeps (idle : Nat) : Takes (.delimiterHeard idle) s (Keeps AnyIds s) := by
  refine takes_of rfl ?_
  split
  · exact setRx_keeps (start_keeps s) true
  · exact start_keeps s

theorem underWay_loud {f : TxFrame} (h : s.lc.underWay = some f) : ¬ SilentListener s := fun hs => by
  simp [Lc.underWay, hs.frames] at h

theorem frameSent_keeps : Takes .frameSent s (Keeps AnyIds s) := by
  refine takes_of rfl ?_
  split
  · rename_i f hf
    have hl := underWay_loud s hf
    have h1 : Keeps AnyIds s s.dropUnderWay := filterTx_keeps (start_keeps s) _
    unfold State.frameReturned
    split
    · exact ownClaim_keeps h1 _
    · exact ownCede_keeps h1 _ _
    · refine modEntry_keeps h1 _ (fun e => ?_) fun hs => absurd hs hl
      split <;> rfl
    · exact h1
    · exact modCall_keeps h1 _ fun _ => rfl
    · unfold State.reportSent
      split
      · split
        · exact enqueue_keeps (setReport_keeps h1 _) hl _ _
        · exact setReport_keeps h1 _
      · exact h1
  · exact start_keeps s

theorem collision_keeps (bit : Nat) : Takes (.collision bit) s (Keeps AnyIds s) := by
  have h := setRx_keeps (start_keeps s) true
  refine takes_of rfl ?_
  split
  · split
    · unfold State.collide
      have h1 : Keeps AnyIds s (s.setLc { s.lc with rx := true }).dropUnderWay := filterTx_keeps h _
      split
      · unfold State.heldTakeBack
        split
        · exact takeBack_keeps h1 _
        · exact h1
      · split
        · exact failFrame_keeps h1 _
        · refine mapTx_keeps h (fun g => ?_) (fun g => ?_) fun g => ?_
          all_goals
            unfold TxFrame.collided
            split <;> rfl
    · exact start_keeps s
  · exact start_keeps s

/-! ### All commands -/

/-- The commands of the start-up loader, which do more than keep: RESET, and those that do nothing once loading is over. -/
def startsUp : Instr → Bool
  | .reset => true
  | .leaveReset _ => true
  | .headerReadDone _ => true
  | .configReadDone _ => true
  | _ => false

theorem exec_keeps {c : Instr} (hc : startsUp c = false) : Takes c s (Keeps AnyIds s) := by
  cases c with
  | reset => cases hc
  | leaveReset => cases hc
  | headerReadDone => cases hc
  | configReadDone => cases hc
  | secondBoundary => exact secondBoundary_keeps s
  | clock f => exact clock_keeps s f
  | callset f => exact callset_keeps s f
  | callamend f => exact callamend_keeps s f
  | callplan f => exact callplan_keeps s f
  | calldrop f => exact calldrop_keeps s f
  | trigger f => exact trigger_keeps s f
  | handoff f => exact handoff_keeps s f
  | answer f => exact answerFrame_keeps s f
  | handoffTimeout key => exact handoffTimeout_keeps s key
  | query f maint => exact query_keeps s f maint
  | report f => exact takes_of rfl (frameEnd_keeps (start_keeps s))
  | zattr f maint => exact zattr_keeps s f maint
  | claim f => exact claim_keeps s f
  | cede f => exact cede_keeps s f
  | zstat f => exact zstat_keeps s f
  | frameRejected bytes truncated => exact frameRejected_keeps s bytes truncated
  | occChange p => exact occChange_keeps s p
  | debounceWaitExpiry p => exact debounceWaitExpiry_keeps s p
  | doorsRise p => exact doorsRise_keeps s p
  | doorsFall p => exact doorsFall_keeps s p
  | approachRise p => exact approachRise_keeps s p
  | approachFall p => exact approachFall_keeps s p
  | evacRise => exact evacRise_keeps s
  | evacTimerExpiry => exact evacTimerExpiry_keeps s
  | evacFall => exact evacFall_keeps s
  | ampFaultRise z => exact ampFaultRise_keeps s z
  | ampFaultFall z => exact ampFaultFall_keeps s z
  | compose => exact compose_keeps s
  | swap key => exact swap_keeps s key
  | callRemoval key => exact callRemoval_keeps s key
  | entryRemoval id => exact entryRemoval_keeps s id
  | coverageWindowClose id => exact coverageWindowClose_keeps s id
  | startInstant z => exact startInstant_keeps s z
  | stopInstant z => exact stopInstant_keeps s z
  | jointWaiterStart z id => exact jointWaiterStart_keeps s z id
  | looseWaiterExpiry z id => exact looseWaiterExpiry_keeps s z id
  | nextClaimExpiry z => exact nextClaimExpiry_keeps s z
  | phraseBoundary c => exact phraseBoundary_keeps s c
  | storeReadComplete bytes => exact storeReadComplete_keeps s bytes
  | hangoverExpiry z => exact takes_of rfl (start_keeps s)
  | trackerWindowComplete z => exact trackerWindowComplete_keeps s z
  | stagedAttrApply z => exact takes_of rfl (applyStaged_keeps (start_keeps s) z)
  | pairReform z => exact pairReform_keeps s z
  | attemptStart idle => exact attemptStart_keeps s idle
  | delimiterHeard idle => exact delimiterHeard_keeps s idle
  | frameSent => exact frameSent_keeps s
  | collision bit => exact collision_keeps s bit
  | samplingInstant vref envelope => exact samplingInstant_keeps s vref envelope
  | sampleDue c => exact sampleDue_keeps s c

theorem reset_tables : Takes .reset s TablesInOrder := by
  have h := resetStateIsSafe.tables
  refine takes_of rfl (h.of_load rfl rfl rfl rfl (List.Sublist.refl _) (fun z => ?_) h.luFits h.levels.floor h.directory)
  rw [Quad.get_map]
  exact ⟨Nat.zero_le _, Nat.zero_le _, by simp [Zone.init]⟩

/-- The loader's commands keep the tables in order. -/
theorem startsUp_tables {c : Instr} (hc : startsUp c = true) (h : TablesInOrder s) : Takes c s TablesInOrder := by
  cases c with
  | reset => exact reset_tables s
  | leaveReset strap =>
    refine takes_of rfl ?_
    split
    · exact setSul_tables h _
    · exact h
  | headerReadDone bytes =>
    refine takes_of rfl ?_
    split
    · split
      · exact endLoading_tables h _
      · split
        · exact endLoading_tables h _
        · exact setSul_tables h _
    · exact h
  | configReadDone bytes =>
    refine takes_of rfl ?_
    split
    · dsimp only
      split
      · exact setSul_tables h _
      · split
        · exact endLoading_tables (setSul_tables h _) _
        · exact endLoading_tables (setSul_tables h _) _
    · exact h
  | _ => cases hc

/-- Settles O56: the loader's commands by the values they take, every other command by what it keeps. -/
theorem tablesStayInOrder : Obligations.TablesStayInOrder := by
  intro c s t hs hexec
  cases hc : startsUp c with
  | true => exact (takes_iff hexec).mp (startsUp_tables s hc hs)
  | false => exact ((takes_iff hexec).mp (exec_keeps s hc)).tables hs

/-- Once loading is over the loader's commands other than RESET do nothing. -/
theorem startsUp_idle {c : Instr} (hc : startsUp c = true) (hr : c ≠ .reset) (hheld : s.sul.resetHeld = false) (hm : s.sul.mode ≠ .loading) :
    Takes c s (Keeps AnyIds s) := by
  have hidle : ∀ p, s.loadsNow p = false := fun p => by simp [State.loadsNow, hm]
  have hkeep : ∀ u, u = s → Keeps AnyIds s u := fun u hu => by rw [hu]; exact start_keeps s
  cases c with
  | reset => exact absurd rfl hr
  | leaveReset strap => exact takes_of rfl (hkeep _ (by simp [hheld]))
  | headerReadDone bytes => exact takes_of rfl (hkeep _ (by simp [hidle]))
  | configReadDone bytes => exact takes_of rfl (hkeep _ (by simp [hidle]))
  | _ => cases hc

/-- Settles O59, by what every command keeps of the configuration and of a listener's silence. -/
theorem modesHoldAndListenersStaySilent : Obligations.ModesHoldAndListenersStaySilent := by
  intro c s t hr hheld hm hexec
  have h : Keeps AnyIds s t := by
    cases hc : startsUp c with
    | true => exact (takes_iff hexec).mp (startsUp_idle s hc hr hheld hm)
    | false => exact (takes_iff hexec).mp (exec_keeps s hc)
  exact ⟨h.sul, h.cfg, h.templates, h.bases, h.lu, h.luZones, h.neighbours, h.pairs, h.stations, h.silent⟩

end

end Sys2Proof.Machine
end

