-- ==== Sys2Proof/Proofs/Sampling.lean ====
section
/-!
SAMPLING_INSTANT: the millisecond counted and each zone's comparator sampled (R8, R145 to R147).
-/

namespace Sys2Proof.Machine

open Sys2Proof

/-- The level unit's record of a zone after a comparator sample (R145, R147). -/
def State.sampled (s : State) (v : Nat) (e : Quad Nat) (z : ZoneId) : LuZone :=
  if s.quiet z then { s.lu.zones.get z with
    window := countSample (s.lu.zones.get z).window (comparator v (e.get z) (s.lu.zones.get z).k) }
  else s.lu.zones.get z

theorem sampleZone_get (s : State) (v : Nat) (e : Quad Nat) (z y : ZoneId) :
    (s.sampleZone v e z).lu.zones.get y = if y = z then s.sampled v e z else s.lu.zones.get y := by
  unfold State.sampleZone State.sampled
  by_cases hq : s.quiet z = true
  · rw [if_pos hq, if_pos hq]
    exact Quad.get_set _ _ _ _
  · rw [if_neg hq, if_neg hq]
    by_cases hy : y = z <;> simp [hy]

theorem sampleZone_frame (s : State) (v : Nat) (e : Quad Nat) (z : ZoneId) :
    s.sampleZone v e z = { s with lu := { s.lu with zones := (s.sampleZone v e z).lu.zones } } := by
  unfold State.sampleZone
  split <;> rfl

/-- A zone's sample goes by its own records alone (R159; log 60). -/
theorem sampled_sampleZone (s : State) (v : Nat) (e : Quad Nat) {z y : ZoneId} (h : y ≠ z) : (s.sampleZone v e z).sampled v e y = s.sampled v e y := by
  have hlu := sampleZone_get s v e z y
  rw [if_neg h] at hlu
  have hfr := sampleZone_frame s v e z
  have hq : (s.sampleZone v e z).quiet y = s.quiet y := by
    unfold State.quiet
    rw [hlu, hfr]
    rfl
  unfold State.sampled
  rw [hq, hlu]

theorem sampleZones_get (v : Nat) (e : Quad Nat) (l : List ZoneId) (hl : l.Nodup) (s : State) (y : ZoneId) :
    (l.foldl (fun s z => s.sampleZone v e z) s).lu.zones.get y = if y ∈ l then s.sampled v e y else s.lu.zones.get y := by
  induction l generalizing s with
  | nil => rfl
  | cons z l ih =>
    obtain ⟨hz, hl⟩ := List.nodup_cons.mp hl
    rw [List.foldl_cons, ih hl, sampleZone_get]
    by_cases hy : y = z
    · subst hy
      simp [hz]
    · rw [sampled_sampleZone s v e hy]
      simp [hy]

theorem sampleZones_frame (v : Nat) (e : Quad Nat) (l : List ZoneId) (s : State) :
    l.foldl (fun s z => s.sampleZone v e z) s = { s with lu := { s.lu with zones := (l.foldl (fun s z => s.sampleZone v e z) s).lu.zones } } :=
  foldl_rel (fun s t : State => t = { s with lu := { s.lu with zones := t.lu.zones } }) (fun _ => rfl) (fun h k => by rw [h] at k; exact k)
    (fun s z => sampleZone_frame s v e z) l s

theorem quiet_iff (s : State) (z : ZoneId) : s.quiet z = true ↔ ((s.za.get z).arb.state = .idle ∨ (s.za.get z).arb.state = .leadIn) ∧
    ∀ e, (s.lu.zones.get z).lastPlayEnd = some e → e + 1000 < s.sck.running := by
  have hs : (s.za.get z).arb.state.silent = true ↔ (s.za.get z).arb.state = .idle ∨ (s.za.get z).arb.state = .leadIn := by
    cases (s.za.get z).arb.state <;> simp [ZoneState.silent]
  unfold State.quiet
  rw [Bool.and_eq_true, hs]
  refine and_congr_right fun _ => ?_
  cases (s.lu.zones.get z).lastPlayEnd with
  | none => simp
  | some t =>
    simp only [decide_eq_true_eq, Option.some.injEq, forall_eq']
    exact Iff.rfl

theorem tracks_iff (s : State) : s.tracks = true ↔ s.sul.mode = .running ∨ s.sul.mode = .listenOnly := by simp [State.tracks, State.isRunning]

theorem countMs_eq (n : Option Nat) : countMs n = n.map (· - 1) := by cases n <;> rfl

theorem millisecond_eq (s : State) : s.millisecond = { s with
    sck := { s.sck with running := s.sck.running + 1, secMs := s.sck.secMs + 1, sub := 0 },
    evac := { s.evac with timer := s.evac.timer.map (· - 1) },
    pm := s.pm.map (fun p => { p with wait := p.wait.map (· - 1) }),
    ct := s.ct.map (fun c => { c with handoff := c.handoff.map (fun h => { h with timer := h.timer.map (· - 1) }) }) } := by
  simp only [← countMs_eq]
  rfl

theorem countSample_none (b : Bool) : countSample none b = some { taken := 1, high := if b then 1 else 0 } := rfl

theorem countSample_some (w : TrackWindow) (b : Bool) :
    countSample (some w) b = some (if w.taken < 500 then { taken := w.taken + 1, high := w.high + if b then 1 else 0 } else w) :=
  (apply_ite some (w.taken < 500) ({ taken := w.taken + 1, high := w.high + if b then 1 else 0 } : TrackWindow) w).symm

theorem comparator_iff (v e k : Nat) : comparator v e k = true ↔ v * (k + 1) < 32 * e := decide_eq_true_iff

/-- Settles O9, by what the millisecond counts and what a zone's sample does to its own window. -/
theorem millisecondIsCounted : Obligations.MillisecondIsCounted := by
  intro v e s hrun
  have hexec : exec (.samplingInstant v e) s =
      .next (if s.tracks then Idx4.all.foldl (fun s z => s.sampleZone v e z) s.millisecond else s.millisecond) := by
    simp only [exec, execSamplingInstant, Config.maxRunning, hrun, if_true]
    rfl
  by_cases ht : s.tracks = true
  · rw [if_pos ht] at hexec
    have hmode := (tracks_iff s).mp ht
    have hfr := sampleZones_frame v e Idx4.all s.millisecond
    have hget := sampleZones_get v e Idx4.all (by decide) s.millisecond
    refine takes_of hexec ?_
    generalize Idx4.all.foldl (fun s z => s.sampleZone v e z) s.millisecond = t at hfr hget
    have hlu : t.lu = { s.lu with zones := t.lu.zones } := by
      rw [hfr]
      rfl
    have hframe : t = { s.millisecond with lu := t.lu } := by
      rw [hlu]
      exact hfr
    refine ⟨hframe.trans (congrArg (fun u : State => { u with lu := t.lu }) (millisecond_eq s)), hlu, fun z => ?_⟩
    have hz : t.lu.zones.get z = s.millisecond.sampled v e z := by
      rw [hget, if_pos]
      cases z <;> decide
    have hq : s.millisecond.quiet z = true ↔ ((s.za.get z).arb.state = .idle ∨ (s.za.get z).arb.state = .leadIn) ∧
        ∀ e, (s.lu.zones.get z).lastPlayEnd = some e → e + 1000 < s.sck.running + 1 := quiet_iff s.millisecond z
    by_cases hquiet : s.millisecond.quiet z = true
    · have hs : t.lu.zones.get z = { s.lu.zones.get z with
          window := countSample (s.lu.zones.get z).window (comparator v (e.get z) (s.lu.zones.get z).k) } := hz.trans (if_pos hquiet)
      have hhigh : (if comparator v (e.get z) (s.lu.zones.get z).k = true then 1 else 0) =
          if v * ((s.lu.zones.get z).k + 1) < 32 * e.get z then 1 else 0 := by simp only [comparator_iff]
      refine ⟨by rw [hs], fun hno => absurd ⟨hmode, hq.mp hquiet⟩ hno, fun _ hw => ?_, fun _ w hw => ?_⟩
      · rw [hs, hw, countSample_none, hhigh]
      · rw [hs, hw, countSample_some, hhigh]
    · have hs : t.lu.zones.get z = s.lu.zones.get z := hz.trans (if_neg hquiet)
      exact ⟨by rw [hs], fun _ => by rw [hs], fun h => absurd (hq.mpr h.2) hquiet, fun h => absurd (hq.mpr h.2) hquiet⟩
  · rw [if_neg ht] at hexec
    have hno : ¬ (s.sul.mode = .running ∨ s.sul.mode = .listenOnly) := fun h => ht ((tracks_iff s).mpr h)
    exact takes_of hexec ⟨millisecond_eq s, rfl, fun z => ⟨rfl, fun _ => rfl, fun h => absurd h.1 hno, fun h => absurd h.1 hno⟩⟩

end Sys2Proof.Machine
end

section
/-!
PROOFS. The step timer unit: when a source is busy, what a firing makes of a timer, what the work of other steps leaves of a step, and the statement about
second boundaries.
-/

namespace Sys2Proof.Machine

open Sys2Proof

/-! ### Busy sources (R31, R38) -/

theorem origQueued_iff (s : State) (src : OrigSource) : s.origQueued src = true ↔ ∃ o ∈ s.cmp.queue, o.source = src := by
  simp [State.origQueued]

theorem claimQueued_iff (s : State) (id : ClaimId) :
    s.claimQueued id = true ↔ ∃ e o, s.findEntry id = some e ∧ e.origin = some o ∧ o.send = .queued := by
  unfold State.claimQueued
  cases s.findEntry id with
  | none => simp
  | some e => cases ho : e.origin <;> simp [ho]

theorem lastBusy_iff (s : State) (last : Option ClaimId) : s.lastBusy last = true ↔
    ∃ id, last = some id ∧ ((∃ e o, s.findEntry id = some e ∧ e.origin = some o ∧ o.send = .queued) ∨ InUse s id) := by
  cases last with
  | none => simp [State.lastBusy]
  | some id => simp only [State.lastBusy, Bool.or_eq_true, claimQueued_iff, claimLive_iff, Option.some.injEq, exists_eq_left']

theorem busy_iff (s : State) (src : OrigSource) (last : Option ClaimId) :
    (s.origQueued src || s.lastBusy last) = true ↔ Busy s src last := by
  rw [Bool.or_eq_true, origQueued_iff, lastBusy_iff]
  rfl

theorem stepBusy_iff (s : State) (k i : Nat) (st : Step) : s.stepBusy k i st = true ↔ Busy s (.step k i) st.timer.lastClaim := busy_iff s _ _

theorem evacBusy_iff (s : State) : s.evacBusy = true ↔ Busy s .evac s.evac.lastClaim := busy_iff s _ _

/-! ### One step's timer (R26, R28, R29, R30) -/

theorem findCall_modTimer_self {s : State} {k : Nat} {c : Call} (hc : s.findCall k = some c) (i : Nat) (g : StepTimer → StepTimer) :
    (s.modTimer k i g).findCall k = some (c.modStep i (fun x => { x with timer := g x.timer })) :=
  findCall_modCall_self hc fun _ => rfl

theorem othersKept_modTimer (s : State) (k i : Nat) (g : StepTimer → StepTimer) : OthersKept k s (s.modTimer k i g) :=
  othersKept_modCall s k _ fun _ => rfl

theorem findStep_modTimer {s : State} {k i : Nat} {st : Step} (h : s.findStep k i = some st) (g : StepTimer → StepTimer) :
    (s.modTimer k i g).findStep k i = some { st with timer := g st.timer } := by
  rw [State.modTimer, findStep_modStep, h]
  rfl

theorem busyTimer_not_every {p : StepSpec} (h : p.mode ≠ .every) :
    busyTimer p = fun t => { t with state := .skipped .busy, last := .skippedBusy, remaining := none } := by
  unfold busyTimer
  cases hm : p.mode <;> simp_all

theorem busyTimer_every {p : StepSpec} (h : p.mode = .every) :
    busyTimer p = fun t => { t with last := .skippedBusy, state := .counting, remaining := some p.period, notLoaded := false } := by
  simp [funext_iff, busyTimer, h, StepTimer.reload]

theorem heldTimer_eq (p : StepSpec) :
    heldTimer p = fun t => { t with state := .held, remaining := if p.mode = .manual then none else some 0 } := by
  unfold heldTimer
  cases p.mode <;> simp

theorem firedTimer_manual {p : StepSpec} (h : p.mode = .manual) :
    firedTimer p = fun t => { t with state := .fired, last := .originated, fires := min 255 (t.fires + 1), remaining := none } := by
  simp [funext_iff, firedTimer, h]

theorem limitReached_iff (p : StepSpec) (n : Nat) : p.limitReached n = true ↔ 0 < p.limit ∧ p.limit ≤ n := by
  simp [StepSpec.limitReached]

/-- Every fired timer is counted, and its note and last claim are those of any firing handed over (R30). -/
theorem firedTimer_counted (p : StepSpec) (t : StepTimer) : (firedTimer p t).last = .originated ∧
    (firedTimer p t).fires = min 255 (t.fires + 1) ∧ (firedTimer p t).lastClaim = t.lastClaim := by
  unfold firedTimer
  cases p.mode
  case every => dsimp only; split <;> exact ⟨rfl, rfl, rfl⟩
  all_goals exact ⟨rfl, rfl, rfl⟩

theorem firedTimer_every {p : StepSpec} {t : StepTimer} (hm : p.mode = .every) (h : ¬ (0 < p.limit ∧ p.limit ≤ min 255 (t.fires + 1))) :
    (firedTimer p t).state = .counting ∧ (firedTimer p t).remaining = some p.period ∧ (firedTimer p t).notLoaded = false := by
  rw [← limitReached_iff] at h
  simp [firedTimer, hm, h, StepTimer.reload]

theorem firedTimer_full {p : StepSpec} {t : StepTimer} (hm : p.mode = .every ∨ p.mode = .onDispatch)
    (h : 0 < p.limit ∧ p.limit ≤ min 255 (t.fires + 1)) : (firedTimer p t).state = .done ∧ (firedTimer p t).remaining = none := by
  rw [← limitReached_iff] at h
  rcases hm with hm | hm <;> simp [firedTimer, hm, h]

theorem firedTimer_dispatch {p : StepSpec} {t : StepTimer} (hm : p.mode = .onDispatch)
    (h : ¬ (0 < p.limit ∧ p.limit ≤ min 255 (t.fires + 1))) : (firedTimer p t).state = .fired ∧ (firedTimer p t).remaining = none := by
  rw [← limitReached_iff] at h
  simp [firedTimer, hm, h]

theorem firedTimer_once {p : StepSpec} {t : StepTimer} (hm : p.mode = .atTime ∨ p.mode = .onArrive ∨ p.mode = .manual) :
    (firedTimer p t).state = .fired ∧ (firedTimer p t).remaining = none := by
  rcases hm with hm | hm | hm <;> simp [firedTimer, hm]

/-! ### What the work of other steps leaves of a step (R32, R75) -/

/-- A step whose queued origination was dropped. -/
def Step.noted (st : Step) : Step := { st with timer := fullTimer st.spec.mode st.timer }

theorem noted_noted (st : Step) : st.noted.noted = st.noted := by
  unfold Step.noted fullTimer
  by_cases h : st.timer.state = .fired ∧ st.spec.mode ≠ .every <;> simp [h]

/-- The step `i` of the call `k` is in `t` as in `s`, but for the note that its queued origination was dropped. -/
def StepNoted (k i : Nat) (s t : State) : Prop :=
  ∀ st, s.findStep k i = some st → ∃ st', t.findStep k i = some st' ∧ (st' = st ∨ st' = st.noted)

theorem StepNoted.of_findStep {k i : Nat} {s t : State} (h : t.findStep k i = s.findStep k i) : StepNoted k i s t :=
  fun st hst => ⟨st, h.trans hst, .inl rfl⟩

theorem StepNoted.refl (k i : Nat) (s : State) : StepNoted k i s s := .of_findStep rfl

theorem StepNoted.trans {k i : Nat} {s t u : State} (h : StepNoted k i s t) (h' : StepNoted k i t u) : StepNoted k i s u := by
  intro st hst
  obtain ⟨st₁, h₁, e₁⟩ := h st hst
  obtain ⟨st₂, h₂, e₂⟩ := h' st₁ h₁
  refine ⟨st₂, h₂, ?_⟩
  rcases e₁ with rfl | rfl
  · exact e₂
  · rw [noted_noted, or_self] at e₂
    exact .inr e₂

theorem modTimer_noted {k i j n : Nat} (h : ¬ (k = j ∧ i = n)) (s : State) (g : StepTimer → StepTimer) : StepNoted k i s (s.modTimer j n g) :=
  .of_findStep (findStep_modStep_ne s _ h)

theorem origDropped_noted (k i : Nat) (s : State) (o : Orig) : StepNoted k i s (s.origDropped o) := by
  unfold State.origDropped
  split
  · rename_i j n _
    split
    · by_cases h : k = j ∧ i = n
      · obtain ⟨rfl, rfl⟩ := h
        exact fun st hst => ⟨st.noted, by rw [findStep_modStep, hst]; rfl, .inr rfl⟩
      · exact .of_findStep (findStep_modStep_ne s _ h)
    · exact .refl k i s
  · exact .of_findStep rfl
  · exact .refl k i s
  · exact .refl k i s

theorem pushOrig_noted (k i : Nat) (s : State) (o : Orig) : StepNoted k i s (s.pushOrig o) := by
  rcases pushOrig_cases s o with ⟨-, he⟩ | ⟨-, w, -, -, he⟩ | ⟨-, -, he⟩ <;> rw [he]
  · exact .of_findStep rfl
  · have hq : StepNoted k i s (s.setQueue (origInsert s.cmp.queue.dropLast o)) := .of_findStep rfl
    exact hq.trans (origDropped_noted k i _ w)
  · exact origDropped_noted k i s o

section OtherStep

variable {k i j n : Nat} (h : ¬ (k = j ∧ i = n))
include h

theorem fireStep_noted (s : State) : StepNoted k i s (s.fireStep j n) := by
  unfold State.fireStep
  repeat' split
  all_goals first
    | exact .refl k i s
    | exact modTimer_noted h s _
    | exact (modTimer_noted h s _).trans (pushOrig_noted k i _ _)

theorem windowTest_noted (s : State) (c : Call) (st : Step) : StepNoted k i s (s.windowTest j n c st) := by
  unfold State.windowTest State.openStep
  dsimp only
  repeat' split
  all_goals first
    | exact .refl k i s
    | exact modTimer_noted h s _
    | exact (modTimer_noted h s _).trans (fireStep_noted h _)

theorem countDown_noted (s : State) (st : Step) : StepNoted k i s (s.countDown j n st) := by
  unfold State.countDown
  repeat' split
  · exact .refl k i s
  · exact (modTimer_noted h s _).trans (fireStep_noted h _)
  · exact modTimer_noted h s _

theorem tickStep_noted (adv : Bool) (s : State) : StepNoted k i s (s.tickStep adv j n) := by
  unfold State.tickStep
  repeat' (first | split | dsimp only)
  all_goals first
    | exact .refl k i s
    | exact fireStep_noted h s
    | exact modTimer_noted h s _
    | exact windowTest_noted h s _ _
    | exact countDown_noted h s _

theorem doorsStep_noted (s : State) : StepNoted k i s (s.doorsStep j n) := by
  unfold State.doorsStep State.armStep
  repeat' split
  all_goals first
    | exact .refl k i s
    | exact fireStep_noted h s
    | exact modTimer_noted h s _

end OtherStep

/-- When every step of a list is taken once, a step of the list is found at its turn, and after its turn, as the other steps' work leaves it. -/
theorem eachStep_visits {f : State → Nat → Nat → State} {k i : Nat} (hwork : ∀ s j n, StepWork s (f s j n))
    (hnoted : ∀ s j n, ¬ (k = j ∧ i = n) → StepNoted k i s (f s j n)) {rs : List (Nat × Nat)} (hrs : rs.Nodup) (hmem : (k, i) ∈ rs)
    (s : State) : ∃ v, StepWork s v ∧ StepNoted k i s v ∧ StepNoted k i (f v k i) (s.eachStep rs f) := by
  have hothers : ∀ (l : List (Nat × Nat)) (s : State), (k, i) ∉ l → StepNoted k i s (s.eachStep l f) := by
    intro l
    induction l with
    | nil => exact fun s _ => .refl k i s
    | cons r l ih =>
      intro s hn
      obtain ⟨hr, hl⟩ := not_or.mp (mt List.mem_cons.mpr hn)
      exact (hnoted s r.1 r.2 fun ⟨h1, h2⟩ => hr (Prod.ext h1 h2)).trans (ih _ hl)
  obtain ⟨l, m, rfl⟩ := List.append_of_mem hmem
  obtain ⟨hnot, -⟩ := List.nodup_middle.mp hrs |> List.nodup_cons.mp
  obtain ⟨hl, hm⟩ := not_or.mp (mt List.mem_append.mpr hnot)
  refine ⟨s.eachStep l f, eachStep_work hwork l s, hothers l s hl, ?_⟩
  have hsplit : s.eachStep (l ++ (k, i) :: m) f = (f (s.eachStep l f) k i).eachStep m f := by
    simp only [State.eachStep, List.foldl_append, List.foldl_cons]
  rw [hsplit]
  exact hothers m _ hm

/-! ### The steps of all calls (R22) -/

theorem mem_stepRefs {s : State} {k i : Nat} {c : Call} {st : Step} (hc : s.findCall k = some c) (hst : c.steps[i]? = some st) :
    (k, i) ∈ s.stepRefs := by
  obtain ⟨hlt, -⟩ := List.getElem?_eq_some_iff.mp hst
  refine List.mem_flatMap.mpr ⟨c, findCall_mem hc, List.mem_map.mpr ⟨i, List.mem_range.mpr hlt, ?_⟩⟩
  rw [findCall_key hc]

theorem stepRefs_nodup {s : State} (h : KeysAscend s) : s.stepRefs.Nodup := by
  refine List.nodup_flatMap.mpr ⟨fun c _ => List.Nodup.map (fun a b hab => (Prod.mk.inj hab).2) List.nodup_range, ?_⟩
  refine List.Pairwise.imp (fun {a b} hab => ?_) h
  simp only [Function.onFun, List.disjoint_left, List.mem_map]
  rintro _ ⟨x, -, rfl⟩ ⟨y, -, hy⟩
  exact Nat.ne_of_gt hab (Prod.mk.inj hy).1

/-! ### One step at a second boundary (R22, R24 to R28) -/

theorem countDown_counts {w : State} {k i r : Nat} {st : Step} (h : st.timer.remaining = some r) :
    CountsDown w (w.countDown k i st) k i r where
  counts hr := by
    have hn : ¬ r ≤ 1 := by omega
    simp [State.countDown, h, hn]
  fires hr := by simp [State.countDown, h, hr]

section LiveTick

variable {w : State} {k i : Nat} {c : Call} {st : Step} (hc : w.findCall k = some c) (hst : w.findStep k i = some st) (hl : c.live = true)
  (adv : Bool)
include hc hst hl

theorem tickStep_atTime (hm : st.spec.mode = .atTime) {ft : Int} (hft : st.spec.fireTime c = some ft) : w.tickStep adv k i =
    if adv = true ∧ st.timer.state = .counting then
      if ft ≤ w.sck.time then w.fireStep k i else w.modTimer k i (fun m => { m with remaining := some (ft - w.sck.time).toNat })
    else w := by
  simp [State.tickStep, hc, hst, hl, hm, hft]

theorem tickStep_atTime_still (hm : st.spec.mode = .atTime) (h : adv = false ∨ st.timer.state ≠ .counting) : w.tickStep adv k i = w := by
  rcases h with h | h <;> simp [State.tickStep, hc, hst, hl, hm, h]

theorem tickStep_every (hm : st.spec.mode = .every) {stop : Int} (hcl : st.spec.closeTime c = some stop) : w.tickStep adv k i =
    if adv = true ∧ (stop ≤ w.sck.time ∨ st.timer.state = .idle) then w.windowTest k i c st
    else if st.timer.state = .counting ∧ (st.spec.gate = false ∨ c.state = .bound) then w.countDown k i st
    else w := by
  simp only [State.tickStep, hc, hst, hl, hm, hcl]
  cases adv <;> by_cases hs : stop ≤ (w.sck.time : Int) <;> by_cases hi : st.timer.state = .idle <;> simp [hs, hi]

theorem tickStep_delay (hm : st.spec.mode = .onArrive ∨ st.spec.mode = .onDispatch) : w.tickStep adv k i =
    if st.timer.state = .counting then w.countDown k i st else w := by
  rcases hm with hm | hm <;> simp [State.tickStep, hc, hst, hl, hm]

theorem tickStep_manual (hm : st.spec.mode = .manual) : w.tickStep adv k i = w := by
  simp [State.tickStep, hc, hst, hl, hm]

end LiveTick

/-! ### A firing (R26, R28, R30, R32) -/

section LiveFire

variable {w : State} {k i : Nat} {c : Call} {st : Step} (hc : w.findCall k = some c) (hst : w.findStep k i = some st) (hl : c.live = true)
include hc hst hl

theorem fireStep_busy (hb : w.stepBusy k i st = true) : w.fireStep k i = w.modTimer k i (busyTimer st.spec) := by
  simp [State.fireStep, hc, hst, hl, hb]

theorem fireStep_staged (hb : w.stepBusy k i st = false) (hs : c.staged ≠ none) :
    w.fireStep k i = w.modTimer k i (heldTimer st.spec) := by
  simp [State.fireStep, hc, hst, hl, hb, Option.isSome_iff_ne_none, hs]

theorem fireStep_free (hb : w.stepBusy k i st = false) (hs : c.staged = none) :
    w.fireStep k i = (w.modTimer k i (firedTimer st.spec)).pushOrig (w.stepOrig k i st.spec true) := by
  simp [State.fireStep, hc, hst, hl, hb, hs]

end LiveFire

theorem fireStep_not_live {w : State} {k : Nat} {c : Call} (hc : w.findCall k = some c) (hl : c.live = false) (i : Nat) :
    w.fireStep k i = w := by
  unfold State.fireStep
  cases hst : w.findStep k i <;> simp [hc, hl]

theorem tickStep_not_live {w : State} {k : Nat} {c : Call} (hc : w.findCall k = some c) (hl : c.live = false) (adv : Bool) (i : Nat) :
    w.tickStep adv k i = w := by
  unfold State.tickStep
  cases hst : w.findStep k i <;> simp [hc, hl]

/-- A note of a dropped origination leaves a COUNTING step counting (R32). -/
theorem noted_counting {st st' : Step} (h : st' = st ∨ st' = st.noted) (hs : st.timer.state = .counting) :
    st'.spec = st.spec ∧ st'.timer.state = .counting ∧ st'.timer.remaining = st.timer.remaining ∧ st'.timer.fires = st.timer.fires := by
  rcases h with rfl | rfl
  · exact ⟨rfl, hs, rfl, rfl⟩
  · refine ⟨rfl, ?_, rfl, rfl⟩
    simp [Step.noted, fullTimer, hs]

/-- The expiry tests leave the steps of a call that is not WAITING as they are (R15). -/
theorem findStep_expiryTests {s : State} {k : Nat} {c : Call} (hc : s.findCall k = some c) (h : c.state ≠ .waiting) (i : Nat) :
    s.expiryTests.findStep k i = s.findStep k i := by
  have hx : ¬ s.expires c = true := fun he => h (expires_waiting he)
  have hfind : s.expiryTests.findCall k = some c := by
    unfold State.expiryTests
    rw [findCall_expiryTestAll, hc]
    simp [hx]
  rw [findStep_of_findCall hfind, findStep_of_findCall hc]

/-- A delay step that counts on at a second boundary has one second less (R22, R27, R28). -/
theorem second_counts {s : State} {k i n : Nat} {c : Call} {st : Step} (hk : KeysAscend s) (hc : s.findCall k = some c)
    (hb : c.state = .bound) (hst : c.steps[i]? = some st) (hm : st.spec.mode = .onArrive ∨ st.spec.mode = .onDispatch)
    (hcount : st.timer.state = .counting) (hr : st.timer.remaining = some (n + 2)) :
    ∃ st', s.second.findStep k i = some st' ∧ st'.spec = st.spec ∧ st'.timer.state = .counting ∧ st'.timer.remaining = some (n + 1) ∧
      st'.timer.fires = st.timer.fires := by
  have hu : (s.setSck s.sck.tick).findStep k i = some st := (findStep_of_findCall hc).trans hst
  obtain ⟨v, hwork, hbefore, hafter⟩ := eachStep_visits (f := State.tickStep s.sck.advances) (tickStep_work _)
    (fun s _ _ h => tickStep_noted h _ s) (stepRefs_nodup hk) (mem_stepRefs hc hst) (s.setSck s.sck.tick)
  obtain ⟨d, hd, hcd⟩ := hwork.findCall (show (s.setSck s.sck.tick).findCall k = some c from hc)
  have hdb : d.state = .bound := hcd.state.trans hb
  obtain ⟨st₁, hst₁, e₁⟩ := hbefore st hu
  obtain ⟨hspec₁, hstate₁, hrem₁, hfires₁⟩ := noted_counting e₁ hcount
  have htick : v.tickStep s.sck.advances k i = v.modTimer k i (fun m => { m with remaining := some (n + 1) }) := by
    rw [tickStep_delay hd hst₁ ((live_iff d).mpr (.inr hdb)) _ (by rw [hspec₁]; exact hm), if_pos hstate₁]
    exact (countDown_counts (hrem₁.trans hr)).counts (by omega)
  obtain ⟨st₂, hst₂, e₂⟩ := hafter _ (by rw [htick]; exact findStep_modTimer hst₁ _)
  obtain ⟨hspec₂, hstate₂, hrem₂, hfires₂⟩ := noted_counting e₂ hstate₁
  obtain ⟨e, he, hce⟩ := (eachStep_work (tickStep_work s.sck.advances) s.stepRefs (s.setSck s.sck.tick)).findCall
    (show (s.setSck s.sck.tick).findCall k = some c from hc)
  have hlast : s.second.findStep k i = ((s.setSck s.sck.tick).eachStep s.stepRefs (State.tickStep s.sck.advances)).findStep k i := by
    unfold State.second
    dsimp only
    split
    · exact findStep_expiryTests he (by rw [hce.state, hb]; decide) i
    · rfl
  exact ⟨st₂, hlast.trans hst₂, hspec₂.trans hspec₁, hstate₂, hrem₂, hfires₂.trans hfires₁⟩

/-- Settles O7: the boundary is followed to the step's turn and past it (`second_counts`), and a step's turn and its firing are taken by its mode. -/
theorem countingStepLosesASecond : Obligations.CountingStepLosesASecond := by
  refine ⟨fun s k i n c st hsec hk hc hb hst hm hcount hr => ?_, fun w k i c adv hc hnw hnb => ?_, fun w k i c st hc hst hlive => ?_⟩
  · have hexec : exec .secondBoundary s = .next s.second := congrArg Host.Outcome.next (if_pos hsec)
    exact takes_of hexec (second_counts hk hc hb hst hm hcount hr)
  · exact ⟨tickStep_not_live hc (not_live hnw hnb) adv i, fireStep_not_live hc (not_live hnw hnb) i⟩
  · have hl : c.live = true := (live_iff c).mpr hlive
    refine ⟨fun adv => ⟨fun hm => ⟨tickStep_atTime_still hc hst hl adv hm, fun ft ha hs hft => ?_⟩, fun hm start stop hstart hstop => ?_,
      fun hm => ?_, tickStep_manual hc hst hl adv⟩, stepBusy_iff w k i st, fun hb => ⟨fun hm => ?_, fun hm => ?_⟩, fun hb hs => ?_, fun hb hs => ?_⟩
    · rw [tickStep_atTime hc hst hl adv hm hft, if_pos ⟨ha, hs⟩]
      exact ⟨fun h => if_pos h, fun h => if_neg (Int.not_le.mpr h)⟩
    · have htick := tickStep_every hc hst hl adv hm hstop
      have hopen : ∀ {q : Prop}, adv = false ∨ (w.sck.time : Int) < stop → ¬ q → ¬ (adv = true ∧ (stop ≤ w.sck.time ∨ q)) := by
        rintro q (ha | ha) hq ⟨ha', h | h⟩
        · simp [ha] at ha'
        · exact hq h
        · omega
        · exact hq h
      refine ⟨fun ha hi hu => ?_, fun ha hi => ?_, fun r ha hs hr => ⟨fun hg => ?_, fun hg hw => ?_⟩, fun ha hs => ?_⟩
      · rw [htick, if_pos ⟨ha, hi.symm⟩]
        exact windowTest_tested w k i c st hstart hstop ((unfinished_iff _).mpr hu)
      · rw [htick, if_neg (by simp [ha]), if_neg (by simp [hi])]
      · rw [htick, if_neg (hopen ha (by simp [hs])), if_pos ⟨hs, hg⟩]
        exact countDown_counts hr
      · rw [htick, if_neg (hopen ha (by simp [hs])), if_neg (by simp [hg, hw])]
      · rw [htick, if_neg (hopen ha (by simp [hs])), if_neg (by simp [hs])]
    · rw [tickStep_delay hc hst hl adv hm]
      refine ⟨fun hs => if_neg hs, fun r hs hr => ?_⟩
      rw [if_pos hs]
      exact countDown_counts hr
    · rw [fireStep_busy hc hst hl hb, busyTimer_every hm]
    · rw [fireStep_busy hc hst hl hb, busyTimer_not_every hm]
    · rw [fireStep_staged hc hst hl hb hs, heldTimer_eq]
    · obtain ⟨hlast, hfires, hclaim⟩ := firedTimer_counted st.spec st.timer
      exact ⟨_, rfl, othersKept_modTimer w k i _, fireStep_free hc hst hl hb hs, _, findStep_modTimer hst _, rfl, hlast, hfires, hclaim,
        firedTimer_every, firedTimer_full, firedTimer_dispatch, firedTimer_once⟩

end Sys2Proof.Machine
end

section
/-!
PROOFS. The statements about TRIGGER.
-/

namespace Sys2Proof.Machine

open Sys2Proof

/-! ### TRIGGER (R29, R30, R32, R33) -/

theorem stateRefusal_live {c : Call} (h : c.state = .waiting ∨ c.state = .bound) : stateRefusal c = none := by
  rcases h with h | h <;> simp [stateRefusal, h]

theorem exec_trigger {f : RxFrame} {s : State} (h : CallFrameTaken kindTrigger f s) : exec (.trigger f) s =
    .next (State.answered f kindTrigger (field f.body 0 2) (s.frameEnd.takeTrigger (field f.body 0 2) (field8 f.body 2))) :=
  congrArg Host.Outcome.next (callFrame_taken h _)

theorem takeTrigger_beyond {s : State} {k i : Nat} {c : Call} (hc : s.findCall k = some c) (hlive : c.state = .waiting ∨ c.state = .bound)
    (hst : c.steps[i]? = none) : s.takeTrigger k i = (s, .badValue) := by
  simp [State.takeTrigger, hc, stateRefusal_live hlive, hst]

theorem takeTrigger_step {s : State} {k i : Nat} {c : Call} {st : Step} (hc : s.findCall k = some c)
    (hlive : c.state = .waiting ∨ c.state = .bound) (hst : c.steps[i]? = some st) : s.takeTrigger k i = s.triggerStep k i c st := by
  simp [State.takeTrigger, hc, stateRefusal_live hlive, hst]

/-- A call frame whose taking comes to a state and a code is answered with that code from that state. -/
theorem takesAnswering_answered {c : Instr} {kind : Nat} {f : RxFrame} {s u : State} {r : State × AnswerCode} {code : AnswerCode} {P : State → Prop}
    (h : exec c s = .next (State.answered f kind (field f.body 0 2) r)) (hr : r = (u, code)) (hp : P u) :
    TakesAnswering c f kind (field f.body 0 2) code s P := by
  subst hr
  exact takesAnswering_of h hp

/-- A TRIGGER is answered by its step's row of R33. -/
theorem trigger_answers {f : RxFrame} {s u : State} {c : Call} {st : Step} {code : AnswerCode} {P : State → Prop}
    (hf : CallFrameTaken kindTrigger f s) (hc : s.findCall (field f.body 0 2) = some c) (hlive : c.state = .waiting ∨ c.state = .bound)
    (hst : c.steps[field8 f.body 2]? = some st)
    (ht : s.frameEnd.triggerStep (field f.body 0 2) (field8 f.body 2) c st = (u, code)) (hp : P u) :
    TakesAnswering (.trigger f) f kindTrigger (field f.body 0 2) code s P :=
  takesAnswering_answered (exec_trigger hf) ((takeTrigger_step (s := s.frameEnd) hc hlive hst).trans ht) hp

section TriggerRows

variable {s : State} {k i : Nat} {c : Call} {st : Step}

theorem triggerStep_done (hd : st.timer.state = .done) : s.triggerStep k i c st = (s, .badValue) := by
  simp [State.triggerStep, hd]

theorem triggerStep_held (hh : st.timer.state = .held) (hm : st.spec.mode = .manual) : s.triggerStep k i c st = (s, .staged) := by
  simp [State.triggerStep, hh, hm]

theorem triggerStep_busy_manual (hd : st.timer.state ≠ .done) (hm : st.spec.mode = .manual) (hh : st.timer.state ≠ .held)
    (hb : s.stepBusy k i st = true) : s.triggerStep k i c st = (s.modTimer k i (busyTimer st.spec), .busy) := by
  simp [State.triggerStep, hd, hh, hm, hb]

theorem triggerStep_busy_other (hd : st.timer.state ≠ .done) (hm : st.spec.mode ≠ .manual) (hb : s.stepBusy k i st = true) :
    s.triggerStep k i c st = (s, .busy) := by
  simp [State.triggerStep, hd, hm, hb]

theorem triggerStep_staged_manual (hd : st.timer.state ≠ .done) (hm : st.spec.mode = .manual) (hh : st.timer.state ≠ .held)
    (hb : s.stepBusy k i st = false) (hc : c.staged ≠ none) : s.triggerStep k i c st = (s.modTimer k i (heldTimer st.spec), .staged) := by
  simp [State.triggerStep, hd, hh, hm, hb, Option.isSome_iff_ne_none, hc]

theorem triggerStep_staged_other (hd : st.timer.state ≠ .done) (hm : st.spec.mode ≠ .manual) (hb : s.stepBusy k i st = false)
    (hc : c.staged ≠ none) : s.triggerStep k i c st = (s, .busy) := by
  simp [State.triggerStep, hd, hm, hb, Option.isSome_iff_ne_none, hc]

theorem triggerStep_free (hd : st.timer.state ≠ .done) (hm : st.spec.mode = .manual → st.timer.state ≠ .held)
    (hb : s.stepBusy k i st = false) (hc : c.staged = none) : s.triggerStep k i c st = s.triggerFire k i st := by
  have hh : (st.spec.mode == .manual && st.timer.state == .held) = false := by simpa using hm
  simp [State.triggerStep, hd, hh, hb, hc]

end TriggerRows

/-- Settles O18: the step's row of R33 is the last one, and its firing is by its mode. -/
theorem triggerHandsOver : Obligations.TriggerHandsOver := by
  intro f s c st hf key i hc hlive hstaged hst hd hm hb
  have htake := triggerStep_free (s := s.frameEnd) hd hm hb hstaged
  by_cases hman : st.spec.mode = .manual
  · have hfire : s.frameEnd.triggerFire key i st = ((s.frameEnd.modTimer key i (firedTimer st.spec)).pushOrig
        (s.frameEnd.stepOrig key i st.spec true), if s.origRefused st.spec.cls then .full else .done) := by
      simp only [State.triggerFire, hman]
      rfl
    refine trigger_answers hf hc hlive hst (htake.trans hfire) ⟨_, _, rfl, rfl, othersKept_modTimer s.frameEnd key i _, rfl, rfl, rfl, rfl, rfl,
      rfl, rfl, fun h => absurd hman h, fun _ => ⟨rfl, ?_⟩⟩
    rw [firedTimer_manual hman]
    exact findCall_modTimer_self (s := s.frameEnd) hc i _
  · have hfire : s.frameEnd.triggerFire key i st = (s.frameEnd.pushOrig (s.frameEnd.stepOrig key i st.spec false),
        if s.origRefused st.spec.cls then .full else .done) := by
      unfold State.triggerFire
      cases hmode : st.spec.mode
      case manual => exact absurd hmode hman
      all_goals rfl
    exact trigger_answers hf hc hlive hst (htake.trans hfire) ⟨_, _, rfl, rfl, OthersKept.refl key s, rfl, rfl, rfl, rfl, rfl, rfl, rfl,
      fun _ => ⟨rfl, rfl⟩, fun h => absurd h hman⟩

/-- Settles O19, row by row. -/
theorem triggerRowsAnswer : Obligations.TriggerRowsAnswer := by
  intro f s c hf key i same timed hc hlive
  have htimed : ∀ g, timed g (s.frameEnd.modTimer key i g) := fun g =>
    ⟨rfl, othersKept_modTimer s.frameEnd key i g, findCall_modTimer_self (s := s.frameEnd) hc i g⟩
  refine ⟨fun hnone =>
    takesAnswering_answered (exec_trigger hf) (takeTrigger_beyond (s := s.frameEnd) hc hlive hnone) rfl,
    fun st hst => ⟨fun hd => ?_, fun hh hm => ?_, fun hd hb => ⟨fun hm hh => ?_, fun hm => ?_⟩, fun hd hb hstaged => ⟨fun hm hh => ?_, fun hm => ?_⟩⟩⟩
  · exact trigger_answers hf hc hlive hst (triggerStep_done hd) rfl
  · exact trigger_answers hf hc hlive hst (triggerStep_held hh hm) rfl
  · refine trigger_answers hf hc hlive hst (triggerStep_busy_manual hd hm hh hb) ?_
    rw [busyTimer_not_every (by simp [hm])]
    exact htimed _
  · exact trigger_answers hf hc hlive hst (triggerStep_busy_other hd hm hb) rfl
  · refine trigger_answers hf hc hlive hst (triggerStep_staged_manual hd hm hh hb hstaged) ?_
    rw [heldTimer_eq, if_pos hm]
    exact htimed _
  · exact trigger_answers hf hc hlive hst (triggerStep_staged_other hd hm hb hstaged) rfl

end Sys2Proof.Machine
end

section
/-!
PROOFS. The statements about the DOORS, APPROACH and EVAC pins.
-/

namespace Sys2Proof.Machine

open Sys2Proof

/-! ### DOORS (R28, R43, R44) -/

theorem armable_iff (t : StepState) : t.armable = true ↔ t ≠ .held ∧ t ≠ .done ∧ t ≠ .skipped .late := by
  rcases t with _ | _ | _ | _ | r | _
  case skipped => cases r <;> simp [StepState.armable]
  all_goals simp [StepState.armable]

theorem doorsStep_arms {w : State} {k i : Nat} {st : Step} (h : w.findStep k i = some st) (hm : st.spec.mode = .onDispatch)
    (ha : st.timer.state.armable = true) : w.doorsStep k i = w.armStep k i st.spec := by
  simp [State.doorsStep, h, hm, ha]

theorem doorsStep_reported {w : State} {k i : Nat} {st : Step} (h : w.findStep k i = some st) : DoorsReported w (w.doorsStep k i) k i st where
  arms hm hh hd hlate := by
    rw [doorsStep_arms h hm ((armable_iff _).mpr ⟨hh, hd, hlate⟩)]
    exact armStep_begins w k i st.spec
  kept hx := by
    have hno : ¬ (st.spec.mode = .onDispatch ∧ st.timer.state.armable = true) := by
      rw [armable_iff]
      tauto
    simp only [State.doorsStep, h, if_neg hno]

theorem noted_armable {st st' : Step} (h : st' = st ∨ st' = st.noted) (ha : st.timer.state.armable = true) :
    st'.spec = st.spec ∧ st'.timer.state.armable = true := by
  rcases h with rfl | rfl
  · exact ⟨rfl, ha⟩
  · refine ⟨rfl, ?_⟩
    simp only [Step.noted, fullTimer]
    split
    · rfl
    · exact ha

/-- An ON_DISPATCH step with a delay above 0 counts it after a DOORS edge reported for its call, whatever the other steps do (R28). -/
theorem doorsSteps_count {s : State} {k i : Nat} {c : Call} {st : Step} (hc : s.findCall k = some c) (hst : c.steps[i]? = some st)
    (hm : st.spec.mode = .onDispatch) (ha : st.timer.state.armable = true) (ho : 0 < st.spec.offset) :
    ∃ st', ((List.range c.steps.length).foldl (fun w i => w.doorsStep k i) s).findStep k i = some st' ∧ st'.timer.state = .counting ∧
      st'.timer.remaining = some st.spec.offset.toNat := by
  obtain ⟨hlt, -⟩ := List.getElem?_eq_some_iff.mp hst
  obtain ⟨v, -, hbefore, hafter⟩ := eachStep_visits doorsStep_work (fun s _ _ h => doorsStep_noted h s)
    (List.Nodup.map (f := fun i => (k, i)) (fun a b hab => (Prod.mk.inj hab).2) (List.nodup_range (n := c.steps.length)))
    (List.mem_map.mpr ⟨i, List.mem_range.mpr hlt, rfl⟩) s
  obtain ⟨st₁, hst₁, e₁⟩ := hbefore st ((findStep_of_findCall hc).trans hst)
  obtain ⟨hspec, harm⟩ := noted_armable e₁ ha
  have hdoors : v.doorsStep k i = v.modTimer k i (fun m => { m with state := .counting, remaining := some st.spec.offset.toNat }) := by
    rw [doorsStep_arms hst₁ (by rw [hspec, hm]) harm, hspec]
    exact (armStep_begins v k i st.spec).counts ho
  obtain ⟨st₂, hst₂, e₂⟩ := hafter _ (by rw [hdoors]; exact findStep_modTimer hst₁ _)
  obtain ⟨-, hstate, hrem, -⟩ := noted_counting e₂ rfl
  rw [eachStep_range] at hst₂
  exact ⟨st₂, hst₂, hstate, hrem⟩

/-- A platform whose DOORS have risen (R43). -/
def Plat.doorsRisen (r : Plat) : Plat := { r with doors := true, state := if r.state = .occupied then .dispatch else r.state }

theorem exec_doorsRise {p : PlatId} {s : State} (h : (s.pm.get p).doors = false) :
    exec (.doorsRise p) s = .next ((s.modPlat p (fun r => { r with doors := true })).doorsEdge p) := by
  refine congrArg Host.Outcome.next ?_
  simp [h]

/-- An edge that no call is told of (R43, R44). -/
theorem doorsEdge_unreported {p : PlatId} {s : State} (h : (s.pm.get p).state ≠ .occupied ∨ (s.pm.get p).bound = none) :
    (s.modPlat p (fun r => { r with doors := true })).doorsEdge p = s.modPlat p Plat.doorsRisen := by
  unfold State.doorsEdge
  dsimp only
  rw [modPlat_modPlat, modPlat_plat, modPlat_plat]
  by_cases ho : (s.pm.get p).state = .occupied
  · have hb : (s.pm.get p).bound = none := h.resolve_left (not_not.mpr ho)
    simp [ho, hb, State.modPlat, Plat.doorsRisen]
  · simp [ho, State.modPlat, Plat.doorsRisen]

/-- An edge reported for the call bound to an OCCUPIED platform (R43, R44). -/
theorem doorsEdge_reported {p : PlatId} {s : State} {key : Nat} (ho : (s.pm.get p).state = .occupied) (hb : (s.pm.get p).bound = some key) :
    (s.modPlat p (fun r => { r with doors := true })).doorsEdge p =
      (s.modPlat p Plat.doorsRisen).eachStep ((s.modPlat p Plat.doorsRisen).stepRefsOf key) State.doorsStep := by
  unfold State.doorsEdge
  dsimp only
  rw [modPlat_modPlat, modPlat_plat, modPlat_plat]
  simp only [ho, hb, if_true]
  simp [State.modPlat, Plat.doorsRisen, ho]

theorem doorsEdge_work (p : PlatId) (s : State) :
    StepWork (s.modPlat p Plat.doorsRisen) ((s.modPlat p (fun r => { r with doors := true })).doorsEdge p) := by
  by_cases h : (s.pm.get p).state ≠ .occupied ∨ (s.pm.get p).bound = none
  · rw [doorsEdge_unreported h]
    exact .refl _
  · obtain ⟨ho, hb⟩ := not_or.mp h
    obtain ⟨key, hkey⟩ := Option.ne_none_iff_exists'.mp hb
    rw [doorsEdge_reported (not_not.mp ho) hkey]
    exact eachStep_work doorsStep_work _ _

theorem doorsClosed_eq (st : PlatState) : st.doorsClosed = if st = .dispatch then .occupied else st := by cases st <;> rfl

/-- Settles O28: the platform's record moves, and the edge's steps are taken in index order (`doorsEdge_reported`, `doorsSteps_count`). -/
theorem doorsMoveThePlatform : Obligations.DoorsMoveThePlatform := by
  refine ⟨fun w k i st h => doorsStep_reported h, fun p s => ?_⟩
  intro r
  refine ⟨fun hd => takes_of (exec_doorsRise hd) ?_, fun hd => takes_of rfl ?_, takes_of rfl rfl⟩
  · have hwork := doorsEdge_work p s
    have hplat := hwork.plats p
    rw [modPlat_plat] at hplat
    have hsteps : ∀ {key : Nat} {c : Call}, KeysAscend s → r.state = .occupied → r.bound = some key → s.findCall key = some c →
        (s.modPlat p (fun r => { r with doors := true })).doorsEdge p =
          (List.range c.steps.length).foldl (fun w i => w.doorsStep key i) (s.modPlat p Plat.doorsRisen) := by
      intro key c hk ho hb hc
      rw [doorsEdge_reported ho hb, stepRefsOf_of_find (s := s.modPlat p Plat.doorsRisen) hk hc, eachStep_range]
    refine ⟨hwork.frame, ?_, ?_, ?_, ?_, ?_, ?_, doorsEdge_unreported, fun key c hk ho hb hc => ?_,
      fun key i st hk ho hb hst hm hh hdone hlate hoff => ?_⟩
    iterate 6 rw [hplat]; rfl
    · rw [hsteps hk ho hb hc]
      simp only [State.modPlat, Plat.doorsRisen, r, ho, if_true]
    · obtain ⟨c, hc, hst'⟩ := Option.bind_eq_some_iff.mp hst
      rw [hsteps hk ho hb hc]
      exact doorsSteps_count (s := s.modPlat p Plat.doorsRisen) hc hst' hm ((armable_iff _).mpr ⟨hh, hdone, hlate⟩) hoff
  · have hr : (s.pm.get p).doors = true := hd
    simp only [hr, if_true, State.modPlat, doorsClosed_eq]
    rfl

/-! ### EVAC (R38, R39) -/

/-- What the evacuation repeat does once its timer stands at the full period: nothing when busy, else its origination is handed over (R38). -/
theorem fireEvac_eq (s : State) : s.fireEvac =
    (let v := s.setEvac { s.evac with timer := some (1000 * s.cfg.evacPeriod) }
     if v.evacBusy then v else v.pushOrig s.evacOrig) := rfl

theorem evacStop_unclaimed {s : State} (h : s.evac.lastClaim = none) : s.evacStop =
    (s.setEvac { s.evac with level := false, timer := none }).removeOrigs Orig.isEvac := by
  have hw : ((s.setEvac { s.evac with level := false, timer := none }).removeOrigs Orig.isEvac).withdrawEvac =
      (s.setEvac { s.evac with level := false, timer := none }).removeOrigs Orig.isEvac := by
    simp [State.withdrawEvac, State.removeOrigs, State.setQueue, h]
  unfold State.evacStop
  dsimp only
  rw [hw, State.removeOrigs, State.setQueue, ← h]
  rfl

theorem evacStop_claimed {s : State} {id : ClaimId} (h : s.evac.lastClaim = some id) : s.evacStop =
    (((s.setEvac { s.evac with level := false, timer := none }).removeOrigs Orig.isEvac).withdrawOwn true id).setEvac
      { level := false, timer := none, lastClaim := none } := by
  have hw : ((s.setEvac { s.evac with level := false, timer := none }).removeOrigs Orig.isEvac).withdrawEvac =
      ((s.setEvac { s.evac with level := false, timer := none }).removeOrigs Orig.isEvac).withdrawOwn true id := by
    simp [State.withdrawEvac, State.removeOrigs, State.setQueue, h]
  unfold State.evacStop
  dsimp only
  rw [hw, (withdrawOwn_side true _ id).evac]
  rfl

theorem exec_evacFall {s : State} (he : s.pins.evac = true) (hm : s.sul.mode = .running) :
    exec .evacFall s = .next (s.setPins { s.pins with evac := false }).evacStop := by
  refine congrArg Host.Outcome.next ?_
  simp [he, State.isRunning, hm]

/-- Settles O30: a start or a repeat is one firing (`fireEvac_eq`), and a fall is the stop with its withdrawal. -/
theorem evacuationRepeatsAndStops : Obligations.EvacuationRepeatsAndStops := by
  intro s fires v
  have hfires : ∀ u : State, u.cfg = s.cfg → u.sck = s.sck →
      fires (u.setEvac { u.evac with timer := some (1000 * u.cfg.evacPeriod) }) u.fireEvac := by
    intro u hcfg hsck
    rw [fireEvac_eq]
    refine ⟨evacBusy_iff _, fun hb => if_pos hb, fun hb => ⟨u.evacOrig, if_neg (by simp [hb]), rfl, rfl, rfl, ?_, ?_, rfl, ?_⟩⟩
    · rw [← hcfg]; rfl
    · rw [← hcfg]; rfl
    · simp only [State.now, ← hsck]; rfl
  have hstop : ((s.setPins { s.pins with evac := false }).setEvac { s.evac with level := false, timer := none }).removeOrigs Orig.isEvac = v := rfl
  refine ⟨fun he hm => ?_, fun he hm => ?_, fun hm hl ht => ?_, fun he hm hc => ?_, fun he hm id hc => ?_, fun he hm => ?_⟩
  · have hexec : exec .evacRise s =
        .next ((s.setPins { s.pins with evac := true }).setEvac { s.evac with level := true }).fireEvac := by
      refine congrArg Host.Outcome.next ?_
      simp [he, State.isRunning, hm, State.evacEdge]
    exact takes_of hexec (hfires ((s.setPins { s.pins with evac := true }).setEvac { s.evac with level := true }) rfl rfl)
  · refine takes_of rfl ?_
    simp [he, State.isRunning, hm, State.setPins]
  · have hexec : exec .evacTimerExpiry s = .next s.fireEvac := by
      refine congrArg Host.Outcome.next ?_
      simp [State.isRunning, hm, hl, ht]
    exact takes_of hexec (hfires s rfl rfl)
  · exact takes_of (exec_evacFall he hm) ((evacStop_unclaimed (s := s.setPins { s.pins with evac := false }) hc).trans hstop)
  · refine takes_of (exec_evacFall he hm) ((evacStop_claimed (s := s.setPins { s.pins with evac := false }) hc).trans ?_)
    exact congrArg (fun u : State => (u.withdrawOwn true id).setEvac { level := false, timer := none, lastClaim := none }) hstop
  · refine takes_of rfl ?_
    simp [he, State.isRunning, hm, State.setPins]

end Sys2Proof.Machine
end

section
/-!
PROOFS. The statement about CALLAMEND and CALLPLAN, with what a plan's records give and the value tests, each said once.
-/

namespace Sys2Proof.Machine

open Sys2Proof

/-! ### The plan part of a CALLPLAN (R20, R57) -/

/-- A test passed by each of a list's members gives the list of what it gave. -/
theorem mapM_eq_some_iff {α β : Type} {f : α → Option β} {l : List α} {m : List β} :
    l.mapM f = some m ↔ List.Forall₂ (fun a b => f a = some b) l m := by
  induction l generalizing m with
  | nil => simp [eq_comm]
  | cons a l ih =>
    simp only [List.mapM_cons, Option.bind_eq_bind, Option.pure_def, Option.bind_eq_some_iff, Option.some.injEq, ih]
    cases m with
    | nil => simp
    | cons b m => simp

theorem stepModeOf_eq (n : Nat) : stepModeOf n = [StepMode.atTime, .every, .onArrive, .onDispatch, .manual][n]? := by
  rcases n with _ | _ | _ | _ | _ | n <;> rfl

/-- The step that a record gives in a mode. -/
def StepRec.inMode (r : StepRec) (m : StepMode) : StepSpec :=
  { mode := m, ref := r.ref, offset := r.offset, period := r.period, windowEnd := r.windowEnd, gate := r.gate, limit := r.limit, cls := r.cls,
    sync := r.sync, template := r.template, target := r.target, retry := r.retry }

theorem inMode_fits_iff (r : StepRec) (m : StepMode) : (offsetOk r.offset && offsetOk r.windowEnd && 60 ≤ r.period && r.period ≤ 1800 &&
    r.limit ≤ 255 && r.cls ≤ 7 && r.template ≤ 31 && r.target ≤ 31) = true ↔ (r.inMode m).Fits := by
  simp only [offsetOk, Bool.and_eq_true, decide_eq_true_eq]
  constructor
  · rintro ⟨⟨⟨⟨⟨⟨⟨hoff, hend⟩, h60⟩, h1800⟩, hlim⟩, hcls⟩, htpl⟩, htgt⟩
    exact ⟨hoff, hend, ⟨h60, h1800⟩, hlim, hcls, htpl, htgt⟩
  · rintro ⟨hoff, hend, ⟨h60, h1800⟩, hlim, hcls, htpl, htgt⟩
    exact ⟨⟨⟨⟨⟨⟨⟨hoff, hend⟩, h60⟩, h1800⟩, hlim⟩, hcls⟩, htpl⟩, htgt⟩

/-- The step that a record holds, when each field is within its values (R20). -/
theorem spec_iff (r : StepRec) (p : StepSpec) : r.spec? = some p ↔
    [StepMode.atTime, .every, .onArrive, .onDispatch, .manual][r.mode]? = some p.mode ∧ p.Fits ∧ p = r.inMode p.mode := by
  have hspec : r.spec? = (stepModeOf r.mode).bind (fun m => if offsetOk r.offset && offsetOk r.windowEnd && 60 ≤ r.period && r.period ≤ 1800 &&
      r.limit ≤ 255 && r.cls ≤ 7 && r.template ≤ 31 && r.target ≤ 31 then some (r.inMode m) else none) := rfl
  rw [hspec, ← stepModeOf_eq, Option.bind_eq_some_iff]
  constructor
  · rintro ⟨m, hm, h⟩
    split at h
    · rename_i hfits
      cases h
      exact ⟨hm, (inMode_fits_iff r m).mp hfits, rfl⟩
    · cases h
  · rintro ⟨hm, hfits, hp⟩
    rw [hp] at hfits
    exact ⟨p.mode, hm, by rw [if_pos ((inMode_fits_iff r p.mode).mpr hfits), ← hp]⟩

/-- The revision that a record holds: a step of the index it names and of the mode the plan has there (R57). -/
theorem revisionOf_iff (plan : List StepSpec) (r : StepRec) (x : Nat × StepSpec) : revisionOf plan r = some x ↔
    x.1 = r.index ∧ r.spec? = some x.2 ∧ ∃ old, plan[r.index]? = some old ∧ x.2.mode = old.mode := by
  unfold revisionOf
  cases r.spec? with
  | none => simp
  | some p =>
    cases plan[r.index]? with
    | none => simp
    | some old =>
      simp only [Option.bind_eq_bind, Option.bind_some, Option.some.injEq, exists_eq_left']
      obtain ⟨i, q⟩ := x
      by_cases hm : p.mode = old.mode
      · rw [if_pos hm]
        simp only [Option.some.injEq, Prod.mk.injEq]
        exact ⟨fun ⟨hi, hq⟩ => ⟨hi.symm, hq, hq ▸ hm⟩, fun ⟨hi, hq, _⟩ => ⟨hi.symm, hq⟩⟩
      · rw [if_neg hm]
        exact ⟨nofun, fun ⟨_, hq, hq'⟩ => absurd (hq ▸ hq') hm⟩

theorem distinct_iff (l : List Nat) : distinct l = true ↔ l.Nodup := by
  induction l with
  | nil => simp [distinct]
  | cons a l ih => simp [distinct, ih]

theorem part_replace_iff (b : PlanBody) (plan : List StepSpec) (l : List StepSpec) : b.part? plan = some (.replace l) ↔
    b.lengthFits = true ∧ b.form = 0 ∧ b.recs.length ≤ 6 ∧ List.Forall₂ (fun r p => r.spec? = some p) b.recs l := by
  rw [← mapM_eq_some_iff]
  unfold PlanBody.part?
  rcases hf : b.form with _ | _ | n
  · by_cases h6 : b.recs.length ≤ 6 <;> simp [h6]
  · simp
  · simp

theorem part_revise_iff (b : PlanBody) (plan : List StepSpec) (v : List (Nat × StepSpec)) : b.part? plan = some (.revise v) ↔
    b.lengthFits = true ∧ b.form = 1 ∧ 1 ≤ b.recs.length ∧ (b.recs.map (·.index)).Nodup ∧
      List.Forall₂ (fun r x => revisionOf plan r = some x) b.recs v := by
  rw [← mapM_eq_some_iff, ← distinct_iff]
  unfold PlanBody.part?
  rcases hf : b.form with _ | _ | n
  · simp
  · simp [and_assoc]
  · simp

theorem length_stepRecs (n : Nat) (b : List Byte) : (stepRecs n b).length = n := by
  induction n generalizing b with
  | zero => rfl
  | succ n ih => simp [stepRecs, ih]

/-! ### Staging (R56 to R58) -/

/-- An amendment staged in its call: nothing else changes (R58). -/
theorem stage_staged {s : State} {key : Nat} {c : Call} (hc : s.findCall key = some c) (a : Amendment) :
    s.stage key a = { s with ct := (s.stage key a).ct } ∧ OthersKept key s (s.stage key a) ∧
      (s.stage key a).findCall key = some { c with staged := some ((c.staged.getD Amendment.empty).merge a) } :=
  ⟨rfl, othersKept_modCall s key _ fun _ => rfl, findCall_modCall_self hc fun _ => rfl⟩

section TakenFrames

variable {s : State} {c : Call}

theorem takeAmend_badValue {b : AmendBody} (hc : s.findCall b.key = some c) (hlive : c.state = .waiting ∨ c.state = .bound)
    (hv : b.valuesOk c = false) : s.takeAmend b = (s, .badValue) := by
  simp [State.takeAmend, hc, stateRefusal_live hlive, hv]

theorem takeAmend_notOwner {b : AmendBody} (hc : s.findCall b.key = some c) (hlive : c.state = .waiting ∨ c.state = .bound)
    (hv : b.valuesOk c = true) (hs : s.unserved b.parts = true) : s.takeAmend b = (s, .notOwner) := by
  simp [State.takeAmend, hc, stateRefusal_live hlive, hv, hs]

theorem takeAmend_staged {b : AmendBody} (hc : s.findCall b.key = some c) (hlive : c.state = .waiting ∨ c.state = .bound)
    (hv : b.valuesOk c = true) (hs : s.unserved b.parts = false) : s.takeAmend b = (s.stage b.key b.parts, .staged) := by
  simp [State.takeAmend, hc, stateRefusal_live hlive, hv, hs]

theorem takePlan_badValue {b : PlanBody} (hc : s.findCall b.key = some c) (hlive : c.state = .waiting ∨ c.state = .bound)
    (hp : b.part? c.revisedPlan = none) : s.takePlan b = (s, .badValue) := by
  simp [State.takePlan, hc, stateRefusal_live hlive, hp]

theorem takePlan_staged {b : PlanBody} (hc : s.findCall b.key = some c) (hlive : c.state = .waiting ∨ c.state = .bound)
    {part : PlanPart} (hp : b.part? c.revisedPlan = some part) :
    s.takePlan b = (s.stage b.key { Amendment.empty with plan := some part }, .staged) := by
  simp [State.takePlan, hc, stateRefusal_live hlive, hp]

end TakenFrames

theorem exec_callamend {f : RxFrame} {s : State} (h : CallFrameTaken kindCallamend f s) : exec (.callamend f) s =
    .next (State.answered f kindCallamend (field f.body 0 2) (s.frameEnd.takeAmend (readCallamend f.body))) :=
  congrArg Host.Outcome.next (callFrame_taken h _)

theorem exec_callplan {f : RxFrame} {s : State} (h : CallFrameTaken kindCallplan f s) : exec (.callplan f) s =
    .next (State.answered f kindCallplan (field f.body 0 2) (s.frameEnd.takePlan (readCallplan f.body))) :=
  congrArg Host.Outcome.next (callFrame_taken h _)

/-! ### The value tests of a CALLAMEND (R56) -/

theorem carries_iff (a : Amendment) : a.carries = true ↔
    a.arr ≠ none ∨ a.dep ≠ none ∨ a.platform ≠ none ∨ a.coaches ≠ none ∨ a.points ≠ none ∨ a.plan ≠ none := by
  simp only [Amendment.carries, Bool.or_eq_true, Option.isSome_iff_ne_none, or_assoc]

theorem partOk_iff {α : Type} (t : α → Bool) (o : Option α) : partOk t o = true ↔ ∀ v, o = some v → t v = true := by
  cases o <;> simp [partOk]

theorem pick_pick (x y z : Option Nat) : pick x (pick y z) = if x ≠ none then x else if y ≠ none then y else z := by
  cases x <;> cases y <;> rfl

theorem turnOk_iff (c : Call) (a : Amendment) : c.turnOk a = true ↔ (c.kind = .turn →
    ∀ x y, pick a.arr (pick (c.staged.getD Amendment.empty).arr c.expArr) = some x →
      pick a.dep (pick (c.staged.getD Amendment.empty).dep c.expDep) = some y → x ≤ y) := by
  unfold Call.turnOk Call.stagedParts
  rw [Bool.or_eq_true, departsAfter_iff, bne_iff_ne]
  tauto

theorem codeOk_iff (x : Nat) : codeOk x = true ↔ 1 ≤ x ∧ x ≤ 2047 := by simp [codeOk]

/-- The value tests of a CALLAMEND, one by one (R56). -/
theorem amend_valuesOk_iff (b : AmendBody) (c : Call) : b.valuesOk c = true ↔
    b.parts.carries = true ∧ (∀ x, b.parts.arr = some x → x ≤ 107999) ∧ (∀ x, b.parts.dep = some x → x ≤ 107999) ∧
      (∀ n, b.parts.coaches = some n → 1 ≤ n ∧ n ≤ 16) ∧ (∀ l, b.parts.points = some l → l.length ≤ 20 ∧ ∀ x ∈ l, 1 ≤ x ∧ x ≤ 2047) ∧
      (∀ n, b.parts.platform = some n → 1 ≤ n ∧ n ≤ 99) ∧ b.countFits = true ∧ c.turnOk b.parts = true := by
  simp only [AmendBody.valuesOk, Bool.and_eq_true, timeOk_iff, partOk_iff, decide_eq_true_eq, List.all_eq_true, codeOk_iff, and_assoc]

/-- Settles O14: what a plan's records give, then each frame by the tests it passes. -/
theorem amendmentsAreStaged : Obligations.AmendmentsAreStaged := by
  refine ⟨fun b plan => ?_, fun b => ⟨rfl, length_stepRecs _ _, by simp [readCallplan]⟩, fun f s c hc hlive => ?_⟩
  · intro gives
    have hgives : ∀ r p, r.spec? = some p ↔ gives r p := spec_iff
    refine ⟨fun l => ?_, fun v => ?_⟩
    · simp only [part_replace_iff, hgives]
    · simp only [part_revise_iff, revisionOf_iff, hgives]
  · refine ⟨fun hf hv hs => ?_, fun hf part hp => ?_, ?_⟩
    · exact takesAnswering_answered (exec_callamend hf) (takeAmend_staged (s := s.frameEnd) (b := readCallamend f.body) hc hlive hv hs)
        (stage_staged (s := s.frameEnd) hc _)
    · exact takesAnswering_answered (exec_callplan hf) (takePlan_staged (s := s.frameEnd) (b := readCallplan f.body) hc hlive hp)
        (stage_staged (s := s.frameEnd) hc _)
    · intro b a old first same
      refine ⟨?_, fun hf hv => ?_, fun hf hv hs => ?_, fun hf hp => ?_⟩
      · rw [amend_valuesOk_iff, carries_iff, turnOk_iff, pick_pick, pick_pick]
      · exact takesAnswering_answered (exec_callamend hf) (takeAmend_badValue (s := s.frameEnd) hc hlive hv) rfl
      · exact takesAnswering_answered (exec_callamend hf) (takeAmend_notOwner (s := s.frameEnd) hc hlive hv hs) rfl
      · exact takesAnswering_answered (exec_callplan hf) (takePlan_badValue (s := s.frameEnd) hc hlive hp) rfl

end Sys2Proof.Machine
end

section
/-!
PROOFS. The statement about the configuration area: the bytes of its parts, the fields they give, and the end of loading.
-/

namespace Sys2Proof.Machine

open Sys2Proof

/-! ### Bytes of a part of the area (R176, R180) -/

theorem getD_take_drop (b : List Byte) {n w i : Nat} (h : i < w) : ((b.drop n).take w).getD i 0 = b.getD (n + i) 0 := by
  simp [List.getD_eq_getElem?_getD, h]

theorem field8_take_drop (b : List Byte) {n w i : Nat} (h : i < w) : field8 ((b.drop n).take w) i = field8 b (n + i) :=
  congrArg BitVec.toNat (getD_take_drop b h)

theorem field_take_drop (b : List Byte) {n w i m : Nat} (h : i + m ≤ w) : field ((b.drop n).take w) i m = field b (n + i) m := by
  refine congrArg beNat (List.map_congr_left fun k hk => ?_)
  have hk : k < m := List.mem_range.mp hk
  rw [getD_take_drop b (by omega), Nat.add_assoc]

theorem field_drop (b : List Byte) (n i m : Nat) : field (b.drop n) i m = field b (n + i) m := by
  simp [field, List.getD_eq_getElem?_getD, Nat.add_assoc]

theorem getElem?_parts (w : Nat) {n i : Nat} (b : List Byte) (h : i < n) : (parts w n b)[i]? = some ((b.drop (w * i)).take w) := by
  induction n generalizing i b with
  | zero => omega
  | succ n ih =>
    cases i with
    | zero => simp [parts]
    | succ i =>
      rw [parts, List.getElem?_cons_succ, ih _ (by omega), List.drop_drop]
      congr 3
      ring

/-- A table of `n` records of `w` bytes from byte `o` on: the record `i` is read from its own bytes. -/
theorem getD_parts_map {α : Type} (f : List Byte → α) (d : α) (image : List Byte) (o w : Nat) {n i : Nat} (h : i < n) :
    ((parts w n (image.drop o)).map f).getD i d = f ((image.drop (o + w * i)).take w) := by
  rw [List.getD_eq_getElem?_getD, List.getElem?_map, getElem?_parts w _ h, List.drop_drop]
  rfl

theorem bitSet_eq (n i : Nat) : bitSet n i = n.testBit i := by
  rw [Nat.testBit_eq_decide_div_mod_eq]
  exact (Bool.beq_eq_decide_eq _ _)

/-- Bytes spell a number most significant first, so a bit of it is a bit of its own byte, counted from the last (R176). -/
theorem testBit_beNat (b : List Byte) {i : Nat} (h : i < 8 * b.length) :
    (beNat b).testBit i = (b.getD (b.length - 1 - i / 8) 0).getLsbD (i % 8) := by
  induction b using List.reverseRecOn generalizing i with
  | nil => simp at h
  | append_singleton l x ih =>
    have hsplit : beNat (l ++ [x]) = 2 ^ 8 * beNat l + x.toNat := by
      simp [beNat, Nat.mul_comm]
    rw [hsplit, Nat.testBit_two_pow_mul_add _ x.isLt]
    simp only [List.length_append, List.length_singleton] at h ⊢
    by_cases h8 : i < 8
    · have hlast : l.length + 1 - 1 - i / 8 = l.length := by omega
      rw [if_pos h8, hlast, Nat.mod_eq_of_lt h8]
      simp [List.getD_eq_getElem?_getD, BitVec.getLsbD]
    · have hpos : l.length + 1 - 1 - i / 8 = l.length - 1 - (i - 8) / 8 := by omega
      have hlt : l.length - 1 - (i - 8) / 8 < l.length := by omega
      have hmod : i % 8 = (i - 8) % 8 := by omega
      rw [if_neg h8, ih (by omega), hpos, hmod]
      simp [List.getD_eq_getElem?_getD, List.getElem?_append_left hlt]

/-- A bit of a number spelt by `w` bytes of the area. -/
theorem getLsbD_beNat_part (m : Nat) (b : List Byte) {n w i : Nat} (hm : i < m) (hw : i < 8 * w) (hl : n + w ≤ b.length) :
    (BitVec.ofNat m (beNat ((b.drop n).take w))).getLsbD i = (b.getD (n + (w - 1 - i / 8)) 0).getLsbD (i % 8) := by
  have hlen : ((b.drop n).take w).length = w := by
    simp only [List.length_take, List.length_drop]
    omega
  rw [BitVec.getLsbD_ofNat, testBit_beNat _ (by rw [hlen]; exact hw), hlen, getD_take_drop b (by omega)]
  simp [hm]

/-! ### Fields of the area (R79, R109, R124, R136, R144, R180, R181) -/

theorem loadSlot_eq (b : List Byte) : loadSlot b =
    [Slot.phrase (min 2047 (field b 1 2)), .dest, .origin, .platform, .timeArr, .timeDep, .delay, .coaches, .calling,
      .ifLate (min 15 (field b 1 2)), .ifChanged (min 15 (field b 1 2))].getD (field8 b 0) (.phrase 0) := by
  unfold loadSlot
  generalize field8 b 0 = n
  rcases n with _ | _ | _ | _ | _ | _ | _ | _ | _ | _ | _ | n <;> rfl

theorem accRowOf_code (n : Nat) {c : Nat} (h : c < 8) :
    [AccCode.accept, .quiet, .refuse, .refuse][n / 4 ^ c % 4]? = some ((accRowOf n).code c) := by
  have hcode : (accRowOf n).code c = (accCodeOf (rowBits n c)).getD .refuse := by
    interval_cases c <;> rfl
  have hread : ∀ m < 4, [AccCode.accept, .quiet, .refuse, .refuse][m]? = some ((accCodeOf m).getD .refuse) := by decide
  rw [hcode]
  exact hread _ (Nat.mod_lt _ (by decide))

theorem loadPaired_eq (v : Nat) (z : ZoneId) : loadPaired v z = v.testBit (z.toNat / 2) := by
  rw [loadPaired, bitSet_eq]
  cases z <;> rfl

theorem field8_zoneBytes (sec : List Byte) (z : ZoneId) {i : Nat} (h : i < 11) : field8 (zoneBytes sec z) i = field8 sec (2 + i + 11 * z.toNat) := by
  rw [zoneBytes, field8_take_drop sec h]
  congr 1
  omega

theorem loadLuZone_eq (sec : List Byte) (z : ZoneId) : loadLuZone (zoneBytes sec z) =
    { k := min 31 (field8 sec (9 + 11 * z.toNat)), window := none, lastPlayEnd := none, level := 0, mult := 32,
      initK := min 31 (field8 sec (9 + 11 * z.toNat)), q := min 60 (field8 sec (4 + 11 * z.toNat)),
      slope := min 8 (field8 sec (5 + 11 * z.toNat)), cmax := min 40 (field8 sec (6 + 11 * z.toNat)),
      dnight := min 40 (field8 sec (7 + 11 * z.toNat)), dspill := min 20 (field8 sec (8 + 11 * z.toNat)) } := by
  simp [loadLuZone, LuZone.init, field8_zoneBytes]

/-- A zone and its levels at the end of a good load (R109, R124, R144, R181). -/
theorem zoneLoaded (sec : List Byte) (z : ZoneId) (amp ampPartner : Bool) :
    ZoneLoaded sec z amp ampPartner (loadZone (zoneBytes sec z) z (loadPaired (field8 sec 46) z) amp ampPartner) (loadLuZone (zoneBytes sec z)) where
  base := congrArg (min 120) (field8_zoneBytes sec z (by decide))
  floor := congrArg (min 120) (field8_zoneBytes sec z (by decide))
  level := loadLuZone_eq sec z
  row c hc := by
    have hrow : field (zoneBytes sec z) 8 2 = field sec (10 + 11 * z.toNat) 2 := by
      rw [zoneBytes, field_take_drop sec (by decide)]
      congr 1
      omega
    rw [← hrow]
    exact accRowOf_code _ hc
  neighbours y := by
    by_cases hpair : (field8 sec 46).testBit (z.toNat / 2) = true <;>
      simp [loadZone, loadNeighbours, bitSet_eq, loadPaired_eq, field8_zoneBytes, and_assoc, hpair]
  pair := by
    rw [loadPaired_eq]
    simp [loadZone]
  starts := ⟨rfl, rfl, rfl, rfl⟩

theorem loadTemplate_length (b : List Byte) : (loadTemplate b).length = min 16 (field8 b 0) := by
  have hparts : ∀ (w n : Nat) (b : List Byte), (parts w n b).length = n := by
    intro w n
    induction n with
    | zero => exact fun _ => rfl
    | succ n ih => exact fun b => congrArg (· + 1) (ih (b.drop w))
  rw [loadTemplate, List.length_map, hparts]

theorem loadTemplate_slot (b : List Byte) {i : Nat} (h : i < min 16 (field8 b 0)) :
    (loadTemplate b)[i]? = some (loadSlot ((b.drop (1 + 3 * i)).take 3)) := by
  rw [loadTemplate, List.getElem?_map, getElem?_parts 3 _ h, List.drop_drop]
  rfl

theorem loadBases_eq (image : List Byte) : loadBases (image.drop 6016) =
    { hour := min 2047 (field image 6016 2), minute := min 2047 (field image 6018 2), oclock := min 2047 (field image 6020 2),
      delay := min 2047 (field image 6022 2), platform := min 2047 (field image 6024 2), coaches := min 2047 (field image 6026 2),
      andOthers := min 2047 (field image 6028 2) } := by
  simp [loadBases, field_drop]

/-- The fields and tables at the end of a good load, each from its own bytes of a whole area (R180, R181). -/
theorem areaLoaded {image sec : List Byte} {t : State} (hlen : image.length = 20359) (hcfg : t.cfg = loadCfg image sec) (hlu : t.lu = loadLu sec)
    (htemplates : t.cmp.templates = (loadCmp image).templates) (hbases : t.cmp.bases = (loadCmp image).bases) : AreaLoaded image sec t where
  debounce := by rw [hcfg]; rfl
  pclass c hc := by
    rw [hlu]
    simp [loadLu, List.getD_eq_getElem?_getD, hc]
  emergency := by rw [hlu]; rfl
  night := by rw [hlu]; exact ⟨rfl, rfl⟩
  offsets := by rw [hcfg]; exact ⟨rfl, rfl, rfl⟩
  approach := by rw [hcfg]; rfl
  evac := by rw [hcfg]; exact ⟨rfl, rfl, rfl⟩
  platforms n hn := by
    rw [hcfg, loadCfg, List.getElem?_map, getElem?_parts 74 image hn]
    simp [loadPlatform, field8_take_drop]
  groups g i hg hi := by
    rw [hcfg, loadCfg, getD_parts_map _ _ _ _ _ hg]
    exact getLsbD_beNat_part 192 image hi hi (by omega)
  targets j g hj hg := by
    rw [hcfg, loadCfg, getD_parts_map _ _ _ _ _ hj]
    exact getLsbD_beNat_part 32 image hg hg (by omega)
  templates j hj := by
    rw [htemplates, loadCmp, getD_parts_map _ _ _ _ _ hj, loadTemplate_length, field8_take_drop image (by decide)]
    rfl
  slots j i hj hi := by
    intro b v
    have h16 : i < 16 := lt_of_lt_of_le hi (Nat.min_le_left _ _)
    rw [htemplates, loadCmp, getD_parts_map _ _ _ _ _ hj, loadTemplate_slot _ (by rw [field8_take_drop image (by decide)]; exact hi), loadSlot_eq,
      field_take_drop _ (by decide), field8_take_drop _ (by decide), field_take_drop image (by omega), field8_take_drop image (by omega)]
    have hb : 4448 + 49 * j + (1 + 3 * i + 0) = b := by omega
    have hv : 4448 + 49 * j + (1 + 3 * i + 1) = b + 1 := by omega
    rw [hb, hv]
  bases := by rw [hbases]; exact loadBases_eq image
  directory code h1 h2 := by
    intro b
    have hcode : code ≠ 0 := by omega
    rw [State.dirEntry, if_neg hcode, hcfg, loadCfg, getD_parts_map _ _ _ _ _ (by omega), loadDirEntry, field_take_drop image (by decide),
      field_take_drop image (by decide)]
    rfl

/-! ### The end of loading (R38, R40, R41, R181, R182) -/

theorem occMoved_eq (s : State) (p : PlatId) : s.occMoved p =
    s.modPlat p (fun r => { r with wait := if r.occ = r.accOcc then none else some s.cfg.debounceMs }) := by
  unfold State.occMoved
  split <;> simp [State.modPlat, *]

/-- Each platform's debounce wait begins or is discarded (R41). -/
theorem startPm_eq (s : State) : s.startPm =
    s.setPm (s.pm.map (fun r => { r with wait := if r.occ = r.accOcc then none else some s.cfg.debounceMs })) := by
  rw [State.startPm, occMoved_eq, occMoved_eq]
  rfl

/-- A load that fails enters STORE_FAULT (R40, R41, R182, R184). -/
theorem endLoading_entersStoreFault (s : State) {o : LoadOutcome} (h : o ≠ .good) : EntersStoreFault o s (s.endLoading o) := by
  have hmode : s.modeFor o = .storeFault := by cases o <;> first | rfl | exact absurd rfl h
  have hend : s.endLoading o =
      (s.setSul { s.sul with mode := .storeFault, phase := .over, outcome := some o, image := [] }).faultValues.startPm := by
    rw [endLoading_eq, if_neg (by simp [hmode]), State.loadEnded, if_neg h, hmode]
  rw [hend, startPm_eq]
  refine ⟨rfl, rfl, rfl, rfl, rfl, rfl, fun p => by cases p <;> rfl, fun z => ?_⟩
  cases z <;> exact ⟨rfl, rfl, rfl, rfl, rfl⟩

/-- What the entry to RUNNING or LISTEN_ONLY leaves of the evacuation state and of an empty origination queue (R38, R182). -/
structure EvacEntered (v : State) (e : Evac) (q : List Orig) : Prop where
  unnumbered : v.nodeNo = none → e = v.evac ∧ q = []
  low : v.nodeNo ≠ none → v.pins.evac = false → e = { v.evac with level := false } ∧ q = []
  high : v.nodeNo ≠ none → v.pins.evac = true →
    e = { v.evac with level := true, timer := some (1000 * v.cfg.evacPeriod) } ∧
      (Busy (v.setEvac e) .evac v.evac.lastClaim → q = []) ∧ (¬ Busy (v.setEvac e) .evac v.evac.lastClaim → q = [v.evacOrig])

theorem pushOrig_empty {s : State} (h : s.cmp.queue = []) (o : Orig) : s.pushOrig o = s.setQueue [o] := by
  simp [State.pushOrig, Config.maxOrigs, h, origInsert]

theorem enterRunning_low {v : State} (hp : v.pins.evac = false) : v.enterRunning = v.setEvac { v.evac with level := false } := by
  simp [State.enterRunning, hp]

theorem enterRunning_high {v : State} (hp : v.pins.evac = true) : v.enterRunning =
    (let w := v.setEvac { v.evac with level := true, timer := some (1000 * v.cfg.evacPeriod) }
     if w.evacBusy then w else w.pushOrig v.evacOrig) := by
  have hfire : v.enterRunning = (v.setEvac { v.evac with level := true }).fireEvac := by simp [State.enterRunning, hp]
  exact hfire.trans (fireEvac_eq _)

theorem enterRunning_evac {v : State} (hn : v.nodeNo ≠ none) (hq : v.cmp.queue = []) :
    ∃ e q, v.enterRunning = (v.setEvac e).setQueue q ∧ EvacEntered v e q := by
  have hself : ∀ e, (v.setEvac e).setQueue [] = v.setEvac e := fun e => by
    rw [← hq]
    rfl
  have hqueue : ∀ e, (v.setEvac e).cmp.queue = [] := fun _ => hq
  by_cases hp : v.pins.evac = true
  · have hhigh := enterRunning_high hp
    dsimp only at hhigh
    by_cases hb : (v.setEvac { v.evac with level := true, timer := some (1000 * v.cfg.evacPeriod) }).evacBusy = true
    · rw [if_pos hb, ← hself] at hhigh
      exact ⟨_, _, hhigh, fun h => absurd h hn, fun _ h => by simp [hp] at h,
        fun _ _ => ⟨rfl, fun _ => rfl, fun h => absurd ((evacBusy_iff _).mp hb) h⟩⟩
    · rw [if_neg hb, pushOrig_empty (hqueue _)] at hhigh
      exact ⟨_, _, hhigh, fun h => absurd h hn, fun _ h => by simp [hp] at h,
        fun _ _ => ⟨rfl, fun h => absurd ((evacBusy_iff _).mpr h) hb, fun _ => rfl⟩⟩
  · have hlow := enterRunning_low (Bool.not_eq_true _ ▸ hp)
    rw [← hself] at hlow
    exact ⟨_, _, hlow, fun h => absurd h hn, fun _ _ => ⟨rfl, rfl⟩, fun _ h => absurd h hp⟩

/-- A platform at the end of a good load: its number from its byte of the section, its debounce wait begun or discarded (R40, R41). -/
def loadPlat (sec : List Byte) (debounceMs i : Nat) (r : Plat) : Plat :=
  { r with stationNo := min 99 (field8 sec i), wait := if r.occ = r.accOcc then none else some debounceMs }

/-- The bytes of the section that the node takes of an area (R179, R180). -/
def State.areaSection (s : State) (image : List Byte) : List Byte := (image.drop (74 * (s.sectionNo - 1))).take 74

/-- The node with the values of a good area, the evacuation state and the origination queue left as they stand then (R181). -/
def State.goodLoad (s : State) : State :=
  let sec := s.areaSection s.sul.image
  let cfg := loadCfg s.sul.image sec
  { s with
    pm := ⟨loadPlat sec cfg.debounceMs 0 s.pm.d0, loadPlat sec cfg.debounceMs 1 s.pm.d1⟩, cmp := loadCmp s.sul.image, za := s.loadZones sec,
    lu := loadLu sec, sul := { s.sul with mode := s.modeFor .good, phase := .over, outcome := some .good, image := [] }, cfg := cfg }

theorem loadZones_setLu_setCfg (s : State) (cfg : Cfg) (lu : Lu) (sec : List Byte) :
    ((s.setCfg cfg).setLu lu).loadZones sec = s.loadZones sec := rfl

theorem loadZones_setSul (s : State) (v : Sul) (sec : List Byte) : (s.setSul v).loadZones sec = s.loadZones sec := rfl

theorem loadImage_eq (s : State) (image : List Byte) : s.loadImage image =
    ((((s.setCfg (loadCfg image (s.areaSection image))).setLu (loadLu (s.areaSection image))).setCmp (loadCmp image)).setZa
      (s.loadZones (s.areaSection image))).setPm
        ⟨{ s.pm.d0 with stationNo := min 99 (field8 (s.areaSection image) 0) },
          { s.pm.d1 with stationNo := min 99 (field8 (s.areaSection image) 1) }⟩ := by
  simp only [State.loadImage, State.areaSection, loadPlatform, loadZones_setLu_setCfg, State.setZa_pm, State.setCmp_pm, State.setLu_pm, State.setCfg_pm]

theorem loadEnded_good (s : State) : (s.loadEnded .good).startPm = s.goodLoad := by
  have hsec : ∀ m, (s.setSul { s.sul with mode := m, phase := .over, outcome := some .good, image := [] }).areaSection = s.areaSection := fun _ => rfl
  unfold State.loadEnded State.goodLoad
  dsimp only
  rw [if_pos rfl, startPm_eq, loadImage_eq, hsec, loadZones_setSul]
  simp only [State.setPm, State.setZa, State.setCmp, State.setLu, State.setCfg, State.setSul, Duo.map, loadPlat]
  rfl

/-- A good load: the image's values, the platforms' waits, and the evacuation state by the mode entered (R38, R41, R182). -/
theorem endLoading_good (s : State) : ∃ e q, s.endLoading .good = (s.goodLoad.setEvac e).setQueue q ∧ EvacEntered s.goodLoad e q := by
  rw [endLoading_eq, loadEnded_good]
  have hnode : s.goodLoad.nodeNo = s.nodeNo := rfl
  by_cases hn : s.nodeNo = none
  · have hmode : s.modeFor .good = .listenOnly := by simp [State.modeFor, hn]
    rw [if_neg (by simp [hmode])]
    exact ⟨s.evac, [], rfl, fun _ => ⟨rfl, rfl⟩, fun h => absurd (hnode.trans hn) h, fun h => absurd (hnode.trans hn) h⟩
  · have hmode : s.modeFor .good = .running := by simp [State.modeFor, Option.isSome_iff_ne_none, hn]
    rw [if_pos hmode]
    exact enterRunning_evac (hnode ▸ hn) rfl

theorem goodLoad_zone (s : State) (z : ZoneId) :
    let sec := s.areaSection s.sul.image
    s.goodLoad.za.get z = loadZone (zoneBytes sec z) z (loadPaired (field8 sec 46) z) (s.za.get z).ampFault (s.za.get z.partner).ampFault ∧
      ZoneLoaded sec z (s.za.get z).ampFault (s.za.get z.partner).ampFault (s.goodLoad.za.get z) (s.goodLoad.lu.zones.get z) := by
  intro sec
  have hzone : s.goodLoad.za.get z =
      loadZone (zoneBytes sec z) z (loadPaired (field8 sec 46) z) (s.za.get z).ampFault (s.za.get z.partner).ampFault := Quad.get_tabulate _ z
  have hlevel : s.goodLoad.lu.zones.get z = loadLuZone (zoneBytes sec z) := Quad.get_tabulate _ z
  rw [hzone, hlevel]
  exact ⟨rfl, zoneLoaded sec z _ _⟩

/-! ### CONFIG_READ_DONE (R181) -/

/-- The loader once it has read the next bytes of the area. -/
def State.areaRead (s : State) (b : List Byte) : State :=
  s.setSul { s.sul with image := s.sul.image ++ b, sum := (s.sul.sum + (b.map BitVec.toNat).sum) % 65536 }

theorem exec_configReadDone {b : List Byte} {s : State} (h : s.loadsNow .config = true) (hl : (s.sul.image ++ b).length ≤ 20359) :
    exec (.configReadDone b) s = .next (if (s.sul.image ++ b).length < 20359 then s.areaRead b
      else if (s.areaRead b).sul.sum = s.sul.headerSum then (s.areaRead b).endLoading .good else (s.areaRead b).endLoading .sum) := by
  have htake : b.take (Config.configBytes - s.sul.image.length) = b := List.take_of_length_le (by
    rw [List.length_append] at hl
    simp only [Config.configBytes]
    omega)
  show execConfigReadDone b s = _
  unfold execConfigReadDone
  rw [if_pos h, htake]
  rfl

/-- Settles O5: the bytes join the area, and the last of them end the load by the sum (`endLoading_entersStoreFault`, `endLoading_good`). -/
theorem configurationAreaIsRead : Obligations.ConfigurationAreaIsRead := by
  intro b s hload sum image sec
  refine ⟨fun hlt => ?_, fun hlen hsum => ?_, fun hlen hsum => ?_⟩
  · exact takes_of (exec_configReadDone hload hlt.le) (if_pos hlt)
  · have hend := endLoading_entersStoreFault (s.areaRead b) (o := .sum) (by decide)
    refine takes_of (exec_configReadDone hload hlen.le) ?_
    rw [if_neg (Nat.not_lt.mpr hlen.ge), if_neg (show (s.areaRead b).sul.sum ≠ s.sul.headerSum from hsum)]
    exact hend
  · obtain ⟨e, q, hend, hevac⟩ := endLoading_good (s.areaRead b)
    have hexec : exec (.configReadDone b) s = .next (((s.areaRead b).goodLoad.setEvac e).setQueue q) := by
      rw [exec_configReadDone hload hlen.le, if_neg (Nat.not_lt.mpr hlen.ge),
        if_pos (show (s.areaRead b).sul.sum = s.sul.headerSum from hsum), hend]
    refine takes_of hexec ⟨?_, ?_, ?_, ?_, ?_, ?_, ?_, ?_, ?_, ?_, ?_, ?_, ?_, ?_, ?_⟩
    · rfl
    · rfl
    · rfl
    · rfl
    · rfl
    · rfl
    · rfl
    · rfl
    · exact areaLoaded hlen rfl rfl rfl rfl
    · exact fun p => by cases p <;> rfl
    · exact fun z => goodLoad_zone (s.areaRead b) z
    · rfl
    · exact hevac.unnumbered
    · exact hevac.low
    · exact hevac.high

end Sys2Proof.Machine
end

section
/-!
PROOFS. The statement about the header, and what a whole header reads as.
-/

namespace Sys2Proof.Machine

open Sys2Proof

/-! ### HEADER_READ_DONE (R177, R182) -/

/-- A number whose bytes the store gives is read from those bytes alone: the all-ones padding plays no part. -/
theorem headerField_eq_field {b : List Byte} {i w : Nat} (h : i + w ≤ b.length) : headerField b i w = field b i w := by
  refine congrArg beNat (List.map_congr_left fun k hk => ?_)
  have hk : k < w := List.mem_range.mp hk
  have hlt : i + k < b.length := by omega
  rw [List.getD_eq_getElem b 255 hlt, List.getD_eq_getElem b 0 hlt]

/-- A whole header is tested for its format, then for its length, and then the area begins. -/
theorem exec_headerReadDone {b : List Byte} {s : State} (hlen : b.length = 8) (h : s.loadsNow .header = true) :
    exec (.headerReadDone b) s = .next (if field b 0 2 ≠ 2 then s.endLoading .format
      else if field b 4 4 ≠ 20359 then s.endLoading .length
      else s.setSul { s.sul with phase := .config, headerSum := field b 2 2, sum := 0, image := [] }) := by
  show execHeaderReadDone b s = _
  rw [execHeaderReadDone, if_pos h, headerField_eq_field (by omega), headerField_eq_field (by omega), headerField_eq_field (by omega)]
  rfl

/-- Settles O4: the tests in their order, a failed one by `endLoading_entersStoreFault`. -/
theorem headerIsTested : Obligations.HeaderIsTested := by
  intro b s hlen hload
  have hexec := exec_headerReadDone hlen hload
  refine ⟨fun hformat => ?_, fun hformat hlength => ?_, fun hformat hlength => ?_⟩
  · rw [if_pos hformat] at hexec
    exact takes_of hexec (endLoading_entersStoreFault s (by decide))
  · rw [if_neg (not_not.mpr hformat), if_pos hlength] at hexec
    exact takes_of hexec (endLoading_entersStoreFault s (by decide))
  · rw [if_neg (not_not.mpr hformat), if_neg (not_not.mpr hlength)] at hexec
    exact takes_of hexec rfl

end Sys2Proof.Machine
end

section
/-!
PROOFS. The statement about the approach warning.
-/

namespace Sys2Proof.Machine

open Sys2Proof

/-! ### APPROACH (R43, R52) -/

theorem approachBusy_iff (s : State) (p : PlatId) : s.approachBusy p = true ↔ Busy s (.approach p) (s.pm.get p).lastClaim := busy_iff s _ _

/-- A platform whose APPROACH has risen (R43). -/
def Plat.approachRisen (r : Plat) : Plat := { r with approach := true }

/-- A rise moves the level, and fires the warning of an EMPTY platform in RUNNING (R43, R52). -/
theorem exec_approachRise {p : PlatId} {s : State} (h : (s.pm.get p).approach = false) : exec (.approachRise p) s = .next
    (if s.sul.mode = .running ∧ (s.pm.get p).state = .empty then (s.modPlat p Plat.approachRisen).fireApproach p
     else s.modPlat p Plat.approachRisen) := by
  have hplat : ((s.modPlat p Plat.approachRisen).pm.get p).state = (s.pm.get p).state := by rw [modPlat_plat]; rfl
  have hmode : (s.modPlat p Plat.approachRisen).sul.mode = s.sul.mode := rfl
  rw [← hplat, ← hmode]
  refine congrArg Host.Outcome.next ?_
  simp only [h, State.isRunning, Bool.and_eq_true, beq_iff_eq]
  rfl

/-- Of a platform's record only its last claim counts for its being busy. -/
theorem approachBusy_modPlat {s : State} {p : PlatId} {f : Plat → Plat} (hf : (f (s.pm.get p)).lastClaim = (s.pm.get p).lastClaim) :
    (s.modPlat p f).approachBusy p = s.approachBusy p := by
  unfold State.approachBusy
  rw [modPlat_plat, hf]
  rfl

/-- The warning fired at a rise: being busy and the origination are those of the state before it (R52). -/
theorem fireApproach_risen (s : State) (p : PlatId) : (s.modPlat p Plat.approachRisen).fireApproach p =
    if s.approachBusy p then s.modPlat p (fun r => { r with approach := true, lastOutcome := .skippedBusy })
    else (s.modPlat p (fun r => { r with approach := true, lastOutcome := .originated })).pushOrig (s.approachOrig p) := by
  rw [State.fireApproach, approachBusy_modPlat (f := Plat.approachRisen) rfl, modPlat_modPlat, modPlat_modPlat]
  rfl

/-- Settles O29: a rise moves the level, and fires the warning where it is due (`exec_approachRise`, `fireApproach_risen`). -/
theorem approachWarningFires : Obligations.ApproachWarningFires := by
  intro p s r ha
  have hexec := exec_approachRise ha
  refine ⟨approachBusy_iff s p, fun hm he hb => ?_, fun hm he hb => ?_, fun h => ?_⟩
  · rw [if_pos ⟨hm, he⟩, fireApproach_risen, if_pos hb] at hexec
    exact takes_of hexec rfl
  · rw [if_pos ⟨hm, he⟩, fireApproach_risen, if_neg (Bool.eq_false_iff.mp hb)] at hexec
    exact takes_of hexec ⟨s.approachOrig p, rfl, rfl, rfl, rfl, rfl, rfl, rfl, rfl⟩
  · rw [if_neg (not_and_or.mpr h)] at hexec
    exact takes_of hexec rfl

end Sys2Proof.Machine
end

section
/-!
PROOFS. The statement about staging: how the parts of two amendments merge, with what revisions written into a list of steps leave said once (R58).
-/

namespace Sys2Proof.Machine

open Sys2Proof

/-! ### Revisions written into a list of steps (R58, R66) -/

theorem writeRevs_cons (l : List StepSpec) (r : Nat × StepSpec) (revs : List (Nat × StepSpec)) :
    writeRevs l (r :: revs) = writeRevs (l.set r.1 r.2) revs := rfl

theorem length_writeRevs (l : List StepSpec) (revs : List (Nat × StepSpec)) : (writeRevs l revs).length = l.length := by
  induction revs generalizing l with
  | nil => rfl
  | cons r revs ih => rw [writeRevs_cons, ih, List.length_set]

/-- A step that no revision names stays. -/
theorem writeRevs_unnamed (l : List StepSpec) {revs : List (Nat × StepSpec)} {i : Nat} (h : ∀ x ∈ revs, x.1 ≠ i) :
    (writeRevs l revs)[i]? = l[i]? := by
  induction revs generalizing l with
  | nil => rfl
  | cons r revs ih =>
    rw [writeRevs_cons, ih _ fun x hx => h x (List.mem_cons_of_mem _ hx), List.getElem?_set_ne (h r (List.mem_cons_self ..))]

/-- A step that one revision names is as that revision says. -/
theorem writeRevs_named (l : List StepSpec) {revs : List (Nat × StepSpec)} (hnd : (revs.map (·.1)).Nodup) {x : Nat × StepSpec} (hx : x ∈ revs)
    (hi : x.1 < l.length) : (writeRevs l revs)[x.1]? = some x.2 := by
  induction revs generalizing l with
  | nil => cases hx
  | cons r revs ih =>
    obtain ⟨hr, hrest⟩ := List.nodup_cons.mp hnd
    rw [writeRevs_cons]
    rcases List.mem_cons.mp hx with rfl | hx
    · rw [writeRevs_unnamed _ fun y hy he => hr (List.mem_map.mpr ⟨y, hy, he⟩), List.getElem?_set_self hi]
    · exact ih (l.set r.1 r.2) hrest hx (by rwa [List.length_set])

/-! ### Parts merged (R58) -/

theorem pick_of_none {α : Type} {new old : Option α} (h : new = none) : pick new old = old := by rw [h]; rfl

theorem pick_of_present {α : Type} {new old : Option α} (h : new ≠ none) : pick new old = new := by
  cases new with
  | none => exact absurd rfl h
  | some v => rfl

theorem pick_absent {α : Type} (new : Option α) : pick new none = new := by cases new <;> rfl

theorem mem_mergeRevs (o r : List (Nat × StepSpec)) (x : Nat × StepSpec) :
    x ∈ mergeRevs o r ↔ x ∈ r ∨ (x ∈ o ∧ ∀ y ∈ r, y.1 ≠ x.1) := by
  simp only [mergeRevs, List.mem_append, List.mem_filter, Bool.not_eq_true', List.any_eq_false, beq_iff_eq]
  exact or_comm

theorem mergePlan_absent (new : Option PlanPart) : mergePlan none new = new := by rcases new with _ | _ | _ <;> rfl

/-- A REPLACE discards the plan part staged before it (R58). -/
theorem mergePlan_replace (old : Option PlanPart) (l : List StepSpec) : mergePlan old (some (.replace l)) = some (.replace l) := by
  rcases old with _ | _ | _ <;> rfl

/-- Parts merged into an amendment with no part are the amendment (R58). -/
theorem merge_empty (new : Amendment) : Amendment.empty.merge new = new := by
  simp only [Amendment.merge, Amendment.empty, pick_absent, mergePlan_absent]

/-- Settles O15: what staging leaves is `stage_staged`, and what it stages is merged part by part, a plan part by its form. -/
theorem stagingMergesPartByPart : Obligations.StagingMergesPartByPart := by
  refine ⟨fun s key new c hc => ?_, fun old new => ?_⟩
  · obtain ⟨hframe, hothers, hfind⟩ := stage_staged hc new
    refine ⟨hframe, hothers, fun hnone => ?_, fun old hold => ?_⟩
    · rw [hfind, hnone, Option.getD_none, merge_empty]
    · rw [hfind, hold, Option.getD_some]
  · refine ⟨pick_of_none, pick_of_present, pick_of_none, pick_of_present, pick_of_none, pick_of_present, pick_of_none, pick_of_present, pick_of_none,
      pick_of_present, fun hp => ?_, fun l hp => ?_, fun r hp ho => ?_, fun r o hp ho => ⟨mergeRevs o r, ?_, mem_mergeRevs o r⟩,
      fun r l hp ho hnd => ⟨writeRevs l r, ?_, length_writeRevs l r, fun x hx => writeRevs_named l hnd hx, fun i => writeRevs_unnamed l⟩⟩
    · rw [Amendment.merge, hp]; rcases old.plan with _ | _ | _ <;> rfl
    · rw [Amendment.merge, hp, mergePlan_replace]
    all_goals rw [Amendment.merge, hp, ho]; rfl

end Sys2Proof.Machine
end

section
/-!
SUPPORT. A swap on this node, stage by stage: what bringing one step into line does by its mode, and what the platform's change, the plan and the
change of state leave of the call, the other calls, the claims and the platforms (R63 to R67).
-/

namespace Sys2Proof.Machine

open Sys2Proof

/-! ### One step brought into line (R64, R65) -/

section ReplannedStep

variable {w : State} {k i : Nat} {c : Call} {st : Step}

theorem replanStep_done (hc : w.findCall k = some c) (hst : w.findStep k i = some st) (hd : st.timer.state = .done) : w.replanStep k i = w := by
  simp [State.replanStep, hc, hst, hd]

theorem replanStep_atTime (hc : w.findCall k = some c) (hst : w.findStep k i = some st) (hd : st.timer.state ≠ .done) (hm : st.spec.mode = .atTime) :
    w.replanStep k i = w.replanAt k i c st := by
  simp [State.replanStep, hc, hst, hd, hm]

theorem replanStep_every (hc : w.findCall k = some c) (hst : w.findStep k i = some st) (hd : st.timer.state ≠ .done) (hm : st.spec.mode = .every) :
    w.replanStep k i = w.replanEvery k i c st := by
  simp [State.replanStep, hc, hst, hd, hm]

theorem replanStep_onDispatch (hc : w.findCall k = some c) (hst : w.findStep k i = some st) (hd : st.timer.state ≠ .done)
    (hm : st.spec.mode = .onDispatch) : w.replanStep k i =
      if 0 < st.spec.limit ∧ st.spec.limit ≤ st.timer.fires then w.modTimer k i doneTimer
      else if st.timer.state = .held then w.fireStep k i else w := by
  simp [State.replanStep, hc, hst, hd, hm, limitReached_iff]

theorem replanStep_untimed (hc : w.findCall k = some c) (hst : w.findStep k i = some st) (hd : st.timer.state ≠ .done)
    (hm : st.spec.mode = .onArrive ∨ st.spec.mode = .manual) :
    w.replanStep k i = if st.timer.state = .held then w.fireStep k i else w := by
  rcases hm with hm | hm <;> simp [State.replanStep, hc, hst, hd, hm]

/-- An AT step that has fired stays (R64). -/
theorem replanAt_fired (h : st.timer.fires ≠ 0 ∨ st.timer.state = .fired) : w.replanAt k i c st = w := by
  unfold State.replanAt
  by_cases hf : st.timer.fires = 0
  · rw [if_neg (not_not.mpr hf), h.resolve_left (not_not.mpr hf)]
  · rw [if_pos hf]

/-- Under a SET clock an unfired AT step that is IDLE or waits is tested against its fire time (R64). -/
theorem replanAt_tested {ft : Int} (hf : st.timer.fires = 0) (hft : st.spec.fireTime c = some ft) (hset : w.sck.isSet = true)
    (hs : st.timer.state = .idle ∨ st.timer.state = .counting ∨ st.timer.state = .held) : w.replanAt k i c st = w.atTest k i c st := by
  unfold State.replanAt
  rcases hs with hs | hs | hs <;> simp [hf, hs, hft, hset]

theorem replanAt_unset (hf : st.timer.fires = 0) (hset : w.sck.isSet = false) (hs : st.timer.state = .idle) : w.replanAt k i c st = w := by
  simp [State.replanAt, hf, hs, hset]

/-- A SKIPPED AT step counts again where its fire time is ahead (R64). -/
theorem replanAt_skipped {ft : Int} (hf : st.timer.fires = 0) (hft : st.spec.fireTime c = some ft) (hs : ∃ r, st.timer.state = .skipped r) :
    w.replanAt k i c st = if w.sck.isSet = true ∧ (w.sck.time : Int) < ft then
      w.modTimer k i (fun m => { m with state := .counting, remaining := some (ft - w.sck.time).toNat }) else w := by
  obtain ⟨r, hs⟩ := hs
  simp [State.replanAt, hf, hs, hft]

/-- A waiting AT step with no fire time is IDLE (R64; log 14). -/
theorem replanAt_untimed (hf : st.timer.fires = 0) (hft : st.spec.fireTime c = none) (hs : st.timer.state = .counting ∨ st.timer.state = .held) :
    w.replanAt k i c st = w.modTimer k i (fun m => { m with state := .idle, remaining := none }) := by
  unfold State.replanAt
  rcases hs with hs | hs <;> simp [hf, hs, hft]

theorem replanAt_untimed_still (hft : st.spec.fireTime c = none) (hc : st.timer.state ≠ .counting) (hh : st.timer.state ≠ .held) :
    w.replanAt k i c st = w := by
  unfold State.replanAt
  split
  · rfl
  · cases hs : st.timer.state with
    | idle => simp [State.atTest, hft]
    | skipped r => simp [hft]
    | counting => exact absurd hs hc
    | held => exact absurd hs hh
    | fired => rfl
    | done => rfl

/-- An EVERY step past its window's end or at its repeat limit is DONE (R65). -/
theorem replanEvery_ended {start stop : Int} (hs : st.spec.fireTime c = some start) (hcl : st.spec.closeTime c = some stop)
    (h : (w.sck.isSet = true ∧ stop ≤ w.sck.time) ∨ (0 < st.spec.limit ∧ st.spec.limit ≤ st.timer.fires)) :
    w.replanEvery k i c st = w.modTimer k i doneTimer := by
  rw [← limitReached_iff] at h
  simp only [State.replanEvery, hs, hcl]
  split
  · rfl
  · exact if_pos (h.resolve_left ‹_›)

/-- An EVERY step whose window and repeats last goes on by its state (R65; log 53). -/
theorem replanEvery_lasting {start stop : Int} (hs : st.spec.fireTime c = some start) (hcl : st.spec.closeTime c = some stop)
    (he : ¬ (w.sck.isSet = true ∧ stop ≤ w.sck.time)) (hf : ¬ (0 < st.spec.limit ∧ st.spec.limit ≤ st.timer.fires)) :
    (st.timer.state = .idle → w.replanEvery k i c st = if w.sck.isSet then w.windowTest k i c st else w) ∧
    (st.timer.state = .held → w.replanEvery k i c st = w.fireStep k i) ∧ (st.timer.state = .counting → w.replanEvery k i c st = w) := by
  rw [← limitReached_iff] at hf
  simp only [State.replanEvery, hs, hcl, if_neg he, if_neg hf]
  exact ⟨fun h => by rw [h], fun h => by rw [h], fun h => by rw [h]⟩

/-- An EVERY step with no window is DONE at its repeat limit and IDLE below it (R25; log 14). -/
theorem replanEvery_untimed (hs : st.spec.fireTime c = none) : w.replanEvery k i c st =
    if 0 < st.spec.limit ∧ st.spec.limit ≤ st.timer.fires then w.modTimer k i doneTimer
    else w.modTimer k i (fun m => { m with state := .idle, remaining := none }) := by
  simp [State.replanEvery, hs, limitReached_iff]

end ReplannedStep

/-! ### The stages (R63) -/

/-- The platform change of a swap that stays on this node: to the platform `q`, or none. -/
def localChange : Option PlatId → PlatChange
  | none => .stay
  | some p => .toLocal p

theorem localChange_injective : Function.Injective localChange := by
  intro q q' h
  cases q <;> cases q' <;> simp_all [localChange]

theorem exists_localChange {ch : PlatChange} (h : ∀ k n, ch ≠ .handOver k n) : ∃ q, ch = localChange q := by
  cases ch with
  | stay => exact ⟨none, rfl⟩
  | toLocal p => exact ⟨some p, rfl⟩
  | handOver k n => exact absurd rfl (h k n)

/-- Stages 1 and 2: the fields and the platform (R63, R67). -/
def State.amendedHere (s : State) (c : Call) (a : Amendment) (q : Option PlatId) : State :=
  (s.modCall c.key (·.amend a)).swapPlatform c (localChange q)

/-- Stages 1 to 5 of a swap that stays on this node (R63). -/
def State.swappedHere (s : State) (c : Call) (a : Amendment) (q : Option PlatId) : State :=
  ((s.amendedHere c a q).replan c.key a).swapState c.key (localChange q)

theorem exec_swap_here {s : State} {c : Call} {a : Amendment} {q : Option PlatId} (hc : s.findCall c.key = some c) (ha : c.staged = some a)
    (hs : c.state = .waiting ∨ c.state = .bound) (hl : s.liveCount c.key = 0) (hp : s.platChange c a = localChange q) :
    exec (.swap c.key) s = .next ((s.swappedHere c a q).swapExpiry c) := by
  have hdue : s.swapDue c = true := by simp [State.swapDue, (live_iff c).mpr hs, ha, hl]
  simp only [exec, execSwap, hc, ha, hdue, if_true, State.swapCall, hp]
  rfl

/-- The call as its platform's change leaves it (R67). -/
def Call.rehomed (q : Option PlatId) (c : Call) : Call :=
  match q with
  | none => c
  | some p => { c with platform := p, changed := true }

/-- The call as its state's change leaves it: on a new platform it waits (R67). -/
def Call.returned (q : Option PlatId) (c : Call) : Call :=
  match q with
  | none => c
  | some _ => { c with state := .waiting, steps := c.steps.map unarmStep }

theorem unarmStep_spec (st : Step) : (unarmStep st).spec = st.spec := by
  unfold unarmStep
  split <;> rfl

theorem Call.returned_specs (q : Option PlatId) (c : Call) : (c.returned q).steps.map (·.spec) = c.steps.map (·.spec) := by
  cases q with
  | none => rfl
  | some p => simp [Call.returned, Function.comp_def, unarmStep_spec]

theorem findCall_amendedHere {s : State} {c : Call} (hc : s.findCall c.key = some c) (a : Amendment) (q : Option PlatId) :
    (s.amendedHere c a q).findCall c.key = some ((c.amend a).rehomed q) := by
  have hfields : (s.modCall c.key (·.amend a)).findCall c.key = some (c.amend a) := findCall_modCall_self hc fun _ => rfl
  cases q with
  | none => exact hfields
  | some p => exact findCall_modCall_self (f := Call.rehomed (some p)) hfields fun _ => rfl

theorem othersKept_amendedHere (s : State) (c : Call) (a : Amendment) (q : Option PlatId) : OthersKept c.key s (s.amendedHere c a q) := by
  have hfields : OthersKept c.key s (s.modCall c.key (·.amend a)) := othersKept_modCall s c.key _ fun _ => rfl
  cases q with
  | none => exact hfields
  | some p => exact hfields.trans (othersKept_modCall (s.modCall c.key (·.amend a)) c.key (Call.rehomed (some p)) fun _ => rfl)

theorem keys_amendedHere (s : State) (c : Call) (a : Amendment) (q : Option PlatId) :
    (s.amendedHere c a q).ct.map (·.key) = s.ct.map (·.key) := by
  have hfields := keys_modCall s c.key (·.amend a) fun _ => rfl
  cases q with
  | none => exact hfields
  | some p => exact (keys_modCall (s.modCall c.key (·.amend a)) c.key (Call.rehomed (some p)) fun _ => rfl).trans hfields

theorem amendedHere_side (s : State) (c : Call) (a : Amendment) (q : Option PlatId) : CallSide s (s.amendedHere c a q) := by
  cases q with
  | none => exact modCall_side s _ _
  | some p => exact ((modCall_side s _ _).trans (modCall_side _ _ _)).trans (setPm_side _ _)

/-- The binding of a call that moves is released (R67). -/
theorem amendedHere_unbound (s : State) (c : Call) (a : Amendment) (p q : PlatId) : ((s.amendedHere c a (some p)).pm.get q).bound ≠ some c.key := by
  have hget : (s.amendedHere c a (some p)).pm.get q = (s.pm.get q).release c.key := Duo.get_map _ _ _
  rw [hget, Plat.release]
  split
  · exact nofun
  · assumption

/-- What the change of state leaves of the calls, and that it leaves all else (R67). -/
theorem swapState_here (s : State) (key : Nat) (q : Option PlatId) :
    CallSide s (s.swapState key (localChange q)) ∧ OthersKept key s (s.swapState key (localChange q)) ∧
      (∀ c, s.findCall key = some c → (s.swapState key (localChange q)).findCall key = some (c.returned q)) ∧
      (s.swapState key (localChange q)).clt = s.clt ∧ (s.swapState key (localChange q)).pm = s.pm := by
  cases q with
  | none => exact ⟨.refl s, .refl key s, fun _ hc => hc, rfl, rfl⟩
  | some p =>
    exact ⟨modCall_side s key _, othersKept_modCall s key (Call.returned (some p)) fun _ => rfl,
      fun _ hc => findCall_modCall_self (f := Call.returned (some p)) hc fun _ => rfl, rfl, rfl⟩

/-! ### The plan (R63, R66) -/

/-- The steps' fields as a plan part leaves them (R66). -/
def amendedSpecs (l : List StepSpec) : Option PlanPart → List StepSpec
  | none => l
  | some (.replace m) => m
  | some (.revise revs) => writeRevs l revs

theorem modStep_revise_specs (c : Call) (i : Nat) (p : StepSpec) :
    (c.modStep i (reviseStep p)).steps.map (·.spec) = (c.steps.map (·.spec)).set i p := by
  refine List.ext_getElem? fun n => ?_
  simp only [Call.modStep, List.getElem?_map, List.getElem?_modify, List.getElem?_set, List.length_map]
  by_cases h : i = n
  · subst h
    by_cases hn : i < c.steps.length
    · simp [hn, reviseStep]
    · simp [hn]
  · cases c.steps[n]? <;> simp [h]

theorem revise_specs (key : Nat) (revs : List (Nat × StepSpec)) {s : State} {c : Call} (hc : s.findCall key = some c) :
    ∃ d, (revs.foldl (fun s r => s.modStep key r.1 (reviseStep r.2)) s).findCall key = some d ∧
      d.steps.map (·.spec) = writeRevs (c.steps.map (·.spec)) revs := by
  induction revs generalizing s c with
  | nil => exact ⟨c, hc, rfl⟩
  | cons r revs ih =>
    obtain ⟨d, hd, he⟩ := ih (findCall_modCall_self hc (f := fun c => c.modStep r.1 (reviseStep r.2)) fun _ => rfl)
    exact ⟨d, hd, by rw [he, modStep_revise_specs, writeRevs_cons]⟩

theorem replan_specs {s : State} {key : Nat} {c d : Call} (hc : s.findCall key = some c) (a : Amendment) (hd : (s.replan key a).findCall key = some d) :
    d.steps.map (·.spec) = amendedSpecs (c.steps.map (·.spec)) a.plan := by
  have hafter : ∀ {v t : State} {b : Call}, StepWork v t → v.findCall key = some b → t.findCall key = some d →
      d.steps.map (·.spec) = b.steps.map (·.spec) := fun hw hb hd => by
    obtain ⟨d', hd', ht⟩ := hw.findCall hb
    exact Option.some.inj (hd.symm.trans hd') ▸ ht.specs
  rw [replan_eq] at hd
  generalize a.plan = part at hd ⊢
  rcases part with _ | l | revs
  · exact hafter (eachStep_work replanStep_work _ _) hc hd
  · have hb : (s.replaced key l).findCall key = some { c with steps := l.map (fun p => { spec := p, timer := StepTimer.fresh }) } :=
      findCall_modCall_self (s := (s.removeOrigs (Orig.ofCall key)).markNoRetry key) hc fun _ => rfl
    rw [hafter (eachStep_work startStep_work _ _) hb hd]
    simp [amendedSpecs, Function.comp_def]
  · obtain ⟨b, hb, hspecs⟩ := revise_specs key revs hc
    rw [hafter (eachStep_work replanStep_work _ _) hb hd, hspecs, amendedSpecs]

/-! ### The marks of claims (R66) -/

/-- Nothing of the claims changes, or the origin entries of the call `key` are marked to end without a retry (R5, R66). -/
def ClaimsMarked (key : Nat) (s t : State) : Prop := t.clt = s.clt ∨ t.clt = (s.markNoRetry key).clt

theorem markNoRetry_idem (s : State) (key : Nat) : ((s.markNoRetry key).markNoRetry key).clt = (s.markNoRetry key).clt := by
  simp only [State.markNoRetry, State.setClt_clt, List.map_map]
  refine List.map_congr_left fun e _ => ?_
  by_cases h : e.hasKey key = true
  · have hmarked : ({ e with origin := e.origin.map (fun o => { o with noRetry := true }) } : Entry).hasKey key = true := h
    simp only [Function.comp_apply, if_pos h, if_pos hmarked]
    cases e.origin <;> rfl
  · simp only [Function.comp_apply, if_neg h]

theorem ClaimsMarked.trans {key : Nat} {s t u : State} (h : ClaimsMarked key s t) (k : ClaimsMarked key t u) : ClaimsMarked key s u := by
  have hcongr : ∀ {v w : State}, w.clt = v.clt → (w.markNoRetry key).clt = (v.markNoRetry key).clt := fun he => by
    simp only [State.markNoRetry, State.setClt_clt, he]
  rcases h with h | h <;> rcases k with k | k
  · exact .inl (k.trans h)
  · exact .inr (k.trans (hcongr h))
  · exact .inr (k.trans h)
  · exact .inr (k.trans ((hcongr (w := t) (v := s.markNoRetry key) h).trans (markNoRetry_idem s key)))

theorem revise_clt (key : Nat) (revs : List (Nat × StepSpec)) (s : State) :
    (revs.foldl (fun s r => s.modStep key r.1 (reviseStep r.2)) s).clt = s.clt := by
  induction revs generalizing s with
  | nil => rfl
  | cons r revs ih => rw [List.foldl_cons, ih]; rfl

theorem replan_marked (s : State) (key : Nat) (a : Amendment) : ClaimsMarked key s (s.replan key a) := by
  rw [replan_eq]
  rcases a.plan with _ | l | revs
  · exact .inl (eachStep_work replanStep_work _ s).clt
  · exact .inr (eachStep_work startStep_work _ (s.replaced key l)).clt
  · exact .inl ((eachStep_work replanStep_work _ _).clt.trans (revise_clt key revs s))

theorem expiryTest_marked (s : State) (key : Nat) : ClaimsMarked key s (s.expiryTest key) := by
  unfold State.expiryTest
  repeat' split
  · exact .inr rfl
  · exact .inl rfl
  · exact .inl rfl

end Sys2Proof.Machine
end

section
/-!
PROOFS. The statement about a swap on this node: the call as stage 5 leaves it, the expiry test that follows, and the stages put together.
-/

namespace Sys2Proof.Machine

open Sys2Proof

/-! ### The call after stage 5 (R63) -/

theorem swappedHere_side (s : State) (c : Call) (a : Amendment) (q : Option PlatId) : CallSide s (s.swappedHere c a q) :=
  ((amendedHere_side s c a q).trans (replan_replanned _ c.key a).side).trans (swapState_here _ c.key q).1

theorem findCall_swappedHere {s : State} {c : Call} (hc : s.findCall c.key = some c) (a : Amendment) (q : Option PlatId) :
    ∃ d, (s.swappedHere c a q).findCall c.key = some d ∧
      d = { (c.amend a).rehomed q with state := if q = none then c.state else .waiting, steps := d.steps } ∧
      d.steps.map (·.spec) = amendedSpecs (c.steps.map (·.spec)) a.plan := by
  have hb := findCall_amendedHere hc a q
  obtain ⟨d, hd, hfields⟩ := (replan_replanned _ c.key a).call _ hb
  obtain ⟨-, -, hreturned, -, -⟩ := swapState_here ((s.amendedHere c a q).replan c.key a) c.key q
  refine ⟨d.returned q, hreturned d hd, ?_, ?_⟩
  · rw [hfields]
    cases q <;> rfl
  · rw [Call.returned_specs, replan_specs hb a hd]
    cases q <;> rfl

theorem others_swappedHere (s : State) (c : Call) (a : Amendment) (q : Option PlatId) {j : Nat} {e : Call} (hj : j ≠ c.key)
    (he : s.findCall j = some e) : ∃ e', (s.swappedHere c a q).findCall j = some e' ∧ TimersOnly e e' := by
  obtain ⟨e', he', ht⟩ := (replan_replanned _ c.key a).others j e hj ((othersKept_amendedHere s c a q j hj).trans he)
  obtain ⟨-, hothers, -, -, -⟩ := swapState_here ((s.amendedHere c a q).replan c.key a) c.key q
  exact ⟨e', (hothers j hj).trans he', ht⟩

theorem swappedHere_marked (s : State) (c : Call) (a : Amendment) (q : Option PlatId) : ClaimsMarked c.key s (s.swappedHere c a q) := by
  have hfields : ClaimsMarked c.key s (s.amendedHere c a q) := by cases q <;> exact .inl rfl
  obtain ⟨-, -, -, hclt, -⟩ := swapState_here ((s.amendedHere c a q).replan c.key a) c.key q
  exact (hfields.trans (replan_marked _ c.key a)).trans (.inl hclt)

theorem swappedHere_unbound (s : State) (c : Call) (a : Amendment) (p q : PlatId) : ((s.swappedHere c a (some p)).pm.get q).bound ≠ some c.key := by
  obtain ⟨-, -, -, -, hpm⟩ := swapState_here ((s.amendedHere c a (some p)).replan c.key a) c.key (some p)
  rw [State.swappedHere, hpm, (replan_replanned _ c.key a).bound q]
  exact amendedHere_unbound s c a p q

/-- In a table in key order the plan is brought into line in index order (R63). -/
theorem swappedHere_eq {s : State} (hk : KeysAscend s) {c : Call} (hc : s.findCall c.key = some c) (a : Amendment) (q : Option PlatId) :
    s.swappedHere c a q = (PlanAmended c.key c.steps.length a (s.amendedHere c a q)).swapState c.key (localChange q) := by
  have hlen : ((c.amend a).rehomed q).steps.length = c.steps.length := by cases q <;> rfl
  rw [State.swappedHere, replan_planAmended (hk.of_keys (keys_amendedHere s c a q)) (findCall_amendedHere hc a q) a, hlen]

/-! ### The expiry test of a swap (R15, R63) -/

/-- A swap of the call `c` that leaves it as `d` makes the expiry test of it, where it is WAITING (R63). -/
def SwapTests (c d : Call) : Prop := c.state = .bound ∨ d.expArr ≠ c.expArr ∨ d.expDep ≠ c.expDep

theorem swapExpiry_cases {v : State} {c d : Call} (hd : v.findCall c.key = some d) :
    (d.state = .waiting ∧ SwapTests c d ∧ v.swapExpiry c = v.expiryTest c.key) ∨
      (¬ (d.state = .waiting ∧ SwapTests c d) ∧ v.swapExpiry c = v) := by
  simp only [State.swapExpiry, hd]
  by_cases h : d.state = .waiting ∧ SwapTests c d
  · exact .inl ⟨h.1, h.2, if_pos h⟩
  · exact .inr ⟨h, if_neg h⟩

theorem swapExpiry_side (v : State) (c : Call) : CallSide v (v.swapExpiry c) := by
  unfold State.swapExpiry
  repeat' split
  · exact expiryTest_side v _
  · exact .refl v
  · exact .refl v

theorem othersKept_swapExpiry (v : State) (c : Call) : OthersKept c.key v (v.swapExpiry c) := by
  unfold State.swapExpiry
  repeat' split
  · exact othersKept_expiryTest v _
  · exact .refl _ v
  · exact .refl _ v

theorem swapExpiry_marked (v : State) (c : Call) : ClaimsMarked c.key v (v.swapExpiry c) := by
  unfold State.swapExpiry
  repeat' split
  · exact expiryTest_marked v _
  · exact .inl rfl
  · exact .inl rfl

/-- No expiry test binds a call (R15). -/
theorem swapExpiry_unbound {v : State} {c : Call} {p : PlatId} (h : (v.pm.get p).bound ≠ some c.key) :
    ((v.swapExpiry c).pm.get p).bound ≠ some c.key := by
  unfold State.swapExpiry State.expiryTest
  repeat' split
  · rw [leaveService_eq, Duo.get_map, Plat.release, if_neg h]
    exact h
  all_goals exact h

/-- Of two records of a call with the same expected times, one expires where the other would if it were WAITING (R15). -/
theorem expires_of_times {s t : State} {c d : Call} (hsck : t.sck = s.sck) (hs : c.state = .waiting) (harr : d.expArr = c.expArr)
    (hdep : d.expDep = c.expDep) : s.expires { d with state := .waiting } = t.expires c := by
  simp only [State.expires, Call.refTime, hsck, hs, harr, hdep]

/-- The call `c` as a swap on this node leaves it, on the platform `q` where that is another one (R63, R67). -/
structure SwappedCall (s : State) (c : Call) (a : Amendment) (q : Option PlatId) (d : Call) : Prop where
  fields : d = { (c.amend a).rehomed q with state := d.state, steps := d.steps }
  specs : d.steps.map (·.spec) = amendedSpecs (c.steps.map (·.spec)) a.plan
  expired : (q ≠ none ∨ c.state = .waiting) → SwapTests c d → s.expires { d with state := .waiting } = true → d.state = .finished .expired
  kept : ¬ ((q ≠ none ∨ c.state = .waiting) ∧ SwapTests c d ∧ s.expires { d with state := .waiting } = true) →
    d.state = if q = none then c.state else .waiting

/-- The state a swap on this node leaves, and the call in it (R63). -/
theorem swapExpiry_swappedHere {s : State} {c : Call} (hc : s.findCall c.key = some c) (a : Amendment) (q : Option PlatId) :
    ∃ d, ((s.swappedHere c a q).swapExpiry c).findCall c.key = some d ∧ SwappedCall s c a q d ∧
      ((q ≠ none ∨ c.state = .waiting) ∧ SwapTests c d → (s.swappedHere c a q).swapExpiry c = (s.swappedHere c a q).expiryTest c.key) ∧
      (¬ ((q ≠ none ∨ c.state = .waiting) ∧ SwapTests c d) → (s.swappedHere c a q).swapExpiry c = s.swappedHere c a q) := by
  obtain ⟨d, hd, hfields, hspecs⟩ := findCall_swappedHere hc a q
  have hstate : d.state = if q = none then c.state else .waiting := by rw [hfields]
  have hwait : d.state = .waiting ↔ (q ≠ none ∨ c.state = .waiting) := by
    rw [hstate]
    by_cases hq : q = none <;> simp [hq]
  have hkept : ¬ ((q ≠ none ∨ c.state = .waiting) ∧ SwapTests c d ∧ s.expires { d with state := .waiting } = true) →
      SwappedCall s c a q d := fun hn => ⟨by rw [hstate]; exact hfields, hspecs, fun h1 h2 h3 => absurd ⟨h1, h2, h3⟩ hn, fun _ => hstate⟩
  obtain ⟨hw, htest, heq⟩ | ⟨hno, heq⟩ := swapExpiry_cases hd
  · have hexp : s.expires { d with state := .waiting } = (s.swappedHere c a q).expires d :=
      expires_of_times (swappedHere_side s c a q).sck hw rfl rfl
    have hself := findCall_expiryTest_self hd
    rw [heq]
    by_cases hx : (s.swappedHere c a q).expires d = true
    · rw [if_pos hx] at hself
      refine ⟨_, hself, ⟨?_, (outOfService_specs _ d).trans hspecs, fun _ _ _ => rfl,
        fun hn => absurd ⟨hwait.mp hw, htest, hexp.trans hx⟩ hn⟩, fun _ => rfl, fun hn => absurd ⟨hwait.mp hw, htest⟩ hn⟩
      rw [hfields]
      rfl
    · rw [if_neg hx] at hself
      exact ⟨d, hself, hkept fun h => hx (hexp ▸ h.2.2), fun _ => rfl, fun hn => absurd ⟨hwait.mp hw, htest⟩ hn⟩
  · rw [← hwait, heq]
    exact ⟨d, hd, hkept fun h => hno ⟨hwait.mpr h.1, h.2.1⟩, fun h => absurd h hno, fun _ => rfl⟩

/-! ### The statement -/

/-- The stages of a swap on this node in a table in key order, as the statement writes them out (R63 to R67). -/
theorem swappedHere_stages {s : State} (hk : KeysAscend s) {c : Call} (hc : s.findCall c.key = some c) (a : Amendment) (q : Option PlatId) :
    let v0 : State := FieldsAmended c.key a s
    let v1 : State := match q with
      | none => v0
      | some p => (v0.modCall c.key (fun x => { x with platform := p, changed := true })).setPm
          (s.pm.map (fun r => if r.bound = some c.key then { r with bound := none } else r))
    let v2 : State := PlanAmended c.key c.steps.length a v1
    s.swappedHere c a q = if q = none then v2 else v2.modCall c.key (fun x => { x with
      state := .waiting,
      steps := x.steps.map (fun st =>
        if st.timer.state = .counting ∧ (st.spec.mode = .onArrive ∨ st.spec.mode = .onDispatch) then
          { st with timer := { st.timer with state := .idle, remaining := none } }
        else st) }) := by
  rw [swappedHere_eq hk hc, fieldsAmended_eq]
  cases q <;> rfl

theorem platChange_eq_localChange {s : State} {c : Call} {a : Amendment} {q : Option PlatId} (hnone : q = none → s.platChange c a = .stay)
    (hsome : ∀ p, q = some p → s.platChange c a = .toLocal p) : s.platChange c a = localChange q := by
  cases q with
  | none => exact hnone rfl
  | some p => exact hsome p rfl

/-- Settles O22: a due swap is `swappedHere` and its expiry test, read off stage by stage; a step is brought into line by its mode and state. -/
theorem swapAmendsTheCall : Obligations.SwapAmendsTheCall := by
  refine ⟨fun key s c a hc ha hs hl hp => ?_, fun w k i c st hc hst hlive => ?_⟩
  · intro expired
    obtain rfl := findCall_key hc
    obtain ⟨q, hq⟩ := exists_localChange hp
    obtain ⟨d, hd, ⟨hfields, hspecs, hexpired, hkept⟩, htested, huntested⟩ := swapExpiry_swappedHere hc a q
    have hside := (swappedHere_side s c a q).trans (swapExpiry_side _ c)
    have hmarked := (swappedHere_marked s c a q).trans (swapExpiry_marked _ c)
    refine takes_of (exec_swap_here hc ha hs hl hq) ⟨hside.eq, d, hd, ?_, ?_, ?_, ?_, ?_, ?_, ?_, ?_, ?_, ?_, ?_, ?_,
      fun hn => ?_, fun l hr => ?_, fun revs hr hnd => ?_, fun j e hj he => ?_, hmarked,
      fun hk q' hnone hsome => ?_, fun hstay => ?_, fun p hto => ?_⟩
    -- the twelve fields other than platform, state and steps, each of the amended record
    iterate 12 · rw [hfields, amend_eq]; cases q <;> rfl
    · rw [hspecs, hn]; rfl
    · rw [hspecs, hr]; rfl
    · rw [hr, amendedSpecs] at hspecs
      have hlen := congrArg List.length hspecs
      rw [length_writeRevs, List.length_map, List.length_map] at hlen
      rw [hspecs]
      exact ⟨hlen, fun x hx hi => writeRevs_named _ hnd hx (by rwa [List.length_map]), fun i => writeRevs_unnamed _⟩
    · obtain ⟨e', he', ht⟩ := others_swappedHere s c a q hj he
      exact ⟨e', (othersKept_swapExpiry _ c j hj).trans he', by rw [ht.fields], ht.specs⟩
    · obtain rfl : q' = q := localChange_injective ((platChange_eq_localChange hnone hsome).symm.trans hq)
      intro v0 v1 v2 v3
      have hstages : s.swappedHere c a q' = v3 := swappedHere_stages hk hc a q'
      rw [← hstages]
      split
      · exact htested ‹_›
      · exact huntested ‹_›
    · obtain rfl : q = none := localChange_injective (hq.symm.trans hstay)
      rw [if_pos rfl] at hkept
      refine ⟨by rw [hfields]; rfl, by rw [hfields]; rfl, fun hb => ?_, fun hw => ⟨fun hx => ?_, fun hx => ?_⟩⟩
      · exact (hkept fun h => by simp [hb] at h).trans hb
      · exact hexpired (.inr hw) hx.1 hx.2
      · exact (hkept fun h => hx h.2).trans hw
    · obtain rfl : q = some p := localChange_injective (hq.symm.trans hto)
      refine ⟨by rw [hfields]; rfl, by rw [hfields]; rfl, fun p' => swapExpiry_unbound (swappedHere_unbound s c a p p'),
        fun hx => hexpired (.inl (Option.some_ne_none p)) hx.1 hx.2, fun hx => hkept fun h => hx h.2⟩
  · intro t full toIdle
    refine ⟨replanStep_done hc hst, fun hd => ⟨fun hm => ?_, fun hm => ?_, fun hm => ?_, fun hm hfull => ?_⟩⟩
    · have ht : t = w.replanAt k i c st := replanStep_atTime hc hst hd hm
      simp only [toIdle, ht]
      refine ⟨replanAt_fired, fun ft hf hft => ⟨fun hset hwaits => ?_, fun hset => replanAt_unset hf hset, fun hskip => ?_⟩,
        fun hf hft => ⟨replanAt_untimed hf hft, replanAt_untimed_still hft⟩⟩
      · rw [replanAt_tested hf hft hset hwaits]
        exact atTest_tested w k i c st hft
      · rw [replanAt_skipped hf hft hskip]
        refine ⟨fun hset hlt => if_pos ⟨hset, hlt⟩, fun h => if_neg fun hn => ?_⟩
        rcases h with h | h
        · simp [h] at hn
        · omega
    · have ht : t = w.replanEvery k i c st := replanStep_every hc hst hd hm
      simp only [toIdle, ht]
      refine ⟨fun start stop hstart hstop => ⟨replanEvery_ended hstart hstop, fun he hf => ?_⟩, fun hn hf => ?_, fun hn hf => ?_⟩
      · obtain ⟨hidle, hheld, hcounting⟩ := replanEvery_lasting (k := k) (i := i) hstart hstop he hf
        refine ⟨fun hi => ?_, hheld, hcounting⟩
        rw [hidle hi]
        exact ⟨fun hset => by rw [if_pos hset]; exact windowTest_tested w k i c st hstart hstop (by rw [hi]; rfl), fun hset => by simp [hset]⟩
      · rw [replanEvery_untimed hn]; exact if_pos hf
      · rw [replanEvery_untimed hn]; exact if_neg hf
    · have ht : t = if st.timer.state = .held then w.fireStep k i else w := by
        rcases hm with hm | hm | ⟨hm, hn⟩
        · exact replanStep_untimed hc hst hd (.inl hm)
        · exact replanStep_untimed hc hst hd (.inr hm)
        · exact (replanStep_onDispatch hc hst hd hm).trans (if_neg hn)
      rw [ht]
      exact ⟨fun h => if_pos h, fun h => if_neg h⟩
    · exact (replanStep_onDispatch hc hst hd hm).trans (if_pos hfull)

end Sys2Proof.Machine
end

section
/-!
PROOFS. The origination queue: where an arrival stands in it, what its owner does with a dropped one, and the statement about the queue.
-/

namespace Sys2Proof.Machine

open Sys2Proof

/-- In a queue in order of class an origination enters behind every one of its class or a better and before every one of a worse (R74, R75). -/
theorem origInsert_placed {q : List Orig} (h : q.Pairwise (fun a b => a.cls ≤ b.cls)) (o : Orig) :
    ∃ l m, q = l ++ m ∧ origInsert q o = l ++ o :: m ∧ (∀ x ∈ l, x.cls ≤ o.cls) ∧ ∀ x ∈ m, o.cls < x.cls := by
  refine ⟨_, _, List.takeWhile_append_dropWhile.symm, rfl, fun x hx => by simpa using List.mem_takeWhile_imp hx, ?_⟩
  have hsorted := h.sublist (List.dropWhile_sublist (fun p : Orig => decide (p.cls ≤ o.cls)))
  have hhead := List.head?_dropWhile_not (fun p : Orig => decide (p.cls ≤ o.cls)) q
  cases hm : q.dropWhile (fun p : Orig => decide (p.cls ≤ o.cls)) with
  | nil => simp
  | cons y m =>
    rw [hm] at hsorted hhead
    have hy : o.cls < y.cls := by simpa using hhead
    intro x hx
    rcases List.mem_cons.mp hx with rfl | hx
    · exact hy
    · exact lt_of_lt_of_le hy (List.rel_of_pairwise_cons hsorted hx)

/-- What the owner of a dropped origination does: a step notes its own firing, a platform its approach's outcome, the others nothing (R75). -/
theorem origDropped_owner (s : State) (d : Orig) :
    (∀ key i, d.source = .step key i → s.origDropped d = if d.own then s.modStep key i (fun st => { st with timer := { st.timer with
      last := .skippedFull,
      state := if st.timer.state = .fired ∧ st.spec.mode ≠ .every then .skipped .full else st.timer.state } }) else s) ∧
    (∀ p, d.source = .approach p → s.origDropped d = s.setPm (s.pm.set p { s.pm.get p with lastOutcome := .skippedFull })) ∧
    (d.source = .evac → s.origDropped d = s) ∧ ∀ id, d.source = .retry id → s.origDropped d = s := by
  unfold State.origDropped
  refine ⟨fun key i h => ?_, fun p h => ?_, fun h => ?_, fun id h => ?_⟩ <;> rw [h] <;> rfl

/-- Settles O49: there is room, or the worst of a full queue is compared with the new one (`pushOrig_cases`). -/
theorem originationQueueTakesOne : Obligations.OriginationQueueTakesOne := by
  intro s o hq q t placed dropped
  have howner : ∀ v d, dropped v d (v.origDropped d) := origDropped_owner
  have hlast : ∀ {w p}, q = p ++ [w] → s.cmp.queue.getLast? = some w := fun h => by
    change s.cmp.queue = _ at h
    simp [h]
  rcases pushOrig_cases s o with ⟨hroom, ht⟩ | ⟨hfull, w, hw, hlt, ht⟩ | ⟨hfull, hle, ht⟩
  · exact ⟨fun _ => ⟨_, origInsert_placed hq o, ht⟩, fun _ _ h4 => absurd hroom (Nat.not_lt.mpr h4),
      fun _ _ h4 => absurd hroom (Nat.not_lt.mpr h4)⟩
  · refine ⟨fun h => absurd h (Nat.not_lt.mpr hfull), fun v p _ hv _ => ?_, fun v p _ hv hge => ?_⟩ <;>
      obtain rfl : w = v := Option.some.inj (hw.symm.trans (hlast hv))
    · have hsplit : s.cmp.queue = p ++ [w] := hv
      have hworst : ∀ x ∈ q, x.cls ≤ w.cls := fun x hx => by
        rw [hv] at hx
        rw [hsplit] at hq
        rcases List.mem_append.mp hx with hx | hx
        · exact (List.pairwise_append.mp hq).2.2 x hx w (List.mem_singleton_self w)
        · exact (congrArg Orig.cls (List.mem_singleton.mp hx)).le
      have hdrop : s.cmp.queue.dropLast = p := by rw [hsplit, List.dropLast_concat]
      refine ⟨hworst, origInsert p o, origInsert_placed ?_ o, ?_⟩
      · exact hdrop ▸ hq.sublist (List.dropLast_sublist _)
      · change dropped _ w (s.pushOrig o)
        rw [ht, hdrop]
        exact howner _ w
    · exact absurd hlt (Nat.not_lt.mpr hge)
  · refine ⟨fun h => absurd h (Nat.not_lt.mpr hfull), fun w p _ hw hlt => absurd hlt (Nat.not_lt.mpr (hle w (hlast hw))), fun _ _ _ _ _ => ?_⟩
    change dropped s o (s.pushOrig o)
    rw [ht]
    exact howner s o

end Sys2Proof.Machine
end

section
/-!
PROOFS. The claim that COMPOSE makes: its number, its target nodes, its frame and its entry, and the statements about the number and about COMPOSE.
-/

namespace Sys2Proof.Machine

open Sys2Proof

/-! ### The sequence number (R88) -/

theorem seqFree_iff (s : State) (own n : Nat) : s.seqFree own n = true ↔
    (∀ e ∈ s.clt, e.id ≠ ⟨own, n⟩) ∧ ∀ f ∈ s.lc.tx, ∀ c, f.body = .claim c → c.seq ≠ n := by
  have hclaim : ∀ f : TxFrame, f.isClaim n = false ↔ ∀ c, f.body = .claim c → c.seq ≠ n := fun f => by
    unfold TxFrame.isClaim
    cases f.body <;> simp
  simp [State.seqFree, State.findEntry, hclaim]

/-- The sequence numbers that the entries and the CLAIMs in the transmit queue bear, whichever node's they are. -/
def State.usedSeqs (s : State) : List Nat := s.clt.map (·.id.seq) ++ s.lc.tx.filterMap TxFrame.claimSeq

theorem length_usedSeqs_le (s : State) : s.usedSeqs.length ≤ s.clt.length + s.lc.tx.length := by
  rw [State.usedSeqs, List.length_append, List.length_map]
  exact Nat.add_le_add_left (List.length_filterMap_le _ _) _

theorem seqFree_of_unused {s : State} {n : Nat} (h : n ∉ s.usedSeqs) (own : Nat) : s.seqFree own n = true := by
  simp only [State.usedSeqs, List.mem_append, List.mem_map, List.mem_filterMap, not_or, not_exists, not_and] at h
  obtain ⟨hentries, hframes⟩ := h
  exact (seqFree_iff s own n).mpr ⟨fun e he hid => hentries e he (by rw [hid]),
    fun f hf c hb hseq => hframes f hf (by simp [TxFrame.claimSeq, hb, hseq])⟩

/-- With fewer than 16 entries and 8 frames one of the 256 numbers is free: an entry or a frame uses one at most (R88). -/
theorem exists_seqFree {s : State} (hc : s.clt.length < 16) (hq : s.lc.tx.length < 8) (own : Nat) :
    ∃ n, n < 256 ∧ s.seqFree own n = true := by
  have hcard : s.usedSeqs.toFinset.card < (Finset.range 256).card := by
    have hdistinct := s.usedSeqs.toFinset_card_le
    have hused := length_usedSeqs_le s
    rw [Finset.card_range]
    omega
  obtain ⟨n, hn, hunused⟩ := Finset.exists_mem_notMem_of_card_lt_card hcard
  exact ⟨n, Finset.mem_range.mp hn, seqFree_of_unused (mt List.mem_toFinset.mpr hunused) own⟩

/-- Settles O32: the number is the first free one found, and one is found (`exists_seqFree`). -/
theorem sequenceNumberIsTheFirstFree : Obligations.SequenceNumberIsTheFirstFree := by
  intro s own hc hq free
  have hfree : ∀ n, s.seqFree own n = true ↔ free n := seqFree_iff s own
  have hfound : ((List.range 256).map (fun k => (s.cmp.seq + k) % 256)).find? (s.seqFree own) = some (s.nextSeq own) := by
    obtain ⟨n, hn, hok⟩ := exists_seqFree hc hq own
    have hmem : n ∈ (List.range 256).map (fun k => (s.cmp.seq + k) % 256) :=
      List.mem_map.mpr ⟨(n + 256 - s.cmp.seq % 256) % 256, List.mem_range.mpr (Nat.mod_lt _ (by decide)), by omega⟩
    obtain ⟨m, hm⟩ := Option.isSome_iff_exists.mp (List.find?_isSome.mpr ⟨n, hmem, hok⟩)
    rw [State.nextSeq, hm, Option.getD_some]
  obtain ⟨hok, k, hk, hat, hbefore⟩ := List.find?_eq_some_iff_getElem.mp hfound
  rw [List.length_map, List.length_range] at hk
  simp only [List.getElem_map, List.getElem_range] at hat hbefore
  exact ⟨k, hk, hat.symm, (hfree _).mp hok, fun j hj hfj => absurd ((hfree _).mpr hfj) (by simpa using hbefore j hj)⟩

/-! ### The target nodes (R91) -/

theorem named_iff (s : State) (gs : GroupSet) (n : Nat) (z : ZoneId) : s.named gs n z = true ↔
    ∃ g, g < 32 ∧ gs.getLsbD g = true ∧ (s.cfg.groupMap.getD g 0).getLsbD (4 * (n - 1) + z.toNat) = true := by
  simp [State.named, State.inGroup]

theorem mem_targetNodes (s : State) (gs : GroupSet) (n : Nat) : n ∈ s.targetNodes gs ↔ 1 ≤ n ∧ n ≤ 48 ∧ ∃ z, s.named gs n z = true := by
  have hnodes : n ∈ (List.range 48).map (· + 1) ↔ 1 ≤ n ∧ n ≤ 48 := by
    simp only [List.mem_map, List.mem_range]
    exact ⟨fun ⟨k, hk, h⟩ => by omega, fun h => ⟨n - 1, by omega⟩⟩
  have hzones : Idx4.all.any (fun z => s.named gs n z) = true ↔ ∃ z, s.named gs n z = true := by
    rw [List.any_eq_true]
    exact ⟨fun ⟨z, _, h⟩ => ⟨z, h⟩, fun ⟨z, h⟩ => ⟨z, by cases z <;> decide, h⟩⟩
  rw [State.targetNodes, List.mem_filter, hnodes, hzones, and_assoc]

theorem targetNodes_ascend (s : State) (gs : GroupSet) : (s.targetNodes gs).Pairwise (· < ·) :=
  (List.pairwise_lt_range.map _ fun _ _ h => Nat.succ_lt_succ h).filter _

/-! ### The claim (R78, R89) -/

/-- The claim id written back to a claim's source reaches the step, the platform or the evacuation record that the source names (R89). -/
theorem writeBack_eq (s : State) (src : OrigSource) (id : ClaimId) :
    s.writeBack src id = { s with ct := (s.writeBack src id).ct, pm := (s.writeBack src id).pm, evac := (s.writeBack src id).evac } := by
  cases src <;> rfl

/-- The state with the claim of an origination entered and its frame in the transmit queue (R88, R89). -/
def State.claimEntered (s : State) (own : Nat) (o : Orig) (c : ClaimFrame) : State :=
  { s with cmp := { s.cmp with seq := (c.seq + 1) % 256 }, clt := s.clt ++ [s.originEntry own o c],
           lc := { s.lc with tx := txInsert s.lc.tx (s.newFrame (.claim c) 0) } }

theorem composeOrig_discards {s : State} {o : Orig} (h : (s.compositionText o).1 = [] ∨ s.groupsOf o = 0) (own : Nat) :
    s.composeOrig own o = s := by
  unfold State.composeOrig
  exact if_pos h

theorem enqueue_room {s : State} (h : s.lc.tx.length < 8) (b : TxBody) (dst : Nat) :
    s.enqueue b dst = s.setTx (txInsert s.lc.tx (s.newFrame b dst)) := by
  have hoffer : txOffer s.lc.tx (s.newFrame b dst) = (txInsert s.lc.tx (s.newFrame b dst), none) := if_pos h
  rw [enqueue_kept (congrArg Prod.snd hoffer), hoffer]

theorem composeOrig_enters {s : State} {own : Nat} {o : Orig} {c : ClaimFrame} (ht : (s.compositionText o).1 ≠ []) (hg : s.groupsOf o ≠ 0)
    (hq : s.lc.tx.length < 8) (hc : s.claimFrame o (s.nextSeq own) (s.groupsOf o) (s.compositionText o).1 (s.compositionText o).2.1
      (s.compositionText o).2.2 = c) : s.composeOrig own o = (s.claimEntered own o c).writeBack o.source ⟨own, s.nextSeq own⟩ := by
  unfold State.composeOrig
  dsimp only
  rw [if_neg (not_or.mpr ⟨ht, hg⟩), hc]
  subst hc
  exact congrArg (State.writeBack · o.source _) (enqueue_room (by exact hq) _ 0)

theorem exec_compose {s : State} {own : Nat} {o : Orig} {rest : List Orig} (hm : s.sul.mode = .running) (hn : s.nodeNo = some own)
    (hq : s.cmp.queue = o :: rest) (hc : s.clt.length < 16) (htx : s.lc.tx.length < 8) :
    exec .compose s = .next ((s.setQueue rest).composeOrig own o) := by
  have hready : (s.isRunning && s.composable) = true := by
    simp [State.isRunning, State.composable, Config.maxClaims, Config.maxTx, hm, hq, hc, htx]
  change execCompose s = _
  unfold execCompose
  rw [hq, hn]
  exact congrArg _ (if_pos hready)

/-- Settles O31: the head leaves the queue, and is discarded (`composeOrig_discards`) or entered and written back (`composeOrig_enters`). -/
theorem composeMakesTheClaim : Obligations.ComposeMakesTheClaim := by
  refine ⟨fun s gs => ⟨targetNodes_ascend s gs, fun n => ?_⟩, ?_⟩
  · simp only [mem_targetNodes, named_iff]
    exact and_congr_right fun _ => and_congr_right fun _ => exists_comm
  · intro s own o rest hm hn hq hc htx text gs seq id c e
    have hexec := exec_compose hm hn hq hc htx
    refine ⟨fun hnone => takes_of hexec (composeOrig_discards (s := s.setQueue rest) hnone own), fun htext hgs => ?_⟩
    have hframe : (s.setQueue rest).claimFrame o seq gs text.1 text.2.1 text.2.2 = c := by
      simp only [State.claimFrame, c]
      cases o.sync <;> rfl
    rw [composeOrig_enters (s := s.setQueue rest) htext hgs htx hframe] at hexec
    have hback := writeBack_eq ((s.setQueue rest).claimEntered own o c) o.source id
    refine takes_of hexec ⟨?_, ?_, ?_, ?_, fun key i h => ?_, fun p h => ?_, fun h => ?_, fun old h => ?_⟩
    case refine_1 | refine_2 | refine_3 | refine_4 => exact hback ▸ rfl
    all_goals
      rw [h]
      exact ⟨rfl, rfl, rfl⟩

end Sys2Proof.Machine
end

section
/-!
PROOFS. The text of a claim: what a slot appends, what a template expands to, how a long text loses its calling points, and the statement about them.
-/

namespace Sys2Proof.Machine

open Sys2Proof

/-! ### The context (R80, R83) -/

theorem context_without_call {s : State} {o : Orig} (h : o.call = none) : (s.context o).call = none := by
  simp [State.context, h]

theorem context_of_step {s : State} {o : Orig} {key i : Nat} {c : Call} {st : Step} (ho : o.call = some (key, i)) (hc : s.findCall key = some c)
    (hst : c.steps[i]? = some st) : s.context o = { call := some c, ref := st.spec.ref, stationNo := s.spokenPlatform c } := by
  simp [State.context, ho, hc, hst]

theorem spokenPlatform_own {s : State} {c : Call} (h : c.state ≠ .handingOff) : s.spokenPlatform c = (s.pm.get c.platform).stationNo := by
  unfold State.spokenPlatform
  split
  · exact absurd ‹_› h
  · rfl

theorem spokenPlatform_new {s : State} {c : Call} {h : HandoffCtx} (hs : c.state = .handingOff) (hh : c.handoff = some h) :
    s.spokenPlatform c = h.newPlatform := by
  simp [State.spokenPlatform, hs, hh]

/-- A call is late by the minute or more by which its expected time is past its scheduled one (R83). -/
theorem late_iff (x : Context) (l : Nat) : x.late = some l ↔
    ∃ c sch ex, x.call = some c ∧ c.scheduled x.ref = some sch ∧ c.expected x.ref = some ex ∧ sch + 60 ≤ ex ∧ l = ex - sch := by
  unfold Context.late
  cases x.call with
  | none => simp
  | some c =>
    cases hsch : c.scheduled x.ref with
    | none => simp [hsch]
    | some sch =>
      cases hex : c.expected x.ref with
      | none => simp [hsch, hex]
      | some ex => simp [hsch, hex, eq_comm]

/-! ### Slots (R81 to R85) -/

/-- A number code worked out from a base: nothing from base 0, the mark alone past 2047, the code otherwise (R85). -/
theorem numberText_cases (base add : Nat) :
    (base = 0 → numberText base add = ([], false)) ∧
    (base ≠ 0 → base + add ≤ 2047 → numberText base add = ([plainCode (base + add)], false)) ∧
    (base ≠ 0 → 2047 < base + add → numberText base add = ([], true)) := by
  unfold numberText
  refine ⟨fun h => if_pos h, fun h hle => ?_, fun h hlt => ?_⟩
  · rw [if_neg h, if_neg (Nat.not_lt.mpr hle)]
  · rw [if_neg h, if_pos hlt]

theorem slotSkips_speaking (x : Context) {slot : Slot} (hl : ∀ n, slot ≠ .ifLate n) (hc : ∀ n, slot ≠ .ifChanged n) : slotSkips x slot = 0 := by
  cases slot with
  | ifLate n => exact absurd rfl (hl n)
  | ifChanged n => exact absurd rfl (hc n)
  | _ => rfl

theorem slotSkips_late {x : Context} {l : Nat} (h : x.late = some l) (n : Nat) : slotSkips x (.ifLate n) = 0 := by simp [slotSkips, h]

theorem slotSkips_not_late {x : Context} (h : x.late = none) (n : Nat) : slotSkips x (.ifLate n) = n := by simp [slotSkips, h]

theorem slotSkips_changed {x : Context} {c : Call} (h : x.call = some c) (hc : c.changed = true) (n : Nat) : slotSkips x (.ifChanged n) = 0 := by
  simp [slotSkips, h, hc]

theorem slotSkips_not_changed {x : Context} (h : ∀ c, x.call = some c → c.changed = false) (n : Nat) : slotSkips x (.ifChanged n) = n := by
  cases hc : x.call with
  | none => simp [slotSkips, hc]
  | some c => simp [slotSkips, hc, h c hc]

theorem numberField_none (base : Nat) : numberField base none = ([], decide (base ≠ 0)) :=
  congrArg (Prod.mk []) (Bool.eq_iff_iff.mpr (by simp))

theorem timeText_none (b : Bases) : timeText b none = ([], decide (b.hour ≠ 0 ∨ b.minute ≠ 0 ∨ b.oclock ≠ 0)) :=
  congrArg (Prod.mk []) (Bool.eq_iff_iff.mpr (by simp [or_assoc]))

/-- A time speaks its hour, then its minutes, or "o'clock" in their place on the hour (R82). -/
theorem timeText_some (b : Bases) (v : Nat) : timeText b (some v) =
    (numberText b.hour (v % 86400 / 3600)).append
      (if v % 3600 < 60 then numberText b.oclock 0 else numberText b.minute (v % 3600 / 60)) := by
  have hhour : v % 86400 % 3600 = v % 3600 := by omega
  have hminute : v % 3600 / 60 = 0 ↔ v % 3600 < 60 := by omega
  simp only [timeText, hhour, hminute]

/-- Without a call a field slot is silent (R80). -/
theorem slotText_no_call (b : Bases) {x : Context} (h : x.call = none) :
    ∀ slot ∈ [Slot.dest, .origin, .platform, .timeArr, .timeDep, .delay, .coaches, .calling], slotText b x slot = ([], false) := by
  simp [slotText, Context.late, h]

theorem slotText_late (b : Bases) {x : Context} {l : Nat} (h : x.late = some l) : slotText b x .delay = numberText b.delay (minutesLate l) := by
  simp [slotText, h]

/-- What a field slot speaks of the call of its context (R80 to R85). -/
theorem slotText_call (b : Bases) {x : Context} {c : Call} (h : x.call = some c) :
    slotText b x .dest = fieldText c.dest ∧ slotText b x .origin = fieldText c.origin ∧
    slotText b x .platform = numberText b.platform x.stationNo ∧
    slotText b x .timeArr = timeText b c.expArr ∧ slotText b x .timeDep = timeText b c.expDep ∧
    slotText b x .coaches = numberField b.coaches c.coaches ∧
    slotText b x .calling = (c.points.map (fun p => { code := p, calling := true }), false) := by
  simp [slotText, h]

/-! ### The length limit (R86) -/

/-- The codes of a list that are no calling points. -/
def fixedCodes (l : List Spoken) : List Spoken := l.filter (fun c => !c.calling)

theorem fixedCodes_of_none {l : List Spoken} (h : ∀ c ∈ l, c.calling = false) : fixedCodes l = l :=
  List.filter_eq_self.mpr fun c hc => by simp [h c hc]

theorem fixedCodes_append (l m : List Spoken) : fixedCodes (l ++ m) = fixedCodes l ++ fixedCodes m := List.filter_append ..

theorem fixedCodes_calling {x : Spoken} (hx : x.calling = true) (l : List Spoken) : fixedCodes (x :: l) = fixedCodes l :=
  List.filter_cons_of_neg (by simp [hx])

theorem fixedCodes_sublist (l : List Spoken) : (fixedCodes l).Sublist l := List.filter_sublist

theorem calling_of_mem_fixedCodes {l : List Spoken} {c : Spoken} (h : c ∈ fixedCodes l) : c.calling = false := by
  simpa using (List.mem_filter.mp h).2

theorem andOthers_fixed (b : Bases) : ∀ c ∈ andOthers b, c.calling = false := by
  unfold andOthers
  split <;> simp [plainCode]

theorem length_andOthers_le (b : Bases) : (andOthers b).length ≤ 1 := by
  unfold andOthers
  split <;> simp

/-- A list has no calling point, or has a last one (R86). -/
theorem no_calling_or_last (l : List Spoken) : (∀ c ∈ l, c.calling = false) ∨
    ∃ pre x post, l = pre ++ x :: post ∧ x.calling = true ∧ ∀ c ∈ post, c.calling = false := by
  induction l with
  | nil => exact .inl nofun
  | cons a l ih =>
    rcases ih with hno | ⟨pre, x, post, rfl, hx, hpost⟩
    · cases ha : a.calling
      · exact .inl (List.forall_mem_cons.mpr ⟨ha, hno⟩)
      · exact .inr ⟨[], a, l, rfl, ha, hno⟩
    · exact .inr ⟨a :: pre, x, post, rfl, hx, hpost⟩

theorem replaceLastCalling_none (codes : List Spoken) {l : List Spoken} (h : ∀ c ∈ l, c.calling = false) : replaceLastCalling codes l = none := by
  induction l with
  | nil => rfl
  | cons a l ih =>
    obtain ⟨ha, hl⟩ := List.forall_mem_cons.mp h
    simp [replaceLastCalling, ih hl, ha]

theorem replaceLastCalling_last (codes pre : List Spoken) {x : Spoken} {post : List Spoken} (hx : x.calling = true)
    (h : ∀ c ∈ post, c.calling = false) : replaceLastCalling codes (pre ++ x :: post) = some (pre ++ codes ++ post) := by
  induction pre with
  | nil => simp [replaceLastCalling, replaceLastCalling_none codes h, hx]
  | cons a pre ih => simp [replaceLastCalling, ih]

/-- What trimming leaves of a list: calling points go from the end of its front part `pre`, no more of them than 32 codes need (R86). -/
structure Trimmed (pre tail kept gone r : List Spoken) : Prop where
  split : pre = kept ++ gone
  left : r = kept ++ fixedCodes gone ++ tail
  spent : 32 < r.length → ∀ c ∈ kept, c.calling = false
  needed : ∀ y g, gone = y :: g → y.calling = true ∧ 32 ≤ r.length

theorem trimCalling_trims (fuel : Nat) (pre tail : List Spoken) (hf : pre.length ≤ fuel) (ht : ∀ c ∈ tail, c.calling = false) :
    ∃ kept gone, Trimmed pre tail kept gone (trimCalling fuel (pre ++ tail)) := by
  induction fuel generalizing pre tail with
  | zero =>
    obtain rfl := List.length_eq_zero_iff.mp (Nat.le_zero.mp hf)
    exact ⟨[], [], rfl, rfl, nofun, nofun⟩
  | succ fuel ih =>
    unfold trimCalling
    by_cases hlen : (pre ++ tail).length ≤ 32
    · rw [if_pos hlen]
      exact ⟨pre, [], (List.append_nil _).symm, by simp [fixedCodes], fun h => absurd h (Nat.not_lt.mpr hlen), nofun⟩
    · rw [if_neg hlen]
      rcases no_calling_or_last pre with hno | ⟨p, x, q, rfl, hx, hq⟩
      · rw [replaceLastCalling_none [] (List.forall_mem_append.mpr ⟨hno, ht⟩)]
        exact ⟨pre, [], (List.append_nil _).symm, by simp [fixedCodes], fun _ => hno, nofun⟩
      · have hqt : ∀ c ∈ q ++ tail, c.calling = false := List.forall_mem_append.mpr ⟨hq, ht⟩
        have hlast : replaceLastCalling [] (p ++ x :: q ++ tail) = some (p ++ (q ++ tail)) := by
          simpa using replaceLastCalling_last [] p hx hqt
        rw [hlast]
        dsimp only
        simp only [List.length_append, List.length_cons] at hf hlen
        obtain ⟨kept, gone, hsplit, hleft, hspent, hneeded⟩ := ih p (q ++ tail) (by omega) hqt
        refine ⟨kept, gone ++ x :: q, by simp [hsplit], ?_, hspent, ?_⟩
        · rw [hleft]
          simp [fixedCodes_append, fixedCodes_calling hx, fixedCodes_of_none hq]
        · cases gone with
          | cons z g =>
            rintro y _ ⟨⟩
            exact hneeded z g rfl
          | nil =>
            rintro y _ ⟨⟩
            have hlp := congrArg List.length hsplit
            simp only [hleft, fixedCodes, List.filter_nil, List.append_nil, List.length_append] at hlp ⊢
            exact ⟨hx, by omega⟩

theorem limitLength_short (b : Bases) {l : List Spoken} (h : l.length ≤ 32) : limitLength b l = (l, false) := by
  simp [limitLength, h]

/-- A long list without a calling point is cut (R86). -/
theorem limitLength_fixed (b : Bases) {l : List Spoken} (h : 32 < l.length) (hno : ∀ c ∈ l, c.calling = false) :
    limitLength b l = (l.take 32, true) := by
  simp [limitLength, Nat.not_le.mpr h, replaceLastCalling_none _ hno, h]

/-- A long list with a last calling point loses it, the code for other stations in its place, and is trimmed before it (R86). -/
theorem limitLength_last (b : Bases) {pre : List Spoken} {x : Spoken} {post : List Spoken} (h : 32 < (pre ++ x :: post).length)
    (hx : x.calling = true) (hpost : ∀ c ∈ post, c.calling = false) :
    ∃ kept gone r, Trimmed pre (andOthers b ++ post) kept gone r ∧ limitLength b (pre ++ x :: post) = (r.take 32, decide (32 < r.length)) := by
  have htail : ∀ c ∈ andOthers b ++ post, c.calling = false := List.forall_mem_append.mpr ⟨andOthers_fixed b, hpost⟩
  obtain ⟨kept, gone, htrim⟩ := trimCalling_trims (pre ++ (andOthers b ++ post)).length pre _ (by simp) htail
  refine ⟨kept, gone, _, htrim, ?_⟩
  simp only [limitLength, if_neg (Nat.not_le.mpr h), replaceLastCalling_last _ pre hx hpost, List.append_assoc]

/-- How many codes a list keeps at least: those that are no calling points, and the code for other stations where a calling point went (R86). -/
def leastCodes (b : Bases) (l : List Spoken) : Nat :=
  (fixedCodes l).length + if l.any (fun c => c.calling) then (andOthers b).length else 0

theorem leastCodes_fixed (b : Bases) {l : List Spoken} (hno : ∀ c ∈ l, c.calling = false) : leastCodes b l = l.length := by
  have hany : l.any (fun c => c.calling) = false := by simpa using hno
  simp [leastCodes, hany, fixedCodes_of_none hno]

theorem leastCodes_last (b : Bases) (pre : List Spoken) {x : Spoken} {post : List Spoken} (hx : x.calling = true)
    (hpost : ∀ c ∈ post, c.calling = false) :
    leastCodes b (pre ++ x :: post) = (fixedCodes pre).length + (andOthers b).length + post.length := by
  simp [leastCodes, hx, fixedCodes_append, fixedCodes_calling hx, fixedCodes_of_none hpost]
  omega

/-- What a list is brought to before it is cut: it holds every code that is no calling point, and is longer than 32 codes only without a calling point,
as long as the fewest codes are (R86). -/
theorem limitLength_left (b : Bases) (l : List Spoken) : ∃ m, limitLength b l = (m.take 32, decide (32 < m.length)) ∧ (fixedCodes l).Sublist m ∧
    leastCodes b l ≤ max 32 m.length ∧ (32 < m.length → (∀ c ∈ m, c.calling = false) ∧ m.length = leastCodes b l) := by
  rcases no_calling_or_last l with hno | ⟨pre, x, post, rfl, hx, hpost⟩
  · have hleast := leastCodes_fixed b hno
    refine ⟨l, ?_, fixedCodes_sublist l, by omega, fun _ => ⟨hno, hleast.symm⟩⟩
    rcases Nat.lt_or_ge 32 l.length with h | h
    · simp [limitLength_fixed b h hno, h]
    · simp [limitLength_short b h, h]
  · have hleast := leastCodes_last b pre hx hpost
    have hothers := length_andOthers_le b
    rcases Nat.lt_or_ge 32 (pre ++ x :: post).length with h | h
    · obtain ⟨kept, gone, r, ⟨hsplit, hleft, hspent, -⟩, hr⟩ := limitLength_last b h hx hpost
      have hfixed : fixedCodes (pre ++ x :: post) = fixedCodes kept ++ fixedCodes gone ++ post := by
        rw [fixedCodes_append, fixedCodes_calling hx, fixedCodes_of_none hpost, hsplit, fixedCodes_append]
      have hkept := (fixedCodes_sublist kept).length_le
      have hlen : (fixedCodes pre).length = (fixedCodes kept).length + (fixedCodes gone).length := by
        rw [hsplit, fixedCodes_append, List.length_append]
      refine ⟨r, hr, ?_, ?_, fun h32 => ⟨?_, ?_⟩⟩
      · rw [hfixed, hleft]
        exact ((fixedCodes_sublist kept).append_right _).append (List.sublist_append_right _ _)
      · simp only [hleft, List.length_append]
        omega
      · rw [hleft]
        exact List.forall_mem_append.mpr ⟨List.forall_mem_append.mpr ⟨hspent h32, fun _ => calling_of_mem_fixedCodes⟩,
          List.forall_mem_append.mpr ⟨andOthers_fixed b, hpost⟩⟩
      · have hall := congrArg List.length (fixedCodes_of_none (hspent h32))
        simp only [hleft, List.length_append]
        omega
    · refine ⟨_, by rw [limitLength_short b h, List.take_of_length_le h, decide_eq_false (Nat.not_lt.mpr h)], fixedCodes_sublist _, ?_,
        fun h32 => absurd h32 (Nat.not_lt.mpr h)⟩
      have hpre := (fixedCodes_sublist pre).length_le
      simp only [List.length_append, List.length_cons] at h ⊢
      omega

/-- A text holds 32 codes at most, and is marked TRUNCATED exactly when more are left without a calling point; otherwise it keeps every code that is
none (R86). -/
theorem limitLength_limits (b : Bases) (l : List Spoken) : let r := limitLength b l
    r.1.length ≤ 32 ∧ (r.2 = true → ∀ c ∈ r.1, c.calling = false) ∧ (r.2 = false → (fixedCodes l).Sublist r.1) ∧
    (r.2 = true ↔ 32 < leastCodes b l) := by
  obtain ⟨m, hr, hsub, hle, hlong⟩ := limitLength_left b l
  rw [hr]
  simp only [decide_eq_true_eq, decide_eq_false_iff_not, Nat.not_lt]
  refine ⟨List.length_take_le .., fun h c hc => (hlong h).1 c (List.mem_of_mem_take hc), fun h => ?_, fun h => (hlong h).2 ▸ h, fun h => by omega⟩
  rwa [List.take_of_length_le h]

/-! ### The statement -/

/-- A composed text is its template expanded in its context and brought within 32 codes (R78, R80). -/
theorem compositionText_spec (s : State) (o : Orig) :
    let t := expand s.cmp.bases (s.context o) 0 (s.cmp.templates.getD o.template [])
    let l := limitLength s.cmp.bases t.1
    s.compositionText o = (l.1.map (·.code), t.2, l.2) ∧
    (o.call = none → (s.context o).call = none) ∧
    ∀ key i c st, o.call = some (key, i) → s.findCall key = some c → c.steps[i]? = some st →
      (s.context o).call = some c ∧ (s.context o).ref = st.spec.ref ∧
      (c.state ≠ .handingOff → (s.context o).stationNo = (s.pm.get c.platform).stationNo) ∧
      ∀ h, c.state = .handingOff → c.handoff = some h → (s.context o).stationNo = h.newPlatform := by
  refine ⟨rfl, context_without_call, fun key i c st ho hc hst => ?_⟩
  rw [context_of_step ho hc hst]
  exact ⟨rfl, rfl, spokenPlatform_own, fun h => spokenPlatform_new⟩

/-- Settles O33: the context and the slots case by case, and a long text by its last calling point (`limitLength_last`, `limitLength_left`). -/
theorem longTextsAreCut : Obligations.LongTextsAreCut := by
  refine ⟨compositionText_spec, ?_, ?_⟩
  · intro b x number silent late time
    have hnumber : ∀ base add, number base add (numberText base add) := numberText_cases
    have hlate : ∀ l, x.late = some l ↔ late l := late_iff x
    have hnever : (¬ ∃ l, late l) → x.late = none := fun h => Option.eq_none_iff_forall_ne_some.mpr fun l hl => h ⟨l, (hlate l).mp hl⟩
    have htime : ∀ slot t, slotText b x slot = timeText b t → time slot t := by
      intro slot t ht
      refine ⟨fun hn => ?_, fun v hv => ?_⟩
      · subst hn
        exact ht.trans (timeText_none b)
      · subst hv
        refine ⟨_, _, ht.trans (timeText_some b v), hnumber _ _, fun h => ?_, fun h => ?_⟩
        · rw [if_pos h]; exact hnumber _ _
        · rw [if_neg (Nat.not_lt.mpr h)]; exact hnumber _ _
    refine ⟨rfl, fun _ _ _ => rfl, fun _ _ => rfl, fun n => ⟨rfl, rfl, ?_, ?_, ?_, ?_⟩, fun slot => slotSkips_speaking x, rfl, ?_, ?_, ?_, ?_, ?_⟩
    · exact fun ⟨l, hl⟩ => slotSkips_late ((hlate l).mpr hl) n
    · exact fun h => slotSkips_not_late (hnever h) n
    · exact fun ⟨c, hc, hchanged⟩ => slotSkips_changed hc hchanged n
    · exact fun h => slotSkips_not_changed h n
    · intro p hp
      simp [slotText, hp, plainCode]
    · intro h
      simpa only [List.forall_mem_cons, List.not_mem_nil, false_imp_iff, implies_true, and_true] using slotText_no_call b h
    · intro h
      simp [silent, slotText, hnever h]
    · intro l hl
      rw [slotText_late b ((hlate l).mpr hl)]
      exact hnumber b.delay (minutesLate l)
    · intro c hc
      obtain ⟨hdest, horigin, hplatform, harr, hdep, hcoaches, hcalling⟩ := slotText_call b hc
      rw [hdest, horigin, hplatform, hcoaches, hcalling]
      refine ⟨?_, ?_, ?_, ?_, hnumber _ _, htime _ _ harr, htime _ _ hdep, ?_, ?_, rfl⟩
      · intro h; rw [h]; rfl
      · intro d h; rw [h]; rfl
      · intro h; rw [h]; rfl
      · intro d h; rw [h]; rfl
      · intro h; rw [h]; exact numberField_none _
      · intro n h; rw [h]; exact hnumber _ _
  · intro b l
    obtain ⟨hlen, hcut, hwhole, htruncated⟩ := limitLength_limits b l
    refine ⟨hlen, limitLength_short b, hcut, hwhole, htruncated, limitLength_fixed b, ?_⟩
    rintro pre x post h rfl hx hpost others
    obtain ⟨kept, gone, v, ⟨hsplit, hleft, hspent, hneeded⟩, hv⟩ := limitLength_last b h hx hpost
    have hleft : v = kept ++ gone.filter (fun c => !c.calling) ++ others ++ post := by rw [hleft, ← List.append_assoc]; rfl
    refine ⟨kept, gone, hsplit, ?_⟩
    rw [← hleft]
    exact ⟨hv, hspent, hneeded⟩

end Sys2Proof.Machine
end

section
/-!
PROOFS. Frames read back: the numbers that bytes spell, the flags of a byte, each sent body as its reader finds it, the tests of reception, and the
statement about them.
-/

namespace Sys2Proof.Machine

open Sys2Proof

/-! ### Bytes read back (R176) -/

@[simp] theorem field8_cons_zero (x : Byte) (b : List Byte) : field8 (x :: b) 0 = x.toNat := rfl

@[simp] theorem field8_cons_succ (x : Byte) (b : List Byte) (i : Nat) : field8 (x :: b) (i + 1) = field8 b i := rfl

/-- A byte made of a number says the number again, when it is one of a byte. -/
theorem toNat_byte {n : Nat} (h : n ≤ 255) : (BitVec.ofNat 8 n).toNat = n := by
  rw [BitVec.toNat_ofNat]
  omega

theorem field_succ (b : List Byte) (i w : Nat) : field b i (w + 1) = field b i w * 256 + field8 b (i + w) := by
  simp [field, beNat, field8, List.range_succ]

theorem field_zero (b : List Byte) (i : Nat) : field b i 0 = 0 := rfl

theorem field_bytes16 {n : Nat} (h : n ≤ 65535) (rest : List Byte) : field (bytes16 n ++ rest) 0 2 = n := by
  simp only [bytes16, List.cons_append, List.nil_append, field_succ, field_zero, field8_cons_zero, field8_cons_succ,
    BitVec.toNat_ofNat, Nat.zero_add]
  omega

theorem field_bytes24 {n : Nat} (h : n ≤ 16777215) (rest : List Byte) : field (bytes24 n ++ rest) 0 3 = n := by
  simp only [bytes24, List.cons_append, List.nil_append, field_succ, field_zero, field8_cons_zero, field8_cons_succ,
    BitVec.toNat_ofNat, Nat.zero_add]
  omega

theorem field_bytes32 {n : Nat} (h : n ≤ 4294967295) (rest : List Byte) : field (bytes32 n ++ rest) 0 4 = n := by
  simp only [bytes32, List.cons_append, List.nil_append, field_succ, field_zero, field8_cons_zero, field8_cons_succ,
    BitVec.toNat_ofNat, Nat.zero_add]
  omega

@[simp] theorem field_cons_succ (x : Byte) (b : List Byte) (i w : Nat) : field (x :: b) (i + 1) w = field b i w := by
  rw [Nat.add_comm, ← field_drop, List.drop_succ_cons, List.drop_zero]

@[simp] theorem field_skip16 (n : Nat) (b : List Byte) (i w : Nat) : field (bytes16 n ++ b) (i + 2) w = field b i w := by simp [bytes16]

@[simp] theorem field_skip24 (n : Nat) (b : List Byte) (i w : Nat) : field (bytes24 n ++ b) (i + 3) w = field b i w := by simp [bytes24]

@[simp] theorem field_skip32 (n : Nat) (b : List Byte) (i w : Nat) : field (bytes32 n ++ b) (i + 4) w = field b i w := by simp [bytes32]

@[simp] theorem field8_skip16 (n : Nat) (b : List Byte) (i : Nat) : field8 (bytes16 n ++ b) (i + 2) = field8 b i := rfl

@[simp] theorem field8_skip24 (n : Nat) (b : List Byte) (i : Nat) : field8 (bytes24 n ++ b) (i + 3) = field8 b i := rfl

@[simp] theorem field8_skip32 (n : Nat) (b : List Byte) (i : Nat) : field8 (bytes32 n ++ b) (i + 4) = field8 b i := rfl

theorem length_flatMap_bytes16 (l : List Nat) : (l.flatMap bytes16).length = 2 * l.length := by
  induction l with
  | nil => rfl
  | cons a l ih => simp [bytes16, ih]; omega

/-- Two-byte numbers one after another are read back in their order. -/
theorem codes16_flatMap {l : List Nat} (h : ∀ n ∈ l, n ≤ 65535) (rest : List Byte) :
    codes16 (l.flatMap bytes16 ++ rest) = l ++ codes16 rest := by
  induction l with
  | nil => rfl
  | cons a l ih =>
    obtain ⟨ha, hl⟩ := List.forall_mem_cons.mp h
    simp only [List.flatMap_cons, bytes16, List.cons_append, List.nil_append, codes16, ih hl, BitVec.toNat_ofNat, List.cons.injEq, and_true]
    omega

/-- A time is read back, absent or within the service day. -/
theorem timeField_bytes {o : Option Nat} (h : ∀ t, o = some t → t ≤ 107999) (rest : List Byte) :
    timeField (field (timeBytes o ++ rest) 0 3) = o := by
  cases o with
  | none => rw [timeBytes, field_bytes24 (by decide)]; rfl
  | some t =>
    have ht := h t rfl
    rw [timeBytes, field_bytes24 (by omega), timeField, if_neg (by omega)]

/-- A code or count that is never 0 is read back, 0 standing for its absence. -/
theorem zeroAbsent_getD {o : Option Nat} {m : Nat} (h : ∀ n, o = some n → 1 ≤ n ∧ n ≤ m) : zeroAbsent (o.getD 0) = o := by
  cases o with
  | none => rfl
  | some n => exact if_neg (Nat.one_le_iff_ne_zero.mp (h n rfl).1)

theorem getD_zero_le {o : Option Nat} {m k : Nat} (h : ∀ n, o = some n → 1 ≤ n ∧ n ≤ m) (hm : m ≤ k) : o.getD 0 ≤ k := by
  cases o with
  | none => exact Nat.zero_le k
  | some n => exact (h n rfl).2.trans hm

theorem int16_bytes {i : Int} (h : -7200 ≤ i ∧ i ≤ 7200) (rest : List Byte) : int16 (field (int16Bytes i ++ rest) 0 2) = i := by
  rw [int16Bytes, field_bytes16 (by omega), int16]
  split <;> omega

/-! ### A byte of flags -/

/-- A number in the low three bits and one flag in each of the next four. -/
def flagByte (low : Nat) (b3 b4 b5 b6 : Bool) : Nat := low + 8 * b3.toNat + 16 * b4.toNat + 32 * b5.toNat + 64 * b6.toNat

theorem bitSet_of_mod {n i : Nat} {b : Bool} (h : n / 2 ^ i % 2 = b.toNat) : bitSet n i = b := by
  cases b <;> simpa [bitSet] using h

theorem flagByte_reads {low : Nat} (h : low ≤ 7) (b3 b4 b5 b6 : Bool) : let n := flagByte low b3 b4 b5 b6
    n ≤ 255 ∧ n % 8 = low ∧ bitSet n 3 = b3 ∧ bitSet n 4 = b4 ∧ bitSet n 5 = b5 ∧ bitSet n 6 = b6 := by
  have h3 := b3.toNat_le
  have h4 := b4.toNat_le
  have h5 := b5.toNat_le
  have h6 := b6.toNat_le
  refine ⟨?_, ?_, bitSet_of_mod ?_, bitSet_of_mod ?_, bitSet_of_mod ?_, bitSet_of_mod ?_⟩ <;> simp only [flagByte] <;> omega

/-! ### CLAIM (R89) -/

/-- The flags of a CLAIM: its class, LOOSE, MISSING_FIELD, TRUNCATED. -/
def ClaimFrame.flags (c : ClaimFrame) : Nat := flagByte c.cls (c.sync == .loose) c.missing c.truncated false

/-- The train key and the step of a CLAIM as its body has them. -/
def ClaimFrame.keyStep (c : ClaimFrame) : Nat × Nat := c.call.getD (0, 255)

theorem claimBytes_eq (c : ClaimFrame) : claimBytes c = BitVec.ofNat 8 c.seq :: BitVec.ofNat 8 c.flags :: (bytes32 c.groups.toNat ++
    BitVec.ofNat 8 c.offset10 :: (bytes16 (c.window.getD 65535) ++ (bytes16 c.keyStep.1 ++ BitVec.ofNat 8 c.keyStep.2 ::
    BitVec.ofNat 8 c.phrases.length :: c.phrases.flatMap bytes16))) := by
  have hflags : (c.cls + (if (c.sync == .loose) = true then 8 else 0) + (if c.missing = true then 16 else 0) + if c.truncated = true then 32 else 0) =
      c.flags := by
    simp only [ClaimFrame.flags, flagByte]
    cases c.sync == .loose <;> cases c.missing <;> cases c.truncated <;> rfl
  unfold claimBytes
  simp only [hflags, ClaimFrame.keyStep]
  cases c.call <;> simp

theorem claimBytes_fields {c : ClaimFrame} (h : c.Fits) : let b := claimBytes c
    field8 b 0 = c.seq ∧ field8 b 1 = c.flags ∧ field b 2 4 = c.groups.toNat ∧ field8 b 6 = c.offset10 ∧ field b 7 2 = c.window.getD 65535 ∧
    field b 9 2 = c.keyStep.1 ∧ field8 b 11 = c.keyStep.2 ∧ field8 b 12 = c.phrases.length ∧ codes16 (b.drop 13) = c.phrases ∧
    b.length = 13 + 2 * c.phrases.length := by
  obtain ⟨hseq, hcls, hoff, hjoint, hloose, hcall, hfirst, hlast, hcodes⟩ := h
  have hwin : c.window.getD 65535 ≤ 65535 := by
    cases hs : c.sync with
    | joint => simp [hjoint hs]
    | loose => obtain ⟨w, hw, hle⟩ := hloose hs; simp only [hw, Option.getD_some]; omega
  have hkey : c.keyStep.1 ≤ 65535 ∧ c.keyStep.2 ≤ 255 := by
    cases hc : c.call with
    | none => simp [ClaimFrame.keyStep, hc]
    | some p => have := hcall p.1 p.2 hc; simp only [ClaimFrame.keyStep, hc, Option.getD_some]; omega
  have hphrases := codes16_flatMap (l := c.phrases) (fun n hn => (hcodes n hn).2.trans (by decide)) []
  obtain ⟨hflags, -⟩ := flagByte_reads hcls (c.sync == .loose) c.missing c.truncated false
  intro b
  simp only [b, claimBytes_eq]
  refine ⟨toNat_byte hseq, toNat_byte hflags, ?_, ?_, ?_, ?_, ?_, ?_, ?_, ?_⟩
  · simpa using field_bytes32 (by omega) _
  · simpa using toNat_byte hoff
  · simpa using field_bytes16 hwin _
  · simpa using field_bytes16 hkey.1 _
  · simpa using toNat_byte hkey.2
  · simpa using toNat_byte (by omega)
  · simpa [bytes16, bytes32, codes16] using hphrases
  · simp [bytes16, bytes32]; omega

theorem keyStep_ok {c : ClaimFrame} (h : c.Fits) :
    ((c.keyStep.1 == 0 && c.keyStep.2 == 255) || (1 ≤ c.keyStep.1 && c.keyStep.2 ≤ 5)) = true ∧
      (if c.keyStep.1 = 0 then none else some c.keyStep) = c.call := by
  cases hc : c.call with
  | none => simp [ClaimFrame.keyStep, hc]
  | some p =>
    obtain ⟨hk, -, hi⟩ := h.call p.1 p.2 hc
    simp [ClaimFrame.keyStep, hc, hk, hi, Nat.one_le_iff_ne_zero.mp hk]

theorem window_cases {c : ClaimFrame} (h : c.Fits) :
    (c.sync = .joint ∧ c.window = none) ∨ ∃ w, c.sync = .loose ∧ c.window = some w ∧ w ≤ 600 := by
  cases hs : c.sync with
  | joint => exact .inl ⟨rfl, h.joint hs⟩
  | loose =>
    obtain ⟨w, hw, hle⟩ := h.loose hs
    exact .inr ⟨w, rfl, hw, hle⟩

theorem decodeClaim_claimBytes {c : ClaimFrame} (h : c.Fits) : decodeClaim (claimBytes c) = some c := by
  obtain ⟨hseq, hflags, hgroups, hoff, hwin, hkey, hstep, hcount, hphrases, hlen⟩ := claimBytes_fields h
  obtain ⟨-, hcls, hsync, hmissing, htruncated, -⟩ := flagByte_reads h.cls (c.sync == .loose) c.missing c.truncated false
  change c.flags % 8 = _ at hcls
  change bitSet c.flags 3 = _ at hsync
  change bitSet c.flags 4 = _ at hmissing
  change bitSet c.flags 5 = _ at htruncated
  obtain ⟨hcall, hcall'⟩ := keyStep_ok h
  obtain ⟨hfirst, hlast, hcodes⟩ := h.codes
  have hs : (if (c.sync == Sync.loose) = true then Sync.loose else Sync.joint) = c.sync := by cases c.sync <;> rfl
  have hlength : lengthOk kindClaim (claimBytes c) = true := by
    simp only [lengthOk, hlen, hcount, if_pos, Bool.and_eq_true, decide_eq_true_eq, beq_self_eq_true, and_true]
    omega
  have hall : c.phrases.all codeOk = true := List.all_eq_true.mpr fun p hp => by simpa [codeOk] using hcodes p hp
  unfold decodeClaim
  simp only [hseq, hflags, hgroups, hoff, hwin, hkey, hstep, hcount, hphrases, hcls, hsync, hmissing, htruncated, hs, hlength, hall, hcall, hcall',
    Prod.mk.eta, BitVec.ofNat_toNat, BitVec.setWidth_eq]
  rcases window_cases h with ⟨hjoint, hnone⟩ | ⟨w, hloose, hsome, hle⟩
  · simp only [hjoint, hnone, Option.getD_none]
    rw [if_pos (by simp [hfirst, hlast]), ← hjoint, ← hnone]
  · simp only [hloose, hsome, Option.getD_some]
    rw [if_pos (by simp [hfirst, hlast, hle]), ← hloose, ← hsome]

/-! ### CEDE and ZSTAT (R176) -/

theorem claimId_wf_iff (id : ClaimId) : id.wf = true ↔ 1 ≤ id.origin ∧ id.origin ≤ 48 ∧ id.seq ≤ 255 := by
  simp [ClaimId.wf, and_assoc]

theorem decodeCede_cedeBytes {id : ClaimId} (h : id.wf = true) (cut : Bool) : decodeCede (cedeBytes id cut) = some (id, cut) := by
  obtain ⟨hfirst, hlast, hseq⟩ := (claimId_wf_iff id).mp h
  have horigin : field8 (cedeBytes id cut) 0 = id.origin := toNat_byte (by omega)
  have hnumber : field8 (cedeBytes id cut) 1 = id.seq := toNat_byte hseq
  have hcut : bitSet (field8 (cedeBytes id cut) 2) 0 = cut := by cases cut <;> simp [cedeBytes, bitSet]
  have hlength : lengthOk kindCede (cedeBytes id cut) = true := rfl
  simp [decodeCede, horigin, hnumber, hcut, hlength, hfirst, hlast]

theorem idx4_toNat_lt (z : Idx4) : z.toNat < 4 := by cases z <;> decide

theorem idx4_ofNat_toNat (z : Idx4) : Idx4.ofNat? z.toNat = some z := by cases z <;> rfl

theorem dispOf_dispCode {d : Disp} (hn : d ≠ .notTarget) (hp : d ≠ .pending) : dispOf (dispCode d) = some d := by
  cases d with
  | notTarget => exact absurd rfl hn
  | pending => exact absurd rfl hp
  | _ => rfl

theorem dispCode_le (d : Disp) : dispCode d ≤ 8 := by cases d <;> decide

/-- A zone and its final disposition are read back from their byte. -/
theorem zstatByte_reads {p : ZoneId × Disp} (hn : p.2 ≠ .notTarget) (hp : p.2 ≠ .pending) :
    zstatByte (BitVec.ofNat 8 (p.1.toNat + 16 * dispCode p.2)) = some p := by
  have hz := idx4_toNat_lt p.1
  have hd := dispCode_le p.2
  have hzone : (p.1.toNat + 16 * dispCode p.2) % 4 = p.1.toNat := by omega
  have hdisp : (p.1.toNat + 16 * dispCode p.2) / 16 = dispCode p.2 := by omega
  rw [zstatByte, toNat_byte (by omega), hzone, hdisp, idx4_ofNat_toNat, dispOf_dispCode hn hp]
  rfl

theorem ascending_of_pairwise {l : List Nat} (h : l.Pairwise (· < ·)) : ascending l = true := by
  induction l with
  | nil => rfl
  | cons a l ih =>
    obtain ⟨ha, hl⟩ := List.pairwise_cons.mp h
    cases l with
    | nil => rfl
    | cons b l => simp only [ascending, ih hl, Bool.and_true, decide_eq_true_eq]; exact ha b List.mem_cons_self

/-- A ZSTAT that lists zones by ascending number lists four at most. -/
theorem length_zones_le {zones : List (ZoneId × Disp)} (h : (zones.map (fun p => p.1.toNat)).Pairwise (· < ·)) : zones.length ≤ 4 := by
  have hsub : zones.map (fun p => p.1.toNat) ⊆ List.range 4 := fun n hn => by
    obtain ⟨p, -, rfl⟩ := List.mem_map.mp hn
    exact List.mem_range.mpr (idx4_toNat_lt p.1)
  have hnodup : (zones.map (fun p => p.1.toNat)).Nodup := h.imp Nat.ne_of_lt
  simpa using (hnodup.subperm hsub).length_le

theorem decodeZstat_zstatBytes {id : ClaimId} {zones : List (ZoneId × Disp)} (h : id.wf = true)
    (hasc : (zones.map (fun p => p.1.toNat)).Pairwise (· < ·)) (hfinal : ∀ p ∈ zones, p.2 ≠ .notTarget ∧ p.2 ≠ .pending) :
    decodeZstat (zstatBytes id zones) = some (id, zones) := by
  obtain ⟨hfirst, hlast, hseq⟩ := (claimId_wf_iff id).mp h
  have hfour := length_zones_le hasc
  have horigin : field8 (zstatBytes id zones) 0 = id.origin := toNat_byte (by omega)
  have hnumber : field8 (zstatBytes id zones) 1 = id.seq := toNat_byte hseq
  have hcount : field8 (zstatBytes id zones) 2 = zones.length := toNat_byte (by omega)
  have hzones : ((zstatBytes id zones).drop 3).mapM zstatByte = some zones := by
    rw [mapM_eq_some_iff]
    exact List.forall₂_map_left_iff.mpr (List.forall₂_same.mpr fun p hp => zstatByte_reads (hfinal p hp).1 (hfinal p hp).2)
  have hlen : (zstatBytes id zones).length = 3 + zones.length := by simp [zstatBytes]; omega
  have hlength : lengthOk kindZstat (zstatBytes id zones) = true := by
    simp [lengthOk, kindClaim, kindCede, kindZstat, hlen, hcount]
    omega
  simp [decodeZstat, horigin, hnumber, hzones, hlength, hfirst, hlast, ascending_of_pairwise hasc]

/-! ### HANDOFF (R68) -/

/-- The flags of a step record: its mode, DEP, the gate, the retry, LOOSE. -/
def StepSpec.flags (p : StepSpec) : Nat := flagByte (stepModeCode p.mode) (p.ref == .dep) p.gate p.retry (p.sync == .loose)

theorem stepBytes_eq (i : Nat) (p : StepSpec) : stepBytes i p = BitVec.ofNat 8 i :: BitVec.ofNat 8 p.flags :: (int16Bytes p.offset ++
    (bytes16 p.period ++ (int16Bytes p.windowEnd ++
    [BitVec.ofNat 8 p.limit, BitVec.ofNat 8 p.cls, BitVec.ofNat 8 p.template, BitVec.ofNat 8 p.target]))) := by
  have hflags : (stepModeCode p.mode + (if (p.ref == .dep) = true then 8 else 0) + (if p.gate = true then 16 else 0) +
      (if p.retry = true then 32 else 0) + if (p.sync == .loose) = true then 64 else 0) = p.flags := by
    simp only [StepSpec.flags, flagByte]
    cases p.ref == .dep <;> cases p.gate <;> cases p.retry <;> cases p.sync == .loose <;> rfl
  unfold stepBytes
  simp only [hflags]
  simp

theorem length_stepBytes (i : Nat) (p : StepSpec) : (stepBytes i p).length = 12 := rfl

theorem stepModeCode_le (m : StepMode) : stepModeCode m ≤ 7 := by cases m <;> decide

theorem stepModes_stepModeCode (m : StepMode) : [StepMode.atTime, .every, .onArrive, .onDispatch, .manual][stepModeCode m]? = some m := by
  cases m <;> rfl

/-- A step record is read back (R176). -/
theorem stepRec_stepBytes {p : StepSpec} (h : p.Fits) (i : Nat) : stepRec (stepBytes i p) =
    { index := (BitVec.ofNat 8 i).toNat, mode := stepModeCode p.mode, ref := p.ref, gate := p.gate, retry := p.retry, sync := p.sync,
      offset := p.offset, period := p.period, windowEnd := p.windowEnd, limit := p.limit, cls := p.cls, template := p.template,
      target := p.target } := by
  obtain ⟨hoff, hend, ⟨-, hper⟩, hlim, hcls, htpl, htgt⟩ := h
  obtain ⟨hbyte, hmode, href, hgate, hretry, hsync⟩ :=
    flagByte_reads (stepModeCode_le p.mode) (p.ref == .dep) p.gate p.retry (p.sync == .loose)
  have hflags : (BitVec.ofNat 8 p.flags).toNat = p.flags := toNat_byte hbyte
  rw [stepBytes_eq]
  simp only [stepRec, field8_cons_zero, field8_cons_succ, hflags]
  simp only [StepRec.mk.injEq, true_and]
  refine ⟨hmode, ?_, hgate, hretry, ?_, ?_, ?_, ?_, toNat_byte hlim, toNat_byte (hcls.trans (by decide)),
    toNat_byte (by omega), toNat_byte (by omega)⟩
  · rw [StepSpec.flags, href]
    cases p.ref <;> rfl
  · rw [StepSpec.flags, hsync]
    cases p.sync <;> rfl
  · simpa using int16_bytes hoff _
  · simpa [int16Bytes] using field_bytes16 (by omega) _
  · simpa [int16Bytes] using int16_bytes hend _

theorem stepRec_spec {p : StepSpec} (h : p.Fits) (i : Nat) : (stepRec (stepBytes i p)).spec? = some p := by
  rw [stepRec_stepBytes h, spec_iff]
  exact ⟨stepModes_stepModeCode p.mode, h, rfl⟩

/-- The steps of a plan are read back in index order (R68). -/
theorem stepRecs_specs {l : List StepSpec} (h : ∀ p ∈ l, p.Fits) (i : Nat) :
    List.Forall₂ (fun r p => r.spec? = some p) (stepRecs l.length (stepListBytes i l)) l := by
  induction l generalizing i with
  | nil => exact .nil
  | cons p l ih =>
    obtain ⟨hp, hl⟩ := List.forall_mem_cons.mp h
    rw [List.length_cons, stepRecs, stepListBytes, List.take_left' (length_stepBytes i p), List.drop_left' (length_stepBytes i p)]
    exact .cons (stepRec_spec hp i) (ih hl (i + 1))

theorem length_stepListBytes (i : Nat) (l : List StepSpec) : (stepListBytes i l).length = 12 * l.length := by
  induction l generalizing i with
  | nil => rfl
  | cons p l ih =>
    rw [stepListBytes, List.length_append, length_stepBytes, ih, List.length_cons]
    ring

theorem callKindOf_callKindCode (k : CallKind) : callKindOf (callKindCode k) = some k := by cases k <;> rfl

theorem handoffBytes_eq (h : HandoffFrame) : handoffBytes h = bytes16 h.key ++ BitVec.ofNat 8 (callKindCode h.kind) ::
    BitVec.ofNat 8 h.platform :: (timeBytes h.schArr ++ (timeBytes h.schDep ++ (timeBytes h.expArr ++ (timeBytes h.expDep ++
    (bytes16 (h.dest.getD 0) ++ (bytes16 (h.origin.getD 0) ++ BitVec.ofNat 8 (h.coaches.getD 0) :: BitVec.ofNat 8 h.points.length ::
    BitVec.ofNat 8 h.steps.length :: (h.points.flatMap bytes16 ++ stepListBytes 0 h.steps))))))) := by
  simp [handoffBytes]

@[simp] theorem field_skipTime (o : Option Nat) (b : List Byte) (i w : Nat) : field (timeBytes o ++ b) (i + 3) w = field b i w := by
  cases o <;> exact field_skip24 ..

@[simp] theorem field8_skipTime (o : Option Nat) (b : List Byte) (i : Nat) : field8 (timeBytes o ++ b) (i + 3) = field8 b i := by
  cases o <;> exact field8_skip24 ..

theorem length_timeBytes (o : Option Nat) : (timeBytes o).length = 3 := by cases o <;> rfl

/-- A HANDOFF's body is 23 bytes, then the calling points and the step records (R176). -/
theorem handoffBytes_lists (h : HandoffFrame) : ∃ head : List Byte, head.length = 23 ∧
    handoffBytes h = head ++ h.points.flatMap bytes16 ++ stepListBytes 0 h.steps :=
  ⟨_, by simp [length_timeBytes, bytes16], rfl⟩

/-- A HANDOFF's body says the call and the plan it carries (R68). -/
theorem readHandoff_handoffBytes {h : HandoffFrame} (hf : h.Fits) : let b := readHandoff (handoffBytes h)
    b.key = h.key ∧ callKindOf b.kind = some h.kind ∧ b.platform = h.platform ∧ b.schArr = h.schArr ∧ b.schDep = h.schDep ∧
    b.expArr = h.expArr ∧ b.expDep = h.expDep ∧ zeroAbsent b.dest = h.dest ∧ zeroAbsent b.origin = h.origin ∧
    zeroAbsent b.coaches = h.coaches ∧ b.points = h.points ∧ b.plan? = some h.steps ∧ b.lengthFits = true := by
  obtain ⟨⟨-, hkey⟩, hplatform, hschArr, hschDep, hexpArr, hexpDep, hdest, horigin, hcoaches, ⟨hpoints, hcodes⟩, hsteps, hspecs⟩ := hf
  have hkind : (BitVec.ofNat 8 (callKindCode h.kind)).toNat = callKindCode h.kind := by cases h.kind <;> rfl
  have hn : field8 (handoffBytes h) 21 = h.points.length := by rw [handoffBytes_eq]; simpa using toNat_byte (by omega)
  have hm : field8 (handoffBytes h) 22 = h.steps.length := by rw [handoffBytes_eq]; simpa using toNat_byte (by omega)
  obtain ⟨head, hhead, hbytes⟩ := handoffBytes_lists h
  have hlists : (handoffBytes h).drop 23 = h.points.flatMap bytes16 ++ stepListBytes 0 h.steps := by
    rw [hbytes, List.append_assoc, List.drop_left' hhead]
  have hlast : (handoffBytes h).drop (23 + 2 * h.points.length) = stepListBytes 0 h.steps := by
    rw [← List.drop_drop, hlists, List.drop_left' (length_flatMap_bytes16 _)]
  intro b
  refine ⟨?_, ?_, ?_, ?_, ?_, ?_, ?_, ?_, ?_, ?_, ?_, ?_, ?_⟩
  case refine_11 =>
    simp only [b, readHandoff, hn, hlists, codes16_flatMap (fun n hn => (hcodes n hn).2.trans (by decide)), List.take_left]
  case refine_12 =>
    have hlen : b.steps.length ≤ 6 := by simpa only [b, readHandoff, length_stepRecs, hm] using hsteps
    rw [CallBody.plan?, if_pos hlen, mapM_eq_some_iff]
    simpa only [b, readHandoff, hn, hm, hlast] using stepRecs_specs hspecs 0
  case refine_13 =>
    have hlen : (handoffBytes h).length = 23 + 2 * h.points.length + 12 * h.steps.length := by
      rw [hbytes, List.length_append, List.length_append, hhead, length_flatMap_bytes16, length_stepListBytes]
    simp [b, readHandoff, hn, hm, hlen]
  all_goals simp only [b, readHandoff, handoffBytes_eq]
  · exact field_bytes16 hkey _
  · simpa [hkind] using callKindOf_callKindCode h.kind
  · simpa using toNat_byte hplatform
  · simpa using timeField_bytes hschArr _
  · simpa using timeField_bytes hschDep _
  · simpa using timeField_bytes hexpArr _
  · simpa using timeField_bytes hexpDep _
  · simpa [field_bytes16 (getD_zero_le hdest (by decide))] using zeroAbsent_getD hdest
  · simpa [field_bytes16 (getD_zero_le horigin (by decide))] using zeroAbsent_getD horigin
  · have hread := zeroAbsent_getD hcoaches
    rw [← toNat_byte (getD_zero_le hcoaches (by decide))] at hread
    simpa using hread

/-! ### Reception (R162, R163) -/

theorem kindCode_range (b : TxBody) : 1 ≤ b.kindCode ∧ b.kindCode ≤ 14 := by
  cases b <;> simp [TxBody.kindCode, kindClaim, kindCede, kindZstat, kindAnswer, kindHandoff, kindReport]

/-- No kind of frame has a body of more than 160 bytes (R162, R176). -/
theorem length_le_of_lengthOk {kind : Nat} {body : List Byte} (h : lengthOk kind body = true) : body.length ≤ 160 := by
  by_contra hlong
  have hle : ∀ k, k ≤ 160 → ¬ body.length ≤ k := fun k hk hb => hlong (hb.trans hk)
  have hne : ∀ k, k ≤ 160 → body.length ≠ k := fun k hk hb => hle k hk hb.le
  simp [lengthOk, hle 7, hle 77, hle 80, hle 160, hne 2, hne 3, hne 4] at h

/-- The bytes before the body: the kind, the source, the destination, the body's length (R162). -/
def frameHead (src : Nat) (f : TxFrame) : List Byte :=
  [BitVec.ofNat 8 f.body.kindCode, BitVec.ofNat 8 src, BitVec.ofNat 8 f.dst, BitVec.ofNat 8 f.body.bytes.length]

theorem frameBytes_eq (src : Nat) (f : TxFrame) :
    frameBytes src f = (frameHead src f ++ f.body.bytes) ++ bytes16 (crc (frameHead src f ++ f.body.bytes)).toNat := rfl

/-- A frame passes every test of reception, at a station it is addressed to, when its kind allows its body (R163). -/
theorem receptionTest_frameBytes {f : TxFrame} (src : Nat) {own : Option Nat} (hlen : lengthOk f.body.kindCode f.body.bytes = true)
    (hval : valuesOk f.body.kindCode f.body.bytes = true) (hdst : f.dst = 0 ∨ (f.dst ≤ 255 ∧ own = some f.dst)) :
    receptionTest own (frameBytes src f) false = none := by
  have h160 := length_le_of_lengthOk hlen
  obtain ⟨hk1, hk14⟩ := kindCode_range f.body
  have hkind : field8 (frameBytes src f) 0 = f.body.kindCode := toNat_byte (by omega)
  have hto : field8 (frameBytes src f) 2 = f.dst := toNat_byte (by omega)
  have hcount : field8 (frameBytes src f) 3 = f.body.bytes.length := toNat_byte (by omega)
  have hcovered : (frameHead src f ++ f.body.bytes).length = 4 + f.body.bytes.length := by simp [frameHead]; omega
  have htake : (frameBytes src f).take (4 + f.body.bytes.length) = frameHead src f ++ f.body.bytes := List.take_left' hcovered
  have hcheck : field (frameBytes src f) (4 + f.body.bytes.length) 2 = (crc (frameHead src f ++ f.body.bytes)).toNat := by
    rw [← Nat.add_zero (4 + f.body.bytes.length), ← field_drop, frameBytes_eq, List.drop_left' hcovered]
    simpa using field_bytes16 (by omega) []
  have hbody : ((frameBytes src f).drop 4).take f.body.bytes.length = f.body.bytes := by
    rw [frameBytes_eq, List.append_assoc, List.drop_left' (by rfl), List.take_left]
  have hwhole : ¬ (frameBytes src f).length < 4 + f.body.bytes.length + 2 := by
    rw [frameBytes_eq, List.length_append, hcovered]
    simp [bytes16]
  have hours : (f.dst == 0 || own == some f.dst) = true := by
    rcases hdst with h | ⟨-, h⟩ <;> simp [h]
  simp [receptionTest, hkind, hto, hcount, htake, hcheck, hbody, hwhole, hours, hlen, hval, hk1, hk14, Nat.not_lt.mpr h160]

/-! ### The statement -/

/-- Settles O54: each body by its reader, and a whole frame by the tests of reception. -/
theorem sentFramesAreReadBack : Obligations.SentFramesAreReadBack :=
  ⟨fun _ => decodeClaim_claimBytes, fun _ cut h => decodeCede_cedeBytes h cut, fun _ _ => decodeZstat_zstatBytes,
    fun _ => readHandoff_handoffBytes, fun _ src _ => receptionTest_frameBytes src⟩

end Sys2Proof.Machine
end

section
/-!
PROOFS. The close of a coverage window: the groups a retry goes to, when one is due, and the statement.
-/

namespace Sys2Proof.Machine

open Sys2Proof

theorem findEntry_id {s : State} {id : ClaimId} {e : Entry} (h : s.findEntry id = some e) : e.id = id := by
  simpa using List.find?_some h

/-! ### The groups of a retry (R105) -/

theorem sum_powers_lt (p : Nat → Bool) (n : Nat) : ((List.range n).map (fun i => if p i then 2 ^ i else 0)).sum < 2 ^ n := by
  induction n with
  | zero => simp
  | succ n ih =>
    have hlast : (if p n then 2 ^ n else 0) ≤ 2 ^ n := by split <;> omega
    rw [List.range_succ, List.map_append, List.sum_append, List.map_singleton, List.sum_singleton, pow_succ]
    omega

/-- The bits of a number summed from distinct powers of two. -/
theorem testBit_sum_powers (p : Nat → Bool) (n g : Nat) :
    ((List.range n).map (fun i => if p i then 2 ^ i else 0)).sum.testBit g = (decide (g < n) && p g) := by
  induction n with
  | zero => simp
  | succ n ih =>
    have hlt := sum_powers_lt p n
    rw [List.range_succ, List.map_append, List.sum_append, List.map_singleton, List.sum_singleton]
    rcases Nat.lt_trichotomy g n with hg | rfl | hg
    · have hbit : (if p n then 2 ^ n else 0) = 2 ^ n * (if p n then 1 else 0) := by split <;> simp
      rw [hbit, Nat.add_comm, Nat.two_pow_add_eq_or_of_lt hlt, Nat.testBit_or, ih, Nat.testBit_two_pow_mul]
      simp [hg, Nat.lt_succ_of_lt hg]
    · cases hp : p g
      · simp [ih, hp]
      · simp [Nat.add_comm _ (2 ^ g), Nat.testBit_two_pow_add_eq, ih, hp]
    · have hsum : ((List.range n).map (fun i => if p i then 2 ^ i else 0)).sum + (if p n then 2 ^ n else 0) < 2 ^ (n + 1) := by
        rw [pow_succ]; split <;> omega
      have hhigh : 2 ^ (n + 1) ≤ 2 ^ g := Nat.pow_le_pow_right (by decide) hg
      rw [Nat.testBit_lt_two_pow (hsum.trans_le hhigh), decide_eq_false (by omega), Bool.false_and]

theorem mem_idx4_all (z : Idx4) : z ∈ Idx4.all := by cases z <;> decide

/-- A group takes part in a retry when it contains a retry zone of some line (R105). -/
theorem retryGroups_iff (s : State) (lines : List CoverLine) {g : Nat} (hg : g < 32) : (s.retryGroups lines).getLsbD g = true ↔
    ∃ l ∈ lines, ∃ z, l.retryZones.get z = true ∧ s.inGroup g l.node z = true := by
  rw [State.retryGroups, BitVec.getLsbD_ofNat, testBit_sum_powers]
  simp only [hg, decide_true, Bool.true_and, List.any_eq_true, mem_idx4_all, true_and, Bool.and_eq_true]

/-! ### The close (R103, R104) -/

theorem closes_iff (o : OriginPart) (now : Nat) : o.closes now = true ↔ o.windowOpen = true ∧ ∃ w, o.windowEnd = some w ∧ w ≤ now := by
  unfold OriginPart.closes
  cases o.windowEnd <;> simp

/-- The step `st` still asks for a retry of the entry with origin part `o` (R104, R105). -/
def State.RetryAsked (s : State) (o : OriginPart) (st : Step) : Prop :=
  st.spec.retry = true ∧ o.retryUsed = false ∧ o.isRetry = false ∧ o.noRetry = false ∧ s.retryGroups o.lines ≠ 0

theorem retryDue_asked {s : State} {e : Entry} {o : OriginPart} {key i : Nat} {st : Step} (hc : e.call = some (key, i))
    (hst : s.findStep key i = some st) (hr : s.RetryAsked o st) : s.retryDue e o = some
      { source := .retry e.id, cls := e.cls, sync := e.sync, template := st.spec.template, target := .groups (s.retryGroups o.lines),
        call := some (key, i), queuedAt := s.now, own := false } := by
  obtain ⟨hretry, hused, his, hno, hgroups⟩ := hr
  simpa [State.retryDue, hc, hst, hretry, hused, his, hno] using hgroups

theorem retryDue_none {s : State} {e : Entry} {o : OriginPart}
    (h : ∀ key i st, e.call = some (key, i) → s.findStep key i = some st → ¬ s.RetryAsked o st) : s.retryDue e o = none := by
  unfold State.retryDue
  split
  · rfl
  · rename_i key i hc
    split
    · rfl
    · rename_i st hst
      refine if_neg fun hr => h key i st hc hst ?_
      simpa [State.RetryAsked, and_assoc] using hr

theorem exec_coverageWindowClose {id : ClaimId} {s : State} {e : Entry} {o : OriginPart} (he : s.findEntry id = some e) (ho : e.origin = some o) :
    exec (.coverageWindowClose id) s = .next (if o.closes s.now then s.closeWindow e o else s) := by
  change execCoverageWindowClose id s = _
  simp only [execCoverageWindowClose, he, ho]

/-- Settles O38: the window closes when its end is reached (`closes_iff`), and hands over the retry that `retryDue` finds. -/
theorem windowCloseDecidesTheRetry : Obligations.WindowCloseDecidesTheRetry := by
  intro id s e o he ho groups due closed used
  have hexec := exec_coverageWindowClose he ho
  have hid := findEntry_id he
  refine ⟨fun g => retryGroups_iff s o.lines, fun w hopen hw hreached => ?_, fun hnot => ?_⟩
  · rw [if_pos ((closes_iff o s.now).mpr ⟨hopen, w, hw, hreached⟩), State.closeWindow, hid] at hexec
    refine ⟨fun hno => takes_of hexec ?_, fun key i st hc hst hdue => takes_of hexec ?_⟩
    · rw [retryDue_none hno]
      rfl
    · rw [retryDue_asked hc hst hdue, hid]
      rfl
  · refine takes_of hexec (if_neg fun hcloses => ?_)
    obtain ⟨hopen, w, hw, hreached⟩ := (closes_iff o s.now).mp hcloses
    rcases hnot with h | h | ⟨v, hv, hlt⟩
    · simp [hopen] at h
    · simp [hw] at h
    · cases hw.symm.trans hv
      exact Nat.not_lt.mpr hreached hlt

end Sys2Proof.Machine
end

section
/-!
PROOFS. Entries settle, report and leave, and the node's own claims are withdrawn: what a settling is, what it leaves of every entry and of the transmit
queue, and the statements about reports, removals and ordered withdrawals.
-/

namespace Sys2Proof.Machine

open Sys2Proof

theorem modEntry_modEntry (s : State) (id : ClaimId) {f : Entry → Entry} (g : Entry → Entry) (hf : ∀ e, (f e).id = e.id) :
    (s.modEntry id f).modEntry id g = s.modEntry id (fun e => g (f e)) := by
  unfold State.modEntry
  rw [State.setClt_clt, List.map_map]
  refine congrArg s.setClt (List.map_congr_left fun e _ => ?_)
  by_cases h : e.id = id <;> simp [hf, h]

/-! ### Coverage lines (R91, R102) -/

theorem callsForRetry_iff (d : Disp) : d.callsForRetry = true ↔ d = .preempted ∨ d = .missed ∨ d = .refusedBusy ∨ d = .evicted := by
  cases d <;> simp [Disp.callsForRetry]

theorem outcomeOf_eq (zones : List (ZoneId × Disp)) : outcomeOf (zones.map (·.2)) =
    if ∀ p ∈ zones, p.2 ≠ .played then .missed else if ∀ p ∈ zones, p.2 = .played then .played else .partly := by
  have hnone : (zones.map (·.2)).all (fun d => d != .played) = decide (∀ p ∈ zones, p.2 ≠ .played) := by
    rw [Bool.eq_iff_iff]
    simp
  have hevery : (zones.map (·.2)).all (fun d => d == .played) = decide (∀ p ∈ zones, p.2 = .played) := by
    rw [Bool.eq_iff_iff]
    simp
  rw [outcomeOf, hnone, hevery]
  simp only [decide_eq_true_eq]

/-- The line that a list of zones with their dispositions makes of a node's (R91, R102). -/
theorem rewriteLine_eq (l : CoverLine) (zones : List (ZoneId × Disp)) : rewriteLine l zones =
    { node := l.node,
      outcome := if ∀ p ∈ zones, p.2 ≠ .played then .missed else if ∀ p ∈ zones, p.2 = .played then .played else .partly,
      retryZones := Quad.tabulate (fun z => decide (∃ p ∈ zones, p.1 = z ∧
        (p.2 = .preempted ∨ p.2 = .missed ∨ p.2 = .refusedBusy ∨ p.2 = .evicted))) } := by
  have hzones : ∀ z, zones.any (fun p => p.1 == z && p.2.callsForRetry) = decide (∃ p ∈ zones, p.1 = z ∧
      (p.2 = .preempted ∨ p.2 = .missed ∨ p.2 = .refusedBusy ∨ p.2 = .evicted)) := fun z => by
    rw [Bool.eq_iff_iff, decide_eq_true_iff]
    simp only [List.any_eq_true, Bool.and_eq_true, beq_iff_eq, callsForRetry_iff]
  simp only [rewriteLine, hzones, outcomeOf_eq]

theorem rewriteLines_eq (ls : List CoverLine) (n : Nat) (zones : List (ZoneId × Disp)) : rewriteLines ls n zones =
    ls.map (fun l => if l.node = n then
      { node := l.node,
        outcome := if ∀ p ∈ zones, p.2 ≠ .played then .missed else if ∀ p ∈ zones, p.2 = .played then .played else .partly,
        retryZones := Quad.tabulate (fun z => decide (∃ p ∈ zones, p.1 = z ∧
          (p.2 = .preempted ∨ p.2 = .missed ∨ p.2 = .refusedBusy ∨ p.2 = .evicted))) }
      else l) := by
  simp only [rewriteLines, rewriteLine_eq, beq_iff_eq]

/-! ### The settling of one entry (R94, R101, R102) -/

theorem settles_iff (e : Entry) : e.settles = true ↔
    e.settled = false ∧ (∀ z, e.disp.get z ≠ .pending) ∧ (e.start ≠ none ∨ ∃ o, e.origin = some o ∧ o.send = .failed) := by
  have hpending : e.pendingSomewhere = false ↔ ∀ z, e.disp.get z ≠ .pending := by
    simp [Entry.pendingSomewhere, mem_idx4_all]
  unfold Entry.settles
  cases e.origin <;> simp [hpending, Option.isSome_iff_ne_none, and_assoc]

section SettleEntry

variable {s : State} {id : ClaimId} {e : Entry} (he : s.findEntry id = some e)
include he

theorem settleEntry_not_due (h : e.settles = false) : s.settleEntry id = s := by
  unfold State.settleEntry
  simp [he, h]

theorem settleEntry_received (h : e.settles = true) (ho : e.origin = none) (hz : e.zstat ≠ .pending) :
    s.settleEntry id = s.modEntry id (fun d => { d with settled := true }) := by
  unfold State.settleEntry
  simp [he, h, ho, hz]

theorem settleEntry_reports (h : e.settles = true) (ho : e.origin = none) (hz : e.zstat = .pending) : s.settleEntry id =
    (s.modEntry id (fun d => { d with settled := true, zstat := .queued })).enqueueLow (.zstat id e.zoneList) id.origin := by
  unfold State.settleEntry
  simp only [he, h, ho, hz, if_true, beq_self_eq_true]
  rw [modEntry_modEntry]
  exact fun _ => rfl

theorem settleEntry_unnumbered {o : OriginPart} (h : e.settles = true) (ho : e.origin = some o) (hn : s.nodeNo = none) :
    s.settleEntry id = s.modEntry id (fun d => { d with settled := true }) := by
  have hn' : (s.modEntry id (fun d => { d with settled := true })).nodeNo = none := hn
  unfold State.settleEntry
  simp [he, h, ho, hn']

theorem settleEntry_own {o : OriginPart} {n : Nat} (h : e.settles = true) (ho : e.origin = some o) (hn : s.nodeNo = some n) :
    s.settleEntry id = (s.modEntry id (fun d => { d with settled := true })).modOrigin id
      (fun o => { o with lines := rewriteLines o.lines n e.zoneList }) := by
  have hn' : (s.modEntry id (fun d => { d with settled := true })).nodeNo = some n := hn
  unfold State.settleEntry
  simp [he, h, ho, hn']

end SettleEntry

theorem enqueueLow_kept {s : State} {b : TxBody} {dst : Nat} (h : (txOffer s.lc.tx (s.newFrame b dst)).2 = none) :
    s.enqueueLow b dst = s.setTx (txOffer s.lc.tx (s.newFrame b dst)).1 := by
  unfold State.enqueueLow
  dsimp only
  rw [h]

theorem enqueueLow_fails {s : State} {b : TxBody} {dst : Nat} {g : TxFrame} (h : (txOffer s.lc.tx (s.newFrame b dst)).2 = some g) :
    s.enqueueLow b dst = (s.setTx (txOffer s.lc.tx (s.newFrame b dst)).1).lowFail g := by
  unfold State.enqueueLow
  dsimp only
  rw [h]

theorem lowFail_report {s : State} {f : TxFrame} {k i n l : Nat} {key : Option Nat} {c : List Byte} (h : f.body = .report k i n l key c) :
    s.lowFail f = s.setReport none := by
  unfold State.lowFail
  rw [h]

/-! ### ZSTAT and ENTRY_REMOVAL (R102, R106) -/

theorem exec_zstat {f : RxFrame} {s : State} {id : ClaimId} {zones : List (ZoneId × Disp)} (hd : decodeZstat f.body = some (id, zones))
    (hh : s.hears kindZstat f = true) : exec (.zstat f) s = .next (s.frameEnd.takeZstat f.src.toNat id zones) := by
  have hh' : s.frameEnd.hears kindZstat f = true := hh
  change execZstat f s = _
  simp only [execZstat, hd, hh', if_true]

theorem removable_iff (e : Entry) : e.removable = true ↔ e.settled = true ∧
    (e.origin = none → e.zstat = .sent ∨ e.zstat = .failed ∨ e.zstat = .notNeeded) ∧
    ∀ o, e.origin = some o → (o.send = .sent ∨ o.send = .failed) ∧ o.windowOpen = false := by
  unfold Entry.removable
  cases e.origin <;> simp [or_assoc]

theorem exec_entryRemoval {id : ClaimId} {s : State} {e : Entry} (he : s.findEntry id = some e) : exec (.entryRemoval id) s =
    .next (if e.removable then s.setClt (s.clt.filter (fun d => d.id != id)) else s) := by
  change execEntryRemoval id s = _
  simp only [execEntryRemoval, he]

theorem findEntry_filter_self (s : State) (id : ClaimId) : (s.setClt (s.clt.filter (fun d => d.id != id))).findEntry id = none := by
  simp [State.findEntry]

/-- Settles O37: the settling of an entry by its cases, a line by `rewriteLines_eq`, a removal by `removable_iff`. -/
theorem entriesAreReportedAndRemoved : Obligations.EntriesAreReportedAndRemoved := by
  refine ⟨fun s => rfl, ?_, ?_, ?_⟩
  · intro s id e he t due zones settled
    refine ⟨fun hnot => ?_, fun hdue ho => ⟨fun hz => ?_, fun hz => ?_⟩, fun o hdue ho => ⟨fun hn => ?_, fun n hn => ?_⟩⟩
    · exact settleEntry_not_due he (Bool.eq_false_iff.mpr fun h => hnot ((settles_iff e).mp h))
    · exact settleEntry_received he ((settles_iff e).mpr hdue) ho hz
    · intro v f r w
      have ht : t = v.enqueueLow (.zstat id e.zoneList) id.origin := settleEntry_reports he ((settles_iff e).mpr hdue) ho hz
      refine ⟨fun hr => ht.trans (enqueueLow_kept (s := v) hr), fun g hg => ?_⟩
      have hfail : t = w.lowFail g := ht.trans (enqueueLow_fails (s := v) hg)
      exact ⟨fun k zs hb => hfail.trans (lowFail_zstat hb), fun k i n l key c hb => hfail.trans (lowFail_report hb)⟩
    · exact settleEntry_unnumbered he ((settles_iff e).mpr hdue) ho hn
    · refine (settleEntry_own he ((settles_iff e).mpr hdue) ho hn).trans ?_
      simp only [rewriteLines_eq]
      rfl
  · intro f s id zones hd hh
    refine takes_of (exec_zstat hd hh) ⟨rfl, ?_⟩
    simp only [State.takeZstat, State.modOrigin, State.modEntry, State.setClt_clt, rewriteLines_eq, beq_iff_eq]
    rfl
  · intro id s e he done
    refine ⟨fun hdone => ?_, fun hnot => ?_⟩
    · exact takes_of ((exec_entryRemoval he).trans (congrArg _ (if_pos ((removable_iff e).mpr hdone)))) ⟨rfl, findEntry_filter_self s id⟩
    · exact takes_of ((exec_entryRemoval he).trans (congrArg _ (if_neg fun h => hnot ((removable_iff e).mp h)))) rfl

end Sys2Proof.Machine
end

section
/-!
PROOFS. The node's own claims are withdrawn: what taking settlings leaves of every entry and of the transmit queue, what an order does by the send state,
and the statement.
-/

namespace Sys2Proof.Machine

open Sys2Proof

/-! ### What settlings leave (R94, R101, R102) -/

/-- `e'` is the entry `e` after settlings: its settled mark, its ZSTAT state and its coverage lines may have moved, and no ZSTAT becomes due. -/
structure Entry.SettledTo (e e' : Entry) : Prop where
  frame : e' = { e with zstat := e'.zstat, settled := e'.settled, origin := e'.origin }
  origin : ∀ o, e.origin = some o → ∃ lines, e'.origin = some { o with lines := lines }
  zstat : e.zstat = .notNeeded → e'.zstat = .notNeeded

theorem Entry.SettledTo.refl (e : Entry) : e.SettledTo e := ⟨rfl, fun o ho => ⟨o.lines, ho⟩, fun hz => hz⟩

theorem Entry.SettledTo.trans {e e' e'' : Entry} (h : e.SettledTo e') (k : e'.SettledTo e'') : e.SettledTo e'' where
  frame := by rw [k.frame, h.frame]
  origin o ho := by
    obtain ⟨lines, ho'⟩ := h.origin o ho
    obtain ⟨lines', ho''⟩ := k.origin _ ho'
    exact ⟨lines', ho''⟩
  zstat := k.zstat ∘ h.zstat

/-- `t` is `s` after settlings: the entries may have settled, the frames queued are ZSTATs, and at most the report buffer is emptied besides. -/
structure Settling (s t : State) : Prop where
  frame : t = { s with lc := t.lc, clt := t.clt }
  frames : ∀ f ∈ t.lc.tx, f ∈ s.lc.tx ∨ ∃ id zones, f.body = .zstat id zones
  entries : ∀ id e, s.findEntry id = some e → ∃ e', t.findEntry id = some e' ∧ e.SettledTo e'
  absent : ∀ id, s.findEntry id = none → t.findEntry id = none

theorem Settling.of_clt {s t : State} (h : t = { s with lc := t.lc }) (hf : ∀ f ∈ t.lc.tx, f ∈ s.lc.tx ∨ ∃ id zones, f.body = .zstat id zones) :
    Settling s t := by
  have hfind : ∀ id, t.findEntry id = s.findEntry id := fun id => by rw [h]; rfl
  exact ⟨by rw [h], hf, fun id e he => ⟨e, (hfind id).trans he, .refl e⟩, fun id hn => (hfind id).trans hn⟩

theorem Settling.refl (s : State) : Settling s s := .of_clt rfl fun _ => .inl

theorem Settling.trans {s t u : State} (h : Settling s t) (k : Settling t u) : Settling s u where
  frame := by rw [k.frame, h.frame]
  frames f hf := (k.frames f hf).elim (h.frames f) .inr
  entries id e he := by
    obtain ⟨e', he', h'⟩ := h.entries id e he
    obtain ⟨e'', he'', h''⟩ := k.entries id e' he'
    exact ⟨e'', he'', h'.trans h''⟩
  absent id hn := k.absent id (h.absent id hn)

theorem modEntry_settling {s : State} {id : ClaimId} {f : Entry → Entry} (hid : ∀ e, (f e).id = e.id)
    (hf : ∀ e, s.findEntry id = some e → e.SettledTo (f e)) : Settling s (s.modEntry id f) where
  frame := rfl
  frames _ := .inl
  entries k e he := by
    by_cases hk : k = id
    · subst hk
      exact ⟨f e, findEntry_modEntry_self he hid, hf e he⟩
    · exact ⟨e, (findEntry_modEntry_ne s f hid hk).trans he, .refl e⟩
  absent k hn := by rw [findEntry_modEntry s id k f hid, hn]; rfl

theorem mem_txOffer {q : List TxFrame} {f g : TxFrame} (h : g ∈ (txOffer q f).1) : g = f ∨ g ∈ q := by
  rcases txOffer_cases q f with ⟨-, hr⟩ | ⟨-, w, -, -, hr⟩ | ⟨-, -, hr⟩ <;> rw [hr] at h
  · exact (mem_txInsert q f g).mp h
  · exact ((mem_txInsert _ f g).mp h).imp_right fun hg => (txDropWorst_sublist q).subset hg
  · exact .inr h

theorem lowFail_settling (s : State) (f : TxFrame) : Settling s (s.lowFail f) := by
  unfold State.lowFail
  split
  · refine modEntry_settling (fun e => by split <;> rfl) fun e _ => ?_
    split
    · rename_i hq
      exact ⟨rfl, fun o ho => ⟨o.lines, ho⟩, fun hz => absurd (hz.symm.trans (beq_iff_eq.mp hq)) (by decide)⟩
    · exact .refl e
  · exact .of_clt rfl fun _ => .inl
  · exact .refl s

theorem enqueueLow_settling (s : State) (id : ClaimId) (zones : List (ZoneId × Disp)) (dst : Nat) :
    Settling s (s.enqueueLow (.zstat id zones) dst) := by
  have hoffer : Settling s (s.setTx (txOffer s.lc.tx (s.newFrame (.zstat id zones) dst)).1) := by
    refine .of_clt rfl fun f hf => ?_
    rcases mem_txOffer hf with rfl | hf
    · exact .inr ⟨id, zones, rfl⟩
    · exact .inl hf
  unfold State.enqueueLow
  dsimp only
  split
  · exact hoffer
  · exact hoffer.trans (lowFail_settling _ _)

theorem settled_settling (s : State) (id : ClaimId) : Settling s (s.modEntry id (fun e => { e with settled := true })) :=
  modEntry_settling (fun _ => rfl) fun _ _ => ⟨rfl, fun o ho => ⟨o.lines, ho⟩, fun hz => hz⟩

theorem settleEntry_settling (s : State) (id : ClaimId) : Settling s (s.settleEntry id) := by
  cases he : s.findEntry id with
  | none =>
    have hsame : s.settleEntry id = s := by simp only [State.settleEntry, he]
    rw [hsame]
    exact .refl s
  | some e =>
    by_cases hdue : e.settles = true
    · cases ho : e.origin with
      | none =>
        by_cases hz : e.zstat = .pending
        · rw [settleEntry_reports he hdue ho hz]
          refine .trans (modEntry_settling ?_ fun d hd => ?_) (enqueueLow_settling _ id _ _)
          · exact fun _ => rfl
          · cases he.symm.trans hd
            exact ⟨rfl, fun o ho => ⟨o.lines, ho⟩, fun hn => absurd (hz.symm.trans hn) (by decide)⟩
        · rw [settleEntry_received he hdue ho hz]
          exact settled_settling s id
      | some o =>
        cases hn : s.nodeNo with
        | none =>
          rw [settleEntry_unnumbered he hdue ho hn]
          exact settled_settling s id
        | some n =>
          rw [settleEntry_own he hdue ho hn]
          refine (settled_settling s id).trans (modEntry_settling (fun _ => rfl) fun d _ => ⟨rfl, fun p hp => ?_, fun hz => hz⟩)
          exact ⟨_, by rw [hp, Option.map_some]⟩
    · rw [settleEntry_not_due he (Bool.eq_false_iff.mpr hdue)]
      exact .refl s

theorem settle_settling (s : State) : Settling s s.settle := foldl_rel Settling .refl .trans settleEntry_settling _ s

/-! ### The orders (R14, R39, R171) -/

section Orders

variable {s : State} {id : ClaimId} {e : Entry} {o : OriginPart} (he : s.findEntry id = some e) (ho : e.origin = some o) (cut : Bool)
include he ho

theorem withdrawOwn_ceded (hc : o.ceded = true) : s.withdrawOwn cut id = s := by
  simp [State.withdrawOwn, he, ho, hc]

theorem withdrawOwn_sent (hc : o.ceded = false) (hs : o.send = .sent) : s.withdrawOwn cut id =
    if s.now ≤ e.plannedEnd.getD 0 then
      (s.modOrigin id (fun o => { o with ceded := true, cutNow := cut })).enqueue (.cede id cut) 0
    else s := by
  simp [State.withdrawOwn, he, ho, hc, hs]

theorem withdrawOwn_queued (hc : o.ceded = false) (hs : o.send = .queued) : s.withdrawOwn cut id =
    if s.lc.tx.any (fun f => f.isClaim id.seq && f.underWay) then s.holdTakeBack id cut else s.takeBack id := by
  simp [State.withdrawOwn, he, ho, hc, hs]

theorem withdrawOwn_failed (hc : o.ceded = false) (hs : o.send = .failed) : s.withdrawOwn cut id =
    ((s.modOrigin id (fun o => { o with ceded := true, cutNow := cut })).withdrawZones id cut).settle := by
  simp [State.withdrawOwn, he, ho, hc, hs]

end Orders

/-- A CLAIM taken back leaves the queue, and its entry is settled without play (R14, R171). -/
theorem takeBack_unsent {s : State} {id : ClaimId} {e : Entry} (he : s.findEntry id = some e) :
    (∀ f ∈ (s.takeBack id).lc.tx, f.isClaim id.seq = false) ∧
    s.takeBack id = { s with lc := (s.takeBack id).lc, clt := (s.takeBack id).clt } ∧
    ∃ e', (s.takeBack id).findEntry id = some e' ∧ e.unsent.SettledTo e' := by
  have h := settle_settling ((s.setTx (s.lc.tx.filter (fun f => !f.isClaim id.seq))).modEntry id Entry.unsent)
  refine ⟨fun f hf => ?_, h.frame, h.entries id _ (findEntry_modEntry_self he fun _ => rfl)⟩
  rcases h.frames f hf with hq | ⟨k, zones, hb⟩
  · simpa using (List.mem_filter.mp hq).2
  · simp [TxFrame.isClaim, hb]

/-- Settles O36: an order by the send state of the claim it finds. -/
theorem ownClaimsAreWithdrawn : Obligations.OwnClaimsAreWithdrawn := by
  intro s cut id e o he ho t marked
  refine ⟨withdrawOwn_ceded he ho cut, fun hc hs hin => ?_, fun hc hs hpast => ?_, fun hc hs hidle => ?_, fun hc hs hbusy => ?_,
    withdrawOwn_failed he ho cut⟩
  · exact (withdrawOwn_sent he ho cut hc hs).trans (if_pos hin)
  · exact (withdrawOwn_sent he ho cut hc hs).trans (if_neg (Nat.not_le.mpr hpast))
  · have ht : t = s.takeBack id := (withdrawOwn_queued he ho cut hc hs).trans (if_neg (by simpa using hidle))
    obtain ⟨hframes, hframe, e', he', hsettled⟩ := takeBack_unsent he
    have horigin : e.unsent.origin = some { o with send := .failed, windowOpen := false, ceded := true } := by simp [Entry.unsent, ho]
    obtain ⟨lines, ho'⟩ := hsettled.origin _ horigin
    have hdisp : e'.disp = e.unsent.disp := by rw [hsettled.frame]
    rw [ht]
    refine ⟨hframes, by rw [hframe], by rw [hframe], by rw [hframe], e', _, he', ho', hsettled.zstat rfl, rfl, rfl, fun z => ?_⟩
    rw [hdisp, Entry.unsent, Quad.get_map]
  · exact (withdrawOwn_queued he ho cut hc hs).trans (if_pos (by simpa using hbusy))

end Sys2Proof.Machine
end

section
/-!
SUPPORT. What the operations leave of the dispositions: each keeps the claim table's ids and every final disposition. An operation that removes or adds
an entry is not among them.
-/

namespace Sys2Proof.Machine

open Sys2Proof

/-! ### The relation (R94) -/

/-- The claim tables of `s` and `t` have entries of the same ids, and every disposition that is final in `s` stands in `t`. -/
structure FinalKept (s t : State) : Prop where
  found : ∀ id e, s.findEntry id = some e → ∃ e', t.findEntry id = some e' ∧ ∀ z, e.disp.get z ≠ .pending → e'.disp.get z = e.disp.get z
  absent : ∀ id, s.findEntry id = none → t.findEntry id = none

theorem FinalKept.of_clt {s t : State} (h : t.clt = s.clt) : FinalKept s t := by
  have hfind : ∀ id, t.findEntry id = s.findEntry id := fun id => congrArg (List.find? _) h
  exact ⟨fun id e he => ⟨e, (hfind id).trans he, fun _ _ => rfl⟩, fun id hn => (hfind id).trans hn⟩

theorem FinalKept.refl (s : State) : FinalKept s s := .of_clt rfl

theorem FinalKept.trans {s t u : State} (h : FinalKept s t) (k : FinalKept t u) : FinalKept s u where
  found id e he := by
    obtain ⟨e', he', hd⟩ := h.found id e he
    obtain ⟨e'', he'', hd'⟩ := k.found id e' he'
    exact ⟨e'', he'', fun z hz => (hd' z (by rwa [hd z hz])).trans (hd z hz)⟩
  absent id hn := k.absent id (h.absent id hn)

/-- What changes no entry comes before. -/
theorem FinalKept.after {s t u : State} (k : FinalKept t u) (h : t.clt = s.clt) : FinalKept s u := (FinalKept.of_clt h).trans k

theorem FinalKept.foldl {α : Type} {f : State → α → State} (h : ∀ s a, FinalKept s (f s a)) (l : List α) (s : State) :
    FinalKept s (l.foldl f s) := foldl_rel FinalKept .refl .trans h l s

/-- The claims of a call marked, or left, keep their dispositions. -/
theorem mapClt_final (s : State) {f : Entry → Entry} (hid : ∀ e, (f e).id = e.id)
    (hd : ∀ e z, e.disp.get z ≠ .pending → (f e).disp.get z = e.disp.get z) : FinalKept s (s.setClt (s.clt.map f)) := by
  have hfind : ∀ id, (s.setClt (s.clt.map f)).findEntry id = (s.findEntry id).map f := fun id => by
    simp only [State.findEntry, State.setClt_clt, List.find?_map]
    congr 2
    funext e
    exact congrArg (· == id) (hid e)
  exact ⟨fun id e he => ⟨f e, by rw [hfind, he]; rfl, hd e⟩, fun id hn => by rw [hfind, hn]; rfl⟩

theorem modEntry_final (s : State) (id : ClaimId) {f : Entry → Entry} (hid : ∀ e, (f e).id = e.id)
    (hd : ∀ e z, e.disp.get z ≠ .pending → (f e).disp.get z = e.disp.get z) : FinalKept s (s.modEntry id f) := by
  refine mapClt_final s (fun e => ?_) fun e z hz => ?_
  · split
    · exact hid e
    · rfl
  · split
    · exact hd e z hz
    · rfl

theorem modOrigin_final (s : State) (id : ClaimId) (f : OriginPart → OriginPart) : FinalKept s (s.modOrigin id f) :=
  modEntry_final s id (fun _ => rfl) fun _ _ _ => rfl

/-- Where PENDING alone is replaced, every final disposition stands (R14, R97). -/
theorem replacePending_final (s : State) (id : ClaimId) {f : Entry → Entry} (d : Disp) (hid : ∀ e, (f e).id = e.id)
    (hd : ∀ e, (f e).disp = e.disp.map (fun x => if x = .pending then d else x)) : FinalKept s (s.modEntry id f) :=
  modEntry_final s id hid fun e z hz => by rw [hd, Quad.get_map, if_neg hz]

theorem ClaimsMarked.final {key : Nat} {s t : State} (h : ClaimsMarked key s t) : FinalKept s t := by
  have hmark : FinalKept s (s.markNoRetry key) :=
    mapClt_final s (fun e => by split <;> rfl) fun e z _ => by split <;> rfl
  rcases h with h | h
  · exact .of_clt h
  · exact hmark.trans (.of_clt h)

theorem Settling.final {s t : State} (h : Settling s t) : FinalKept s t where
  found id e he := by
    obtain ⟨e', he', hs⟩ := h.entries id e he
    exact ⟨e', he', fun z _ => by rw [hs.frame]⟩
  absent := h.absent

theorem settle_final (s : State) : FinalKept s s.settle := (settle_settling s).final

/-! ### Dispositions written -/

theorem writeDisp_final (s : State) (id : ClaimId) (z : ZoneId) (d : Disp) : FinalKept s (s.writeDisp id z d) := by
  refine modEntry_final s id (fun e => by split <;> rfl) fun e y hy => ?_
  split
  · rename_i hz
    refine Quad.get_set_ne _ _ fun hyz => hy ?_
    rw [hyz]
    exact beq_iff_eq.mp hz
  · rfl

theorem writeDisps_final (s : State) (id : ClaimId) (zs : List ZoneId) (d : Disp) : FinalKept s (s.writeDisps id zs d) :=
  .foldl (fun s z => writeDisp_final s id z d) zs s

theorem missAll_final (s : State) (zs : List ZoneId) (ids : List ClaimId) :
    FinalKept s (ids.foldl (fun s id => s.writeDisps id zs .missed) s) := .foldl (fun s id => writeDisps_final s id zs .missed) ids s

/-! ### Zones -/

theorem putArb_final (s : State) (zs : List ZoneId) (a : Arb) : FinalKept s (s.putArb zs a) := .of_clt (putArb_clt s zs a)

theorem enter_final (s : State) (zs : List ZoneId) (r : Arb × List ClaimId) : FinalKept s (s.enter zs r) :=
  (missAll_final s zs r.2).trans (.of_clt (enter_clt s zs r))

theorem chooseNext_final (s : State) (zs : List ZoneId) (a : Arb) : FinalKept s (s.chooseNext zs a) :=
  (missAll_final s zs _).trans (.of_clt (chooseNext_clt s zs a))

theorem detachZones_final (s : State) (zs : List ZoneId) : FinalKept s (s.detachZones zs) := .of_clt (by rw [detachZones_frame])

theorem stopUnit_final (s : State) (z : ZoneId) (cause : StopCause) : FinalKept s (s.stopUnit z cause) := by
  unfold State.stopUnit
  dsimp only
  split
  · exact .refl s
  · exact ((detachZones_final s _).trans (writeDisps_final _ _ _ _)).trans (chooseNext_final _ _ _)

theorem putCutting_final (s : State) (z : ZoneId) (a : Arb) : FinalKept s (s.putCutting z a) := by
  unfold State.putCutting
  dsimp only
  split
  · exact (putArb_final s _ a).trans (stopUnit_final _ _ _)
  · exact putArb_final s _ a

theorem offerWait_final (s : State) (z : ZoneId) (a : Arb) (h : Held) : FinalKept s (s.offerWait z a h) := by
  unfold State.offerWait
  dsimp only
  split
  · exact putArb_final s _ _
  · exact (putArb_final s _ _).trans (writeDisps_final _ _ _ _)

theorem displaceNext_final (s : State) (z : ZoneId) (a : Arb) (o h : Held) : FinalKept s (s.displaceNext z a o h) := by
  unfold State.displaceNext
  dsimp only
  split
  · exact putCutting_final s _ _
  · exact (writeDisps_final s _ _ _).trans (putCutting_final _ _ _)

theorem offerUnit_final (s : State) (h : Held) (z : ZoneId) : FinalKept s (s.offerUnit h z) := by
  unfold State.offerUnit
  dsimp only
  split
  · exact writeDisps_final s _ _ _
  · split
    · exact writeDisps_final s _ _ _
    · exact writeDisps_final s _ _ _
    · exact writeDisps_final s _ _ _
    · exact enter_final s _ _
    · split
      · split
        · exact (writeDisps_final s _ _ _).trans (enter_final _ _ _)
        · exact offerWait_final s _ _ _
      · exact offerWait_final s _ _ _
    · split
      · split
        · exact putCutting_final s _ _
        · exact offerWait_final s _ _ _
      · exact offerWait_final s _ _ _
    · split
      · split
        · exact displaceNext_final s _ _ _ _
        · exact offerWait_final s _ _ _
      · exact offerWait_final s _ _ _

theorem offerEntry_final (s : State) (id : ClaimId) : FinalKept s (s.offerEntry id) := by
  unfold State.offerEntry
  split
  · exact .refl s
  · refine .foldl (fun s z => ?_) _ s
    split
    · exact offerUnit_final s _ z
    · exact .refl s

theorem nextLeft_final (s : State) (z : ZoneId) (a : Arb) : FinalKept s (s.nextLeft z a) := by
  unfold State.nextLeft
  dsimp only
  split
  · split
    · exact putCutting_final s _ _
    · exact putArb_final s _ _
  · exact putArb_final s _ _

theorem withdrawUnit_final (s : State) (id : ClaimId) (c : Bool) (z : ZoneId) : FinalKept s (s.withdrawUnit id c z) := by
  unfold State.withdrawUnit
  dsimp only
  split
  · exact (putArb_final s _ _).trans (writeDisps_final _ _ _ _)
  · split
    · exact (writeDisps_final s _ _ _).trans (nextLeft_final _ _ _)
    · split
      · split
        · split
          · exact stopUnit_final s _ _
          · exact putArb_final s _ _
        · exact (writeDisps_final s _ _ _).trans (chooseNext_final _ _ _)
      · exact .refl s

theorem withdrawZones_final (s : State) (id : ClaimId) (c : Bool) : FinalKept s (s.withdrawZones id c) := by
  refine .foldl (fun s z => ?_) _ s
  split
  · exact withdrawUnit_final s id c z
  · exact .refl s

theorem evictUnit_final (s : State) (id : ClaimId) (z : ZoneId) : FinalKept s (s.evictUnit id z) := by
  unfold State.evictUnit
  dsimp only
  split
  · exact putArb_final s _ _
  · split
    · exact nextLeft_final s _ _
    · split
      · split
        · exact stopUnit_final s _ _
        · exact chooseNext_final s _ _
      · exact .refl s

theorem missWaiter_final (s : State) (z : ZoneId) (id : ClaimId) : FinalKept s (s.missWaiter z id) :=
  (putArb_final s _ _).trans (writeDisps_final _ _ _ _)

theorem putZoneArb_final (s : State) (a : Arb) (z : ZoneId) : FinalKept s (s.putZoneArb a z) := .of_clt (by rw [putZoneArb_frame])

theorem breakPair_final (s : State) (z : ZoneId) : FinalKept s (s.breakPair z) := by
  unfold State.breakPair
  split <;> exact .of_clt rfl

theorem clearZone_final (s : State) (z : ZoneId) (st : ZoneState) : FinalKept s (s.clearZone z st) := by
  unfold State.clearZone
  dsimp only
  have hfault : FinalKept s (((s.breakPair z).za.get z).arb.held.foldl (fun s (h : Held) => s.writeDisp h.id z .fault) (s.breakPair z)) :=
    (breakPair_final s z).trans (.foldl (fun s (h : Held) => writeDisp_final s h.id z .fault) _ _)
  have hdetached := hfault.trans (.of_clt (t := State.detachZone _ z) (by rw [detachZone_frame]))
  exact (hdetached.trans (putZoneArb_final _ (Arb.bare st) z)).trans (.of_clt rfl)

theorem returnZone_final (s : State) (z : ZoneId) : FinalKept s (s.returnZone z) := by
  have hput : ∀ st, FinalKept s (s.putZoneArb (Arb.bare st) z) := fun st => putZoneArb_final s _ z
  unfold State.returnZone
  split
  · exact hput _
  · split
    · exact (hput .idle).trans (.of_clt rfl)
    all_goals exact hput _

theorem applyLevels_final (s : State) (zs : List ZoneId) : FinalKept s (s.applyLevels zs) := .of_clt (by rw [applyLevels_frame])

theorem reform_final (s : State) (z : ZoneId) : FinalKept s (s.reform z) := by
  have hwhole : FinalKept s ((s.putZoneArb (s.za.get z.partner).arb z).makeWhole z) := (putZoneArb_final s _ z).trans (.of_clt rfl)
  unfold State.reform
  dsimp only
  split
  · exact hwhole.trans (.of_clt (by rw [applyLevel_frame, joinZone_frame]))
  · exact hwhole

theorem applyStaged_final (s : State) (z : ZoneId) : FinalKept s (s.applyStaged z) := by
  unfold State.applyStaged
  repeat' split
  all_goals exact .of_clt rfl

/-! ### Originations and calls -/

theorem origDropped_final (s : State) (o : Orig) : FinalKept s (s.origDropped o) := .of_clt (origDropped_work s o).clt

theorem pushOrig_final (s : State) (o : Orig) : FinalKept s (s.pushOrig o) := by
  rcases pushOrig_cases s o with ⟨-, h⟩ | ⟨-, w, -, -, h⟩ | ⟨-, -, h⟩ <;> rw [h]
  · exact .of_clt rfl
  · exact (origDropped_final _ w).after rfl
  · exact origDropped_final s o

theorem eachStep_final {f : State → Nat → Nat → State} (h : ∀ s k i, StepWork s (f s k i)) (rs : List (Nat × Nat)) (s : State) :
    FinalKept s (s.eachStep rs f) := .of_clt (eachStep_work h rs s).clt

theorem leaveService_final (s : State) (key : Nat) (st : CallState) : FinalKept s (s.leaveService key st) :=
  ClaimsMarked.final (.inr rfl : ClaimsMarked key s _)

theorem expiryTest_final (s : State) (key : Nat) : FinalKept s (s.expiryTest key) := (expiryTest_marked s key).final

theorem expiryTests_final (s : State) : FinalKept s s.expiryTests := .foldl (fun s k => expiryTest_final s k) _ s

theorem second_final (s : State) : FinalKept s s.second := by
  have hsteps : FinalKept s ((s.setSck s.sck.tick).eachStep (s.setSck s.sck.tick).stepRefs (State.tickStep s.sck.advances)) :=
    (eachStep_final (tickStep_work _) _ _).after rfl
  unfold State.second
  dsimp only
  split
  · exact hsteps.trans (expiryTests_final _)
  · exact hsteps

theorem setClock_final (s : State) (t : Nat) : FinalKept s (s.setClock t) := by
  unfold State.setClock
  dsimp only
  refine .trans ?_ (expiryTests_final _)
  split
  · exact (eachStep_final forwardStep_work _ _).after rfl
  · split
    · exact (eachStep_final backwardStep_work _ _).after rfl
    · exact .of_clt rfl

theorem acceptRise_final (s : State) (p : PlatId) : FinalKept s (s.acceptRise p) := by
  unfold State.acceptRise
  dsimp only
  split
  · split
    · exact (eachStep_final bindStep_work _ _).after rfl
    · exact .of_clt rfl
  · exact .refl s

theorem acceptFall_final (s : State) (p : PlatId) : FinalKept s (s.acceptFall p) := by
  unfold State.acceptFall
  dsimp only
  split
  · exact .refl s
  · split
    · exact .of_clt rfl
    · split
      · exact (leaveService_final _ _ _).after rfl
      · exact .of_clt rfl

theorem acceptOcc_final (s : State) (p : PlatId) : FinalKept s (s.acceptOcc p) := by
  unfold State.acceptOcc
  dsimp only
  split
  · exact (acceptRise_final _ p).after rfl
  · exact (acceptFall_final _ p).after rfl

theorem revertHandoff_final (s : State) (key : Nat) : FinalKept s (s.revertHandoff key) := by
  cases hc : s.findCall key with
  | none => rw [State.revertHandoff, hc]; exact .refl s
  | some c =>
    by_cases hst : c.state = .handingOff
    · cases hctx : c.handoff with
      | none => simp only [State.revertHandoff, hc, hst, hctx]; exact .refl s
      | some ctx =>
        have hresumed : FinalKept s (s.resumedCall key ctx) := .of_clt (resumedCall_work s key ctx).clt
        rw [revertHandoff_eq hc hst hctx]
        split
        · exact hresumed
        · exact hresumed.trans (expiryTest_final _ key)
    · simp only [State.revertHandoff, hc]
      split
      · rename_i heq _
        exact absurd heq hst
      · exact .refl s

theorem settleHandoff_final (s : State) (key : Nat) : FinalKept s (s.settleHandoff key) := ClaimsMarked.final (.inr rfl : ClaimsMarked key s _)

theorem install_final (s : State) (c : Call) : FinalKept s (s.install c) :=
  ((eachStep_final startStep_work _ _).trans (expiryTest_final _ _)).after (t := s.setCt (insertCall c s.ct)) rfl

/-! ### Frames that fail, the queue, withdrawals -/

theorem fixOwn_final (s : State) (id : ClaimId) (c : ClaimFrame) (now : Nat) (send : SendState) (localOnly : Bool) :
    FinalKept s (s.modEntry id (fun e => e.fixOwn c now (s.plannedMs e.phrases) send localOnly)) :=
  modEntry_final s id (fun _ => rfl) fun _ _ _ => rfl

theorem sendFailed_final (s : State) (c : ClaimFrame) : FinalKept s (s.sendFailed c) := by
  unfold State.sendFailed
  dsimp only
  repeat' split
  all_goals first
    | exact .refl s
    | exact ((fixOwn_final s _ c _ _ _).trans (offerEntry_final _ _)).trans (settle_final _)

theorem cedeFailed_final (s : State) (id : ClaimId) (c : Bool) : FinalKept s (s.cedeFailed id c) :=
  ((withdrawZones_final s id c).trans (modOrigin_final _ _ _)).trans (settle_final _)

theorem handoffFailed_final (s : State) (key : Nat) : FinalKept s (s.handoffFailed key) := by
  unfold State.handoffFailed
  repeat' split
  all_goals first
    | exact .refl s
    | exact revertHandoff_final s key

theorem failFrame_final (s : State) (f : TxFrame) : FinalKept s (s.failFrame f) := by
  unfold State.failFrame
  split
  · exact sendFailed_final s _
  · exact cedeFailed_final s _ _
  · exact handoffFailed_final s _
  · exact .refl s
  · exact (lowFail_settling s f).final
  · exact (lowFail_settling s f).final

theorem enqueue_final (s : State) (b : TxBody) (dst : Nat) : FinalKept s (s.enqueue b dst) := by
  unfold State.enqueue
  dsimp only
  split
  · exact .of_clt rfl
  · exact (failFrame_final _ _).after rfl

theorem takeBack_final (s : State) (id : ClaimId) : FinalKept s (s.takeBack id) :=
  ((replacePending_final _ id (f := Entry.unsent) .withdrawn (fun _ => rfl) fun _ => rfl).trans (settle_final _)).after
    (t := s.setTx (s.lc.tx.filter (fun f => !f.isClaim id.seq))) rfl

theorem withdrawOwn_final (c : Bool) (s : State) (id : ClaimId) : FinalKept s (s.withdrawOwn c id) := by
  unfold State.withdrawOwn
  repeat' split
  all_goals first
    | exact .refl s
    | exact (modOrigin_final s _ _).trans (enqueue_final _ _ _)
    | exact (modOrigin_final _ _ _).after rfl
    | exact takeBack_final s _
    | exact ((modOrigin_final s _ _).trans (withdrawZones_final _ _ _)).trans (settle_final _)

theorem takeCede_final (s : State) (src : Nat) (id : ClaimId) (c : Bool) : FinalKept s (s.takeCede src id c) := by
  unfold State.takeCede
  split
  · exact (withdrawZones_final s id c).trans (settle_final _)
  · exact .refl s

theorem ownClaim_final (s : State) (c : ClaimFrame) : FinalKept s (s.ownClaim c) := by
  have hsent := fun id => ((fixOwn_final s id c s.now .sent false).trans (offerEntry_final _ id)).trans (settle_final _)
  unfold State.ownClaim
  dsimp only
  repeat' split
  all_goals first
    | exact .refl s
    | exact (hsent _).trans (enqueue_final _ _ _)
    | exact hsent _

theorem answer_final (s : State) (f : RxFrame) (k key : Nat) (c : AnswerCode) : FinalKept s (s.answer f k key c) := by
  unfold State.answer
  split
  · exact .refl s
  · exact enqueue_final s _ _

theorem callFrame_final (s : State) (k : Nat) (f : RxFrame) {act : State → State} (h : ∀ u, FinalKept u (act u)) :
    FinalKept s (s.callFrame k f act) := by
  have hend : FinalKept s s.frameEnd := .of_clt rfl
  unfold State.callFrame
  dsimp only
  split
  · exact hend
  · split
    · exact hend.trans (h _)
    · split
      · exact hend.trans (answer_final _ _ _ _ _)
      · exact hend
    · exact hend

end Sys2Proof.Machine
end

section
/-!
PROOFS. The statement that a final disposition stays: what each command leaves of the dispositions, and the three that remove or add an entry.
-/

namespace Sys2Proof.Machine

open Sys2Proof

section

variable (s : State)

/-! ### The loader and the clocks -/

theorem occMoved_final (p : PlatId) : FinalKept s (s.occMoved p) := by
  unfold State.occMoved
  split <;> exact .of_clt rfl

theorem fireEvac_final : FinalKept s s.fireEvac := by
  unfold State.fireEvac
  dsimp only
  split
  · exact .of_clt rfl
  · exact (pushOrig_final _ _).after rfl

theorem startPm_final : FinalKept s s.startPm := (occMoved_final s .p0).trans (occMoved_final _ .p1)

theorem enterRunning_final : FinalKept s s.enterRunning := by
  unfold State.enterRunning
  dsimp only
  split
  · exact (fireEvac_final _).after rfl
  · exact .of_clt rfl

theorem loadImage_clt (image : List Byte) : (s.loadImage image).clt = s.clt := by
  simp only [State.loadImage, State.setPm_clt, State.setZa_clt, State.setCmp_clt, State.setLu_clt, State.setCfg_clt]

theorem endLoading_final (o : LoadOutcome) : FinalKept s (s.endLoading o) := by
  have hended : (s.loadEnded o).clt = s.clt := by
    unfold State.loadEnded
    dsimp only
    split
    · exact loadImage_clt _ _
    · rfl
  have hstarted : FinalKept s (s.loadEnded o).startPm := (startPm_final _).after hended
  rw [endLoading_eq]
  split
  · exact hstarted.trans (enterRunning_final _)
  · exact hstarted

theorem leaveReset_final (strap : BitVec 6) : Takes (.leaveReset strap) s (FinalKept s) := by
  refine takes_of rfl ?_
  split <;> exact .of_clt rfl

theorem headerReadDone_final (bytes : List Byte) : Takes (.headerReadDone bytes) s (FinalKept s) := by
  refine takes_of rfl ?_
  repeat' split
  all_goals first
    | exact endLoading_final s _
    | exact .of_clt rfl

theorem configReadDone_final (bytes : List Byte) : Takes (.configReadDone bytes) s (FinalKept s) := by
  refine takes_of rfl ?_
  dsimp only
  repeat' split
  all_goals first
    | exact .of_clt rfl
    | exact (endLoading_final _ _).after rfl

theorem secondBoundary_final : Takes .secondBoundary s (FinalKept s) := by
  refine takes_of rfl ?_
  split
  · exact second_final s
  · exact .refl s

theorem clock_final (f : RxFrame) : Takes (.clock f) s (FinalKept s) := by
  refine takes_of rfl ?_
  split
  · split
    · exact (setClock_final _ _).after rfl
    · exact .of_clt rfl
  · exact .of_clt rfl

theorem samplingInstant_final (vref : Nat) (envelope : Quad Nat) : Takes (.samplingInstant vref envelope) s (FinalKept s) := by
  have hsample : ∀ u z, FinalKept u (State.sampleZone u vref envelope z) := fun u z => by
    unfold State.sampleZone
    split <;> exact .of_clt rfl
  refine takes_of rfl ?_
  split
  · dsimp only
    split
    · exact (FinalKept.foldl hsample _ _).after rfl
    · exact .of_clt rfl
  · exact .refl s

/-! ### Frames for calls -/

/-- A call frame's command leaves what the act on its call leaves. -/
theorem answered_final {c : Instr} {k : Nat} {f : RxFrame} {key : Nat} {r : State → State × AnswerCode}
    (hc : exec c s = .next (s.callFrame k f (fun u => State.answered f k key (r u)))) (hr : ∀ u, FinalKept u (r u).1) :
    Takes c s (FinalKept s) :=
  takes_of hc (callFrame_final s k f fun u => (hr u).trans (answer_final _ _ _ _ _))

theorem callset_final (f : RxFrame) : Takes (.callset f) s (FinalKept s) := by
  refine answered_final s rfl fun u => ?_
  unfold State.takeCallset
  repeat' split
  all_goals first
    | exact .refl u
    | exact install_final u _

theorem callamend_final (f : RxFrame) : Takes (.callamend f) s (FinalKept s) := by
  refine answered_final s rfl fun u => ?_
  unfold State.takeAmend
  repeat' split
  all_goals exact .of_clt rfl

theorem callplan_final (f : RxFrame) : Takes (.callplan f) s (FinalKept s) := by
  refine answered_final s rfl fun u => ?_
  unfold State.takePlan
  repeat' split
  all_goals exact .of_clt rfl

theorem calldrop_final (f : RxFrame) : Takes (.calldrop f) s (FinalKept s) := by
  refine answered_final s rfl fun u => ?_
  unfold State.takeDrop
  repeat' split
  all_goals first
    | exact .refl u
    | exact (leaveService_final u _ _).trans (.foldl (withdrawOwn_final false) _ _)

theorem triggerStep_final (key i : Nat) (c : Call) (st : Step) : FinalKept s (s.triggerStep key i c st).1 := by
  unfold State.triggerStep State.triggerFire
  dsimp only
  repeat' split
  all_goals first
    | exact .of_clt rfl
    | exact pushOrig_final s _
    | exact (pushOrig_final _ _).after rfl

theorem trigger_final (f : RxFrame) : Takes (.trigger f) s (FinalKept s) := by
  refine answered_final s rfl fun u => ?_
  unfold State.takeTrigger
  repeat' split
  all_goals first
    | exact .refl u
    | exact triggerStep_final u _ _ _ _

theorem handoff_final (f : RxFrame) : Takes (.handoff f) s (FinalKept s) := by
  refine takes_of rfl (callFrame_final s _ f fun u => ?_)
  unfold State.handoffFrame
  dsimp only
  split
  · split
    · refine .trans ?_ (answer_final _ f _ _ _)
      unfold State.takeHandoff
      repeat' split
      all_goals first
        | exact .refl u
        | exact install_final u _
    · exact .refl u
  · exact .refl u

theorem answerFrame_final (f : RxFrame) : Takes (.answer f) s (FinalKept s) := by
  refine takes_of rfl ?_
  unfold State.takeAnswer
  repeat' split
  all_goals first
    | exact .of_clt rfl
    | exact (settleHandoff_final _ _).after rfl
    | exact (revertHandoff_final _ _).after rfl

theorem handoffTimeout_final (key : Nat) : Takes (.handoffTimeout key) s (FinalKept s) := by
  refine takes_of rfl ?_
  repeat' split
  all_goals first
    | exact .refl s
    | exact revertHandoff_final s _

/-! ### The other frames received -/

theorem report_final (f : RxFrame) : Takes (.report f) s (FinalKept s) := takes_of rfl (.of_clt rfl)

theorem query_final (f : RxFrame) (maint : Bool) : Takes (.query f maint) s (FinalKept s) := by
  refine takes_of rfl ?_
  split
  · split
    · refine (enqueue_final _ _ _).after ?_
      split <;> rfl
    · exact .of_clt rfl
  · exact .of_clt rfl

theorem setService_final (z : ZoneId) (on : Bool) : FinalKept s (s.setService z on) := by
  unfold State.setService
  dsimp only
  repeat' split
  all_goals first
    | exact .refl s
    | exact (putZoneArb_final _ _ z).after rfl
    | exact (returnZone_final _ z).after rfl
    | exact ((clearZone_final _ z _).trans (settle_final _)).after rfl

theorem acceptZattr_final (z : ZoneId) (a : StagedAttr) (on : Bool) : FinalKept s (s.acceptZattr z a on) := by
  have hstaged : FinalKept s ((s.setService z on).modZone z (fun r => { r with staged := some a })) :=
    (setService_final s z on).trans (.of_clt rfl)
  exact hstaged.trans (applyStaged_final _ z)

theorem takeZattr_final (f : RxFrame) (maint : Bool) : FinalKept s (s.takeZattr f maint).1 := by
  unfold State.takeZattr
  dsimp only
  split
  · exact .of_clt rfl
  · split
    · exact .of_clt rfl
    · exact (acceptZattr_final _ _ _ _).after rfl

theorem zattr_final (f : RxFrame) (maint : Bool) : Takes (.zattr f maint) s (FinalKept s) := by
  refine takes_of rfl ?_
  repeat' split
  all_goals first
    | exact .of_clt rfl
    | exact (answer_final _ _ _ _ _).after rfl
    | exact ((takeZattr_final _ f maint).trans (answer_final _ _ _ _ _)).after rfl

theorem cede_final (f : RxFrame) : Takes (.cede f) s (FinalKept s) := by
  refine takes_of rfl ?_
  repeat' split
  all_goals first
    | exact .of_clt rfl
    | exact (takeCede_final _ _ _ _).after rfl

theorem zstat_final (f : RxFrame) : Takes (.zstat f) s (FinalKept s) := by
  refine takes_of rfl ?_
  repeat' split
  all_goals first
    | exact .of_clt rfl
    | exact (modOrigin_final _ _ _).after rfl

theorem frameRejected_final (bytes : List Byte) (truncated : Bool) : Takes (.frameRejected bytes truncated) s (FinalKept s) := by
  refine takes_of rfl ?_
  split <;> exact .of_clt rfl

/-! ### Pins -/

theorem occChange_final (p : PlatId) : Takes (.occChange p) s (FinalKept s) := by
  refine takes_of rfl ?_
  split
  · exact (occMoved_final _ p).after rfl
  · exact .of_clt rfl

theorem debounceWaitExpiry_final (p : PlatId) : Takes (.debounceWaitExpiry p) s (FinalKept s) := by
  refine takes_of rfl ?_
  split
  · exact acceptOcc_final s p
  · exact .refl s

theorem doorsRise_final (p : PlatId) : Takes (.doorsRise p) s (FinalKept s) := by
  refine takes_of rfl ?_
  unfold State.doorsEdge
  repeat' (first | split | dsimp only)
  all_goals first
    | exact .of_clt rfl
    | exact (eachStep_final doorsStep_work _ _).after rfl

theorem doorsFall_final (p : PlatId) : Takes (.doorsFall p) s (FinalKept s) := by
  refine takes_of rfl ?_
  split <;> exact .of_clt rfl

theorem approachFall_final (p : PlatId) : Takes (.approachFall p) s (FinalKept s) := takes_of rfl (.of_clt rfl)

theorem approachRise_final (p : PlatId) : Takes (.approachRise p) s (FinalKept s) := by
  refine takes_of rfl ?_
  unfold State.fireApproach
  repeat' (first | split | dsimp only)
  all_goals first
    | exact .of_clt rfl
    | exact (pushOrig_final _ _).after rfl

theorem evacRise_final : Takes .evacRise s (FinalKept s) := by
  refine takes_of rfl ?_
  repeat' (first | split | dsimp only)
  all_goals first
    | exact .of_clt rfl
    | exact (fireEvac_final _).after rfl

theorem evacTimerExpiry_final : Takes .evacTimerExpiry s (FinalKept s) := by
  refine takes_of rfl ?_
  split
  · exact fireEvac_final s
  · exact .refl s

theorem evacFall_final : Takes .evacFall s (FinalKept s) := by
  have hwithdraw : ∀ u : State, FinalKept u u.withdrawEvac := fun u => by
    unfold State.withdrawEvac
    split
    · exact withdrawOwn_final true _ _
    · exact .refl u
  have hstop : ∀ u : State, FinalKept u u.evacStop := fun u => by
    unfold State.evacStop
    dsimp only
    refine .trans ?_ (.of_clt (State.setEvac_clt _ _))
    exact (hwithdraw _).after rfl
  refine takes_of rfl ?_
  repeat' (first | split | dsimp only)
  all_goals first
    | exact .of_clt rfl
    | exact (hstop _).after rfl

/-! ### Calls, windows and channels -/

theorem swap_final (key : Nat) : Takes (.swap key) s (FinalKept s) := by
  have hstate : ∀ (u : State) key ch, FinalKept u (u.swapState key ch) := fun u key ch => by
    cases ch with
    | stay => exact .refl u
    | toLocal p => exact .of_clt rfl
    | handOver k n =>
      unfold State.swapState State.sendHandoff
      dsimp only
      split
      · exact (enqueue_final _ _ _).after rfl
      · exact .of_clt rfl
  have hswap : ∀ (c : Call) (a : Amendment), FinalKept s (s.swapCall c a) := fun c a => by
    have hfields : ((s.modCall c.key (·.amend a)).swapPlatform c (s.platChange c a)).clt = s.clt := by
      cases s.platChange c a <;> rfl
    exact (((replan_marked _ c.key a).final.after hfields).trans (hstate _ c.key _)).trans (swapExpiry_marked _ c).final
  refine takes_of rfl ?_
  repeat' split
  all_goals first
    | exact .refl s
    | exact hswap _ _

theorem callRemoval_final (key : Nat) : Takes (.callRemoval key) s (FinalKept s) := by
  refine takes_of rfl ?_
  repeat' split
  all_goals exact .of_clt rfl

theorem coverageWindowClose_final (id : ClaimId) : Takes (.coverageWindowClose id) s (FinalKept s) := by
  have hclose : ∀ e o, FinalKept s (s.closeWindow e o) := fun e o => by
    unfold State.closeWindow
    split
    · exact (modOrigin_final s _ _).trans (pushOrig_final _ _)
    · exact modOrigin_final s _ _
  refine takes_of rfl ?_
  repeat' split
  all_goals first
    | exact .refl s
    | exact hclose _ _

theorem phraseBoundary_final (c : ChanId) : Takes (.phraseBoundary c) s (FinalKept s) := by
  have hunit : ∀ last u z, FinalKept u (State.boundaryUnit last u z) := fun last u z => by
    unfold State.boundaryUnit
    split
    · exact stopUnit_final u z _
    · exact applyLevels_final u _
  have hreach : ∀ t, (s.reach16 t).clt = s.clt := fun t => by
    unfold State.reach16
    split <;> rfl
  refine takes_of rfl ?_
  split
  · split
    · unfold State.boundary
      dsimp only
      refine ((FinalKept.foldl (hunit _) _ _).after ?_).trans (settle_final _)
      split
      · exact hreach _
      · exact hreach _
    · exact .refl s
  · exact .refl s

theorem storeReadComplete_final (bytes : List Byte) : Takes (.storeReadComplete bytes) s (FinalKept s) := by
  refine takes_of rfl ?_
  split
  · exact .of_clt (by rw [grant_frame, deliver_frame]; rfl)
  · exact .refl s

theorem sampleDue_final (c : ChanId) : Takes (.sampleDue c) s (FinalKept s) := by
  refine takes_of rfl ?_
  repeat' split
  · unfold State.handSample State.reach16
    dsimp only
    split <;> exact .of_clt (by rw [grant_frame]; rfl)
  all_goals exact .refl s

/-! ### Zones -/

theorem ampFaultRise_final (z : ZoneId) : Takes (.ampFaultRise z) s (FinalKept s) := by
  refine takes_of rfl ?_
  repeat' (first | split | dsimp only)
  all_goals first
    | exact .of_clt rfl
    | exact ((clearZone_final _ z _).trans (settle_final _)).after rfl

theorem ampFaultFall_final (z : ZoneId) : Takes (.ampFaultFall z) s (FinalKept s) := by
  refine takes_of rfl ?_
  repeat' (first | split | dsimp only)
  all_goals first
    | exact .of_clt rfl
    | exact (returnZone_final _ z).after rfl

theorem startInstant_final (z : ZoneId) : Takes (.startInstant z) s (FinalKept s) := by
  refine takes_of rfl ?_
  repeat' split
  all_goals first
    | exact .refl s
    | exact enter_final s _ _

theorem stopInstant_final (z : ZoneId) : Takes (.stopInstant z) s (FinalKept s) := by
  refine takes_of rfl ?_
  split
  · exact (stopUnit_final s z _).trans (settle_final _)
  · exact .refl s

theorem jointWaiterStart_final (z : ZoneId) (id : ClaimId) : Takes (.jointWaiterStart z id) s (FinalKept s) := by
  refine takes_of rfl ?_
  split
  · exact (missWaiter_final s z id).trans (settle_final _)
  · exact .refl s

theorem looseWaiterExpiry_final (z : ZoneId) (id : ClaimId) : Takes (.looseWaiterExpiry z id) s (FinalKept s) := by
  refine takes_of rfl ?_
  split
  · exact (missWaiter_final s z id).trans (settle_final _)
  · exact .refl s

theorem nextClaimExpiry_final (z : ZoneId) : Takes (.nextClaimExpiry z) s (FinalKept s) := by
  refine takes_of rfl ?_
  repeat' split
  all_goals first
    | exact .refl s
    | exact ((writeDisps_final s _ _ _).trans (nextLeft_final _ z _)).trans (settle_final _)

theorem hangoverExpiry_final (z : ZoneId) : Takes (.hangoverExpiry z) s (FinalKept s) := takes_of rfl (.refl s)

theorem trackerWindowComplete_final (z : ZoneId) : Takes (.trackerWindowComplete z) s (FinalKept s) := by
  refine takes_of rfl ?_
  repeat' split
  all_goals exact .of_clt rfl

theorem stagedAttrApply_final (z : ZoneId) : Takes (.stagedAttrApply z) s (FinalKept s) := takes_of rfl (applyStaged_final s z)

theorem pairReform_final (z : ZoneId) : Takes (.pairReform z) s (FinalKept s) := by
  refine takes_of rfl ?_
  split
  · exact reform_final s z
  · exact .refl s

/-! ### The link -/

theorem attemptStart_final (idle : Nat) : Takes (.attemptStart idle) s (FinalKept s) := by
  refine takes_of rfl ?_
  split <;> exact .of_clt rfl

theorem delimiterHeard_final (idle : Nat) : Takes (.delimiterHeard idle) s (FinalKept s) := by
  refine takes_of rfl ?_
  split <;> exact .of_clt rfl

theorem frameSent_final : Takes .frameSent s (FinalKept s) := by
  have hreport : ∀ u : State, FinalKept u u.reportSent := fun u => by
    unfold State.reportSent
    repeat' split
    all_goals first
      | exact .of_clt rfl
      | exact (enqueue_final _ _ _).after rfl
  refine takes_of rfl ?_
  split
  · refine FinalKept.after (t := s.dropUnderWay) ?_ rfl
    unfold State.frameReturned
    split
    · exact ownClaim_final _ _
    · exact (modOrigin_final _ _ _).trans (takeCede_final _ _ _ _)
    · exact modEntry_final _ _ (fun e => by split <;> rfl) fun e _ _ => by split <;> rfl
    · exact .refl _
    · exact .of_clt rfl
    · exact hreport _
  · exact .refl s

theorem collision_final (bit : Nat) : Takes (.collision bit) s (FinalKept s) := by
  refine takes_of rfl ?_
  split
  · split
    · unfold State.collide State.heldTakeBack
      repeat' split
      all_goals first
        | exact .of_clt rfl
        | exact (takeBack_final _ _).after rfl
        | exact (failFrame_final _ _).after rfl
    · exact .refl s
  · exact .refl s

/-! ### The commands that remove or add an entry (R96, R106, R178) -/

/-- What the statement says of a step: an entry found before and after has kept its final dispositions. -/
def FinalStays (s t : State) : Prop :=
  ∀ id e e' z, s.findEntry id = some e → t.findEntry id = some e' → e.disp.get z ≠ .pending → e'.disp.get z = e.disp.get z

end

section

variable {s t u : State}

theorem FinalKept.stays (h : FinalKept s t) : FinalStays s t := fun id e e' z he he' hz => by
  obtain ⟨d, hd, hk⟩ := h.found id e he
  cases hd.symm.trans he'
  exact hk z hz

theorem FinalKept.stays_after (h : FinalKept s t) (k : FinalStays t u) : FinalStays s u := fun id e e' z he he' hz => by
  obtain ⟨d, hd, hk⟩ := h.found id e he
  exact (k id d e' z hd he' (by rwa [hk z hz])).trans (hk z hz)

theorem FinalStays.then_kept (h : FinalStays s t) (k : FinalKept t u) : FinalStays s u := fun id e e' z he he' hz => by
  cases hd : t.findEntry id with
  | none => cases (k.absent id hd).symm.trans he'
  | some d =>
    have hde := h id e d z he hd hz
    exact (k.stays id d e' z hd he' (by rwa [hde])).trans hde

/-- A table whose entries are found as they were, or not at all before. -/
theorem FinalStays.of_find (h : ∀ id e', t.findEntry id = some e' → s.findEntry id = some e' ∨ s.findEntry id = none) :
    FinalStays s t := fun id e e' z he he' _ => by
  rcases h id e' he' with hs | hs
  · rw [Option.some.inj (he.symm.trans hs)]
  · cases he.symm.trans hs

theorem findEntry_filter {x id : ClaimId} {e : Entry} (l : List Entry)
    (h : (l.filter (fun d => d.id != x)).find? (fun d => d.id == id) = some e) : l.find? (fun d => d.id == id) = some e := by
  have hne : id ≠ x := by
    have hx := List.of_mem_filter (List.mem_of_find?_eq_some h)
    have hid : e.id = id := beq_iff_eq.mp (List.find?_some (p := fun d : Entry => d.id == id) h)
    rw [← hid]
    simpa using hx
  rw [← h, List.find?_filter]
  congr 1
  funext d
  by_cases hd : d.id = id
  · simp [hd, hne]
  · simp [hd]

theorem remove_stays (s : State) (x : ClaimId) : FinalStays s (s.setClt (s.clt.filter (fun d => d.id != x))) :=
  .of_find fun _ _ h => .inl (findEntry_filter _ h)

/-- A new entry put behind what is left of the table (R89, R96). -/
theorem append_stays {l : List Entry} {e : Entry} (hl : ∀ id d, l.find? (fun d => d.id == id) = some d → s.findEntry id = some d)
    (hnew : s.findEntry e.id = none) (ht : t.clt = l ++ [e]) : FinalStays s t := by
  refine .of_find fun id e' he' => ?_
  rw [State.findEntry, ht, List.find?_append] at he'
  cases hs : l.find? (fun d => d.id == id) with
  | some d =>
    rw [hs] at he'
    exact .inl ((hl id d hs).trans he')
  | none =>
    rw [hs] at he'
    have hid : e.id = id := by
      by_contra hne
      simp [hne] at he'
    exact .inr (hid ▸ hnew)

theorem enterClaim_stays {l : List Entry} (hl : ∀ id d, l.find? (fun d => d.id == id) = some d → s.findEntry id = some d) {src : Nat}
    {c : ClaimFrame} (hnew : s.findEntry ⟨src, c.seq⟩ = none) (ht : t.clt = l) : FinalStays s (t.enterClaim src c) := by
  have happend : FinalStays s (t.setClt (t.clt ++ [t.receivedEntry src c])) := append_stays (ht.symm ▸ hl) hnew rfl
  exact happend.then_kept ((offerEntry_final _ _).trans (settle_final _))

theorem peerClaim_stays (s : State) (src : Nat) (c : ClaimFrame) : FinalStays s (s.peerClaim src c) := by
  unfold State.peerClaim
  repeat' split
  all_goals try exact (FinalKept.refl s).stays
  · rename_i hnew _
    exact enterClaim_stays (fun _ _ h => h) (by simpa using hnew) rfl
  · rename_i hnew _ _ d _
    have hzones : FinalKept s (s.evictZones d.id) := .foldl (fun s z => evictUnit_final s d.id z) _ s
    have hgone := (hzones.trans (replacePending_final _ d.id
        (f := fun e => { e with disp := e.disp.map (fun x => if x = .pending then .evicted else x) }) .evicted
        (fun _ => rfl) fun _ => rfl)).trans (settle_final _)
    exact hgone.stays_after (enterClaim_stays (fun _ _ h => findEntry_filter _ h) (hgone.absent _ (by simpa using hnew)) rfl)

theorem claim_stays (s : State) (f : RxFrame) : Takes (.claim f) s (FinalStays s) := by
  have htake : ∀ (u : State) src c, FinalStays u (u.takeClaim src c) := fun u src c => by
    unfold State.takeClaim
    repeat' split
    · exact (ownClaim_final u c).stays
    · exact peerClaim_stays u src c
    · exact (FinalKept.refl u).stays
  refine takes_of rfl ?_
  repeat' split
  · exact htake s.frameEnd _ _
  all_goals exact (FinalKept.of_clt rfl).stays

theorem writeBack_final (s : State) (src : OrigSource) (id : ClaimId) : FinalKept s (s.writeBack src id) := .of_clt (by rw [writeBack_eq])

theorem composeOrig_stays {own : Nat} (o : Orig) (hfree : s.findEntry ⟨own, s.nextSeq own⟩ = none) : FinalStays s (s.composeOrig own o) := by
  unfold State.composeOrig
  dsimp only
  split
  · exact (FinalKept.refl s).stays
  · refine (FinalStays.then_kept ?_ (enqueue_final _ _ _)).then_kept (writeBack_final _ _ _)
    refine append_stays (l := s.clt) (fun _ _ h => h) ?_ rfl
    exact hfree

theorem compose_stays (s : State) : Takes .compose s (FinalStays s) := by
  refine takes_of rfl ?_
  split
  · split
    · rename_i o rest own _ _ hready
      simp only [State.composable, Bool.and_eq_true, decide_eq_true_eq] at hready
      obtain ⟨-, ⟨-, hclt⟩, htx⟩ := hready
      exact composeOrig_stays (s := s.setQueue rest) o (nextSeq_free hclt htx own)
    · exact (FinalKept.refl s).stays
  · exact (FinalKept.refl s).stays

theorem entryRemoval_stays (s : State) (id : ClaimId) : Takes (.entryRemoval id) s (FinalStays s) := by
  refine takes_of rfl ?_
  repeat' split
  · exact remove_stays s id
  all_goals exact (FinalKept.refl s).stays

theorem reset_stays (s : State) : Takes .reset s (FinalStays s) := takes_of rfl fun _ _ _ _ _ h => by cases h

/-! ### The statement -/

theorem exec_stays (c : Instr) (s : State) : Takes c s (FinalStays s) := by
  have hkept : ∀ {c : Instr}, Takes c s (FinalKept s) → Takes c s (FinalStays s) := fun ⟨t, h, k⟩ => ⟨t, h, k.stays⟩
  cases c with
  | reset => exact reset_stays s
  | claim f => exact claim_stays s f
  | compose => exact compose_stays s
  | entryRemoval id => exact entryRemoval_stays s id
  | leaveReset => exact hkept (leaveReset_final s _)
  | headerReadDone => exact hkept (headerReadDone_final s _)
  | configReadDone => exact hkept (configReadDone_final s _)
  | secondBoundary => exact hkept (secondBoundary_final s)
  | clock => exact hkept (clock_final s _)
  | callset => exact hkept (callset_final s _)
  | callamend => exact hkept (callamend_final s _)
  | callplan => exact hkept (callplan_final s _)
  | calldrop => exact hkept (calldrop_final s _)
  | trigger => exact hkept (trigger_final s _)
  | handoff => exact hkept (handoff_final s _)
  | answer => exact hkept (answerFrame_final s _)
  | handoffTimeout => exact hkept (handoffTimeout_final s _)
  | query => exact hkept (query_final s _ _)
  | report => exact hkept (report_final s _)
  | zattr => exact hkept (zattr_final s _ _)
  | cede => exact hkept (cede_final s _)
  | zstat => exact hkept (zstat_final s _)
  | frameRejected => exact hkept (frameRejected_final s _ _)
  | occChange => exact hkept (occChange_final s _)
  | debounceWaitExpiry => exact hkept (debounceWaitExpiry_final s _)
  | doorsRise => exact hkept (doorsRise_final s _)
  | doorsFall => exact hkept (doorsFall_final s _)
  | approachRise => exact hkept (approachRise_final s _)
  | approachFall => exact hkept (approachFall_final s _)
  | evacRise => exact hkept (evacRise_final s)
  | evacTimerExpiry => exact hkept (evacTimerExpiry_final s)
  | evacFall => exact hkept (evacFall_final s)
  | ampFaultRise => exact hkept (ampFaultRise_final s _)
  | ampFaultFall => exact hkept (ampFaultFall_final s _)
  | swap => exact hkept (swap_final s _)
  | callRemoval => exact hkept (callRemoval_final s _)
  | coverageWindowClose => exact hkept (coverageWindowClose_final s _)
  | startInstant => exact hkept (startInstant_final s _)
  | stopInstant => exact hkept (stopInstant_final s _)
  | jointWaiterStart => exact hkept (jointWaiterStart_final s _ _)
  | looseWaiterExpiry => exact hkept (looseWaiterExpiry_final s _ _)
  | nextClaimExpiry => exact hkept (nextClaimExpiry_final s _)
  | phraseBoundary => exact hkept (phraseBoundary_final s _)
  | storeReadComplete => exact hkept (storeReadComplete_final s _)
  | hangoverExpiry => exact hkept (hangoverExpiry_final s _)
  | trackerWindowComplete => exact hkept (trackerWindowComplete_final s _)
  | stagedAttrApply => exact hkept (stagedAttrApply_final s _)
  | pairReform => exact hkept (pairReform_final s _)
  | attemptStart => exact hkept (attemptStart_final s _)
  | delimiterHeard => exact hkept (delimiterHeard_final s _)
  | frameSent => exact hkept (frameSent_final s)
  | collision => exact hkept (collision_final s _)
  | samplingInstant => exact hkept (samplingInstant_final s _ _)
  | sampleDue => exact hkept (sampleDue_final s _)

/-- Settles O60, by `exec_stays`: every command but four keeps each entry's final dispositions (`FinalKept`); those four remove or add an
entry. -/
theorem finalDispositionsStay : Obligations.FinalDispositionsStay :=
  fun c s _t id e e' z h he he' hz => (takes_iff h).mp (exec_stays c s) id e e' z he he' hz

end

end Sys2Proof.Machine
end

section
/-!
SUPPORT. What the level unit notes of a zone that leaves a state, what a stop writes, and what a unit holds once its next claim has left.
-/

namespace Sys2Proof.Machine

open Sys2Proof

/-! ### What is noted of a zone that leaves play or silence (R146, R147) -/

/-- The zone `z` is in the same state in `t` as in `s`, at the same instant, and the level unit notes the same of it. -/
structure NotesKept (s t : State) (z : ZoneId) : Prop where
  now : t.now = s.now
  state : (t.za.get z).arb.state = (s.za.get z).arb.state
  lastPlayEnd : (t.lu.zones.get z).lastPlayEnd = (s.lu.zones.get z).lastPlayEnd
  window : (t.lu.zones.get z).window = (s.lu.zones.get z).window

theorem NotesKept.of_eq {s t : State} {z : ZoneId} (hsck : t.sck = s.sck) (hza : t.za = s.za) (hlu : t.lu = s.lu) : NotesKept s t z :=
  ⟨congrArg Sck.running hsck, by rw [hza], by rw [hlu], by rw [hlu]⟩

theorem NotesKept.trans {s t u : State} {z : ZoneId} (h : NotesKept s t z) (k : NotesKept t u z) : NotesKept s u z :=
  ⟨k.now.trans h.now, k.state.trans h.state, k.lastPlayEnd.trans h.lastPlayEnd, k.window.trans h.window⟩

theorem PlayNoted.then_kept {s t u : State} {z : ZoneId} (h : PlayNoted s t z) (k : NotesKept t u z) : PlayNoted s u z :=
  ⟨by rw [k.lastPlayEnd, k.state]; exact h.lastPlayEnd, by rw [k.window, k.state]; exact h.window⟩

theorem PlayNoted.after_kept {s t u : State} {z : ZoneId} (h : NotesKept s t z) (k : PlayNoted t u z) : PlayNoted s u z :=
  ⟨by rw [k.lastPlayEnd, h.state, h.now, h.lastPlayEnd], by rw [k.window, h.state, h.window]⟩

/-- A zone in the same state has neither left play nor stopped being silent. -/
theorem not_left {p q : Prop} : ¬ ((p ∨ q) ∧ ¬ p ∧ ¬ q) := fun ⟨h, hp, hq⟩ => h.elim hp hq

theorem PlayNoted.refl (s : State) (z : ZoneId) : PlayNoted s s z := ⟨by rw [if_neg not_left], by rw [if_neg not_left]⟩

/-- Where the zone's state does not change, nothing is noted. -/
theorem PlayNoted.kept {s t : State} {z : ZoneId} (h : PlayNoted s t z) (hnow : t.now = s.now)
    (hst : (t.za.get z).arb.state = (s.za.get z).arb.state) : NotesKept s t z := by
  obtain ⟨hl, hw⟩ := h
  rw [hst, if_neg not_left] at hl hw
  exact ⟨hnow, hst, hl, hw⟩

/-- Two steps in a row note as one does, where the zone's state changes in one of them alone. -/
theorem PlayNoted.trans {s t u : State} {z : ZoneId} (h : PlayNoted s t z) (k : PlayNoted t u z) (ht : t.now = s.now) (hu : u.now = t.now)
    (hst : (t.za.get z).arb.state = (s.za.get z).arb.state ∨ (u.za.get z).arb.state = (t.za.get z).arb.state) : PlayNoted s u z :=
  hst.elim (fun e => .after_kept (h.kept ht e) k) fun e => h.then_kept (k.kept hu e)

theorem putArb_now (s : State) (zs : List ZoneId) (a : Arb) : (s.putArb zs a).now = s.now := congrArg Sck.running (putArb_sck s zs a)

theorem putZoneArb_self (s : State) (a : Arb) (z : ZoneId) : ((s.putZoneArb a z).za.get z).arb = a := by simp [putZoneArb_za]

theorem putArb_noted (s : State) (zs : List ZoneId) (a : Arb) (y : ZoneId) : PlayNoted s (s.putArb zs a) y := by
  induction zs generalizing s with
  | nil => exact .refl s y
  | cons z zs ih =>
    refine (putZoneArb_noted s a z y).trans (ih (s.putZoneArb a z)) (putArb_now s [z] a) (putArb_now _ zs a) ?_
    by_cases hy : y = z
    · subst hy
      have hself := putZoneArb_self s a y
      refine .inr ?_
      rw [State.putArb, List.foldl_cons]
      change (((s.putZoneArb a y).putArb zs a).za.get y).arb.state = _
      rw [putArb_get, hself]
      split
      · rfl
      · rw [hself]
    · exact .inl (by rw [putZoneArb_za, Quad.get_set_ne _ _ hy])

theorem applyLevel_notes (s : State) (z y : ZoneId) : NotesKept s (s.applyLevel z) y := by
  have hlu : ((s.applyLevel z).lu.zones.get y).lastPlayEnd = (s.lu.zones.get y).lastPlayEnd ∧
      ((s.applyLevel z).lu.zones.get y).window = (s.lu.zones.get y).window := by
    unfold State.applyLevel
    split
    · by_cases hy : y = z
      · subst hy; simp [State.modLu]
      · simp [State.modLu, Quad.get_set_ne _ _ hy]
    · exact ⟨rfl, rfl⟩
  exact ⟨by rw [applyLevel_frame]; rfl, by rw [applyLevel_frame], hlu.1, hlu.2⟩

theorem applyLevels_notes (s : State) (zs : List ZoneId) (y : ZoneId) : NotesKept s (s.applyLevels zs) y :=
  foldl_rel (NotesKept · · y) (fun _ => .of_eq rfl rfl rfl) .trans (fun s z => applyLevel_notes s z y) zs s

theorem writeDisps_notes (s : State) (id : ClaimId) (zs : List ZoneId) (d : Disp) (y : ZoneId) : NotesKept s (s.writeDisps id zs d) y := by
  rw [writeDisps_frame]
  exact .of_eq rfl rfl rfl

theorem enter_noted (s : State) (zs : List ZoneId) (r : Arb × List ClaimId) (y : ZoneId) : PlayNoted s (s.enter zs r) y := by
  have hmissed : PlayNoted s (r.2.foldl (fun s id => s.writeDisps id zs .missed) (s.putArb zs r.1)) y :=
    (putArb_noted s zs r.1 y).then_kept (by rw [missAll_frame]; exact .of_eq rfl rfl rfl)
  unfold State.enter
  dsimp only
  split
  · refine (hmissed.then_kept ?_).then_kept (applyLevels_notes _ zs y)
    rw [attachZones_frame]
    exact .of_eq rfl rfl rfl
  · exact hmissed

theorem chooseNext_noted (s : State) (zs : List ZoneId) (a : Arb) (y : ZoneId) : PlayNoted s (s.chooseNext zs a) y := by
  unfold State.chooseNext
  refine (enter_noted s zs _ y).then_kept ⟨?_, by rw [markReforms_arb], by rw [markReforms_frame], by rw [markReforms_frame]⟩
  rw [markReforms_frame]
  rfl

theorem stopUnit_noted (s : State) (z : ZoneId) (cause : StopCause) (y : ZoneId) : PlayNoted s (s.stopUnit z cause) y := by
  unfold State.stopUnit
  dsimp only
  split
  · exact .refl s y
  · refine PlayNoted.after_kept ?_ (chooseNext_noted _ _ _ y)
    refine NotesKept.trans ?_ (writeDisps_notes _ _ _ _ y)
    rw [detachZones_frame]
    exact .of_eq rfl rfl rfl

/-- A unit whose stop conditions are written while it stays in its state, and which may then stop at once (R115). -/
theorem putCutting_noted (s : State) (z : ZoneId) (a : Arb) (h : ∀ y ∈ s.unit z, (s.za.get y).arb.state = a.state) (y : ZoneId) :
    PlayNoted s (s.putCutting z a) y := by
  unfold State.putCutting
  dsimp only
  split
  · refine .after_kept ((putArb_noted s _ a y).kept (putArb_now s _ a) ?_) (stopUnit_noted _ z _ y)
    rw [putArb_get]
    split
    · exact (h y ‹_›).symm
    · rfl
  · exact putArb_noted s _ a y

theorem nextLeft_noted (s : State) (z : ZoneId) (a : Arb) (h : ∀ y ∈ s.unit z, (s.za.get y).arb.state = .cutting) (y : ZoneId) :
    PlayNoted s (s.nextLeft z a) y := by
  unfold State.nextLeft
  dsimp only
  split
  · split
    · exact putCutting_noted s z _ h y
    · exact putArb_noted s _ _ y
  · exact putArb_noted s _ _ y

/-! ### A unit written (R110, R124) -/

theorem unit_of_pair {s t : State} (h : ∀ y, (t.za.get y).pair = (s.za.get y).pair) (z : ZoneId) : t.unit z = s.unit z := by
  unfold State.unit State.whole
  rw [h]

theorem putArb_unit (s : State) (zs : List ZoneId) (a : Arb) (z : ZoneId) : (s.putArb zs a).unit z = s.unit z :=
  unit_of_pair (fun y => by rw [putArb_get]; split <;> rfl) z

theorem putZoneArb_lu_of_state {s : State} {a : Arb} {z : ZoneId} (h : (s.za.get z).arb.state = a.state) : (s.putZoneArb a z).lu = s.lu := by
  unfold State.putZoneArb
  simp only [h, Bool.and_not_self]
  rfl

/-- Where no state changes, the level unit notes nothing. -/
theorem putArb_lu_of_state {s : State} {zs : List ZoneId} {a : Arb} (h : ∀ y ∈ zs, (s.za.get y).arb.state = a.state) :
    (s.putArb zs a).lu = s.lu := by
  induction zs generalizing s with
  | nil => rfl
  | cons z zs ih =>
    refine (ih fun y hy => ?_).trans (putZoneArb_lu_of_state (h z List.mem_cons_self))
    by_cases hyz : y = z
    · rw [hyz, putZoneArb_self]
    · rw [putZoneArb_za, Quad.get_set_ne _ _ hyz]
      exact h y (List.mem_cons_of_mem z hy)

theorem putArb_eq_of_state {s : State} {zs : List ZoneId} {a : Arb} (h : ∀ y ∈ zs, (s.za.get y).arb.state = a.state) :
    s.putArb zs a = { s with za := (s.putArb zs a).za } := by
  conv_lhs => rw [putArb_frame, putArb_lu_of_state h]

/-! ### Dispositions (R94, R121) -/

/-- A disposition written to a unit is taken by every member that is PENDING (R94). -/
theorem writeDisps_takes {s : State} {id : ClaimId} {e : Entry} {zs : List ZoneId} {y : ZoneId} {d : Disp} (he : s.findEntry id = some e)
    (hy : y ∈ zs) (hp : e.disp.get y = .pending) (hd : d ≠ .pending) :
    ∃ e', (s.writeDisps id zs d).findEntry id = some e' ∧ e'.disp.get y = d :=
  ⟨_, by rw [findEntry_writeDisps s id id zs d hd, he]; rfl, by simp [hy, hp]⟩

/-- A final disposition that was taken is the one found later. -/
theorem FinalKept.takes {s t : State} {id : ClaimId} {y : ZoneId} {d : Disp} (k : FinalKept s t)
    (h : ∃ e', s.findEntry id = some e' ∧ e'.disp.get y = d) (hd : d ≠ .pending) : ∃ e', t.findEntry id = some e' ∧ e'.disp.get y = d := by
  obtain ⟨e', he', hy⟩ := h
  obtain ⟨e'', he'', hk⟩ := k.found id e' he'
  exact ⟨e'', he'', (hk y (by rwa [hy])).trans hy⟩

theorem stopDisp_final (s : State) (z : ZoneId) (a : Arb) (cause : StopCause) : s.stopDisp z a cause ≠ .pending := by
  unfold State.stopDisp
  repeat' split
  all_goals simp

/-- The disposition that a claim takes when it is stopped (R121). -/
theorem stopUnit_takes {s : State} {z y : ZoneId} {h : Held} {e : Entry} (cause : StopCause) (hc : (s.za.get z).arb.current = some h)
    (he : s.findEntry h.id = some e) (hy : y ∈ s.unit z) (hp : e.disp.get y = .pending) :
    ∃ e', (s.stopUnit z cause).findEntry h.id = some e' ∧ e'.disp.get y = s.stopDisp z (s.za.get z).arb cause := by
  have hfinal := stopDisp_final s z (s.za.get z).arb cause
  have hdetached : (s.detachZones (s.unit z)).findEntry h.id = some e := by rw [detachZones_frame]; exact he
  unfold State.stopUnit
  simp only [hc]
  exact (chooseNext_final _ _ _).takes (writeDisps_takes hdetached hy hp hfinal) hfinal

/-! ### The next claim of a CUTTING unit leaves (R115, R123) -/

/-- A claim aimed at is cut to at once when its class or its JOINT start asks for an instant that is reached (R115). -/
theorem aim_stopDue (a : Arb) (w : Held) (now : Nat) :
    (a.aim w now).stopDue now = true ↔ (w.cls ≤ 1 ∨ w.sync = .joint) ∧ w.start ≤ now := by
  unfold Arb.aim Arb.stopDue
  by_cases h : w.cls ≤ 1 ∨ w.sync = .joint <;> simp [h]

/-- What a unit does that is aimed at a claim whose stop instant is reached (R115, R121, R122). -/
theorem putCutting_due {s : State} {z y : ZoneId} {b : Arb} {c : Held} (hdue : b.stopDue s.now = true) (hc : b.current = some c)
    (hy : y ∈ s.unit z) :
    ((s.putCutting z b).za.get y).arb = (b.choose s.now).1 ∧
      ∀ e, s.findEntry c.id = some e → e.disp.get y = .pending → ∃ e', (s.putCutting z b).findEntry c.id = some e' ∧
        e'.disp.get y = if b.wdPending then .withdrawn else if s.zoneDelivered z then .played else .preempted := by
  have hput : s.putCutting z b = (s.putArb (s.unit z) b).stopUnit z .instant := by
    unfold State.putCutting
    simp only [putArb_now, hdue, if_true]
  have harb : ((s.putArb (s.unit z) b).za.get z).arb = b := by rw [putArb_get, if_pos (self_mem_unit s z)]
  have hcur : ((s.putArb (s.unit z) b).za.get z).arb.current = some c := by rw [harb]; exact hc
  have hdelivered : (s.putArb (s.unit z) b).zoneDelivered z = s.zoneDelivered z := by rw [putArb_frame]; rfl
  have hunit : y ∈ (s.putArb (s.unit z) b).unit z := by rw [putArb_unit]; exact hy
  rw [hput]
  refine ⟨?_, fun e he hp => ?_⟩
  · rw [stopUnit_arb _ z y .instant c hcur, if_pos hunit, harb, putArb_now]
  · have hfind : (s.putArb (s.unit z) b).findEntry c.id = some e := by rw [putArb_frame]; exact he
    obtain ⟨e', he', hd⟩ := stopUnit_takes .instant hcur hfind hunit hp
    refine ⟨e', he', hd.trans ?_⟩
    rw [State.stopDisp, harb, hdelivered]
    simp

theorem putCutting_not_due {s : State} {z y : ZoneId} {b : Arb} (hdue : ¬ b.stopDue s.now = true) (hy : y ∈ s.unit z) :
    ((s.putCutting z b).za.get y).arb = b := by
  unfold State.putCutting
  simp only [putArb_now, hdue, Bool.false_eq_true, if_false]
  rw [putArb_get, if_pos hy]

theorem nextLeft_leaves (s : State) (z : ZoneId) {a : Arb} {c : Held} (hc : a.current = some c) : NextLeaves s (s.nextLeft z a) z a c where
  back hw y hy := by
    have hback : s.nextLeft z a = s.putArb (s.unit z) { a with state := .playing, next := none, stopAt := none, phraseEnd := a.wdPending } := by
      unfold State.nextLeft
      dsimp only
      split
      · rename_i w rest d hwait hcur
        cases hc.symm.trans hcur
        rw [if_neg (Nat.not_lt.mpr (hw w (by rw [hwait]; rfl)))]
      · rfl
    rw [hback, putArb_get, if_pos hy]
  aims w rest hwait hlt := by
    intro b
    have hb : ({ a with wait := rest } : Arb).aim w s.now = b := rfl
    have hleft : s.nextLeft z a = s.putCutting z b := by
      unfold State.nextLeft
      dsimp only
      split
      · rename_i x r d hx hcur
        cases hwait.symm.trans hx
        cases hc.symm.trans hcur
        exact if_pos hlt
      · rename_i hno
        exact absurd hc (hno w rest c hwait)
    have hdue := aim_stopDue { a with wait := rest } w s.now
    rw [hb] at hdue
    rw [hleft]
    refine ⟨fun h y hy => putCutting_not_due (fun hd => ?_) hy, fun h hstart y hy => ?_⟩
    · obtain ⟨hat, hreached⟩ := hdue.mp hd
      rcases h with ⟨hcls, hsync⟩ | hahead
      · rcases hat with hat | hat
        · exact absurd (hcls.trans hat) (by decide)
        · simp [hsync] at hat
      · exact absurd hreached (Nat.not_le.mpr hahead)
    · obtain ⟨harb, hdisp⟩ := putCutting_due (hdue.mpr ⟨h, hstart⟩) (c := c) hc hy
      exact ⟨harb, fun _ => hdisp⟩

/-- The claim table before the unit acts may differ, but not in the entry of its current claim. -/
theorem NextLeaves.of_clt {s u : State} {z : ZoneId} {a : Arb} {c : Held} {l : List Entry} (h : NextLeaves { s with clt := l } u z a c)
    (hf : State.findEntry { s with clt := l } c.id = s.findEntry c.id) : NextLeaves s u z a c where
  back := h.back
  aims w rest hwait hlt := by
    obtain ⟨hstay, hstop⟩ := h.aims w rest hwait hlt
    refine ⟨hstay, fun hat hreached y hy => ?_⟩
    obtain ⟨harb, hdisp⟩ := hstop hat hreached y hy
    exact ⟨harb, fun hne e he => hdisp hne e (hf.trans he)⟩

end Sys2Proof.Machine
end

section
/-!
PROOFS. The statement on CEDE: what a withdrawal does in a unit, by where the unit holds the claim.
-/

namespace Sys2Proof.Machine

open Sys2Proof

/-! ### Where a unit holds a claim -/

theorem heldIs_iff (o : Option Held) (id : ClaimId) : heldIs o id = true ↔ ∃ h, o = some h ∧ h.id = id := by
  cases o <;> simp [heldIs]

theorem any_id_iff (w : List Held) (id : ClaimId) : w.any (fun h => h.id == id) = true ↔ ∃ h ∈ w, h.id = id := by
  simp [List.any_eq_true]

theorem not_waiting {w : List Held} {id : ClaimId} (h : ∀ x ∈ w, x.id ≠ id) : ¬ w.any (fun h => h.id == id) = true := fun hw => by
  obtain ⟨x, hx, hid⟩ := (any_id_iff w id).mp hw
  exact h x hx hid

theorem not_heldIs {o : Option Held} {id : ClaimId} (h : ∀ x, o = some x → x.id ≠ id) : ¬ heldIs o id = true := fun ho => by
  obtain ⟨x, hx, hid⟩ := (heldIs_iff o id).mp ho
  exact h x hx hid

section

variable {s : State} {id : ClaimId} {z : ZoneId} (cut : Bool)

theorem withdrawUnit_waiting (h : ∃ x ∈ (s.za.get z).arb.wait, x.id = id) :
    s.withdrawUnit id cut z = (s.putArb (s.unit z)
      { (s.za.get z).arb with wait := (s.za.get z).arb.wait.filter (fun h => h.id != id) }).writeDisps id (s.unit z) .withdrawn :=
  if_pos ((any_id_iff _ id).mpr h)

theorem withdrawUnit_next (hw : ∀ x ∈ (s.za.get z).arb.wait, x.id ≠ id) {n : Held} (hn : (s.za.get z).arb.next = some n) (hid : n.id = id) :
    s.withdrawUnit id cut z = (s.writeDisps id (s.unit z) .withdrawn).nextLeft z (s.za.get z).arb :=
  (if_neg (not_waiting hw)).trans (if_pos ((heldIs_iff _ id).mpr ⟨n, hn, hid⟩))

theorem withdrawUnit_current (hw : ∀ x ∈ (s.za.get z).arb.wait, x.id ≠ id) (hn : ∀ n, (s.za.get z).arb.next = some n → n.id ≠ id)
    {c : Held} (hc : (s.za.get z).arb.current = some c) (hid : c.id = id) :
    s.withdrawUnit id cut z =
      if (s.za.get z).arb.state.plays then
        if cut then s.stopUnit z .cutNow else s.putArb (s.unit z) { (s.za.get z).arb with wdPending := true, phraseEnd := true }
      else (s.writeDisps id (s.unit z) .withdrawn).chooseNext (s.unit z) (s.za.get z).arb :=
  ((if_neg (not_waiting hw)).trans (if_neg (not_heldIs hn))).trans (if_pos ((heldIs_iff _ id).mpr ⟨c, hc, hid⟩))

theorem withdrawUnit_absent (hw : ∀ x ∈ (s.za.get z).arb.wait, x.id ≠ id) (hn : ∀ n, (s.za.get z).arb.next = some n → n.id ≠ id)
    (hc : ∀ c, (s.za.get z).arb.current = some c → c.id ≠ id) : s.withdrawUnit id cut z = s :=
  ((if_neg (not_waiting hw)).trans (if_neg (not_heldIs hn))).trans (if_neg (not_heldIs hc))

/-- What a withdrawal notes of every zone (R146, R147). -/
theorem withdrawUnit_noted (ha : ∀ y ∈ s.unit z, (s.za.get y).arb = (s.za.get z).arb)
    (hcut : (s.za.get z).arb.next ≠ none → (s.za.get z).arb.state = .cutting) (y : ZoneId) : PlayNoted s (s.withdrawUnit id cut z) y := by
  have hwritten := writeDisps_notes s id (s.unit z) .withdrawn y
  unfold State.withdrawUnit
  dsimp only
  split
  · exact (putArb_noted s _ _ y).then_kept (writeDisps_notes _ _ _ _ y)
  · split
    · rename_i hnext
      obtain ⟨n, hn, -⟩ := (heldIs_iff _ id).mp hnext
      have hza := writeDisps_za s id (s.unit z) .withdrawn
      refine .after_kept hwritten (nextLeft_noted _ z _ (fun y hy => ?_) y)
      rw [unit_congr hza] at hy
      rw [hza, ha y hy, hcut (by rw [hn]; simp)]
    · split
      · split
        · split
          · exact stopUnit_noted s z _ y
          · exact putArb_noted s _ _ y
        · exact .after_kept hwritten (chooseNext_noted _ _ _ y)
      · exact .refl s y

/-! ### What a withdrawal does in each case (R99, R121, R123) -/

/-- Every member of a unit that is PENDING for a claim takes a disposition. -/
def MembersTake (s u : State) (zs : List ZoneId) (id : ClaimId) (d : Disp) : Prop :=
  ∀ y ∈ zs, ∀ e, s.findEntry id = some e → e.disp.get y = .pending → ∃ e', u.findEntry id = some e' ∧ e'.disp.get y = d

theorem writeDisps_members (s : State) (id : ClaimId) (zs : List ZoneId) {d : Disp} (hd : d ≠ .pending) :
    MembersTake s (s.writeDisps id zs d) zs id d := fun _ hy _ he hp => writeDisps_takes he hy hp hd

theorem MembersTake.then_kept {t u : State} {zs : List ZoneId} {d : Disp} (h : MembersTake s t zs id d) (k : FinalKept t u) (hd : d ≠ .pending) :
    MembersTake s u zs id d := fun y hy e he hp => k.takes (h y hy e he hp) hd

theorem MembersTake.of_clt {t u : State} {zs : List ZoneId} {d : Disp} (h : MembersTake t u zs id d) (ht : t.clt = s.clt) :
    MembersTake s u zs id d := fun y hy e he hp => h y hy e ((congrArg (List.find? _) ht).trans he) hp

/-- A unit that stops a claim turns to what it chooses, and its members take the disposition of the stop. -/
theorem stopUnit_members {c : Held} (cause : StopCause) (hc : (s.za.get z).arb.current = some c) :
    MembersTake s (s.stopUnit z cause) (s.unit z) c.id (s.stopDisp z (s.za.get z).arb cause) :=
  fun _ hy _ he hp => stopUnit_takes cause hc he hy hp

theorem withdrawUnit_waiting_takes (ha : ∀ y ∈ s.unit z, (s.za.get y).arb = (s.za.get z).arb) (h : ∃ x ∈ (s.za.get z).arb.wait, x.id = id) :
    s.withdrawUnit id cut z = { s with za := (s.withdrawUnit id cut z).za, clt := (s.withdrawUnit id cut z).clt } ∧
    MembersTake s (s.withdrawUnit id cut z) (s.unit z) id .withdrawn ∧
    ∀ y, (s.withdrawUnit id cut z).za.get y = if y ∈ s.unit z then
      { s.za.get y with arb := { (s.za.get z).arb with wait := (s.za.get z).arb.wait.filter (fun h => h.id != id) } } else s.za.get y := by
  rw [withdrawUnit_waiting cut h]
  refine ⟨?_, (writeDisps_members _ id _ (by simp)).of_clt (putArb_clt _ _ _), fun y => ?_⟩
  · rw [writeDisps_frame, putArb_eq_of_state]
    exact fun y hy => by rw [ha y hy]
  · rw [writeDisps_za, putArb_get]

theorem withdrawUnit_next_leaves (hw : ∀ x ∈ (s.za.get z).arb.wait, x.id ≠ id) {n c : Held} (hn : (s.za.get z).arb.next = some n)
    (hid : n.id = id) (hc : (s.za.get z).arb.current = some c) (hne : c.id ≠ id) :
    MembersTake s (s.withdrawUnit id cut z) (s.unit z) id .withdrawn ∧ NextLeaves s (s.withdrawUnit id cut z) z (s.za.get z).arb c := by
  have hfind : (s.writeDisps id (s.unit z) .withdrawn).findEntry c.id = s.findEntry c.id := by
    rw [findEntry_writeDisps _ _ _ _ _ (by simp)]
    simp [hne]
  rw [withdrawUnit_next cut hw hn hid]
  refine ⟨(writeDisps_members s id _ (by simp)).then_kept (nextLeft_final _ z _) (by simp), ?_⟩
  rw [writeDisps_frame] at hfind ⊢
  exact (nextLeft_leaves _ z hc).of_clt hfind

/-- The claim is the current one of a unit. -/
theorem withdrawUnit_current_stops (hw : ∀ x ∈ (s.za.get z).arb.wait, x.id ≠ id) (ha : ∀ y ∈ s.unit z, (s.za.get y).arb = (s.za.get z).arb)
    (hn : ∀ n, (s.za.get z).arb.next = some n → n.id ≠ id) {c : Held} (hc : (s.za.get z).arb.current = some c) (hid : c.id = id) :
    ((s.za.get z).arb.state = .leadIn → MembersTake s (s.withdrawUnit id cut z) (s.unit z) id .withdrawn ∧
      ∀ y ∈ s.unit z, ((s.withdrawUnit id cut z).za.get y).arb = ((s.za.get z).arb.choose s.now).1) ∧
    ((s.za.get z).arb.state.plays = true → cut = false →
      s.withdrawUnit id cut z = { s with za := (s.withdrawUnit id cut z).za } ∧
      ∀ y, (s.withdrawUnit id cut z).za.get y = if y ∈ s.unit z then
        { s.za.get y with arb := { (s.za.get z).arb with wdPending := true, phraseEnd := true } } else s.za.get y) ∧
    ((s.za.get z).arb.state.plays = true → cut = true → MembersTake s (s.withdrawUnit id cut z) (s.unit z) id .withdrawn ∧
      ∀ y ∈ s.unit z, ((s.withdrawUnit id cut z).za.get y).arb = ((s.za.get z).arb.choose s.now).1) := by
  rw [withdrawUnit_current cut hw hn hc hid]
  refine ⟨fun hst => ?_, fun hplays hcut => ?_, fun hplays hcut => ?_⟩
  · have hsilent : (s.za.get z).arb.state.plays = false := by rw [hst]; rfl
    rw [hsilent, if_neg Bool.false_ne_true]
    refine ⟨(writeDisps_members s id _ (by simp)).then_kept (chooseNext_final _ _ _) (by simp), fun y hy => ?_⟩
    rw [chooseNext_arb, if_pos hy, State.now, writeDisps_sck]
    rfl
  · rw [if_pos hplays, hcut, if_neg Bool.false_ne_true]
    exact ⟨putArb_eq_of_state fun y hy => by rw [ha y hy], putArb_get _ _ _⟩
  · have hdisp : s.stopDisp z (s.za.get z).arb .cutNow = .withdrawn := by simp [State.stopDisp]
    rw [if_pos hplays, if_pos hcut]
    refine ⟨?_, fun y hy => ?_⟩
    · have hstop := stopUnit_members .cutNow hc
      rwa [hid, hdisp] at hstop
    · rw [stopUnit_arb s z y .cutNow c hc, if_pos hy]

end

/-! ### The statement -/

/-- A CEDE that is heard is acted on where its claim's origin sent it (R99). -/
theorem exec_cede {f : RxFrame} {s : State} {id : ClaimId} {cut : Bool} (hd : decodeCede f.body = some (id, cut)) (hh : s.hears kindCede f = true) :
    exec (.cede f) s = .next (s.frameEnd.takeCede f.src.toNat id cut) := by
  have hheard : s.frameEnd.hears kindCede f = true := hh
  change Host.Outcome.next _ = _
  rw [hd]
  dsimp only
  rw [if_pos hheard]

/-- Settles O35: the frame by `exec_cede`, the withdrawal in a unit by the place the unit holds the claim in. -/
theorem cedeWithdrawsTheClaim : Obligations.CedeWithdrawsTheClaim := by
  refine ⟨fun f s id cut hd hh => ⟨fun hsrc => takes_of (exec_cede hd hh) (if_neg hsrc), fun hsrc => takes_of (exec_cede hd hh) (if_pos hsrc)⟩, ?_⟩
  intro s id cut z a u ha takes turns changes absent
  refine ⟨?frame, ?waiting, ?next, ?current, ?absent⟩
  case frame => exact fun hcut y => withdrawUnit_noted cut ha hcut y
  case waiting => exact withdrawUnit_waiting_takes cut ha
  case next => exact fun n c hw hn hid hc hne => withdrawUnit_next_leaves cut hw hn hid hc hne
  case current => exact fun c hw hn hc hid => withdrawUnit_current_stops cut hw ha hn hc hid
  case absent => exact fun hw hn hc => withdrawUnit_absent cut hw hn hc

end Sys2Proof.Machine
end

section
/-!
PROOFS. The statement on a peer's CLAIM: the target zones, the entry that is made, the one that is evicted for it, and what an eviction does in a unit.
-/

namespace Sys2Proof.Machine

open Sys2Proof

/-! ### Target zones (R92, R180) -/

section

variable (s : State) (gs : GroupSet)

theorem isTarget_iff (z : ZoneId) : s.isTarget gs z = true ↔ (s.sul.mode = .storeFault ∧ gs ≠ 0) ∨ (s.sul.mode ≠ .storeFault ∧
    (s.named gs s.sectionNo z = true ∨ ((s.za.get z).pair ≠ none ∧ s.named gs s.sectionNo z.partner = true))) := by
  unfold State.isTarget State.inStoreFault State.paired
  by_cases hm : s.sul.mode = .storeFault
  · simp [hm]
  · simp [hm, Option.isSome_iff_ne_none]

theorem startDisp_get (z : ZoneId) : (s.startDisp gs).get z = if s.isTarget gs z then .pending else .notTarget := Quad.get_tabulate _ _

theorem hasTarget_iff : s.hasTarget gs = true ↔ ∃ z, s.isTarget gs z = true := by
  simp [State.hasTarget, List.any_eq_true, mem_idx4_all]

end

/-! ### The entry made (R90, R93, R96) -/

theorem plannedMs_eq (s : State) (phrases : List Nat) :
    s.plannedMs phrases = if s.sul.mode = .storeFault then 10000 else (phrases.map s.phraseLen).sum / 16 := by
  simp [State.plannedMs, State.inStoreFault, Config.faultPlannedMs]

/-- The entry a received CLAIM makes, timed from now. -/
def State.timedEntry (s : State) (src : Nat) (c : ClaimFrame) : Entry :=
  { id := ⟨src, c.seq⟩, cls := c.cls, sync := c.sync, groups := c.groups, phrases := c.phrases, call := c.call, missing := c.missing,
    truncated := c.truncated, localOnly := false, start := some (s.now + 10 * c.offset10),
    latest := if c.sync = .joint then none else some (s.now + 10 * c.offset10 + 1000 * c.window.getD 0),
    plannedEnd := some (s.now + 10 * c.offset10 + if s.sul.mode = .storeFault then 10000 else (c.phrases.map s.phraseLen).sum / 16),
    disp := s.startDisp c.groups,
    zstat := if s.sul.mode = .listenOnly ∨ (s.sul.mode = .storeFault ∧ s.nodeNo = none) then .notNeeded else .pending,
    settled := false, origin := none }

theorem receivedEntry_eq (s : State) (src : Nat) (c : ClaimFrame) : s.receivedEntry src c = s.timedEntry src c := by
  unfold State.receivedEntry Entry.anchor State.timedEntry
  rw [plannedMs_eq]
  cases c.sync <;> simp [State.inStoreFault]

/-- The entry looks at the clock, the loader, the configuration and the pairs alone. -/
theorem timedEntry_congr {s t : State} (hsck : t.sck = s.sck) (hsul : t.sul = s.sul) (hcfg : t.cfg = s.cfg)
    (hpair : ∀ z, (t.za.get z).pair = (s.za.get z).pair) (src : Nat) (c : ClaimFrame) : t.timedEntry src c = s.timedEntry src c := by
  have hnow : t.now = s.now := congrArg Sck.running hsck
  have hnode : t.nodeNo = s.nodeNo := by rw [State.nodeNo, hsul]; rfl
  have hsection : t.sectionNo = s.sectionNo := by rw [State.sectionNo, hsul]; rfl
  have hnamed : t.named = s.named := by
    funext gs n z
    rw [State.named, State.named]
    simp only [State.inGroup, hcfg]
  have htarget : t.isTarget = s.isTarget := by
    funext gs z
    rw [State.isTarget, State.inStoreFault, State.paired, hsul, hnamed, hsection, hpair]
    rfl
  have hdisp : t.startDisp c.groups = s.startDisp c.groups := by
    rw [State.startDisp, htarget]
    rfl
  have hlen : t.phraseLen = s.phraseLen := by
    funext code
    simp only [State.phraseLen, State.dirEntry, hcfg]
  rw [State.timedEntry, hnow, hnode, hsul, hdisp, hlen]
  rfl

/-! ### The worst and latest entry (R97) -/

theorem foldl_worseEntry_latest {d : Entry} {r : List Entry} (h : ∀ x ∈ r, x.cls < d.cls) : r.foldl worseEntry d = d := by
  induction r with
  | nil => rfl
  | cons x r ih =>
    have hx : worseEntry d x = d := if_neg (Nat.not_le.mpr (h x List.mem_cons_self))
    rw [List.foldl_cons, hx]
    exact ih fun y hy => h y (List.mem_cons_of_mem x hy)

theorem foldl_worseEntry_le {k : Nat} {l : List Entry} {a : Entry} (ha : a.cls ≤ k) (h : ∀ x ∈ l, x.cls ≤ k) : (l.foldl worseEntry a).cls ≤ k := by
  induction l generalizing a with
  | nil => exact ha
  | cons x l ih =>
    refine ih ?_ fun y hy => h y (List.mem_cons_of_mem x hy)
    unfold worseEntry
    split
    · exact h x List.mem_cons_self
    · exact ha

theorem evictee_none {s : State} {cls : AnnClass} (h : ∀ d ∈ s.clt, d.cls ≤ cls) : s.evictee cls = none := by
  have hnil : s.clt.filter (fun e => cls < e.cls) = [] := List.filter_eq_nil_iff.mpr fun d hd => by simpa using h d hd
  unfold State.evictee
  rw [hnil]

/-- Of the entries of a worse class the one is evicted that none before it is worse than, and none after it as bad as. -/
theorem evictee_worst {s : State} {cls : AnnClass} {l r : List Entry} {d : Entry} (hs : s.clt = l ++ d :: r) (hd : cls < d.cls)
    (hl : ∀ x ∈ l, x.cls ≤ d.cls) (hr : ∀ x ∈ r, x.cls < d.cls) : s.evictee cls = some d := by
  have hr' : ∀ x ∈ r.filter (fun e => cls < e.cls), x.cls < d.cls := fun x hx => hr x (List.mem_of_mem_filter hx)
  have hl' : ∀ x ∈ l.filter (fun e => cls < e.cls), x.cls ≤ d.cls := fun x hx => hl x (List.mem_of_mem_filter hx)
  have hsplit : s.clt.filter (fun e => cls < e.cls) = l.filter (fun e => cls < e.cls) ++ d :: r.filter (fun e => cls < e.cls) := by
    rw [hs, List.filter_append, List.filter_cons_of_pos (by simpa using hd)]
  unfold State.evictee
  rw [hsplit]
  cases hw : l.filter (fun e => cls < e.cls) with
  | nil => exact congrArg some (foldl_worseEntry_latest hr')
  | cons a w =>
    rw [hw] at hl'
    have hle : (w.foldl worseEntry a).cls ≤ d.cls := foldl_worseEntry_le (hl' a List.mem_cons_self) fun x hx => hl' x (List.mem_cons_of_mem a hx)
    have hturn : worseEntry (w.foldl worseEntry a) d = d := if_pos hle
    change some ((w ++ d :: r.filter _).foldl worseEntry a) = some d
    rw [List.foldl_append, List.foldl_cons, hturn, foldl_worseEntry_latest hr']

/-! ### The configured pairs stay (R109) -/

/-- Each zone is configured in the pair state it was. -/
def PairsKept (s t : State) : Prop := ∀ z, (t.za.get z).pair = (s.za.get z).pair

theorem PairsKept.of_za {s t : State} (h : t.za = s.za) : PairsKept s t := fun z => by rw [h]

theorem PairsKept.refl (s : State) : PairsKept s s := fun _ => rfl

theorem PairsKept.trans {s t u : State} (h : PairsKept s t) (k : PairsKept t u) : PairsKept s u := fun z => (k z).trans (h z)

theorem putArb_pairs (s : State) (zs : List ZoneId) (a : Arb) : PairsKept s (s.putArb zs a) := fun y => by rw [putArb_get]; split <;> rfl

theorem markReform_pairs (s : State) (z : ZoneId) : PairsKept s (s.markReform z) := fun y => by
  unfold State.markReform
  dsimp only
  split
  · by_cases h : y = z.partner
    · subst h; simp [State.modZone]
    · simp [State.modZone, Quad.get_set_ne _ _ h]
  · rfl

theorem chooseNext_pairs (s : State) (zs : List ZoneId) (a : Arb) : PairsKept s (s.chooseNext zs a) := by
  have henter : PairsKept s (s.enter zs (a.choose s.now)) := (putArb_pairs s zs _).trans (.of_za (enter_za s zs _))
  exact henter.trans (foldl_rel PairsKept .refl .trans markReform_pairs zs _)

theorem stopUnit_pairs (s : State) (z : ZoneId) (cause : StopCause) : PairsKept s (s.stopUnit z cause) := by
  unfold State.stopUnit
  dsimp only
  split
  · exact .refl s
  · refine PairsKept.trans (.of_za ?_) (chooseNext_pairs _ _ _)
    rw [writeDisps_za, detachZones_frame]

theorem putCutting_pairs (s : State) (z : ZoneId) (a : Arb) : PairsKept s (s.putCutting z a) := by
  unfold State.putCutting
  dsimp only
  split
  · exact (putArb_pairs s _ a).trans (stopUnit_pairs _ _ _)
  · exact putArb_pairs s _ a

theorem nextLeft_pairs (s : State) (z : ZoneId) (a : Arb) : PairsKept s (s.nextLeft z a) := by
  unfold State.nextLeft
  dsimp only
  split
  · split
    · exact putCutting_pairs s z _
    · exact putArb_pairs s _ _
  · exact putArb_pairs s _ _

theorem evictUnit_pairs (s : State) (id : ClaimId) (z : ZoneId) : PairsKept s (s.evictUnit id z) := by
  unfold State.evictUnit
  dsimp only
  repeat' split
  · exact putArb_pairs s _ _
  · exact nextLeft_pairs s z _
  · exact stopUnit_pairs s z _
  · exact chooseNext_pairs s _ _
  · exact .refl s

theorem evict_pairs (s : State) (id : ClaimId) : PairsKept s (s.evict id) := by
  have hzones : PairsKept s (s.evictZones id) := foldl_rel PairsKept .refl .trans (fun s z => evictUnit_pairs s id z) s.leads s
  have hsettled : ∀ t : State, t.settle.za = t.za := fun t => by rw [(settle_settling t).frame]
  exact hzones.trans (.of_za (hsettled _))

/-! ### The CLAIM (R96) -/

theorem findEntry_isSome_iff (s : State) (id : ClaimId) : (s.findEntry id).isSome = true ↔ ∃ d ∈ s.clt, d.id = id := by
  simp [State.findEntry, List.find?_isSome]

section

variable {s : State} {src : Nat} {c : ClaimFrame}

/-- Why a peer's CLAIM is ignored however full the table is (R96, tests 1 to 3). -/
def State.Ignores (s : State) (src : Nat) (c : ClaimFrame) : Prop :=
  c.groups = 0 ∨ (s.sul.mode ≠ .storeFault ∧ s.hasTarget c.groups = false) ∨ ∃ d ∈ s.clt, d.id = ⟨src, c.seq⟩

theorem peerClaim_ignored (h : s.Ignores src c) : s.peerClaim src c = s := by
  unfold State.peerClaim
  rcases h with hgs | ⟨hm, hno⟩ | hheld
  · rw [if_pos hgs]
  · rw [if_pos (by simp [State.inStoreFault, hm, hno] : (!s.inStoreFault && !s.hasTarget c.groups) = true), ite_self]
  · rw [if_pos ((findEntry_isSome_iff s _).mpr hheld)]
    repeat' split
    all_goals rfl

theorem peerClaim_taken (h : ¬ s.Ignores src c) : s.peerClaim src c =
    if s.clt.length < 16 then s.enterClaim src c
    else match s.evictee c.cls with
      | some e => (s.evict e.id).enterClaim src c
      | none => s := by
  obtain ⟨hgs, hno, hheld⟩ := not_or.mp h |>.imp_right not_or.mp
  unfold State.peerClaim
  rw [if_neg hgs, if_neg, if_neg fun hf => hheld ((findEntry_isSome_iff s _).mp hf)]
  · rfl
  · simpa [State.inStoreFault] using hno

theorem peerClaim_room (h : ¬ s.Ignores src c) (hroom : s.clt.length < 16) : s.peerClaim src c = s.enterClaim src c :=
  (peerClaim_taken h).trans (if_pos hroom)

theorem peerClaim_full (h : ¬ s.Ignores src c) (hfull : 16 ≤ s.clt.length) (hno : s.evictee c.cls = none) : s.peerClaim src c = s := by
  rw [peerClaim_taken h, if_neg (Nat.not_lt.mpr hfull), hno]

theorem peerClaim_evicts (h : ¬ s.Ignores src c) (hfull : 16 ≤ s.clt.length) {d : Entry} (hd : s.evictee c.cls = some d) :
    s.peerClaim src c = (s.evict d.id).enterClaim src c := by
  rw [peerClaim_taken h, if_neg (Nat.not_lt.mpr hfull), hd]

theorem enterClaim_eq (s : State) (src : Nat) (c : ClaimFrame) :
    s.enterClaim src c = ((s.setClt (s.clt ++ [s.timedEntry src c])).offerEntry ⟨src, c.seq⟩).settle := by
  unfold State.enterClaim
  rw [receivedEntry_eq]
  rfl

/-- A CLAIM that is heard from another node is taken as a peer's. -/
theorem exec_claim {f : RxFrame} (hd : decodeClaim f.body = some c) (hh : s.hears kindClaim f = true) (hus : s.fromUs f = false)
    (hlo : 1 ≤ f.src.toNat) (hhi : f.src.toNat ≤ 48) : exec (.claim f) s = .next (s.frameEnd.peerClaim f.src.toNat c) := by
  have hheard : s.frameEnd.hears kindClaim f = true := hh
  have hpeer : s.nodeNo ≠ some f.src.toNat := by simpa [State.fromUs] using hus
  change Host.Outcome.next _ = _
  rw [hd]
  dsimp only
  rw [if_pos hheard, State.takeClaim, if_neg (show s.frameEnd.nodeNo ≠ _ from hpeer), if_pos ⟨hlo, hhi⟩]

end

/-! ### What an eviction does in a unit (R97, R121, R123) -/

section

variable {s : State} {id : ClaimId} {z : ZoneId}

theorem evictUnit_waiting (h : ∃ x ∈ (s.za.get z).arb.wait, x.id = id) : s.evictUnit id z =
    s.putArb (s.unit z) { (s.za.get z).arb with wait := (s.za.get z).arb.wait.filter (fun h => h.id != id) } :=
  if_pos ((any_id_iff _ id).mpr h)

theorem evictUnit_next (hw : ∀ x ∈ (s.za.get z).arb.wait, x.id ≠ id) {n : Held} (hn : (s.za.get z).arb.next = some n) (hid : n.id = id) :
    s.evictUnit id z = s.nextLeft z (s.za.get z).arb :=
  (if_neg (not_waiting hw)).trans (if_pos ((heldIs_iff _ id).mpr ⟨n, hn, hid⟩))

theorem evictUnit_current (hw : ∀ x ∈ (s.za.get z).arb.wait, x.id ≠ id) (hn : ∀ n, (s.za.get z).arb.next = some n → n.id ≠ id)
    {c : Held} (hc : (s.za.get z).arb.current = some c) (hid : c.id = id) : s.evictUnit id z =
      if (s.za.get z).arb.state.plays then s.stopUnit z .eviction else s.chooseNext (s.unit z) (s.za.get z).arb :=
  ((if_neg (not_waiting hw)).trans (if_neg (not_heldIs hn))).trans (if_pos ((heldIs_iff _ id).mpr ⟨c, hc, hid⟩))

theorem evictUnit_absent (hw : ∀ x ∈ (s.za.get z).arb.wait, x.id ≠ id) (hn : ∀ n, (s.za.get z).arb.next = some n → n.id ≠ id)
    (hc : ∀ c, (s.za.get z).arb.current = some c → c.id ≠ id) : s.evictUnit id z = s :=
  ((if_neg (not_waiting hw)).trans (if_neg (not_heldIs hn))).trans (if_neg (not_heldIs hc))

/-- What an eviction notes of every zone (R146, R147). -/
theorem evictUnit_noted (ha : ∀ y ∈ s.unit z, (s.za.get y).arb = (s.za.get z).arb)
    (hcut : (s.za.get z).arb.next ≠ none → (s.za.get z).arb.state = .cutting) (y : ZoneId) : PlayNoted s (s.evictUnit id z) y := by
  unfold State.evictUnit
  dsimp only
  split
  · exact putArb_noted s _ _ y
  · split
    · rename_i hnext
      obtain ⟨n, hn, -⟩ := (heldIs_iff _ id).mp hnext
      exact nextLeft_noted s z _ (fun y hy => by rw [ha y hy, hcut (by rw [hn]; simp)]) y
    · split
      · split
        · exact stopUnit_noted s z _ y
        · exact chooseNext_noted s _ _ y
      · exact .refl s y

theorem evictUnit_waiting_leaves (ha : ∀ y ∈ s.unit z, (s.za.get y).arb = (s.za.get z).arb) (h : ∃ x ∈ (s.za.get z).arb.wait, x.id = id) :
    s.evictUnit id z = { s with za := (s.evictUnit id z).za } ∧
    ∀ y, (s.evictUnit id z).za.get y = if y ∈ s.unit z then
      { s.za.get y with arb := { (s.za.get z).arb with wait := (s.za.get z).arb.wait.filter (fun h => h.id != id) } } else s.za.get y := by
  rw [evictUnit_waiting h]
  exact ⟨putArb_eq_of_state fun y hy => by rw [ha y hy], putArb_get _ _ _⟩

theorem evictUnit_current_stops (hw : ∀ x ∈ (s.za.get z).arb.wait, x.id ≠ id) (hn : ∀ n, (s.za.get z).arb.next = some n → n.id ≠ id)
    {c : Held} (hc : (s.za.get z).arb.current = some c) (hid : c.id = id) :
    ((s.za.get z).arb.state = .leadIn → ∀ y ∈ s.unit z, ((s.evictUnit id z).za.get y).arb = ((s.za.get z).arb.choose s.now).1) ∧
    ((s.za.get z).arb.state.plays = true → (∀ y ∈ s.unit z, ((s.evictUnit id z).za.get y).arb = ((s.za.get z).arb.choose s.now).1) ∧
      MembersTake s (s.evictUnit id z) (s.unit z) id (if (s.za.get z).arb.wdPending then .withdrawn else .evicted)) := by
  rw [evictUnit_current hw hn hc hid]
  refine ⟨fun hst y hy => ?_, fun hplays => ?_⟩
  · have hsilent : (s.za.get z).arb.state.plays = false := by rw [hst]; rfl
    rw [hsilent, if_neg Bool.false_ne_true, chooseNext_arb, if_pos hy]
  · have hdisp : s.stopDisp z (s.za.get z).arb .eviction = if (s.za.get z).arb.wdPending then .withdrawn else .evicted := by
      simp [State.stopDisp]
    have hstop := stopUnit_members .eviction hc
    rw [hid, hdisp] at hstop
    rw [if_pos hplays]
    exact ⟨fun y hy => by rw [stopUnit_arb s z y .eviction c hc, if_pos hy], hstop⟩

end

/-! ### An offer to the units (R96, R112) -/

/-- No offer moves the clock on, so that each unit is offered the same claim. -/
theorem offerEntry_eq {s : State} {id : ClaimId} {e : Entry} (he : s.findEntry id = some e) :
    s.offerEntry id = s.leads.foldl (fun w z => if w.unitPending id z then w.offerUnit (e.held s.now) z else w) s := by
  have hfold : ∀ (l : List ZoneId) (w : State), w.now = s.now →
      l.foldl (fun w z => if w.unitPending id z then w.offerUnit (e.held w.now) z else w) w =
        l.foldl (fun w z => if w.unitPending id z then w.offerUnit (e.held s.now) z else w) w := by
    intro l
    induction l with
    | nil => exact fun _ _ => rfl
    | cons z l ih =>
      intro w hw
      rw [List.foldl_cons, List.foldl_cons, hw]
      refine ih _ ?_
      split
      · exact (congrArg Sck.running (offerUnit_side w _ z).sck).trans hw
      · exact hw
  unfold State.offerEntry
  rw [he]
  exact hfold s.leads s rfl

/-! ### The statement -/

/-- Settles O34: target zones by `isTarget_iff`, the CLAIM by `peerClaim_taken` and the entry to evict, the eviction in a unit by the place the unit
holds the claim in. -/
theorem peerClaimIsEntered : Obligations.PeerClaimIsEntered := by
  refine ⟨?targets, ?frames, ?offers, ?evicts, ?units⟩
  case targets =>
    intro s gs named target
    have htarget : ∀ z, s.isTarget gs z = true ↔ target z := fun z => by
      simp only [isTarget_iff, named_iff]
      rfl
    refine ⟨fun z => ⟨fun h => ?_, fun h => ?_⟩, ?_⟩
    · rw [startDisp_get, if_pos ((htarget z).mpr h)]
    · rw [startDisp_get, if_neg fun ht => h ((htarget z).mp ht)]
    · simp only [hasTarget_iff, htarget]
  case frames =>
    intro f s c hd hh hus hlo hhi id v start e entered ignored
    have hexec := exec_claim hd hh hus hlo hhi
    have hentered : ∀ w : State, w.timedEntry f.src.toNat c = e → w.enterClaim f.src.toNat c = (({ w with clt := w.clt ++ [e] }).offerEntry id).settle :=
      fun w hw => by rw [enterClaim_eq, hw]; rfl
    refine ⟨fun h => takes_of hexec (peerClaim_ignored (s := v) h),
      fun h hroom => takes_of hexec ((peerClaim_room (s := v) h hroom).trans (hentered v rfl)),
      fun h hfull hno => takes_of hexec (peerClaim_full (s := v) h hfull (evictee_none hno)), fun h hfull l d r hs hcls hl hr => ?_⟩
    have hside := evict_side v d.id
    have hentry : (v.evict d.id).timedEntry f.src.toNat c = e := timedEntry_congr (s := v) hside.sck hside.sul hside.cfg (evict_pairs v d.id) _ c
    exact takes_of hexec ((peerClaim_evicts (s := v) h hfull (evictee_worst hs hcls hl hr)).trans (hentered _ hentry))
  case offers => exact fun s id e he => offerEntry_eq he
  case evicts => exact fun s id => ⟨rfl, findEntry_filter_self _ id⟩
  case units =>
    intro s id z a u ha turns absent
    refine ⟨fun hcut y => evictUnit_noted ha hcut y, evictUnit_waiting_leaves ha, fun n c hw hn hid hc => ?_, fun c hw hn hc hid => ?_,
      fun hw hn hc => evictUnit_absent hw hn hc⟩
    · have hu : u = s.nextLeft z a := evictUnit_next hw hn hid
      rw [hu]
      exact nextLeft_leaves s z hc
    · exact evictUnit_current_stops hw hn hc hid

end Sys2Proof.Machine
end

section
/-!
SUPPORT. What a zone arbiter's record looks like on its own (R110), and what its unit may be given.
-/

namespace Sys2Proof.Machine

open Sys2Proof

/-! ### An arbiter's own promise (R110) -/

/-- What R110 promises of the shared part of a zone record by itself. -/
structure Arb.Kept (a : Arb) : Prop where
  bare : a.state.holdsClaim = false → a = Arb.bare a.state
  current : a.state.holdsClaim = true → a.current.isSome = true
  next : a.next.isSome = true ↔ a.state = .cutting
  stopAt : a.stopAt.isSome = true → a.state = .cutting

theorem ZoneKept.arb {s : State} {z : ZoneId} (h : ZoneKept s z) : (s.za.get z).arb.Kept := ⟨h.bare, h.current, h.next, h.stopAt⟩

theorem Arb.bare_kept {st : ZoneState} (h : st.holdsClaim = false) : (Arb.bare st).Kept where
  bare _ := rfl
  current hc := absurd (h.symm.trans hc) (by decide)
  next := ⟨fun hn => by simp [Arb.bare] at hn, fun hc => by simp only [Arb.bare] at hc; subst hc; cases h⟩
  stopAt hs := by simp [Arb.bare] at hs

theorem Held.begun_state (n : Held) (rest : List Held) (now : Nat) :
    (n.begun rest now).state = if n.start ≤ now then .playing else .leadIn := by
  simp [Held.begun, Held.reached, Arb.bare]

theorem Held.begun_kept (n : Held) (rest : List Held) (now : Nat) :
    (n.begun rest now).Kept ∧ (n.begun rest now).state.serves = true := by
  have hst := n.begun_state rest now
  have hholds : (n.begun rest now).state.holdsClaim = true := by rw [hst]; split <;> rfl
  refine ⟨⟨fun h => absurd (hholds.symm.trans h) (by decide), fun _ => rfl, ⟨fun h => by simp [Held.begun, Arb.bare] at h, fun h => ?_⟩,
    fun h => by simp [Held.begun, Arb.bare] at h⟩, by rw [hst]; split <;> rfl⟩
  rw [hst] at h
  split at h <;> cases h

theorem turnToWait_kept (w : List Held) (now : Nat) : (turnToWait w now).1.Kept ∧ (turnToWait w now).1.state.serves = true := by
  unfold turnToWait
  dsimp only
  split
  · exact Held.begun_kept _ _ _
  · exact ⟨Arb.bare_kept rfl, rfl⟩

/-- What a zone turns to is a record in order, of a zone in service (R110, R122). -/
theorem choose_kept (a : Arb) (now : Nat) : (a.choose now).1.Kept ∧ (a.choose now).1.state.serves = true := by
  unfold Arb.choose
  split
  · split
    · exact turnToWait_kept _ _
    · exact Held.begun_kept _ _ _
  · exact turnToWait_kept _ _

section

variable {a : Arb}

theorem Arb.Kept.holds_of_current (h : a.Kept) {c : Held} (hc : a.current = some c) : a.state.holdsClaim = true := by
  by_contra hn
  have hb := h.bare (by simpa using hn)
  rw [hb] at hc
  cases hc

theorem Arb.Kept.holds_of_waiting (h : a.Kept) {x : Held} (hx : x ∈ a.wait) : a.state.holdsClaim = true := by
  by_contra hn
  have hb := h.bare (by simpa using hn)
  rw [hb] at hx
  cases hx

theorem Arb.Kept.cutting_of_next (h : a.Kept) {n : Held} (hn : a.next = some n) : a.state = .cutting := h.next.mp (by rw [hn]; rfl)

theorem ZoneState.holds_of_plays {st : ZoneState} (h : st.plays = true) : st.holdsClaim = true := by cases st <;> first | rfl | cases h

theorem ZoneState.serves_of_holds {st : ZoneState} (h : st.holdsClaim = true) : st.serves = true := by cases st <;> first | rfl | cases h

/-- The wait list and the withdrawal mark may change wherever a claim is held. -/
theorem Arb.Kept.rewait (h : a.Kept) (hs : a.state.holdsClaim = true) (w : List Held) (wd pe : Bool) :
    ({ a with wait := w, wdPending := wd, phraseEnd := pe } : Arb).Kept :=
  ⟨fun hn => absurd (hs.symm.trans hn) (by decide), h.current, h.next, h.stopAt⟩

theorem Arb.aim_kept (hc : a.current.isSome = true) (b : Held) (now : Nat) : (a.aim b now).Kept :=
  ⟨fun hn => (nomatch hn), fun _ => hc, ⟨fun _ => rfl, fun _ => rfl⟩, fun _ => rfl⟩

/-- A CUTTING unit whose next claim has left plays on (R123). -/
theorem Arb.resumed_kept (hc : a.current.isSome = true) (pe : Bool) :
    ({ a with state := .playing, next := none, stopAt := none, phraseEnd := pe } : Arb).Kept :=
  ⟨fun hn => (nomatch hn), fun _ => hc, ⟨fun hn => (nomatch hn), fun hn => (nomatch hn)⟩, fun hn => (nomatch hn)⟩

/-- A LEAD_IN zone begins to play (R118). -/
theorem Arb.Kept.started (h : a.Kept) (hs : a.state = .leadIn) : ({ a with state := .playing } : Arb).Kept where
  bare hn := by cases hn
  current _ := h.current (by rw [hs]; rfl)
  next := ⟨fun hn => (nomatch hs.symm.trans (h.next.mp hn)), fun hn => (nomatch hn)⟩
  stopAt hn := (nomatch hs.symm.trans (h.stopAt hn))

end

/-! ### A unit written (R124, R128) -/

/-- What ZonesKept promises looks at the shared part, the service flag and the pair of each zone alone. -/
structure ZonesAlike (s t : State) : Prop where
  arb : ∀ z, (t.za.get z).arb = (s.za.get z).arb
  service : ∀ z, (t.za.get z).service = (s.za.get z).service
  pair : ∀ z, (t.za.get z).pair = (s.za.get z).pair

theorem ZonesAlike.of_za {s t : State} (h : t.za = s.za) : ZonesAlike s t := ⟨fun z => by rw [h], fun z => by rw [h], fun z => by rw [h]⟩

theorem ZonesAlike.refl (s : State) : ZonesAlike s s := .of_za rfl

theorem ZonesAlike.trans {s t u : State} (h : ZonesAlike s t) (k : ZonesAlike t u) : ZonesAlike s u :=
  ⟨fun z => (k.arb z).trans (h.arb z), fun z => (k.service z).trans (h.service z), fun z => (k.pair z).trans (h.pair z)⟩

theorem ZonesAlike.kept {s t : State} (h : ZonesAlike s t) (hs : ZonesKept s) : ZonesKept t := fun z => by
  obtain ⟨h1, h2, h3, h4, h5, h6, h7, h8⟩ := hs z
  constructor <;> simp only [h.arb, h.service, h.pair] <;> assumption

theorem whole_iff (s : State) (z : ZoneId) : s.whole z = true ↔ (s.za.get z).pair = some .whole := by simp [State.whole]

section

variable {s : State}

/-- The members of a unit hold the same (R124). -/
theorem ZonesKept.unit_arb (hs : ZonesKept s) {z y : ZoneId} (hy : y ∈ s.unit z) : (s.za.get y).arb = (s.za.get z).arb := by
  rcases (mem_unit s z y).mp hy with rfl | ⟨hw, rfl⟩
  · rfl
  · exact (hs z).wholeSame ((whole_iff s z).mp hw)

theorem ZonesKept.whole_partner (hs : ZonesKept s) {z : ZoneId} (hw : s.whole z = true) : s.whole z.partner = true :=
  (whole_iff s _).mpr ((hs z).wholeBoth ((whole_iff s z).mp hw))

/-- A unit holds both members of a WHOLE pair or neither (R124). -/
theorem ZonesKept.partner_mem_unit (hs : ZonesKept s) {z y : ZoneId} (hw : s.whole y = true) : y.partner ∈ s.unit z ↔ y ∈ s.unit z := by
  simp only [mem_unit]
  constructor
  · rintro (h | ⟨h, hp⟩)
    · have hy : y = z.partner := by rw [← h, Idx4.partner_partner]
      refine .inr ⟨?_, hy⟩
      rw [← h]
      exact hs.whole_partner hw
    · exact .inl (by rw [← Idx4.partner_partner y, hp, Idx4.partner_partner])
  · rintro (rfl | ⟨h, rfl⟩)
    · exact .inr ⟨hw, rfl⟩
    · exact .inl (Idx4.partner_partner z)

/-- A unit in service is given a record in order (R110, R124, R128). -/
theorem ZonesKept.putArb (hs : ZonesKept s) {z : ZoneId} {a : Arb} (hin : (s.za.get z).arb.state ≠ .outOfService) (ha : a.Kept)
    (hserves : a.state.serves = true) : ZonesKept (s.putArb (s.unit z) a) := by
  intro y
  have hpair := putArb_pairs s (s.unit z) a
  have hget := putArb_get s (s.unit z) a
  by_cases hy : y ∈ s.unit z
  · have harb : ((s.putArb (s.unit z) a).za.get y).arb = a := by rw [hget, if_pos hy]
    have hservice : ((s.putArb (s.unit z) a).za.get y).service = (s.za.get y).service := by rw [hget, if_pos hy]
    refine ⟨by rw [harb]; exact ha.bare, by rw [harb]; exact ha.current, by rw [harb]; exact ha.next, by rw [harb]; exact ha.stopAt, ?_, ?_, ?_, ?_⟩
    · intro hoff
      rw [hservice] at hoff
      exact absurd ((congrArg Arb.state (hs.unit_arb hy)).symm.trans ((hs y).service hoff)) hin
    · intro _
      rw [harb]
      exact hserves
    · rw [hpair, hpair]
      exact (hs y).wholeBoth
    · intro hw
      rw [hpair] at hw
      rw [harb, hget, if_pos ((hs.partner_mem_unit ((whole_iff s y).mpr hw)).mpr hy)]
  · have hself : (s.putArb (s.unit z) a).za.get y = s.za.get y := by rw [hget, if_neg hy]
    obtain ⟨h1, h2, h3, h4, h5, h6, h7, h8⟩ := hs y
    refine ⟨by rw [hself]; exact h1, by rw [hself]; exact h2, by rw [hself]; exact h3, by rw [hself]; exact h4, by rw [hself]; exact h5,
      by rw [hself]; exact h6, ?_, ?_⟩
    · rw [hpair, hpair]
      exact h7
    · intro hw
      rw [hself] at hw ⊢
      rw [hget, if_neg fun hm => hy ((hs.partner_mem_unit ((whole_iff s y).mpr hw)).mp hm)]
      exact h8 hw

end

end Sys2Proof.Machine
end

section
/-!
SUPPORT. What taking zones off their channels leaves, and what a zone that asks for a channel gets (R134, R135).
-/

namespace Sys2Proof.Machine

open Sys2Proof

/-! ### Detaching (R135) -/

theorem anyAttached_iff (a : Quad Bool) : anyAttached a = true ↔ ∃ z, a.get z = true := by
  simp [anyAttached, mem_idx4_all]

/-- What is left of a channel when a zone is taken off it: nothing, if the zone was the last attached (R135). -/
def Chan.without (ch : Chan) (z : ZoneId) : Option Chan :=
  if ch.attached.get z then
    if anyAttached (ch.attached.set z false) then some { ch with attached := ch.attached.set z false } else none
  else some ch

theorem Chan.without_some {ch d : Chan} {z : ZoneId} (h : ch.without z = some d) :
    d = { ch with attached := d.attached } ∧ ∀ y, d.attached.get y = true ↔ ch.attached.get y = true ∧ y ≠ z := by
  unfold Chan.without at h
  split at h
  · split at h
    · cases h
      refine ⟨rfl, fun y => ?_⟩
      by_cases hy : y = z
      · simp [hy]
      · simp [Quad.get_set_ne _ _ hy, hy]
    · cases h
  · rename_i hz
    cases h
    exact ⟨rfl, fun y => ⟨fun hy => ⟨hy, fun e => hz (e ▸ hy)⟩, fun hy => hy.1⟩⟩

theorem Chan.without_none {ch : Chan} {z : ZoneId} (h : ch.without z = none) {y : ZoneId} (hy : ch.attached.get y = true) : y = z := by
  unfold Chan.without at h
  split at h
  · split at h
    · cases h
    · rename_i hnone
      by_contra hne
      exact hnone ((anyAttached_iff _).mpr ⟨y, by rwa [Quad.get_set_ne _ _ hne]⟩)
  · cases h

theorem Chan.without_bound {ch d : Chan} {z : ZoneId} (h : ch.without z = some d) (hb : ∃ y, ch.attached.get y = true) :
    ∃ y, d.attached.get y = true := by
  unfold Chan.without at h
  split at h
  · split at h
    · rename_i hany
      cases h
      exact (anyAttached_iff _).mp hany
    · cases h
  · cases h
    exact hb

theorem detachFroms_get (z : ZoneId) (l : List ChanId) (hl : l.Nodup) (s : State) (c : ChanId) :
    (l.foldl (fun s c => s.detachFrom z c) s).rch.get c = if c ∈ l then (s.rch.get c).bind (·.without z) else s.rch.get c := by
  induction l generalizing s with
  | nil => rfl
  | cons d l ih =>
    obtain ⟨hd, hl⟩ := List.nodup_cons.mp hl
    rw [List.foldl_cons, ih hl, detachFrom_get]
    by_cases hc : c = d
    · subst hc
      rw [if_neg hd, if_pos rfl, if_pos List.mem_cons_self]
      rfl
    · simp [hc]

theorem detachZone_get (s : State) (z : ZoneId) (c : ChanId) : (s.detachZone z).rch.get c = (s.rch.get c).bind (·.without z) := by
  unfold State.detachZone
  rw [State.setAudio_rch, detachFroms_get z Idx4.all (by decide), if_pos (mem_idx4_all c)]

/-- `t` is `s` with the zones `zs` taken off their channels and silent, and with the channels freed that no other zone was attached to (R110, R135). -/
structure Detaches (zs : List ZoneId) (s t : State) : Prop where
  frame : t = { s with rch := t.rch, sp := t.sp, audio := t.audio }
  chans : ∀ c d, t.rch.get c = some d → ∃ ch, s.rch.get c = some ch ∧ d = { ch with attached := d.attached }
  attached : ∀ y c, t.attachedTo y c ↔ s.attachedTo y c ∧ y ∉ zs
  bound : ChannelsAttached s → ChannelsAttached t
  audio : ∀ y, t.audio.get y = if y ∈ zs then 0 else s.audio.get y

theorem detachZone_detaches (s : State) (z : ZoneId) : Detaches [z] s (s.detachZone z) where
  frame := detachZone_frame s z
  chans c d hd := by
    rw [detachZone_get] at hd
    obtain ⟨ch, hch, hw⟩ := Option.bind_eq_some_iff.mp hd
    exact ⟨ch, hch, (Chan.without_some hw).1⟩
  attached y c := by
    constructor
    · rintro ⟨d, hd, hy⟩
      rw [detachZone_get] at hd
      obtain ⟨ch, hch, hw⟩ := Option.bind_eq_some_iff.mp hd
      obtain ⟨ha, hne⟩ := ((Chan.without_some hw).2 y).mp hy
      exact ⟨⟨ch, hch, ha⟩, by simpa using hne⟩
    · rintro ⟨⟨ch, hch, hy⟩, hne⟩
      have hne : y ≠ z := by simpa using hne
      cases hw : ch.without z with
      | none => exact absurd (Chan.without_none hw hy) hne
      | some d => exact ⟨d, by rw [detachZone_get, hch]; exact hw, ((Chan.without_some hw).2 y).mpr ⟨hy, hne⟩⟩
  bound hb c d hd := by
    rw [detachZone_get] at hd
    obtain ⟨ch, hch, hw⟩ := Option.bind_eq_some_iff.mp hd
    exact Chan.without_bound hw (hb c ch hch)
  audio y := by
    have hd := foldl_rel (fun s t : State => t.audio = s.audio) (fun _ => rfl) (fun h k => k.trans h)
      (f := fun u c => u.detachFrom z c) (fun u c => by rw [detachFrom_frame u z c]) Idx4.all s
    unfold State.detachZone
    rw [State.setAudio_audio, hd, Quad.get_set]
    simp

theorem Detaches.nil (s : State) : Detaches [] s s :=
  ⟨rfl, fun _ d h => ⟨d, h, rfl⟩, fun _ _ => by simp, fun h => h, fun _ => by simp⟩

theorem Detaches.cons {z : ZoneId} {zs : List ZoneId} {s t u : State} (h : Detaches [z] s t) (k : Detaches zs t u) : Detaches (z :: zs) s u where
  frame := by rw [k.frame, h.frame]
  chans c d hd := by
    obtain ⟨e, he, hde⟩ := k.chans c d hd
    obtain ⟨ch, hch, hec⟩ := h.chans c e he
    exact ⟨ch, hch, by rw [hde, hec]⟩
  attached y c := by
    rw [k.attached, h.attached]
    simp [and_assoc]
  bound hb := k.bound (h.bound hb)
  audio y := by
    rw [k.audio, h.audio]
    by_cases hz : y = z <;> simp [hz]

theorem detachZones_detaches (s : State) (zs : List ZoneId) : Detaches zs s (s.detachZones zs) := by
  induction zs generalizing s with
  | nil => exact .nil s
  | cons z zs ih => exact (detachZone_detaches s z).cons (ih (s.detachZone z))

/-! ### Attaching (R134) -/

theorem find_idx4 {p : Idx4 → Bool} {c : Idx4} (hc : p c = true) (ho : ∀ d, d ≠ c → p d = false) : Idx4.all.find? p = some c := by
  cases hf : Idx4.all.find? p with
  | none => exact absurd hc (List.find?_eq_none.mp hf c (mem_idx4_all c))
  | some d =>
    by_contra hne
    exact Bool.false_ne_true ((ho d fun h => hne (by rw [h])).symm.trans (List.find?_some hf))

/-- Whether a channel is bound to a claim at this instant (R134). -/
def State.bindsNow (s : State) (id : ClaimId) (c : ChanId) : Bool :=
  match s.rch.get c with
  | some ch => ch.claim == id && ch.bind16 == s.now16
  | none => false

theorem sharedChan_eq (s : State) (id : ClaimId) : s.sharedChan id = Idx4.all.find? (s.bindsNow id) := rfl

theorem bindsNow_iff (s : State) (id : ClaimId) (c : ChanId) :
    s.bindsNow id c = true ↔ ∃ ch, s.rch.get c = some ch ∧ ch.claim = id ∧ ch.bind16 = s.now16 := by
  unfold State.bindsNow
  cases s.rch.get c <;> simp

/-- The zone `z` has joined those attached to the channel `c`, which is `ch` then, bound to the claim `h`. -/
structure JoinsChannel (s t : State) (z : ZoneId) (h : Held) (c : ChanId) (ch : Chan) : Prop where
  frame : t = { s with rch := s.rch.set c (some ch), sp := t.sp }
  claim : ch.claim = h.id
  attached : ∀ y, ch.attached.get y = true ↔ y = z ∨ s.attachedTo y c
  old : ∀ d, s.rch.get c = some d → ch = { d with attached := ch.attached }

/-- The zone `z` asks for a channel for the claim `h`: it joins the channel `c`, bound to the claim at this instant, which those that ask for the same
claim share from then on (R134). -/
structure GivesChannel (s t : State) (z : ZoneId) (h : Held) (c : ChanId) (ch : Chan) : Prop extends JoinsChannel s t z h c ch where
  bind16 : ch.bind16 = s.now16
  first : ∀ d, s.sharedChan h.id = some d → c = d
  shared : t.sharedChan h.id = some c

section

variable {s : State} {z : ZoneId} {h : Held} (hc : (s.za.get z).arb.current = some h)
include hc

theorem attachZone_shares {c : ChanId} (hs : s.sharedChan h.id = some c) :
    ∃ ch, GivesChannel s (s.attachZone z) z h c ch := by
  obtain ⟨ch, hch, hclaim, hbind⟩ := (bindsNow_iff s h.id c).mp (List.find?_some hs)
  have ht : s.attachZone z = s.setChan c (some { ch with attached := ch.attached.set z true }) := by
    unfold State.attachZone
    simp only [hc, hs, hch]
  have hbinds : (s.attachZone z).bindsNow h.id = s.bindsNow h.id := by
    funext d
    rw [ht]
    unfold State.bindsNow State.setChan
    rw [State.setRch_rch]
    by_cases hd : d = c
    · subst hd; rw [Quad.get_set_self, hch]; rfl
    · rw [Quad.get_set_ne _ _ hd]; rfl
  refine ⟨{ ch with attached := ch.attached.set z true }, ⟨by rw [ht]; rfl, hclaim, fun y => ?_, fun d hd => ?_⟩, hbind, fun d hd => ?_, ?_⟩
  · by_cases hy : y = z
    · simp [hy]
    · simp [State.attachedTo, hch, hy, Quad.get_set_ne _ _ hy]
  · cases hch.symm.trans hd
    rfl
  · exact Option.some.inj (hs.symm.trans hd)
  · rw [sharedChan_eq, hbinds]
    exact hs

theorem attachZone_binds (hs : s.sharedChan h.id = none) (hfree : ∃ c, s.rch.get c = none) :
    ∃ c ch, GivesChannel s (s.attachZone z) z h c ch := by
  have hsome : s.freeChan.isSome = true := by
    obtain ⟨c, hcf⟩ := hfree
    rw [State.freeChan, List.find?_isSome]
    exact ⟨c, mem_idx4_all c, by simp [hcf]⟩
  obtain ⟨c, hcf⟩ := Option.isSome_iff_exists.mp hsome
  have hnone : s.rch.get c = none := by simpa using List.find?_some hcf
  have ht : s.attachZone z = s.bindChan c h z := by
    unfold State.attachZone
    simp only [hc, hs, hcf]
  obtain ⟨ch, hch, hclaim, hbind, hatt⟩ : ∃ ch, s.bindChan c h z = (s.setChan c (some ch)).grant ∧ ch.claim = h.id ∧ ch.bind16 = s.now16 ∧
      ch.attached = (Quad.const false).set z true := ⟨_, rfl, rfl, rfl, rfl⟩
  have hframe : s.attachZone z = { s with rch := s.rch.set c (some ch), sp := (s.attachZone z).sp } := by
    rw [ht, hch, grant_frame]
    rfl
  refine ⟨c, ch, ⟨hframe, hclaim, fun y => ?_, fun d hd => ?_⟩, hbind, fun d hd => ?_, ?_⟩
  · rw [hatt, Quad.get_set]
    by_cases hy : y = z <;> simp [hy, State.attachedTo, hnone]
  · cases hnone.symm.trans hd
  · cases hs.symm.trans hd
  · rw [sharedChan_eq]
    refine find_idx4 ((bindsNow_iff _ _ _).mpr ⟨ch, by rw [hframe]; exact Quad.get_set_self _ _ _, hclaim, by rw [hframe]; exact hbind⟩) fun d hd => ?_
    have hnot := List.find?_eq_none.mp hs d (mem_idx4_all d)
    have hsame : (s.attachZone z).bindsNow h.id d = s.bindsNow h.id d := by
      rw [hframe]
      unfold State.bindsNow
      dsimp only
      rw [Quad.get_set_ne _ _ hd]
      rfl
    rw [hsame]
    exact Bool.eq_false_iff.mpr hnot

/-- A zone with a current claim is given a channel where one is FREE (R134). -/
theorem attachZone_gives (hfree : ∃ c, s.rch.get c = none) : ∃ c ch, GivesChannel s (s.attachZone z) z h c ch := by
  cases hs : s.sharedChan h.id with
  | some c => exact ⟨c, attachZone_shares hc hs⟩
  | none => exact attachZone_binds hc hs hfree

end

theorem JoinsChannel.attachedTo {s t : State} {z : ZoneId} {h : Held} {c : ChanId} {ch : Chan} (g : JoinsChannel s t z h c ch) (y : ZoneId)
    (d : ChanId) : t.attachedTo y d ↔ (y = z ∧ d = c) ∨ s.attachedTo y d := by
  rw [g.frame]
  unfold State.attachedTo
  by_cases hd : d = c
  · subst hd
    simp [g.attached, State.attachedTo]
  · simp [Quad.get_set_ne _ _ hd, hd]

end Sys2Proof.Machine
end

section
/-!
SUPPORT. The channels while a unit is off its channels, and the unit's return to one (R110, R133 to R135).
-/

namespace Sys2Proof.Machine

open Sys2Proof

/-- The channels serve the zones outside `zs`, and the zones of `zs` are attached nowhere and silent. -/
structure ServesOutside (zs : List ZoneId) (s : State) : Prop where
  bound : ChannelsAttached s
  playing : ∀ z, z ∉ zs → (s.za.get z).arb.state.plays = true →
    ∃ c ch h, s.rch.get c = some ch ∧ ch.attached.get z = true ∧ (s.za.get z).arb.current = some h ∧ ch.claim = h.id
  only : ∀ z c d, s.attachedTo z c → s.attachedTo z d → c = d
  attached : ∀ z c, s.attachedTo z c → z ∉ zs ∧ (s.za.get z).arb.state.plays = true
  silent : ∀ z, z ∈ zs ∨ (s.za.get z).arb.state.plays = false → s.audio.get z = 0

/-- The members of a WHOLE pair outside `zs` share their channel (R124). -/
def SharesOutside (zs : List ZoneId) (s : State) : Prop := ∀ z c, z ∉ zs → s.whole z = true → s.attachedTo z c → s.attachedTo z.partner c

section

variable {s t : State} {zs : List ZoneId}

theorem ServesOutside.serve (h : ServesOutside [] s) (hw : SharesOutside [] s) : ChannelsServe s :=
  ⟨h.bound, fun z => h.playing z List.not_mem_nil, h.only, fun z c ha => (h.attached z c ha).2, fun z c => hw z c List.not_mem_nil,
    fun z hz => h.silent z (.inr hz)⟩

/-- Zones that do not play are attached nowhere and silent already (R110). -/
theorem ChannelsServe.outside (h : ChannelsServe s) (hz : ∀ z ∈ zs, (s.za.get z).arb.state.plays = false) :
    ServesOutside zs s ∧ SharesOutside zs s where
  left := ⟨h.bound, fun z _ => h.playing z, h.only,
    fun z c ha => ⟨fun hm => absurd ((hz z hm).symm.trans (h.attached z c ha)) (by decide), h.attached z c ha⟩,
    fun z hq => h.silent z (hq.elim (hz z) id)⟩
  right z c _ := h.shared z c

/-- Zones that are detached leave the channels to the others (R135). -/
theorem ChannelsServe.detached (h : ChannelsServe s) (d : Detaches zs s t) : ServesOutside zs t := by
  have hza : t.za = s.za := by rw [d.frame]
  refine ⟨d.bound h.bound, fun z hz hp => ?_, fun z c e hc he => ?_, fun z c ha => ?_, fun z hz => ?_⟩
  · rw [hza] at hp ⊢
    obtain ⟨c, ch, k, hch, ha, hk, hid⟩ := h.playing z hp
    obtain ⟨e, he, hea⟩ := (d.attached z c).mpr ⟨⟨ch, hch, ha⟩, hz⟩
    obtain ⟨ch', hch', hee⟩ := d.chans c e he
    cases hch.symm.trans hch'
    exact ⟨c, e, k, he, hea, hk, by rw [hee]; exact hid⟩
  · exact h.only z c e ((d.attached z c).mp hc).1 ((d.attached z e).mp he).1
  · obtain ⟨hs, hz⟩ := (d.attached z c).mp ha
    exact ⟨hz, by rw [hza]; exact h.attached z c hs⟩
  · rw [d.audio]
    split
    · rfl
    · rename_i hm
      rw [hza] at hz
      exact h.silent z (hz.resolve_left hm)

/-- Where both members of a WHOLE pair are detached, or neither is, the other pairs go on sharing. -/
theorem ChannelsServe.detached_shared (h : ChannelsServe s) (d : Detaches zs s t) (hpart : ∀ z, s.whole z = true → (z.partner ∈ zs ↔ z ∈ zs)) :
    SharesOutside zs t := fun z c hz hw ha => by
  have hws : s.whole z = true := by rwa [State.whole, d.frame] at hw
  exact (d.attached _ c).mpr ⟨h.shared z c hws ((d.attached z c).mp ha).1, fun hm => hz ((hpart z hws).mp hm)⟩

/-- The channels look at the state and the current claim of each zone alone, and at none of a zone that is on no channel. -/
theorem ServesOutside.congr (h : ServesOutside zs s) (hrch : t.rch = s.rch) (haudio : t.audio = s.audio)
    (hza : ∀ z, z ∉ zs → (t.za.get z).arb = (s.za.get z).arb) : ServesOutside zs t := by
  have hatt : ∀ z c, t.attachedTo z c ↔ s.attachedTo z c := fun z c => by rw [State.attachedTo, State.attachedTo, hrch]
  refine ⟨fun c ch => by rw [hrch]; exact h.bound c ch, fun z hz => by rw [hza z hz, hrch]; exact h.playing z hz, fun z c d => ?_, fun z c ha => ?_,
    fun z hz => ?_⟩
  · rw [hatt, hatt]
    exact h.only z c d
  · obtain ⟨hz, hp⟩ := h.attached z c ((hatt z c).mp ha)
    exact ⟨hz, by rw [hza z hz]; exact hp⟩
  · rw [haudio]
    by_cases hm : z ∈ zs
    · exact h.silent z (.inl hm)
    · rw [hza z hm] at hz
      exact h.silent z hz

theorem SharesOutside.congr (h : SharesOutside zs s) (hrch : t.rch = s.rch) (hpair : PairsKept s t) : SharesOutside zs t := fun z c hz hw ha => by
  have hatt : ∀ z c, t.attachedTo z c ↔ s.attachedTo z c := fun z c => by rw [State.attachedTo, State.attachedTo, hrch]
  rw [State.whole, hpair] at hw
  exact (hatt _ c).mpr (h z c hz hw ((hatt z c).mp ha))

/-- Zones that do not play need no channel. -/
theorem ServesOutside.resting (h : ServesOutside zs s) (hw : SharesOutside zs s) (hz : ∀ z ∈ zs, (s.za.get z).arb.state.plays = false) :
    ChannelsServe s := by
  refine ServesOutside.serve ⟨h.bound, fun z _ hp => h.playing z (fun hm => ?_) hp, h.only, fun z c ha => ⟨List.not_mem_nil, (h.attached z c ha).2⟩,
    fun z hq => h.silent z (.inr (hq.resolve_left List.not_mem_nil))⟩ fun z c _ hwz ha => hw z c (h.attached z c ha).1 hwz ha
  exact absurd ((hz z hm).symm.trans hp) (by decide)

/-- Four channels serve the three other zones, one each: one of them is FREE (R134). -/
theorem ServesOutside.exists_free {z : ZoneId} (h : ServesOutside (z :: zs) s) : ∃ c, s.rch.get c = none := by
  by_contra hno
  have hbound : ∀ c, ∃ y, s.attachedTo y c := fun c => by
    obtain ⟨ch, hch⟩ := Option.ne_none_iff_exists'.mp fun hn => hno ⟨c, hn⟩
    obtain ⟨y, hy⟩ := h.bound c ch hch
    exact ⟨y, ch, hch, hy⟩
  choose f hf using hbound
  have hinj : Function.Injective f := fun c d hcd => h.only (f c) c d (hf c) (hcd ▸ hf d)
  have hfinite : Finite Idx4 := Finite.of_injective (fun i : Idx4 => (⟨i.toNat, idx4_toNat_lt i⟩ : Fin 4)) fun i j hij => by
    cases i <;> cases j <;> first | rfl | cases hij
  obtain ⟨c, hc⟩ := Finite.injective_iff_surjective.mp hinj z
  exact (h.attached z c (hc ▸ hf c)).1 List.mem_cons_self

/-- A playing zone that was off its channels joins one bound to its current claim. -/
theorem ServesOutside.joined {z : ZoneId} {k : Held} {c : ChanId} {ch : Chan} (h : ServesOutside (z :: zs) s) (g : JoinsChannel s t z k c ch)
    (hz : z ∉ zs) (hp : (s.za.get z).arb.state.plays = true) (hk : (s.za.get z).arb.current = some k) : ServesOutside zs t := by
  have hza : t.za = s.za := by rw [g.frame]
  have haudio : t.audio = s.audio := by rw [g.frame]
  have hget : ∀ d, t.rch.get d = if d = c then some ch else s.rch.get d := fun d => by rw [g.frame]; exact Quad.get_set _ _ _ _
  have hnew : ∀ d, ¬ s.attachedTo z d := fun d hd => (h.attached z d hd).1 List.mem_cons_self
  refine ⟨fun d e hd => ?_, fun y hy hpy => ?_, fun y d e hd he => ?_, fun y d hd => ?_, fun y hy => ?_⟩
  · rw [hget] at hd
    split at hd
    · cases hd
      exact ⟨z, (g.attached z).mpr (.inl rfl)⟩
    · exact h.bound d e hd
  · rw [hza] at hpy ⊢
    by_cases hyz : y = z
    · subst hyz
      exact ⟨c, ch, k, by rw [hget, if_pos rfl], (g.attached y).mpr (.inl rfl), hk, g.claim⟩
    · obtain ⟨d, e, m, he, ha, hm, hid⟩ := h.playing y (by simp [hyz, hy]) hpy
      by_cases hdc : d = c
      · subst hdc
        exact ⟨d, ch, m, by rw [hget, if_pos rfl], (g.attached y).mpr (.inr ⟨e, he, ha⟩), hm, by rw [g.old e he]; exact hid⟩
      · exact ⟨d, e, m, by rw [hget, if_neg hdc]; exact he, ha, hm, hid⟩
  · rw [g.attachedTo] at hd he
    rcases hd with ⟨rfl, rfl⟩ | hd <;> rcases he with ⟨he, rfl⟩ | he
    · rfl
    · exact absurd he (hnew e)
    · exact absurd (he ▸ hd) (hnew d)
    · exact h.only y d e hd he
  · rw [hza]
    rcases (g.attachedTo y d).mp hd with ⟨rfl, -⟩ | hd
    · exact ⟨hz, hp⟩
    · obtain ⟨hm, hpy⟩ := h.attached y d hd
      exact ⟨fun hy => hm (List.mem_cons_of_mem z hy), hpy⟩
  · rw [haudio]
    rw [hza] at hy
    exact h.silent y (hy.imp_left (List.mem_cons_of_mem z))

/-- A playing zone that was off its channels is given one for its current claim (R134). -/
theorem ServesOutside.attach {z : ZoneId} {k : Held} (h : ServesOutside (z :: zs) s) (hz : z ∉ zs)
    (hp : (s.za.get z).arb.state.plays = true) (hk : (s.za.get z).arb.current = some k) :
    ∃ c ch, GivesChannel s (s.attachZone z) z k c ch ∧ ServesOutside zs (s.attachZone z) := by
  obtain ⟨c, ch, g⟩ := attachZone_gives hk h.exists_free
  exact ⟨c, ch, g, h.joined g.toJoinsChannel hz hp hk⟩

end

/-- A unit that begins to play is given a channel, one for both members of a WHOLE pair (R124, R134). -/
theorem attachUnit_serves {s : State} {z : ZoneId} (hs : ZonesKept s) (h : ServesOutside (s.unit z) s) (hw : SharesOutside (s.unit z) s)
    (hp : (s.za.get z).arb.state.plays = true) : ChannelsServe ((s.unit z).foldl State.attachZone s) := by
  obtain ⟨k, hk⟩ := Option.isSome_iff_exists.mp ((hs z).current (ZoneState.holds_of_plays hp))
  have hplays : ∀ y ∈ s.unit z, (s.za.get y).arb.state.plays = true := fun y hy => by rw [hs.unit_arb hy]; exact hp
  have hcur : ∀ y ∈ s.unit z, (s.za.get y).arb.current = some k := fun y hy => by rw [hs.unit_arb hy]; exact hk
  by_cases hwz : s.whole z = true
  · have hunit : s.unit z = [z.lead, z.lead.partner] := if_pos hwz
    rw [hunit] at h hw hplays hcur ⊢
    obtain ⟨c, ch, g, h1⟩ := h.attach (by simpa using (Idx4.partner_ne _).symm) (hplays _ (by simp)) (hcur _ (by simp))
    have hza : (s.attachZone z.lead).za = s.za := by rw [g.frame]
    obtain ⟨d, dh, g', h2⟩ := h1.attach List.not_mem_nil (by rw [hza]; exact hplays _ (by simp)) (by rw [hza]; exact hcur _ (by simp))
    have hd : d = c := g'.first c g.shared
    have hza' : ((s.attachZone z.lead).attachZone z.lead.partner).za = s.za := by rw [g'.frame, hza]
    refine h2.serve fun y e _ hwy ha => ?_
    have hwy : s.whole y = true := by rwa [State.whole, hza'] at hwy
    rw [g'.attachedTo, g.attachedTo] at ha ⊢
    rcases ha with ⟨rfl, rfl⟩ | ⟨rfl, rfl⟩ | ha
    · exact .inr (.inl ⟨Idx4.partner_partner _, hd⟩)
    · exact .inl ⟨rfl, hd.symm⟩
    · exact .inr (.inr (hw y e (h.attached y e ha).1 hwy ha))
  · have hunit : s.unit z = [z] := if_neg hwz
    rw [hunit] at h hw hplays hcur ⊢
    obtain ⟨c, ch, g, h1⟩ := h.attach List.not_mem_nil hp hk
    have hza : (s.attachZone z).za = s.za := by rw [g.frame]
    refine h1.serve fun y e _ hwt ha => ?_
    have hwy : s.whole y = true := by rwa [State.whole, hza] at hwt
    rw [g.attachedTo] at ha ⊢
    rcases ha with ⟨rfl, -⟩ | ha
    · exact absurd hwy hwz
    · exact .inr (hw y e (h.attached y e ha).1 hwy ha)

end Sys2Proof.Machine
end

section
/-!
SUPPORT. What every operation on zones and channels keeps of R110, R124, R128, R133 to R135, said once of each.
-/

namespace Sys2Proof.Machine

open Sys2Proof

/-! ### What is kept -/

/-- Every zone is OUT_OF_SERVICE and holds nothing, every channel is FREE and every output zero (R109, R133, R181). -/
structure ZonesOff (s : State) : Prop where
  zones : ∀ z, (s.za.get z).arb = Arb.bare .outOfService
  channels : ∀ c, s.rch.get c = none
  outputs : ∀ z, s.audio.get z = 0

/-- The zones are consistent; where `P` holds the channels serve them, and where `Q` holds all is off. -/
structure Consistent (P Q : Prop) (s : State) : Prop where
  zones : ZonesKept s
  channels : P → ChannelsServe s
  off : Q → ZonesOff s

theorem ChannelsServe.congr {s t : State} (h : ChannelsServe s) (hz : ZonesAlike s t) (hrch : t.rch = s.rch) (haudio : t.audio = s.audio) :
    ChannelsServe t := by
  obtain ⟨h1, h2⟩ := h.outside (zs := []) (by simp)
  exact (h1.congr hrch haudio fun z _ => hz.arb z).serve (h2.congr hrch hz.pair)

section

variable {P Q : Prop} {s t : State}

theorem Consistent.congr (h : Consistent P Q s) (hz : ZonesAlike s t) (hrch : t.rch = s.rch) (haudio : t.audio = s.audio) : Consistent P Q t where
  zones := hz.kept h.zones
  channels hp := (h.channels hp).congr hz hrch haudio
  off hq := ⟨fun z => by rw [hz.arb]; exact (h.off hq).zones z, by rw [hrch]; exact (h.off hq).channels, by rw [haudio]; exact (h.off hq).outputs⟩

/-- An operation that leaves the zones, the channels and the outputs. -/
theorem Consistent.same (h : Consistent P Q s) (hza : t.za = s.za) (hrch : t.rch = s.rch) (haudio : t.audio = s.audio) : Consistent P Q t :=
  h.congr (.of_za hza) hrch haudio

theorem Consistent.callSide (h : Consistent P Q s) (k : CallSide s t) : Consistent P Q t := h.same k.za k.rch k.audio

theorem Consistent.not_off (h : Consistent P Q s) {z : ZoneId} (hz : (s.za.get z).arb.state ≠ .outOfService) : ¬ Q := fun hq =>
  hz (by rw [(h.off hq).zones z]; rfl)

theorem Consistent.foldl {α : Type} {f : State → α → State} (h : Consistent P Q s) (hf : ∀ u a, Consistent P Q u → Consistent P Q (f u a))
    (l : List α) : Consistent P Q (l.foldl f s) := by
  induction l generalizing s with
  | nil => exact h
  | cons a l ih => exact ih (hf s a h)

theorem writeDisps_consistent (h : Consistent P Q s) (id : ClaimId) (zs : List ZoneId) (d : Disp) : Consistent P Q (s.writeDisps id zs d) := by
  rw [writeDisps_frame]
  exact h.same rfl rfl rfl

theorem settle_consistent (h : Consistent P Q s) : Consistent P Q s.settle := by
  rw [(settle_settling s).frame]
  exact h.same rfl rfl rfl

theorem markReform_alike (s : State) (z : ZoneId) : ZonesAlike s (s.markReform z) := by
  refine ⟨markReform_arb s z, fun y => ?_, markReform_pairs s z⟩
  unfold State.markReform
  dsimp only
  split
  · by_cases hy : y = z.partner
    · subst hy; simp [State.modZone]
    · simp [State.modZone, Quad.get_set_ne _ _ hy]
  · rfl

theorem markReforms_consistent (h : Consistent P Q s) (zs : List ZoneId) : Consistent P Q (zs.foldl State.markReform s) :=
  h.foldl (fun u z hu => hu.congr (markReform_alike u z) (by rw [markReform_frame]) (by rw [markReform_frame])) zs

theorem applyLevels_consistent (h : Consistent P Q s) (zs : List ZoneId) : Consistent P Q (s.applyLevels zs) := by
  rw [applyLevels_frame]
  exact h.same rfl rfl rfl

/-! ### A unit enters a state (R110, R113) -/

/-- The zones are consistent, and where `P` holds the channels serve them but for the unit of `z`, which is on none and silent. -/
structure Poised (P : Prop) (z : ZoneId) (s : State) : Prop where
  zones : ZonesKept s
  channels : P → ServesOutside (s.unit z) s ∧ SharesOutside (s.unit z) s

theorem Poised.of_clt {z : ZoneId} (h : Poised P z s) (l : List Entry) : Poised P z { s with clt := l } :=
  ⟨(ZonesAlike.of_za (s := s) (t := { s with clt := l }) rfl).kept h.zones, fun hp => ⟨(h.channels hp).1.congr rfl rfl fun _ _ => rfl, (h.channels hp).2.congr rfl (.of_za rfl)⟩⟩

theorem Poised.writeDisps {z : ZoneId} (h : Poised P z s) (id : ClaimId) (zs : List ZoneId) (d : Disp) : Poised P z (s.writeDisps id zs d) := by
  rw [writeDisps_frame]
  exact h.of_clt _

/-- A unit that does not play is off the channels (R110). -/
theorem Consistent.poised (h : Consistent P Q s) {z : ZoneId} (hz : (s.za.get z).arb.state.plays = false) : Poised P z s :=
  ⟨h.zones, fun hp => (h.channels hp).outside fun y hy => by rw [h.zones.unit_arb hy]; exact hz⟩

theorem Consistent.poised_detached (h : Consistent P Q s) (z : ZoneId) : Poised P z (s.detachZones (s.unit z)) := by
  have hd := detachZones_detaches s (s.unit z)
  have hza : (s.detachZones (s.unit z)).za = s.za := by rw [hd.frame]
  have hunit : (s.detachZones (s.unit z)).unit z = s.unit z := unit_congr hza z
  refine ⟨(ZonesAlike.of_za hza).kept h.zones, fun hp => ?_⟩
  rw [hunit]
  exact ⟨(h.channels hp).detached hd, (h.channels hp).detached_shared hd fun y hy => h.zones.partner_mem_unit hy⟩

/-- A unit in service enters a state (R110, R113, R118). -/
theorem Poised.enter {z : ZoneId} (h : Poised P z s) {zs : List ZoneId} (hzs : s.unit z = zs) (hq : ¬ Q)
    (hin : (s.za.get z).arb.state ≠ .outOfService) {r : Arb × List ClaimId} (hr : r.1.Kept ∧ r.1.state.serves = true) :
    Consistent P Q (s.enter zs r) := by
  subst hzs
  obtain ⟨hkept, hserves⟩ := hr
  have hput : Poised P z (s.putArb (s.unit z) r.1) := by
    refine ⟨h.zones.putArb hin hkept hserves, fun hp => ?_⟩
    obtain ⟨h1, h2⟩ := h.channels hp
    rw [putArb_unit]
    exact ⟨h1.congr (putArb_rch ..) (putArb_audio ..) fun y hy => by rw [putArb_get, if_neg hy], h2.congr (putArb_rch ..) (putArb_pairs _ _ _)⟩
  have hmissed : Poised P z (r.2.foldl (fun w id => w.writeDisps id (s.unit z) .missed) (s.putArb (s.unit z) r.1)) := by
    refine List.foldlRecOn r.2 _ hput fun u hu id _ => ?_
    exact hu.writeDisps id _ _
  have hza : (r.2.foldl (fun w id => w.writeDisps id (s.unit z) .missed) (s.putArb (s.unit z) r.1)).za = (s.putArb (s.unit z) r.1).za := by
    rw [missAll_frame]
  unfold State.enter
  dsimp only
  generalize r.2.foldl (fun w id => w.writeDisps id (s.unit z) .missed) (s.putArb (s.unit z) r.1) = u at hmissed hza ⊢
  have hu : u.unit z = s.unit z := by rw [unit_congr hza, putArb_unit]
  have harb : ∀ y ∈ s.unit z, (u.za.get y).arb = r.1 := fun y hy => by rw [hza, putArb_get, if_pos hy]
  split
  · rename_i hplays
    refine applyLevels_consistent ⟨(ZonesAlike.of_za (by rw [attachZones_frame])).kept hmissed.zones, fun hp => ?_, fun hoff => absurd hoff hq⟩ _
    obtain ⟨h1, h2⟩ := hmissed.channels hp
    have hserve := attachUnit_serves hmissed.zones h1 h2 (by rw [harb z (self_mem_unit s z)]; exact hplays)
    rwa [hu] at hserve
  · rename_i hrests
    refine ⟨hmissed.zones, fun hp => ?_, fun hoff => absurd hoff hq⟩
    obtain ⟨h1, h2⟩ := hmissed.channels hp
    rw [hu] at h1 h2
    exact h1.resting h2 fun y hy => by rw [harb y hy]; simpa using hrests

end

end Sys2Proof.Machine
end

section
/-!
SUPPORT. The operations of the zone arbiter keep the zones consistent and the channels serving them.
-/

namespace Sys2Proof.Machine

open Sys2Proof

section

variable {P Q : Prop} {s t : State}

/-! ### A unit written and stopped (R115, R121) -/

/-- The channels look at which zones play and at what. -/
theorem ChannelsServe.replayed (h : ChannelsServe s) (hrch : t.rch = s.rch) (haudio : t.audio = s.audio) (hpair : PairsKept s t)
    (hplays : ∀ z, (t.za.get z).arb.state.plays = (s.za.get z).arb.state.plays)
    (hcur : ∀ z, (s.za.get z).arb.state.plays = true → (t.za.get z).arb.current = (s.za.get z).arb.current) : ChannelsServe t := by
  have hatt : ∀ z c, t.attachedTo z c ↔ s.attachedTo z c := fun z c => by rw [State.attachedTo, State.attachedTo, hrch]
  refine ⟨fun c ch => by rw [hrch]; exact h.bound c ch, fun z hz => ?_, fun z c d => by rw [hatt, hatt]; exact h.only z c d,
    fun z c => by rw [hatt, hplays]; exact h.attached z c, fun z c => ?_, fun z => by rw [hplays, haudio]; exact h.silent z⟩
  · rw [hplays] at hz
    rw [hrch, hcur z hz]
    exact h.playing z hz
  · rw [hatt, hatt, State.whole, hpair]
    exact h.shared z c

/-- A unit in service that plays on, or rests on, is given a record in order. -/
theorem putArb_consistent (h : Consistent P Q s) {z : ZoneId} {a : Arb} (hin : (s.za.get z).arb.state ≠ .outOfService) (ha : a.Kept)
    (hserves : a.state.serves = true) (hplays : a.state.plays = (s.za.get z).arb.state.plays)
    (hcur : (s.za.get z).arb.state.plays = true → a.current = (s.za.get z).arb.current) : Consistent P Q (s.putArb (s.unit z) a) where
  zones := h.zones.putArb hin ha hserves
  channels hp := by
    refine (h.channels hp).replayed (putArb_rch _ _ _) (putArb_audio _ _ _) (putArb_pairs _ _ _) (fun y => ?_) fun y hy => ?_ <;> rw [putArb_get]
    · split
      · rename_i hm
        rw [h.zones.unit_arb hm]
        exact hplays
      · rfl
    · split
      · rename_i hm
        rw [h.zones.unit_arb hm] at hy ⊢
        exact hcur hy
      · rfl
  off hq := absurd hq (h.not_off hin)

theorem ZoneState.in_of_holds {st : ZoneState} (h : st.holdsClaim = true) : st ≠ .outOfService := by rintro rfl; cases h

/-- A unit in service chooses what follows (R122). -/
theorem Poised.chooseNext {z : ZoneId} (h : Poised P z s) {zs : List ZoneId} (hzs : s.unit z = zs) (hq : ¬ Q)
    (hin : (s.za.get z).arb.state ≠ .outOfService) (a : Arb) : Consistent P Q (s.chooseNext zs a) :=
  markReforms_consistent (h.enter hzs hq hin (choose_kept a s.now)) _

theorem stopUnit_consistent (h : Consistent P Q s) (z : ZoneId) (cause : StopCause) : Consistent P Q (s.stopUnit z cause) := by
  unfold State.stopUnit
  dsimp only
  split
  · exact h
  · rename_i c hc
    have hin := ZoneState.in_of_holds ((h.zones z).arb.holds_of_current hc)
    have hza : ((s.detachZones (s.unit z)).writeDisps c.id (s.unit z) (s.stopDisp z (s.za.get z).arb cause)).za = s.za := by
      rw [writeDisps_za, detachZones_frame]
    exact ((h.poised_detached z).writeDisps _ _ _).chooseNext (unit_congr hza z) (h.not_off hin) (by rw [hza]; exact hin) _

/-- A unit that plays is written CUTTING, its current claim kept, and may stop at once (R115). -/
theorem putCutting_consistent (h : Consistent P Q s) {z : ZoneId} {a : Arb} (hp : (s.za.get z).arb.state.plays = true) (ha : a.Kept)
    (hst : a.state = .cutting) (hcur : a.current = (s.za.get z).arb.current) : Consistent P Q (s.putCutting z a) := by
  have hin := ZoneState.in_of_holds (ZoneState.holds_of_plays hp)
  have hput : Consistent P Q (s.putArb (s.unit z) a) :=
    putArb_consistent h hin ha (by rw [hst]; rfl) (by rw [hst, hp]; rfl) fun _ => hcur
  unfold State.putCutting
  dsimp only
  split
  · exact stopUnit_consistent hput z _
  · exact hput

/-! ### Offers (R112 to R117) -/

/-- The wait list of a unit that holds a claim changes (R117). -/
theorem rewait_consistent (h : Consistent P Q s) {z : ZoneId} (hs : (s.za.get z).arb.state.holdsClaim = true) (w : List Held) (wd pe : Bool) :
    Consistent P Q (s.putArb (s.unit z) { (s.za.get z).arb with wait := w, wdPending := wd, phraseEnd := pe }) :=
  putArb_consistent h (ZoneState.in_of_holds hs) ((h.zones z).arb.rewait hs w wd pe) (ZoneState.serves_of_holds hs) rfl fun _ => rfl

theorem offerWait_consistent (h : Consistent P Q s) {z : ZoneId} (hs : (s.za.get z).arb.state.holdsClaim = true) (c : Held) :
    Consistent P Q (s.offerWait z (s.za.get z).arb c) := by
  have hput := rewait_consistent h hs (waitEnter Held.aheadOfOffer (s.za.get z).arb.wait c).1 (s.za.get z).arb.wdPending (s.za.get z).arb.phraseEnd
  unfold State.offerWait
  dsimp only
  split
  · exact hput
  · exact writeDisps_consistent hput _ _ _

theorem displaceNext_consistent (h : Consistent P Q s) {z : ZoneId} (hst : (s.za.get z).arb.state = .cutting) (o c : Held) :
    Consistent P Q (s.displaceNext z (s.za.get z).arb o c) := by
  have hcut : ∀ u, Consistent P Q u → u.za = s.za → ∀ w,
      Consistent P Q (u.putCutting z ({ (s.za.get z).arb with wait := w }.aim c u.now)) := fun u hu hza w => by
    refine putCutting_consistent hu (by rw [hza, hst]; rfl) (Arb.aim_kept ?_ c _) rfl (by rw [hza]; rfl)
    exact (h.zones z).current (by rw [hst]; rfl)
  unfold State.displaceNext
  dsimp only
  split
  · exact hcut s h rfl _
  · exact hcut _ (writeDisps_consistent h _ _ _) (writeDisps_za _ _ _ _) _

/-- A unit that does not play enters what it chooses. -/
theorem enter_consistent (h : Consistent P Q s) {z : ZoneId} {zs : List ZoneId} (hzs : s.unit z = zs) (hst : (s.za.get z).arb.state = .idle ∨ (s.za.get z).arb.state = .leadIn)
    {r : Arb × List ClaimId} (hr : r.1.Kept ∧ r.1.state.serves = true) : Consistent P Q (s.enter zs r) := by
  have hin : (s.za.get z).arb.state ≠ .outOfService := by rcases hst with h | h <;> rw [h] <;> decide
  exact (h.poised (by rcases hst with h | h <;> rw [h] <;> rfl)).enter hzs (h.not_off hin) hin hr

theorem offerUnit_consistent (h : Consistent P Q s) (c : Held) (z : ZoneId) : Consistent P Q (s.offerUnit c z) := by
  have hwrite : ∀ id d, Consistent P Q (s.writeDisps id (s.unit z) d) := fun id d => writeDisps_consistent h id _ d
  unfold State.offerUnit
  dsimp only
  split
  · exact hwrite _ _
  · split
    case h_1 => exact hwrite _ _
    case h_2 => exact hwrite _ _
    case h_3 => exact hwrite _ _
    case h_4 hst => exact enter_consistent h rfl (.inl hst) (choose_kept _ _)
    case h_5 hst =>
      have hwait := offerWait_consistent h (z := z) (by rw [hst]; rfl) c
      split
      · split
        · rename_i k _ _
          have hza := writeDisps_za s k.id (s.unit z) .preempted
          exact enter_consistent (hwrite _ _) (unit_congr hza z) (by rw [hza]; exact .inr hst) (choose_kept _ _)
        · exact hwait
      · exact hwait
    case h_6 hst =>
      have hwait := offerWait_consistent h (z := z) (by rw [hst]; rfl) c
      split
      · rename_i k hk
        split
        · exact putCutting_consistent h (by rw [hst]; rfl) (Arb.aim_kept (by rw [hk]; rfl) c _) rfl rfl
        · exact hwait
      · exact hwait
    case h_7 hst =>
      have hwait := offerWait_consistent h (z := z) (by rw [hst]; rfl) c
      split
      · split
        · exact displaceNext_consistent h hst _ c
        · exact hwait
      · exact hwait

theorem offerEntry_consistent (h : Consistent P Q s) (id : ClaimId) : Consistent P Q (s.offerEntry id) := by
  unfold State.offerEntry
  split
  · exact h
  · refine h.foldl (fun u z hu => ?_) _
    split
    · exact offerUnit_consistent hu _ z
    · exact hu

/-! ### Withdrawal, eviction, waiters (R97, R99, R119, R123) -/

theorem nextLeft_consistent (h : Consistent P Q s) {z : ZoneId} {a : Arb} (ha : a = (s.za.get z).arb) (hst : a.state = .cutting) :
    Consistent P Q (s.nextLeft z a) := by
  subst ha
  have hplays : (s.za.get z).arb.state.plays = true := by rw [hst]; rfl
  have hcur : (s.za.get z).arb.current.isSome = true := (h.zones z).current (by rw [hst]; rfl)
  have hback : Consistent P Q (s.putArb (s.unit z)
      { (s.za.get z).arb with state := .playing, next := none, stopAt := none, phraseEnd := (s.za.get z).arb.wdPending }) :=
    putArb_consistent h (by rw [hst]; decide) (Arb.resumed_kept hcur _) rfl hplays.symm fun _ => rfl
  unfold State.nextLeft
  dsimp only
  split
  · split
    · exact putCutting_consistent h hplays (Arb.aim_kept (by exact hcur) _ _) rfl rfl
    · exact hback
  · exact hback

theorem chooseNext_consistent (h : Consistent P Q s) {z : ZoneId} {zs : List ZoneId} (hzs : s.unit z = zs) (hs : (s.za.get z).arb.state.holdsClaim = true)
    (hp : (s.za.get z).arb.state.plays = false) (a : Arb) : Consistent P Q (s.chooseNext zs a) :=
  (h.poised hp).chooseNext hzs (h.not_off (ZoneState.in_of_holds hs)) (ZoneState.in_of_holds hs) a

theorem withdrawUnit_consistent (h : Consistent P Q s) (id : ClaimId) (cut : Bool) (z : ZoneId) : Consistent P Q (s.withdrawUnit id cut z) := by
  have hza := writeDisps_za s id (s.unit z) .withdrawn
  have hwrite := writeDisps_consistent h id (s.unit z) .withdrawn
  have hkept := (h.zones z).arb
  unfold State.withdrawUnit
  dsimp only
  split
  · rename_i hw
    obtain ⟨x, hx, -⟩ := (any_id_iff _ id).mp hw
    exact writeDisps_consistent (rewait_consistent h (hkept.holds_of_waiting hx) _ _ _) _ _ _
  · split
    · rename_i hn
      obtain ⟨n, hn, -⟩ := (heldIs_iff _ id).mp hn
      exact nextLeft_consistent hwrite (by rw [hza]) (hkept.cutting_of_next hn)
    · split
      · rename_i hc
        obtain ⟨c, hc, -⟩ := (heldIs_iff _ id).mp hc
        have hs := hkept.holds_of_current hc
        split
        · split
          · exact stopUnit_consistent h z _
          · exact rewait_consistent h hs _ _ _
        · rename_i hp
          exact chooseNext_consistent hwrite (unit_congr hza z) (by rw [hza]; exact hs) (by rw [hza]; simpa using hp) _
      · exact h

theorem withdrawZones_consistent (h : Consistent P Q s) (id : ClaimId) (cut : Bool) : Consistent P Q (s.withdrawZones id cut) := by
  refine h.foldl (fun u z hu => ?_) _
  split
  · exact withdrawUnit_consistent hu id cut z
  · exact hu

theorem evictUnit_consistent (h : Consistent P Q s) (id : ClaimId) (z : ZoneId) : Consistent P Q (s.evictUnit id z) := by
  have hkept := (h.zones z).arb
  unfold State.evictUnit
  dsimp only
  split
  · rename_i hw
    obtain ⟨x, hx, -⟩ := (any_id_iff _ id).mp hw
    exact rewait_consistent h (hkept.holds_of_waiting hx) _ _ _
  · split
    · rename_i hn
      obtain ⟨n, hn, -⟩ := (heldIs_iff _ id).mp hn
      exact nextLeft_consistent h rfl (hkept.cutting_of_next hn)
    · split
      · rename_i hc
        obtain ⟨c, hc, -⟩ := (heldIs_iff _ id).mp hc
        split
        · exact stopUnit_consistent h z _
        · rename_i hp
          exact chooseNext_consistent h rfl (hkept.holds_of_current hc) (by simpa using hp) _
      · exact h

theorem evictZones_consistent (h : Consistent P Q s) (id : ClaimId) : Consistent P Q (s.evictZones id) :=
  h.foldl (fun _ z hu => evictUnit_consistent hu id z) _

theorem missWaiter_consistent (h : Consistent P Q s) {z : ZoneId} {x : Held} (hx : x ∈ (s.za.get z).arb.wait) (id : ClaimId) :
    Consistent P Q (s.missWaiter z id) :=
  writeDisps_consistent (rewait_consistent h ((h.zones z).arb.holds_of_waiting hx) _ _ _) _ _ _

end

end Sys2Proof.Machine
end

section
/-!
SUPPORT. Zones that leave service and return, and pairs that break and re-form: what each operation does, and that it keeps the zones consistent.
-/

namespace Sys2Proof.Machine

open Sys2Proof

/-! ### Pairs (R124, R125, R126) -/

section

variable (s : State) (z y : ZoneId)

theorem modZone_get (f : Zone → Zone) : (s.modZone z f).za.get y = if y = z then f (s.za.get z) else s.za.get y := Quad.get_set _ _ _ _

/-- What a change of both members of a pair leaves in each zone. -/
theorem modPair_get (f : Zone → Zone) :
    ((s.modZone z f).modZone z.partner f).za.get y = if y = z ∨ y = z.partner then f (s.za.get y) else s.za.get y := by
  rw [modZone_get, modZone_get, modZone_get, if_neg (Idx4.partner_ne z)]
  by_cases hp : y = z.partner
  · simp [hp]
  · by_cases hz : y = z
    · rw [if_neg hp, if_pos hz, if_pos (.inl hz), hz]
    · rw [if_neg hp, if_neg hz, if_neg (not_or.mpr ⟨hz, hp⟩)]

theorem makeWhole_get : (s.makeWhole z).za.get y =
    if y = z ∨ y = z.partner then { s.za.get y with pair := some .whole, reformDue := false } else s.za.get y := modPair_get s z y _

theorem breakPair_get : (s.breakPair z).za.get y =
    if s.whole z = true ∧ (y = z ∨ y = z.partner) then { s.za.get y with pair := some .broken } else s.za.get y := by
  unfold State.breakPair
  split
  · rename_i hw
    rw [modPair_get]
    simp [hw]
  · rename_i hw
    simp [hw]

theorem breakPair_frame : s.breakPair z = { s with za := (s.breakPair z).za } := by
  unfold State.breakPair
  split <;> rfl

theorem makeWhole_frame : s.makeWhole z = { s with za := (s.makeWhole z).za } := rfl

end

/-! ### A zone cleared (R125, R128) -/

/-- The node while a zone is cleared: its pair broken, and FAULT written for the claims it holds. -/
def State.faulted (s : State) (z : ZoneId) : State :=
  ((s.breakPair z).za.get z).arb.held.foldl (fun (w : State) h => w.writeDisp h.id z .fault) (s.breakPair z)

/-- The records of a zone cleared into a state and of its partner (R125). -/
def Zone.cleared (whole : Bool) (r : Zone) : Zone := { r with pair := if whole then some .broken else r.pair, reformDue := false }

section

variable (s : State) (z y : ZoneId) (st : ZoneState)

theorem faulted_frame : s.faulted z = { s with za := (s.breakPair z).za, clt := (s.faulted z).clt } := by
  have h := foldl_rel (fun s t : State => t = { s with clt := t.clt }) (fun _ => rfl) (fun h k => by rw [h] at k; exact k)
    (f := fun (w : State) (h : Held) => w.writeDisp h.id z .fault) (fun w h => show w.writeDisp h.id z .fault = _ from rfl)
    ((s.breakPair z).za.get z).arb.held (s.breakPair z)
  rw [State.faulted, h, breakPair_frame]

theorem clearZone_eq : s.clearZone z st =
    ((((s.faulted z).detachZone z).putZoneArb (Arb.bare st) z).modZone z (fun r => { r with reformDue := false })).modZone z.partner
      (fun r => { r with reformDue := false }) := rfl

theorem clearZone_get : (s.clearZone z st).za.get y =
    if y = z then { (s.za.get z).cleared (s.whole z) with arb := Arb.bare st }
    else if y = z.partner then (s.za.get y).cleared (s.whole z) else s.za.get y := by
  have hza : ((s.faulted z).detachZone z).za = (s.breakPair z).za := by rw [detachZone_frame, faulted_frame]
  rw [clearZone_eq, modPair_get, putZoneArb_za, hza, Quad.get_set]
  simp only [breakPair_get]
  unfold Zone.cleared
  by_cases hz : y = z
  · subst hz
    by_cases hw : s.whole y = true <;> simp [hw]
  · by_cases hp : y = z.partner
    · subst hp
      by_cases hw : s.whole z = true <;> simp [hw, Idx4.partner_ne]
    · simp [hz, hp]

theorem clearZone_frame : s.clearZone z st =
    { s with
      clt := (s.faulted z).clt, za := (s.clearZone z st).za, rch := (s.clearZone z st).rch, audio := (s.clearZone z st).audio,
      sp := (s.clearZone z st).sp, lu := (s.clearZone z st).lu } := by
  rw [clearZone_eq]
  unfold State.modZone
  rw [putZoneArb_frame, detachZone_frame, faulted_frame]
  rfl

/-- A zone that is cleared is on no channel and silent (R110, R125). -/
theorem clearZone_detaches :
    Detaches [z] s { s with rch := (s.clearZone z st).rch, sp := (s.clearZone z st).sp, audio := (s.clearZone z st).audio } := by
  have hd := detachZone_detaches (s.faulted z) z
  have hrch : (s.clearZone z st).rch = ((s.faulted z).detachZone z).rch := by
    rw [clearZone_eq]
    unfold State.modZone
    rw [putZoneArb_frame]
    rfl
  have haudio : (s.clearZone z st).audio = ((s.faulted z).detachZone z).audio := by
    rw [clearZone_eq]
    unfold State.modZone
    rw [putZoneArb_frame]
    rfl
  have hrch0 : (s.faulted z).rch = s.rch := by rw [faulted_frame]
  have haudio0 : (s.faulted z).audio = s.audio := by rw [faulted_frame]
  rw [hrch, haudio]
  obtain ⟨-, h2, h3, h4, h5⟩ := hd
  simp only [State.attachedTo, hrch0] at h3
  simp only [ChannelsAttached, hrch0] at h4
  exact ⟨rfl, by rwa [hrch0] at h2, h3, h4, by rwa [haudio0] at h5⟩

end

section

variable {P Q : Prop} {s t : State}

/-- `t` is `s` but for the service flag and the marks of the zone `z`, and what is no zone's nor channel's. -/
structure ServiceTurned (z : ZoneId) (s t : State) : Prop where
  arb : ∀ y, (t.za.get y).arb = (s.za.get y).arb
  pair : PairsKept s t
  service : ∀ y, y ≠ z → (t.za.get y).service = (s.za.get y).service
  rch : t.rch = s.rch
  audio : t.audio = s.audio

theorem Zone.cleared_pair (w : Bool) (r : Zone) : (r.cleared w).pair = if w then some .broken else r.pair := rfl

/-- No pair with a member cleared is WHOLE (R125). -/
theorem clearZone_whole (hs : ∀ y, (s.za.get y).pair = some .whole → (s.za.get y.partner).pair = some .whole) {z y : ZoneId} {st : ZoneState}
    (hw : ((s.clearZone z st).za.get y).pair = some .whole) : y ≠ z ∧ y ≠ z.partner ∧ (s.za.get y).pair = some .whole := by
  rw [clearZone_get] at hw
  have hno : ∀ r : Zone, (r.pair = some .whole → s.whole z = true) → (r.cleared (s.whole z)).pair ≠ some .whole := fun r hr hp => by
    rw [Zone.cleared_pair] at hp
    split at hp
    · cases hp
    · exact absurd (hr hp) (by assumption)
  split at hw
  · exact absurd hw (hno _ (whole_iff s z).mpr)
  · rename_i hz
    split at hw
    · rename_i hp
      refine absurd hw (hno _ fun h => (whole_iff s z).mpr ?_)
      have := hs y h
      rwa [hp, Idx4.partner_partner] at this
    · rename_i hp
      exact ⟨hz, hp, hw⟩

/-- A zone is cleared into FAULT, or OUT_OF_SERVICE with its flag off (R125, R127, R128). -/
theorem clearZone_consistent (h : Consistent P Q s) {z : ZoneId} (hq : ¬ Q) (k : ServiceTurned z s t) {st : ZoneState}
    (hst : st = .fault ∨ st = .outOfService) (hservice : (t.za.get z).service = false → st = .outOfService) : Consistent P Q (t.clearZone z st) := by
  have hbare : (Arb.bare st).Kept := Arb.bare_kept (by rcases hst with rfl | rfl <;> rfl)
  have hboth : ∀ y, (t.za.get y).pair = some .whole → (t.za.get y.partner).pair = some .whole := fun y hy => by
    rw [k.pair] at hy ⊢
    exact (h.zones y).wholeBoth hy
  have hself : ((t.clearZone z st).za.get z).arb = Arb.bare st := by rw [clearZone_get, if_pos rfl]
  have hother : ∀ y, y ≠ z → ((t.clearZone z st).za.get y).arb = (s.za.get y).arb := fun y hy => by
    rw [clearZone_get, if_neg hy, ← k.arb]
    split <;> rfl
  have haway : ∀ y, y ≠ z → y ≠ z.partner → (t.clearZone z st).za.get y = t.za.get y := fun y hy hp => by
    rw [clearZone_get, if_neg hy, if_neg hp]
  refine ⟨fun y => ?_, fun hp => ?_, fun hoff => absurd hoff hq⟩
  · by_cases hy : y = z
    · subst hy
      refine ⟨by rw [hself]; exact hbare.bare, by rw [hself]; exact hbare.current, by rw [hself]; exact hbare.next, by rw [hself]; exact hbare.stopAt,
        fun hs => ?_, fun hw => absurd rfl (clearZone_whole hboth hw).1, fun hw => absurd rfl (clearZone_whole hboth hw).1,
        fun hw => absurd rfl (clearZone_whole hboth hw).1⟩
      rw [hself]
      refine hservice ?_
      rwa [clearZone_get, if_pos rfl] at hs
    · obtain ⟨h1, h2, h3, h4, h5, h6, -, -⟩ := h.zones y
      have hserv : ((t.clearZone z st).za.get y).service = (s.za.get y).service := by
        rw [clearZone_get, if_neg hy, ← k.service y hy]
        split <;> rfl
      have harb := hother y hy
      have hpartner : ((t.clearZone z st).za.get y).pair = some .whole →
          (t.za.get y).pair = some .whole ∧ (t.clearZone z st).za.get y.partner = t.za.get y.partner := fun hw => by
        obtain ⟨hz, hp, hw⟩ := clearZone_whole hboth hw
        exact ⟨hw, haway _ (fun e => hp (by rw [← e, Idx4.partner_partner])) fun e => hz (by rw [← Idx4.partner_partner y, e, Idx4.partner_partner])⟩
      refine ⟨by rwa [harb], by rwa [harb], by rwa [harb], by rwa [harb], by rwa [hserv, harb], fun hw => ?_, fun hw => ?_, fun hw => ?_⟩ <;>
        obtain ⟨hwt, hpa⟩ := hpartner hw
      · rw [harb]
        exact h6 (by rwa [k.pair] at hwt)
      · rw [hpa]
        exact hboth y hwt
      · rw [hpa, harb, k.arb]
        exact (h.zones y).wholeSame (by rwa [k.pair] at hwt)
  · have hd := clearZone_detaches t z st
    have hd' : Detaches [z] s { s with rch := (t.clearZone z st).rch, sp := (t.clearZone z st).sp, audio := (t.clearZone z st).audio } := by
      obtain ⟨-, h2, h3, h4, h5⟩ := hd
      simp only [State.attachedTo, k.rch] at h3
      simp only [ChannelsAttached, k.rch] at h4
      exact ⟨rfl, by rwa [k.rch] at h2, h3, h4, by rwa [k.audio] at h5⟩
    have hout : ServesOutside [z] (t.clearZone z st) :=
      ((h.channels hp).detached hd').congr rfl rfl fun y hy => hother y (by simpa using hy)
    refine hout.resting (fun y c hy hw ha => ?_) fun y hy => ?_
    · obtain ⟨hz, hpz, hwt⟩ := clearZone_whole hboth ((whole_iff _ y).mp hw)
      have hs : s.whole y = true := by rwa [whole_iff, ← k.pair]
      have hatt := (hd'.attached y c).mp ha
      exact (hd'.attached _ c).mpr ⟨(h.channels hp).shared y c hs hatt.1,
        by simpa using fun e : y.partner = z => hpz (by rw [← e, Idx4.partner_partner])⟩
    · rw [List.mem_singleton.mp hy, hself]
      rcases hst with rfl | rfl <;> rfl

/-! ### A zone returns (R126, R127, R128) -/

/-- A zone in FAULT or OUT_OF_SERVICE with its flag on takes a state that holds nothing. -/
theorem putBare_consistent (h : Consistent P Q s) {z : ZoneId} (hq : ¬ Q) (hz : (s.za.get z).arb.state = .fault ∨ (s.za.get z).arb.state = .outOfService)
    (k : ServiceTurned z s t) (hservice : (t.za.get z).service = true) {st : ZoneState} (hst : st = .fault ∨ st = .idle ∨ st = .rejoining) :
    Consistent P Q (t.putZoneArb (Arb.bare st) z) := by
  have hbare : (Arb.bare st).Kept := Arb.bare_kept (by rcases hst with rfl | rfl | rfl <;> rfl)
  have hrest : (s.za.get z).arb.state.plays = false := by rcases hz with h | h <;> rw [h] <;> rfl
  have hnw : (s.za.get z).pair ≠ some .whole := fun hw => by
    have := (h.zones z).wholeServes hw
    rcases hz with h | h <;> rw [h] at this <;> cases this
  have hget : ∀ y, (t.putZoneArb (Arb.bare st) z).za.get y = if y = z then { t.za.get z with arb := Arb.bare st } else t.za.get y := fun y => by
    rw [putZoneArb_za, Quad.get_set]
  have hrch : (t.putZoneArb (Arb.bare st) z).rch = s.rch := by rw [putZoneArb_frame]; exact k.rch
  have haudio : (t.putZoneArb (Arb.bare st) z).audio = s.audio := by rw [putZoneArb_frame]; exact k.audio
  have hpair : PairsKept s (t.putZoneArb (Arb.bare st) z) := fun y => by
    rw [hget, ← k.pair]
    split
    · rename_i hy; rw [hy]
    · rfl
  refine ⟨fun y => ?_, fun hp => ?_, fun hoff => absurd hoff hq⟩
  · by_cases hy : y = z
    · subst hy
      have hself : ((t.putZoneArb (Arb.bare st) y).za.get y).arb = Arb.bare st := by rw [hget, if_pos rfl]
      refine ⟨by rw [hself]; exact hbare.bare, by rw [hself]; exact hbare.current, by rw [hself]; exact hbare.next, by rw [hself]; exact hbare.stopAt,
        fun hs => ?_, fun hw => absurd (hpair y ▸ hw) hnw, fun hw => absurd (hpair y ▸ hw) hnw, fun hw => absurd (hpair y ▸ hw) hnw⟩
      rw [hget, if_pos rfl] at hs
      exact absurd (hservice.symm.trans hs) (by decide)
    · have harb : ((t.putZoneArb (Arb.bare st) z).za.get y).arb = (s.za.get y).arb := by rw [hget, if_neg hy, k.arb]
      have hserv : ((t.putZoneArb (Arb.bare st) z).za.get y).service = (s.za.get y).service := by rw [hget, if_neg hy, k.service y hy]
      obtain ⟨h1, h2, h3, h4, h5, h6, h7, h8⟩ := h.zones y
      refine ⟨by rwa [harb], by rwa [harb], by rwa [harb], by rwa [harb], by rwa [hserv, harb], by rwa [hpair, harb], by rwa [hpair, hpair],
        fun hw => ?_⟩
      rw [hpair] at hw
      have hpz : y.partner ≠ z := fun e => hnw (e ▸ h7 hw)
      rw [harb, hget, if_neg hpz, k.arb]
      exact h8 hw
  · refine (h.channels hp).replayed hrch haudio hpair (fun y => ?_) fun y hy => ?_ <;> rw [hget]
    · split
      · rename_i hy
        rw [hy, hrest]
        rcases hst with rfl | rfl | rfl <;> rfl
      · rw [k.arb]
    · rw [if_neg (fun e => ?_), k.arb]
      rw [e, hrest] at hy
      cases hy

/-- Two partners that hold the same become a WHOLE pair (R126). -/
theorem ZonesKept.makeWhole (hs : ZonesKept s) {z : ZoneId} (hsame : (s.za.get z).arb = (s.za.get z.partner).arb)
    (hserves : (s.za.get z).arb.state.serves = true) : ZonesKept (s.makeWhole z) := by
  intro y
  have harb : ∀ x, ((s.makeWhole z).za.get x).arb = (s.za.get x).arb := fun x => by rw [makeWhole_get]; split <;> rfl
  have hserv : ∀ x, ((s.makeWhole z).za.get x).service = (s.za.get x).service := fun x => by rw [makeWhole_get]; split <;> rfl
  obtain ⟨h1, h2, h3, h4, h5, h6, h7, h8⟩ := hs y
  by_cases hy : y = z ∨ y = z.partner
  · have hp : y.partner = z ∨ y.partner = z.partner := by
      rcases hy with rfl | rfl
      · exact .inr rfl
      · exact .inl (Idx4.partner_partner z)
    refine ⟨by rwa [harb], by rwa [harb], by rwa [harb], by rwa [harb], by rwa [hserv, harb], fun _ => ?_, fun _ => ?_, fun _ => ?_⟩
    · rw [harb]
      rcases hy with rfl | rfl
      · exact hserves
      · rw [← hsame]; exact hserves
    · rw [makeWhole_get, if_pos hp]
    · rw [harb, harb]
      rcases hy with rfl | rfl
      · exact hsame.symm
      · rw [Idx4.partner_partner]; exact hsame
  · have hpair : ∀ x, ¬ (x = z ∨ x = z.partner) → ((s.makeWhole z).za.get x).pair = (s.za.get x).pair := fun x hx => by rw [makeWhole_get, if_neg hx]
    have hp : ¬ (y.partner = z ∨ y.partner = z.partner) := fun hp => hy (hp.symm.imp
      (fun e => by rw [← Idx4.partner_partner y, e, Idx4.partner_partner]) fun e => by rw [← e, Idx4.partner_partner])
    refine ⟨by rwa [harb], by rwa [harb], by rwa [harb], by rwa [harb], by rwa [hserv, harb], by rwa [hpair y hy, harb],
      by rwa [hpair y hy, hpair _ hp], by rwa [hpair y hy, harb, harb]⟩

/-- The members of no other pair share a channel anew where `z` and its partner are on none. -/
theorem makeWhole_idle (h : Consistent P Q s) {z : ZoneId} (hq : ¬ Q) (hz : (s.za.get z).arb = Arb.bare .idle)
    (hp : (s.za.get z.partner).arb = Arb.bare .idle) : Consistent P Q (s.makeWhole z) where
  zones := h.zones.makeWhole (hz.trans hp.symm) (by rw [hz]; rfl)
  channels hP := by
    have harb : ∀ x, ((s.makeWhole z).za.get x).arb = (s.za.get x).arb := fun x => by rw [makeWhole_get]; split <;> rfl
    have hidle : ∀ y, y = z ∨ y = z.partner → (s.za.get y).arb.state.plays = false := by
      rintro y (rfl | rfl)
      · rw [hz]; rfl
      · rw [hp]; rfl
    obtain ⟨h1, h2⟩ := (h.channels hP).outside (zs := []) (by simp)
    refine (h1.congr (t := s.makeWhole z) rfl rfl fun y _ => harb y).serve fun y c hn hw ha => ?_
    have hplays : (s.za.get y).arb.state.plays = true := (h.channels hP).attached y c ha
    have hy : ¬ (y = z ∨ y = z.partner) := fun hy => Bool.false_ne_true ((hidle y hy).symm.trans hplays)
    rw [State.whole, makeWhole_get, if_neg hy] at hw
    exact h2 y c hn hw ha
  off hoff := absurd hoff hq

theorem returnZone_consistent (h : Consistent P Q s) {z : ZoneId} (hq : ¬ Q)
    (hz : (s.za.get z).arb.state = .fault ∨ (s.za.get z).arb.state = .outOfService) (k : ServiceTurned z s t)
    (hservice : (t.za.get z).service = true) : Consistent P Q (t.returnZone z) := by
  have hput : ∀ st, st = .fault ∨ st = .idle ∨ st = .rejoining → Consistent P Q (t.putZoneArb (Arb.bare st) z) := fun st hst =>
    putBare_consistent h hq hz k hservice hst
  have hidle := hput .idle (by simp)
  have hrejoin := hput .rejoining (by simp)
  unfold State.returnZone
  split
  · exact hidle
  · split
    case h_1 hi =>
      refine makeWhole_idle hidle hq (by rw [putZoneArb_za, Quad.get_set_self]) ?_
      rw [putZoneArb_za, Quad.get_set_ne _ _ (Idx4.partner_ne z), k.arb]
      have hb := (h.zones z.partner).bare (by rw [← k.arb, hi]; rfl)
      rwa [show (s.za.get z.partner).arb.state = .idle by rw [← k.arb]; exact hi] at hb
    case h_2 => exact hrejoin
    case h_3 => exact hrejoin
    case h_4 => exact hrejoin
    case h_5 => exact hidle

/-! ### A pair re-forms (R126) -/

theorem putZoneArb_eq_putArb (s : State) (a : Arb) (z : ZoneId) : s.putZoneArb a z = s.putArb [z] a := rfl

theorem reforms_iff (s : State) (z : ZoneId) : s.reforms z = true ↔
    (s.za.get z).arb.state = .rejoining ∧ (s.za.get z).pair = some .broken ∧
      ((s.za.get z.partner).arb.state = .idle ∨ ((s.za.get z).reformDue = true ∧ (s.za.get z.partner).arb.state.serves = true)) := by
  simp [State.reforms, and_assoc]

/-- The state of a pair re-formed, before its channel is shared. -/
def State.rejoined (s : State) (z : ZoneId) : State := (s.putZoneArb (s.za.get z.partner).arb z).makeWhole z

theorem rejoined_get (s : State) (z y : ZoneId) : (s.rejoined z).za.get y =
    if y = z then { s.za.get z with arb := (s.za.get z.partner).arb, pair := some .whole, reformDue := false }
    else if y = z.partner then { s.za.get y with pair := some .whole, reformDue := false } else s.za.get y := by
  rw [State.rejoined, makeWhole_get, putZoneArb_za, Quad.get_set]
  by_cases hz : y = z
  · simp [hz]
  · simp [hz]

theorem rejoined_frame (s : State) (z : ZoneId) : s.rejoined z = { s with za := (s.rejoined z).za, lu := (s.rejoined z).lu } := by
  rw [State.rejoined, makeWhole_frame, putZoneArb_frame]

theorem reform_eq (s : State) (z : ZoneId) : s.reform z =
    if (s.za.get z.partner).arb.state.plays then ((s.rejoined z).joinZone z z.partner).applyLevel z else s.rejoined z := rfl

theorem chanOf_attached {s : State} {z : ZoneId} {c : ChanId} (h : s.chanOf z = some c) : s.attachedTo z c := by
  have hf := List.find?_some h
  unfold State.attachedTo
  cases hc : s.rch.get c with
  | none => rw [hc] at hf; cases hf
  | some ch => rw [hc] at hf; exact ⟨ch, rfl, hf⟩

theorem chanOf_of_attached {s : State} {z : ZoneId} {c : ChanId} (h : s.attachedTo z c) : ∃ d, s.chanOf z = some d := by
  obtain ⟨ch, hch, ha⟩ := h
  refine Option.isSome_iff_exists.mp ?_
  rw [State.chanOf, List.find?_isSome]
  exact ⟨c, mem_idx4_all c, by simp [hch, ha]⟩

/-- A zone joins the channel that its partner is on. -/
theorem joinZone_joins {s : State} {z y : ZoneId} {c : ChanId} (hc : s.chanOf y = some c) : ∃ old ch, s.rch.get c = some old ∧
    s.joinZone z y = { s with rch := s.rch.set c (some ch) } ∧ ch = { old with attached := ch.attached } ∧
    ∀ x, ch.attached.get x = true ↔ x = z ∨ s.attachedTo x c := by
  obtain ⟨old, hold, -⟩ := chanOf_attached hc
  refine ⟨old, { old with attached := old.attached.set z true }, hold, ?_, rfl, fun x => ?_⟩
  · unfold State.joinZone
    simp only [hc, hold]
    rfl
  · by_cases hx : x = z
    · simp [hx]
    · simp [State.attachedTo, hold, hx, Quad.get_set_ne _ _ hx]

theorem reform_consistent (h : Consistent P Q s) {z : ZoneId} (hr : s.reforms z = true) : Consistent P Q (s.reform z) := by
  obtain ⟨hst, hpair, hpartner⟩ := (reforms_iff s z).mp hr
  have hserves : (s.za.get z.partner).arb.state.serves = true := hpartner.elim (fun h => by rw [h]; rfl) (·.2)
  have hin : (s.za.get z).arb.state ≠ .outOfService := by rw [hst]; decide
  have hq := h.not_off hin
  have hunit : s.unit z = [z] := if_neg (by simp [State.whole, hpair])
  have hput : ZonesKept (s.putZoneArb (s.za.get z.partner).arb z) := by
    rw [putZoneArb_eq_putArb, ← hunit]
    exact h.zones.putArb hin (h.zones z.partner).arb hserves
  have hself := putZoneArb_self s (s.za.get z.partner).arb z
  have hzones : ZonesKept (s.rejoined z) := by
    refine hput.makeWhole ?_ (by rw [hself]; exact hserves)
    rw [hself, putZoneArb_za, Quad.get_set_ne _ _ (Idx4.partner_ne z)]
  have harb : ∀ y, y ≠ z → ((s.rejoined z).za.get y).arb = (s.za.get y).arb := fun y hy => by
    rw [rejoined_get, if_neg hy]
    split <;> rfl
  have hz : ((s.rejoined z).za.get z).arb = (s.za.get z.partner).arb := by rw [rejoined_get, if_pos rfl]
  have hwhole : ∀ y, y ≠ z → y ≠ z.partner → (s.rejoined z).whole y = s.whole y := fun y hy hp => by
    rw [State.whole, rejoined_get, if_neg hy, if_neg hp]
    rfl
  have hrch : (s.rejoined z).rch = s.rch := by rw [rejoined_frame]
  have hout : P → ServesOutside [z] (s.rejoined z) := fun hp =>
    ((h.channels hp).outside (zs := [z]) fun y hy => by rw [List.mem_singleton.mp hy, hst]; rfl).1.congr hrch (by rw [rejoined_frame])
      fun y hy => harb y (by simpa using hy)
  have hothers : P → ∀ y c, y ≠ z → y ≠ z.partner → (s.rejoined z).whole y = true → s.attachedTo y c → s.attachedTo y.partner c :=
    fun hp y c hy hpy hw ha => (h.channels hp).shared y c ((hwhole y hy hpy) ▸ hw) ha
  rw [reform_eq]
  split
  · rename_i hplays
    have hlevel : ∀ u : State, Consistent P Q u → Consistent P Q (u.applyLevel z) := fun u hu => by
      rw [applyLevel_frame]
      exact hu.same rfl rfl rfl
    refine hlevel _ ⟨(ZonesAlike.of_za (by rw [joinZone_frame])).kept hzones, fun hp => ?_, fun hoff => absurd hoff hq⟩
    obtain ⟨c, old, k, hold, ha, hk, hid⟩ := (h.channels hp).playing z.partner hplays
    obtain ⟨d, hd⟩ := chanOf_of_attached (s := s.rejoined z) (c := c) ⟨old, by rwa [hrch], ha⟩
    have hdc : d = c := (hout hp).only z.partner d c (chanOf_attached hd) ⟨old, by rwa [hrch], ha⟩
    subst hdc
    obtain ⟨old', ch, hold', ht, hch, hatt⟩ := joinZone_joins (z := z) hd
    rw [hrch] at hold'
    cases hold.symm.trans hold'
    have g : JoinsChannel (s.rejoined z) ((s.rejoined z).joinZone z z.partner) z k d ch :=
      ⟨by rw [ht], by rw [hch]; exact hid, hatt, fun e he => by rw [hrch] at he; cases hold.symm.trans he; exact hch⟩
    have hserve := (hout hp).joined g List.not_mem_nil (by rw [hz]; exact hplays) (by rw [hz]; exact hk)
    refine hserve.serve fun y e _ hw hy => ?_
    have hw : (s.rejoined z).whole y = true := by rwa [State.whole, joinZone_frame] at hw
    have hattached : ∀ x f, (s.rejoined z).attachedTo x f ↔ s.attachedTo x f := fun x f => by rw [State.attachedTo, State.attachedTo, hrch]
    rw [g.attachedTo, hattached] at hy ⊢
    have hpd : s.attachedTo z.partner d := ⟨old, hold, ha⟩
    rcases hy with ⟨rfl, rfl⟩ | hy
    · exact .inr hpd
    · by_cases hyz : y = z
      · subst hyz
        have := (h.channels hp).attached y e hy
        rw [hst] at this
        cases this
      · by_cases hyp : y = z.partner
        · subst hyp
          exact .inl ⟨Idx4.partner_partner z, (h.channels hp).only _ e d hy hpd⟩
        · exact .inr (hothers hp y e hyz hyp hw hy)
  · rename_i hrests
    have hnone : ∀ y, y = z ∨ y = z.partner → ((s.rejoined z).za.get y).arb.state.plays = false := by
      rintro y (rfl | rfl)
      · rw [hz]; simpa using hrests
      · rw [harb _ (Idx4.partner_ne z)]; simpa using hrests
    refine ⟨hzones, fun hp => (hout hp).resting (fun y c hy hw ha => ?_) fun y hy => ?_, fun hoff => absurd hoff hq⟩
    · have hplays := ((hout hp).attached y c ha).2
      have hy : ¬ (y = z ∨ y = z.partner) := fun hy => Bool.false_ne_true ((hnone y hy).symm.trans hplays)
      have hrejoined : ∀ x, (s.rejoined z).attachedTo x c ↔ s.attachedTo x c := fun x => by rw [State.attachedTo, State.attachedTo, hrch]
      rw [hrejoined] at ha ⊢
      exact hothers hp y c (fun e => hy (.inl e)) (fun e => hy (.inr e)) hw ha
    · rw [List.mem_singleton.mp hy]
      exact hnone z (.inl rfl)

/-! ### Attributes and service (R128 to R130) -/

/-- A zone's attributes are nothing to its consistency. -/
theorem modZone_consistent (h : Consistent P Q s) (z : ZoneId) {f : Zone → Zone} (harb : ∀ r, (f r).arb = r.arb)
    (hserv : ∀ r, (f r).service = r.service) (hpair : ∀ r, (f r).pair = r.pair) : Consistent P Q (s.modZone z f) := by
  refine h.congr ⟨fun y => ?_, fun y => ?_, fun y => ?_⟩ rfl rfl <;> rw [modZone_get] <;> split
  all_goals first
    | rfl
    | (rename_i hy; rw [hy]; first | exact harb _ | exact hserv _ | exact hpair _)

theorem applyStaged_consistent (h : Consistent P Q s) (z : ZoneId) : Consistent P Q (s.applyStaged z) := by
  unfold State.applyStaged
  split
  · split
    · exact modZone_consistent h z (fun _ => rfl) (fun _ => rfl) fun _ => rfl
    · exact h
  · exact h

theorem modService_turned (s : State) (z : ZoneId) (on : Bool) : ServiceTurned z s (s.modZone z (fun r => { r with service := on })) := by
  refine ⟨fun y => ?_, fun y => ?_, fun y hy => ?_, rfl, rfl⟩ <;> rw [modZone_get]
  · split
    · rename_i hy; rw [hy]
    · rfl
  · split
    · rename_i hy; rw [hy]
    · rfl
  · rw [if_neg hy]

theorem setService_consistent (h : Consistent P Q s) (hq : ¬ Q) (z : ZoneId) (on : Bool) : Consistent P Q (s.setService z on) := by
  unfold State.setService
  split
  · exact h
  · rename_i hne
    have hturned := modService_turned s z on
    have hself : ((s.modZone z (fun r => { r with service := on })).za.get z).service = on := by rw [modZone_get, if_pos rfl]
    dsimp only
    split
    · rename_i hon
      have hz : (s.za.get z).arb.state = .outOfService := (h.zones z).service (by rw [hon] at hne; simpa using Ne.symm hne)
      have hturned' : ServiceTurned z s ((s.modZone z (fun r => { r with service := on })).modLu z (fun u => { u with k := u.initK })) :=
        ⟨hturned.arb, hturned.pair, hturned.service, rfl, rfl⟩
      split
      · exact putBare_consistent h hq (.inr hz) hturned' (hself.trans hon) (.inl rfl)
      · exact returnZone_consistent h hq (.inr hz) hturned' (hself.trans hon)
    · exact settle_consistent (clearZone_consistent h hq hturned (.inr rfl) fun _ => rfl)

theorem acceptZattr_consistent (h : Consistent P Q s) (hq : ¬ Q) (z : ZoneId) (a : StagedAttr) (on : Bool) : Consistent P Q (s.acceptZattr z a on) :=
  applyStaged_consistent (modZone_consistent (f := fun r => { r with staged := some a }) (setService_consistent h hq z on) z (fun _ => rfl)
    (fun _ => rfl) fun _ => rfl) z

end

end Sys2Proof.Machine
end

section
/-!
SUPPORT. The link's work, and the commands that are not the zones' own, keep the zones consistent: most touch no zone, the others by the operations
of the zone arbiter.
-/

namespace Sys2Proof.Machine

open Sys2Proof

section

variable {P Q : Prop} {s t : State}

/-! ### Frames that fail, withdrawals, eviction (R14, R95 to R100, R167, R168) -/

theorem modEntry_consistent (h : Consistent P Q s) (id : ClaimId) (f : Entry → Entry) : Consistent P Q (s.modEntry id f) := h.same rfl rfl rfl

theorem modOrigin_consistent (h : Consistent P Q s) (id : ClaimId) (f : OriginPart → OriginPart) : Consistent P Q (s.modOrigin id f) := h.same rfl rfl rfl

theorem setTx_consistent (h : Consistent P Q s) (q : List TxFrame) : Consistent P Q (s.setTx q) := h.same rfl rfl rfl

theorem frameEnd_consistent (h : Consistent P Q s) : Consistent P Q s.frameEnd := h.same rfl rfl rfl

theorem lowFail_consistent (h : Consistent P Q s) (f : TxFrame) : Consistent P Q (s.lowFail f) := by
  unfold State.lowFail
  split
  · exact modEntry_consistent h _ _
  · exact h.same rfl rfl rfl
  · exact h

theorem sendFailed_consistent (h : Consistent P Q s) (c : ClaimFrame) : Consistent P Q (s.sendFailed c) := by
  unfold State.sendFailed
  dsimp only
  repeat' split
  all_goals first
    | exact h
    | exact settle_consistent (offerEntry_consistent (modEntry_consistent h _ _) _)

theorem cedeFailed_consistent (h : Consistent P Q s) (id : ClaimId) (cut : Bool) : Consistent P Q (s.cedeFailed id cut) :=
  settle_consistent (modOrigin_consistent (withdrawZones_consistent h id cut) _ _)

theorem failFrame_consistent (h : Consistent P Q s) (f : TxFrame) : Consistent P Q (s.failFrame f) := by
  unfold State.failFrame
  split
  · exact sendFailed_consistent h _
  · exact cedeFailed_consistent h _ _
  · exact h.callSide (handoffFailed_side s _)
  · exact h
  · exact lowFail_consistent h f
  · exact lowFail_consistent h f

theorem enqueue_consistent (h : Consistent P Q s) (b : TxBody) (dst : Nat) : Consistent P Q (s.enqueue b dst) := by
  unfold State.enqueue
  dsimp only
  split
  · exact setTx_consistent h _
  · exact failFrame_consistent (setTx_consistent h _) _

theorem takeBack_consistent (h : Consistent P Q s) (id : ClaimId) : Consistent P Q (s.takeBack id) :=
  settle_consistent (modEntry_consistent (setTx_consistent h _) _ _)

theorem withdrawOwn_consistent (h : Consistent P Q s) (cut : Bool) (id : ClaimId) : Consistent P Q (s.withdrawOwn cut id) := by
  unfold State.withdrawOwn
  repeat' split
  all_goals first
    | exact h
    | exact enqueue_consistent (modOrigin_consistent h _ _) _ _
    | exact modOrigin_consistent (setTx_consistent h _) _ _
    | exact takeBack_consistent h id
    | exact settle_consistent (withdrawZones_consistent (modOrigin_consistent h _ _) _ _)

theorem takeCede_consistent (h : Consistent P Q s) (src : Nat) (id : ClaimId) (cut : Bool) : Consistent P Q (s.takeCede src id cut) := by
  unfold State.takeCede
  split
  · exact settle_consistent (withdrawZones_consistent h id cut)
  · exact h

theorem ownClaim_consistent (h : Consistent P Q s) (c : ClaimFrame) : Consistent P Q (s.ownClaim c) := by
  have hsent : ∀ id f, Consistent P Q ((s.modEntry id f).offerEntry id).settle := fun id f =>
    settle_consistent (offerEntry_consistent (modEntry_consistent h id f) id)
  unfold State.ownClaim
  dsimp only
  repeat' split
  all_goals first
    | exact h
    | exact enqueue_consistent (hsent _ _) _ _
    | exact hsent _ _

theorem evict_consistent (h : Consistent P Q s) (id : ClaimId) : Consistent P Q (s.evict id) :=
  (settle_consistent (modEntry_consistent (evictZones_consistent h id) id _)).same rfl rfl rfl

theorem enterClaim_consistent (h : Consistent P Q s) (src : Nat) (c : ClaimFrame) : Consistent P Q (s.enterClaim src c) := by
  have hentered : Consistent P Q (s.setClt (s.clt ++ [s.receivedEntry src c])) := h.same rfl rfl rfl
  exact settle_consistent (offerEntry_consistent hentered _)

theorem peerClaim_consistent (h : Consistent P Q s) (src : Nat) (c : ClaimFrame) : Consistent P Q (s.peerClaim src c) := by
  unfold State.peerClaim
  repeat' split
  all_goals first
    | exact h
    | exact enterClaim_consistent h src c
    | exact enterClaim_consistent (evict_consistent h _) src c

theorem answer_consistent (h : Consistent P Q s) (f : RxFrame) (k key : Nat) (c : AnswerCode) : Consistent P Q (s.answer f k key c) := by
  unfold State.answer
  split
  · exact h
  · exact enqueue_consistent h _ _

theorem callFrame_consistent (h : Consistent P Q s) (k : Nat) (f : RxFrame) {act : State → State}
    (hact : ∀ u, Consistent P Q u → Consistent P Q (act u)) : Consistent P Q (s.callFrame k f act) := by
  have hend := frameEnd_consistent h
  unfold State.callFrame
  dsimp only
  split
  · exact hend
  · split
    · exact hact _ hend
    · split
      · exact answer_consistent hend _ _ _ _
      · exact hend
    · exact hend

/-! ### Frames for calls -/

/-- A call frame's command keeps what the act on its call keeps. -/
theorem answered_consistent (h : Consistent P Q s) {c : Instr} {k : Nat} {f : RxFrame} {key : Nat} {r : State → State × AnswerCode}
    (hc : exec c s = .next (s.callFrame k f (fun u => State.answered f k key (r u)))) (hr : ∀ u, Consistent P Q u → Consistent P Q (r u).1) :
    Takes c s (Consistent P Q) :=
  takes_of hc (callFrame_consistent h k f fun u hu => answer_consistent (hr u hu) _ _ _ _)

theorem callset_consistent (h : Consistent P Q s) (f : RxFrame) : Takes (.callset f) s (Consistent P Q) := by
  refine answered_consistent h rfl fun u hu => ?_
  unfold State.takeCallset
  repeat' split
  all_goals first
    | exact hu
    | exact hu.callSide (install_side u _)

theorem callamend_consistent (h : Consistent P Q s) (f : RxFrame) : Takes (.callamend f) s (Consistent P Q) := by
  refine answered_consistent h rfl fun u hu => ?_
  unfold State.takeAmend
  repeat' split
  all_goals exact hu.same rfl rfl rfl

theorem callplan_consistent (h : Consistent P Q s) (f : RxFrame) : Takes (.callplan f) s (Consistent P Q) := by
  refine answered_consistent h rfl fun u hu => ?_
  unfold State.takePlan
  repeat' split
  all_goals exact hu.same rfl rfl rfl

theorem calldrop_consistent (h : Consistent P Q s) (f : RxFrame) : Takes (.calldrop f) s (Consistent P Q) := by
  refine answered_consistent h rfl fun u hu => ?_
  unfold State.takeDrop
  repeat' split
  all_goals first
    | exact hu
    | exact (hu.callSide (leaveService_side u _ _)).foldl (fun w id hw => withdrawOwn_consistent hw false id) _

theorem trigger_consistent (h : Consistent P Q s) (f : RxFrame) : Takes (.trigger f) s (Consistent P Q) := by
  have hstep : ∀ (u : State) key i c st, Consistent P Q u → Consistent P Q (u.triggerStep key i c st).1 := fun u key i c st hu => by
    unfold State.triggerStep State.triggerFire
    dsimp only
    repeat' split
    all_goals first
      | exact hu
      | exact hu.callSide (modTimer_side u _ _ _)
      | exact hu.callSide (pushOrig_side u _)
      | exact hu.callSide ((modTimer_side u _ _ _).trans (pushOrig_side _ _))
  refine answered_consistent h rfl fun u hu => ?_
  unfold State.takeTrigger
  repeat' split
  all_goals first
    | exact hu
    | exact hstep u _ _ _ _ hu

theorem handoff_consistent (h : Consistent P Q s) (f : RxFrame) : Takes (.handoff f) s (Consistent P Q) := by
  refine takes_of rfl (callFrame_consistent h _ f fun u hu => ?_)
  unfold State.handoffFrame
  dsimp only
  split
  · split
    · refine answer_consistent ?_ f _ _ _
      unfold State.takeHandoff
      repeat' split
      all_goals first
        | exact hu
        | exact hu.callSide (install_side u _)
    · exact hu
  · exact hu

theorem answerFrame_consistent (h : Consistent P Q s) (f : RxFrame) : Takes (.answer f) s (Consistent P Q) := by
  have hend := frameEnd_consistent h
  refine takes_of rfl ?_
  unfold State.takeAnswer
  repeat' split
  all_goals first
    | exact hend
    | exact hend.callSide (settleHandoff_side _ _)
    | exact hend.callSide (revertHandoff_side _ _)

theorem handoffTimeout_consistent (h : Consistent P Q s) (key : Nat) : Takes (.handoffTimeout key) s (Consistent P Q) := by
  refine takes_of rfl ?_
  repeat' split
  all_goals first
    | exact h
    | exact h.callSide (revertHandoff_side s _)

/-! ### The other frames received -/

theorem query_consistent (h : Consistent P Q s) (f : RxFrame) (maint : Bool) : Takes (.query f maint) s (Consistent P Q) := by
  refine takes_of rfl ?_
  split
  · split
    · refine enqueue_consistent (h.same ?_ ?_ ?_) _ _
      all_goals split <;> rfl
    · exact frameEnd_consistent h
  · exact frameEnd_consistent h

theorem zattr_consistent (h : Consistent P Q s) (hq : Q → s.sul.mode = .loading) (f : RxFrame) (maint : Bool) :
    Takes (.zattr f maint) s (Consistent P Q) := by
  have hend := frameEnd_consistent h
  have hpins : Consistent P Q (s.frameEnd.setPins { s.frameEnd.pins with maint := maint }) := hend.same rfl rfl rfl
  refine takes_of rfl ?_
  split
  · split
    · rename_i hm
      have hnq : ¬ Q := fun hoff => by cases (hq hoff).symm.trans hm
      refine answer_consistent ?_ _ _ _ _
      unfold State.takeZattr
      dsimp only
      split
      · exact hpins
      · split
        · exact hpins
        · exact acceptZattr_consistent hpins hnq _ _ _
    · exact answer_consistent hend _ _ _ _
    · exact hend
  · exact hend

theorem claim_consistent (h : Consistent P Q s) (f : RxFrame) : Takes (.claim f) s (Consistent P Q) := by
  have hend := frameEnd_consistent h
  refine takes_of rfl ?_
  unfold State.takeClaim
  repeat' split
  all_goals first
    | exact hend
    | exact ownClaim_consistent hend _
    | exact peerClaim_consistent hend _ _

theorem cede_consistent (h : Consistent P Q s) (f : RxFrame) : Takes (.cede f) s (Consistent P Q) := by
  have hend := frameEnd_consistent h
  refine takes_of rfl ?_
  repeat' split
  all_goals first
    | exact hend
    | exact takeCede_consistent hend _ _ _

theorem zstat_consistent (h : Consistent P Q s) (f : RxFrame) : Takes (.zstat f) s (Consistent P Q) := by
  refine takes_of rfl ?_
  repeat' split
  all_goals exact h.same rfl rfl rfl

theorem frameRejected_consistent (h : Consistent P Q s) (bytes : List Byte) (truncated : Bool) :
    Takes (.frameRejected bytes truncated) s (Consistent P Q) := by
  refine takes_of rfl ?_
  split <;> exact h.same rfl rfl rfl

/-! ### Pins -/

theorem occChange_consistent (h : Consistent P Q s) (p : PlatId) : Takes (.occChange p) s (Consistent P Q) := by
  have hmod := h.callSide (modPlat_side s p (fun r => { r with occ := !r.occ }))
  refine takes_of rfl ?_
  split
  · exact hmod.callSide (occMoved_side _ p)
  · exact hmod

theorem debounceWaitExpiry_consistent (h : Consistent P Q s) (p : PlatId) : Takes (.debounceWaitExpiry p) s (Consistent P Q) := by
  refine takes_of rfl ?_
  split
  · exact h.callSide (acceptOcc_side s p)
  · exact h

theorem doorsRise_consistent (h : Consistent P Q s) (p : PlatId) : Takes (.doorsRise p) s (Consistent P Q) := by
  refine takes_of rfl ?_
  unfold State.doorsEdge
  repeat' (first | split | dsimp only)
  all_goals first
    | exact h
    | exact h.same rfl rfl rfl
    | exact h.callSide (((modPlat_side s p _).trans (modPlat_side _ p _)).trans (eachStep_side doorsStep_side _ _))

theorem doorsFall_consistent (h : Consistent P Q s) (p : PlatId) : Takes (.doorsFall p) s (Consistent P Q) := by
  refine takes_of rfl ?_
  split <;> exact h.same rfl rfl rfl

theorem approachRise_consistent (h : Consistent P Q s) (p : PlatId) : Takes (.approachRise p) s (Consistent P Q) := by
  refine takes_of rfl ?_
  unfold State.fireApproach
  repeat' (first | split | dsimp only)
  all_goals first
    | exact h.same rfl rfl rfl
    | exact h.callSide (((modPlat_side s p _).trans (modPlat_side _ p _)).trans (pushOrig_side _ _))

theorem fireEvac_consistent (h : Consistent P Q s) : Consistent P Q s.fireEvac := by
  have hset : Consistent P Q (s.setEvac { s.evac with timer := some (1000 * s.cfg.evacPeriod) }) := h.same rfl rfl rfl
  unfold State.fireEvac
  dsimp only
  split
  · exact hset
  · exact hset.callSide (pushOrig_side _ _)

theorem evacRise_consistent (h : Consistent P Q s) : Takes .evacRise s (Consistent P Q) := by
  have hset : ∀ u : State, Consistent P Q u → Consistent P Q (u.setEvac { u.evac with level := true }) := fun u hu => hu.same rfl rfl rfl
  have hpins : Consistent P Q (s.setPins { s.pins with evac := true }) := h.same rfl rfl rfl
  refine takes_of rfl ?_
  repeat' (first | split | dsimp only)
  · exact h
  · exact fireEvac_consistent (hset _ hpins)
  · exact hpins

theorem evacTimerExpiry_consistent (h : Consistent P Q s) : Takes .evacTimerExpiry s (Consistent P Q) := by
  refine takes_of rfl ?_
  split
  · exact fireEvac_consistent h
  · exact h

theorem evacFall_consistent (h : Consistent P Q s) : Takes .evacFall s (Consistent P Q) := by
  have hstop : ∀ u : State, Consistent P Q u → Consistent P Q u.evacStop := fun u hu => by
    have hcleared : Consistent P Q ((u.setEvac { u.evac with level := false, timer := none }).removeOrigs Orig.isEvac) := hu.same rfl rfl rfl
    have hwithdraw : ∀ v : State, Consistent P Q v → Consistent P Q v.withdrawEvac := fun v hv => by
      unfold State.withdrawEvac
      split
      · exact withdrawOwn_consistent hv true _
      · exact hv
    exact (hwithdraw _ hcleared).same rfl rfl rfl
  have hpins : Consistent P Q (s.setPins { s.pins with evac := false }) := h.same rfl rfl rfl
  refine takes_of rfl ?_
  repeat' (first | split | dsimp only)
  · exact hstop _ hpins
  · exact hpins
  · exact h

/-! ### Calls and claims -/

theorem swap_consistent (h : Consistent P Q s) (key : Nat) : Takes (.swap key) s (Consistent P Q) := by
  have hstate : ∀ (u : State) key ch, Consistent P Q u → Consistent P Q (u.swapState key ch) := fun u key ch hu => by
    cases ch with
    | stay => exact hu
    | toLocal p => exact hu.same rfl rfl rfl
    | handOver k n =>
      have hset : Consistent P Q ((u.modCall key (fun d => { d with state := .handingOff })).setPm
        ((u.modCall key (fun d => { d with state := .handingOff })).pm.map (Plat.setAside key))) := hu.same rfl rfl rfl
      unfold State.swapState State.sendHandoff
      dsimp only
      split
      · exact enqueue_consistent hset _ _
      · exact hset
  have hswap : ∀ (c : Call) (a : Amendment), Consistent P Q (s.swapCall c a) := fun c a => by
    have hfields : Consistent P Q ((s.modCall c.key (·.amend a)).swapPlatform c (s.platChange c a)) := by
      cases s.platChange c a <;> exact h.same rfl rfl rfl
    exact (hstate _ c.key _ (hfields.callSide (replan_side _ c.key a))).callSide (swapExpiry_side _ c)
  refine takes_of rfl ?_
  repeat' split
  all_goals first
    | exact h
    | exact hswap _ _

theorem callRemoval_consistent (h : Consistent P Q s) (key : Nat) : Takes (.callRemoval key) s (Consistent P Q) := by
  refine takes_of rfl ?_
  repeat' split
  all_goals exact h.same rfl rfl rfl

theorem entryRemoval_consistent (h : Consistent P Q s) (id : ClaimId) : Takes (.entryRemoval id) s (Consistent P Q) := by
  refine takes_of rfl ?_
  repeat' split
  all_goals exact h.same rfl rfl rfl

theorem coverageWindowClose_consistent (h : Consistent P Q s) (id : ClaimId) : Takes (.coverageWindowClose id) s (Consistent P Q) := by
  have hclose : ∀ e o, Consistent P Q (s.closeWindow e o) := fun e o => by
    unfold State.closeWindow
    split
    · exact (modOrigin_consistent h _ _).callSide (pushOrig_side _ _)
    · exact modOrigin_consistent h _ _
  refine takes_of rfl ?_
  repeat' split
  all_goals first
    | exact h
    | exact hclose _ _

theorem compose_consistent (h : Consistent P Q s) : Takes .compose s (Consistent P Q) := by
  have hqueue : ∀ rest, Consistent P Q (s.setQueue rest) := fun rest => h.same rfl rfl rfl
  have hcompose : ∀ (u : State) own o, Consistent P Q u → Consistent P Q (u.composeOrig own o) := fun u own o hu => by
    unfold State.composeOrig
    dsimp only
    split
    · exact hu
    · rw [writeBack_eq]
      have hentered : ∀ m l, Consistent P Q ((u.setCmp m).setClt l) := fun m l => hu.same rfl rfl rfl
      exact (enqueue_consistent (hentered _ _) _ _).same rfl rfl rfl
  refine takes_of rfl ?_
  repeat' split
  all_goals first
    | exact h
    | exact hcompose _ _ _ (hqueue _)

/-! ### The clocks and the link -/

theorem secondBoundary_consistent (h : Consistent P Q s) : Takes .secondBoundary s (Consistent P Q) := by
  have htick : Consistent P Q (s.setSck s.sck.tick) := h.same rfl rfl rfl
  have hsteps := htick.callSide (eachStep_side (tickStep_side s.sck.advances) (s.setSck s.sck.tick).stepRefs _)
  refine takes_of rfl ?_
  split
  · unfold State.second
    dsimp only
    split
    · exact hsteps.callSide (expiryTests_side _)
    · exact hsteps
  · exact h

theorem clock_consistent (h : Consistent P Q s) (f : RxFrame) : Takes (.clock f) s (Consistent P Q) := by
  have hset : ∀ u t, Consistent P Q u → Consistent P Q (u.setClock t) := fun u t hu => by
    have hsck : ∀ v, Consistent P Q (u.setSck v) := fun v => hu.same rfl rfl rfl
    unfold State.setClock
    dsimp only
    refine Consistent.callSide ?_ (expiryTests_side _)
    split
    · exact (hsck _).callSide (eachStep_side forwardStep_side _ _)
    · split
      · exact (hsck _).callSide (eachStep_side backwardStep_side _ _)
      · exact hsck _
  have hend := frameEnd_consistent h
  refine takes_of rfl ?_
  repeat' split
  all_goals first
    | exact hend
    | exact hset _ _ hend

theorem samplingInstant_consistent (h : Consistent P Q s) (vref : Nat) (envelope : Quad Nat) :
    Takes (.samplingInstant vref envelope) s (Consistent P Q) := by
  have hsample : ∀ u z, Consistent P Q u → Consistent P Q (State.sampleZone u vref envelope z) := fun u z hu => by
    unfold State.sampleZone
    split <;> exact hu.same rfl rfl rfl
  have hms : Consistent P Q s.millisecond := h.same rfl rfl rfl
  refine takes_of rfl ?_
  split
  · dsimp only
    split
    · exact hms.foldl hsample _
    · exact hms
  · exact h

theorem trackerWindowComplete_consistent (h : Consistent P Q s) (z : ZoneId) : Takes (.trackerWindowComplete z) s (Consistent P Q) := by
  refine takes_of rfl ?_
  repeat' split
  all_goals exact h.same rfl rfl rfl

theorem attemptStart_consistent (h : Consistent P Q s) (idle : Nat) : Takes (.attemptStart idle) s (Consistent P Q) := by
  refine takes_of rfl ?_
  split <;> exact h.same rfl rfl rfl

theorem delimiterHeard_consistent (h : Consistent P Q s) (idle : Nat) : Takes (.delimiterHeard idle) s (Consistent P Q) := by
  refine takes_of rfl ?_
  split <;> exact h.same rfl rfl rfl

theorem frameSent_consistent (h : Consistent P Q s) : Takes .frameSent s (Consistent P Q) := by
  have hdrop : Consistent P Q s.dropUnderWay := h.same rfl rfl rfl
  have hreport : ∀ u : State, Consistent P Q u → Consistent P Q u.reportSent := fun u hu => by
    have hset : ∀ r, Consistent P Q (u.setReport r) := fun r => hu.same rfl rfl rfl
    unfold State.reportSent
    repeat' split
    all_goals first
      | exact hu
      | exact enqueue_consistent (hset _) _ _
      | exact hset _
  refine takes_of rfl ?_
  split
  · unfold State.frameReturned
    split
    · exact ownClaim_consistent hdrop _
    · exact takeCede_consistent (modOrigin_consistent hdrop _ _) _ _ _
    · exact modEntry_consistent hdrop _ _
    · exact hdrop
    · exact hdrop.same rfl rfl rfl
    · exact hreport _ hdrop
  · exact h

theorem collision_consistent (h : Consistent P Q s) (bit : Nat) : Takes (.collision bit) s (Consistent P Q) := by
  have hrx : Consistent P Q (s.setLc { s.lc with rx := true }) := h.same rfl rfl rfl
  have hdrop : Consistent P Q (s.setLc { s.lc with rx := true }).dropUnderWay := hrx.same rfl rfl rfl
  refine takes_of rfl ?_
  split
  · split
    · unfold State.collide State.heldTakeBack
      repeat' split
      all_goals first
        | exact hdrop
        | exact takeBack_consistent hdrop _
        | exact failFrame_consistent hdrop _
        | exact setTx_consistent hrx _
    · exact h
  · exact h

end

end Sys2Proof.Machine
end

section
/-!
PROOFS. Every command keeps the zones consistent, and one channel for each zone that plays.
-/

namespace Sys2Proof.Machine

open Sys2Proof

section

variable {P Q : Prop} {s t : State}

/-! ### Samples, blocks and boundaries (R137 to R140) -/

/-- A BOUND channel's record changes but for its claim and its zones; the outputs change where zones play. -/
theorem ChannelsServe.rerecord (h : ChannelsServe s) {c : ChanId} {old ch : Chan} (hold : s.rch.get c = some old)
    (hch : ch.claim = old.claim ∧ ch.attached = old.attached) (hza : t.za = s.za) (hrch : t.rch = s.rch.set c (some ch))
    (haudio : ∀ z, (s.za.get z).arb.state.plays = false → t.audio.get z = s.audio.get z) : ChannelsServe t := by
  obtain ⟨hclaim, hatt⟩ := hch
  have hfrom : ∀ d k, t.rch.get d = some k → ∃ k₀, s.rch.get d = some k₀ ∧ k.claim = k₀.claim ∧ k.attached = k₀.attached := fun d k hk => by
    rw [hrch, Quad.get_set] at hk
    split at hk
    · rename_i hd
      cases hk
      exact ⟨old, hd ▸ hold, hclaim, hatt⟩
    · exact ⟨k, hk, rfl, rfl⟩
  have hto : ∀ d k₀, s.rch.get d = some k₀ → ∃ k, t.rch.get d = some k ∧ k.claim = k₀.claim ∧ k.attached = k₀.attached := fun d k₀ hk => by
    rw [hrch, Quad.get_set]
    split
    · rename_i hd
      rw [hd, hold] at hk
      cases hk
      exact ⟨ch, rfl, hclaim, hatt⟩
    · exact ⟨k₀, hk, rfl, rfl⟩
  have hattached : ∀ z d, t.attachedTo z d ↔ s.attachedTo z d := fun z d => by
    constructor
    · rintro ⟨k, hk, ha⟩
      obtain ⟨k₀, hk₀, -, he⟩ := hfrom d k hk
      exact ⟨k₀, hk₀, he ▸ ha⟩
    · rintro ⟨k₀, hk₀, ha⟩
      obtain ⟨k, hk, -, he⟩ := hto d k₀ hk₀
      exact ⟨k, hk, he ▸ ha⟩
  refine ⟨fun d k hk => ?_, fun z hz => ?_, fun z d e => ?_, fun z d ha => ?_, fun z d hw ha => ?_, fun z hz => ?_⟩
  · obtain ⟨k₀, hk₀, -, he⟩ := hfrom d k hk
    rw [he]
    exact h.bound d k₀ hk₀
  · rw [hza] at hz ⊢
    obtain ⟨d, k₀, p, hk₀, ha, hp, hid⟩ := h.playing z hz
    obtain ⟨k, hk, hc, he⟩ := hto d k₀ hk₀
    exact ⟨d, k, p, hk, he ▸ ha, hp, hc.trans hid⟩
  · rw [hattached, hattached]
    exact h.only z d e
  · rw [hza]
    exact h.attached z d ((hattached z d).mp ha)
  · rw [State.whole, hza] at hw
    exact (hattached _ d).mpr (h.shared z d hw ((hattached z d).mp ha))
  · rw [hza] at hz
    rw [haudio z hz]
    exact h.silent z hz

/-- A channel that is BOUND is not off. -/
theorem Consistent.not_off_of_bound (h : Consistent P Q s) {c : ChanId} {ch : Chan} (hc : s.rch.get c = some ch) : ¬ Q := fun hq => by
  rw [(h.off hq).channels c] at hc
  cases hc

theorem Consistent.rerecord (h : Consistent P Q s) {c : ChanId} {old ch : Chan} (hold : s.rch.get c = some old)
    (hch : ch.claim = old.claim ∧ ch.attached = old.attached) (hza : t.za = s.za) (hrch : t.rch = s.rch.set c (some ch))
    (haudio : P → ∀ z, (s.za.get z).arb.state.plays = false → t.audio.get z = s.audio.get z) : Consistent P Q t where
  zones := (ZonesAlike.of_za hza).kept h.zones
  channels hp := (h.channels hp).rerecord hold hch hza hrch (haudio hp)
  off hq := absurd hq (h.not_off_of_bound hold)

theorem grant_consistent (h : Consistent P Q s) : Consistent P Q s.grant := by
  rw [grant_frame]
  exact h.same rfl rfl rfl

theorem refresh_serves (ch : Chan) (reading : Bool) :
    (ch.refresh reading).claim = ch.claim ∧ (ch.refresh reading).attached = ch.attached := by
  unfold Chan.refresh
  split <;> exact ⟨rfl, rfl⟩

theorem advance_serves (ch : Chan) : ch.advance.claim = ch.claim ∧ ch.advance.attached = ch.attached := by
  unfold Chan.advance
  split <;> exact ⟨rfl, rfl⟩

theorem takeBlock_serves (s : State) (ch : Chan) (i p : Nat) (l : List Int) :
    (s.takeBlock ch i p l).claim = ch.claim ∧ (s.takeBlock ch i p l).attached = ch.attached := by
  unfold State.takeBlock
  exact refresh_serves _ _

theorem reach16_frame (s : State) (t : Nat) : s.reach16 t = { s with sck := (s.reach16 t).sck } := by
  unfold State.reach16
  split <;> rfl

theorem reach16_consistent (h : Consistent P Q s) (t : Nat) : Consistent P Q (s.reach16 t) := by
  rw [reach16_frame]
  exact h.same rfl rfl rfl

theorem deliver_consistent (h : Consistent P Q s) (r : ReadOp) (bytes : List Byte) : Consistent P Q (s.deliver r bytes) := by
  unfold State.deliver
  split
  · exact h
  · split
    · rename_i hch
      exact h.rerecord hch (takeBlock_serves _ _ _ _ _) rfl rfl fun _ _ _ => rfl
    · exact h

theorem storeReadComplete_consistent (h : Consistent P Q s) (bytes : List Byte) : Takes (.storeReadComplete bytes) s (Consistent P Q) := by
  refine takes_of rfl ?_
  split
  · refine grant_consistent (deliver_consistent ?_ _ _)
    exact h.same rfl rfl rfl
  · exact h

theorem sampleDue_consistent (h : Consistent P Q s) (c : ChanId) : Takes (.sampleDue c) s (Consistent P Q) := by
  refine takes_of rfl ?_
  repeat' split
  · rename_i ch hch _
    obtain ⟨hclaim, hatt⟩ := advance_serves ch
    obtain ⟨hclaim', hatt'⟩ := refresh_serves ch.advance (((s.reach16 ch.due16).setAudio (s.output ch ch.sample)).readingFor c)
    have hframe := reach16_frame s ch.due16
    refine grant_consistent (h.rerecord hch ⟨hclaim'.trans hclaim, hatt'.trans hatt⟩ (by rw [hframe]; rfl) (by rw [hframe]; rfl) fun hp z hz => ?_)
    have hno : ch.attached.get z ≠ true := fun ha => Bool.false_ne_true (hz.symm.trans ((h.channels hp).attached z c ⟨ch, hch, ha⟩))
    have haudio : (s.output ch ch.sample).get z = s.audio.get z := by rw [State.output, Quad.get_tabulate, if_neg hno]
    exact haudio
  · exact h
  · exact h

theorem boundaryUnit_consistent (h : Consistent P Q s) (last : Bool) (z : ZoneId) : Consistent P Q (s.boundaryUnit last z) := by
  unfold State.boundaryUnit
  split
  · exact stopUnit_consistent h z _
  · exact applyLevels_consistent h _

theorem phraseBoundary_consistent (h : Consistent P Q s) (c : ChanId) : Takes (.phraseBoundary c) s (Consistent P Q) := by
  refine takes_of rfl ?_
  repeat' split
  · rename_i ch hch _
    have hreach := reach16_consistent h ch.due16
    refine settle_consistent (Consistent.foldl ?_ (fun u z hu => boundaryUnit_consistent hu _ z) _)
    split
    · exact hreach
    · have hbound : (s.reach16 ch.due16).rch.get c = some ch := by rw [reach16_frame]; exact hch
      refine hreach.rerecord hbound ?_ rfl rfl fun _ _ _ => rfl
      exact ⟨rfl, rfl⟩
  · exact h
  · exact h

/-! ### Instants, faults, pairs (R118 to R127) -/

theorem startInstant_consistent (h : Consistent P Q s) (z : ZoneId) : Takes (.startInstant z) s (Consistent P Q) := by
  refine takes_of rfl ?_
  repeat' split
  · rename_i hst _ _
    exact enter_consistent h rfl (.inr hst) ⟨(h.zones z).arb.started hst, rfl⟩
  · exact h
  · exact h

theorem stopInstant_consistent (h : Consistent P Q s) (z : ZoneId) : Takes (.stopInstant z) s (Consistent P Q) := by
  refine takes_of rfl ?_
  split
  · exact settle_consistent (stopUnit_consistent h z _)
  · exact h

theorem waits_iff (w : List Held) (id : ClaimId) (p : Held → Bool) : waits w id p = true ↔ ∃ x ∈ w, x.id = id ∧ p x = true := by
  simp [waits, and_left_comm]

theorem missed_consistent (h : Consistent P Q s) (z : ZoneId) (id : ClaimId) (p : Held → Bool) :
    Consistent P Q (if waits (s.za.get z).arb.wait id p then (s.missWaiter z id).settle else s) := by
  split
  · rename_i hw
    obtain ⟨x, hx, -⟩ := (waits_iff _ id p).mp hw
    exact settle_consistent (missWaiter_consistent h hx id)
  · exact h

theorem nextClaimExpiry_consistent (h : Consistent P Q s) (z : ZoneId) : Takes (.nextClaimExpiry z) s (Consistent P Q) := by
  refine takes_of rfl ?_
  repeat' split
  · rename_i n hst _ _
    exact settle_consistent (nextLeft_consistent (writeDisps_consistent h n.id (s.unit z) .missed) (by rw [writeDisps_za]) hst)
  · exact h
  · exact h

theorem ampFaultRise_consistent (h : Consistent P Q s) (z : ZoneId) : Takes (.ampFaultRise z) s (Consistent P Q) := by
  have hmod := modZone_consistent h z (f := fun r => { r with ampFault := true }) (fun _ => rfl) (fun _ => rfl) fun _ => rfl
  refine takes_of rfl ?_
  split
  · exact h
  · dsimp only
    split
    · rename_i hserves
      have hin : ((s.modZone z fun r => { r with ampFault := true }).za.get z).arb.state ≠ .outOfService := fun he => by
        rw [he] at hserves
        simp [ZoneState.serves, ZoneState.silent, ZoneState.plays] at hserves
      refine settle_consistent (clearZone_consistent hmod (hmod.not_off hin) ⟨fun _ => rfl, fun _ => rfl, fun _ _ => rfl, rfl, rfl⟩ (.inl rfl)
        fun hs => absurd ((hmod.zones z).service hs) hin)
    · exact hmod

theorem ampFaultFall_consistent (h : Consistent P Q s) (z : ZoneId) : Takes (.ampFaultFall z) s (Consistent P Q) := by
  have hmod := modZone_consistent h z (f := fun r => { r with ampFault := false }) (fun _ => rfl) (fun _ => rfl) fun _ => rfl
  refine takes_of rfl ?_
  split
  · dsimp only
    split
    · rename_i hfault
      have hst : ((s.modZone z fun r => { r with ampFault := false }).za.get z).arb.state = .fault := by
        simp only [Bool.and_eq_true, beq_iff_eq] at hfault
        exact hfault.2
      have hin : ((s.modZone z fun r => { r with ampFault := false }).za.get z).arb.state ≠ .outOfService := by rw [hst]; decide
      refine returnZone_consistent hmod (hmod.not_off hin) (.inl hst) ⟨fun _ => rfl, fun _ => rfl, fun _ _ => rfl, rfl, rfl⟩ ?_
      by_contra hoff
      exact hin ((hmod.zones z).service (by simpa using hoff))
    · exact hmod
  · exact h

theorem pairReform_consistent (h : Consistent P Q s) (z : ZoneId) : Takes (.pairReform z) s (Consistent P Q) := by
  refine takes_of rfl ?_
  split
  · exact reform_consistent h (by assumption)
  · exact h

/-! ### Every command -/

/-- Each command but the loader's keeps the zones consistent, the channels where they were in order, and all off through LOADING. -/
theorem exec_consistent {c : Instr} (hc : startsUp c = false) (h : Consistent P Q s) (hq : Q → s.sul.mode = .loading) :
    Takes c s (Consistent P Q) := by
  cases c with
  | reset => cases hc
  | leaveReset => cases hc
  | headerReadDone => cases hc
  | configReadDone => cases hc
  | secondBoundary => exact secondBoundary_consistent h
  | clock f => exact clock_consistent h f
  | callset f => exact callset_consistent h f
  | callamend f => exact callamend_consistent h f
  | callplan f => exact callplan_consistent h f
  | calldrop f => exact calldrop_consistent h f
  | trigger f => exact trigger_consistent h f
  | handoff f => exact handoff_consistent h f
  | answer f => exact answerFrame_consistent h f
  | handoffTimeout key => exact handoffTimeout_consistent h key
  | query f maint => exact query_consistent h f maint
  | report f => exact takes_of rfl (frameEnd_consistent h)
  | zattr f maint => exact zattr_consistent h hq f maint
  | claim f => exact claim_consistent h f
  | cede f => exact cede_consistent h f
  | zstat f => exact zstat_consistent h f
  | frameRejected bytes truncated => exact frameRejected_consistent h bytes truncated
  | occChange p => exact occChange_consistent h p
  | debounceWaitExpiry p => exact debounceWaitExpiry_consistent h p
  | doorsRise p => exact doorsRise_consistent h p
  | doorsFall p => exact doorsFall_consistent h p
  | approachRise p => exact approachRise_consistent h p
  | approachFall p => exact takes_of rfl (h.same rfl rfl rfl)
  | evacRise => exact evacRise_consistent h
  | evacTimerExpiry => exact evacTimerExpiry_consistent h
  | evacFall => exact evacFall_consistent h
  | ampFaultRise z => exact ampFaultRise_consistent h z
  | ampFaultFall z => exact ampFaultFall_consistent h z
  | compose => exact compose_consistent h
  | swap key => exact swap_consistent h key
  | callRemoval key => exact callRemoval_consistent h key
  | entryRemoval id => exact entryRemoval_consistent h id
  | coverageWindowClose id => exact coverageWindowClose_consistent h id
  | startInstant z => exact startInstant_consistent h z
  | stopInstant z => exact stopInstant_consistent h z
  | jointWaiterStart z id => exact takes_of rfl (missed_consistent h z id _)
  | looseWaiterExpiry z id => exact takes_of rfl (missed_consistent h z id _)
  | nextClaimExpiry z => exact nextClaimExpiry_consistent h z
  | phraseBoundary c => exact phraseBoundary_consistent h c
  | storeReadComplete bytes => exact storeReadComplete_consistent h bytes
  | hangoverExpiry z => exact takes_of rfl h
  | trackerWindowComplete z => exact trackerWindowComplete_consistent h z
  | stagedAttrApply z => exact takes_of rfl (applyStaged_consistent h z)
  | pairReform z => exact pairReform_consistent h z
  | attemptStart idle => exact attemptStart_consistent h idle
  | delimiterHeard idle => exact delimiterHeard_consistent h idle
  | frameSent => exact frameSent_consistent h
  | collision bit => exact collision_consistent h bit
  | samplingInstant vref envelope => exact samplingInstant_consistent h vref envelope
  | sampleDue c => exact sampleDue_consistent h c

end

end Sys2Proof.Machine
end

section
/-!
PROOFS. The loader keeps the zones consistent and the channels FREE, and the statements about the zones' and the channels' consistency.
-/

namespace Sys2Proof.Machine

open Sys2Proof

section

variable {s t : State}

/-! ### The zones at the end of loading (R109, R124, R182) -/

/-- The zones as the node enters its mode: IDLE or in FAULT by their amplifiers, in service, and WHOLE pairs IDLE; the channels and outputs stand as
they did. -/
structure Entered (s t : State) : Prop where
  arb : ∀ z, (t.za.get z).arb = Arb.bare (if (t.za.get z).ampFault then .fault else .idle)
  service : ∀ z, (t.za.get z).service = true
  whole : ∀ z, (t.za.get z).pair = some .whole →
    (t.za.get z).ampFault = false ∧ (t.za.get z.partner).ampFault = false ∧ (t.za.get z.partner).pair = some .whole
  rch : t.rch = s.rch
  audio : t.audio = s.audio
  mode : t.sul.mode ≠ .loading
  held : t.sul.resetHeld = s.sul.resetHeld

theorem Entered.kept (h : Entered s t) : ZonesKept t := fun z => by
  have hidle : ∀ y, (t.za.get y).ampFault = false → (t.za.get y).arb = Arb.bare .idle := fun y hy => by rw [h.arb, hy]; rfl
  have hkept : (t.za.get z).arb.Kept := by
    rw [h.arb]
    exact Arb.bare_kept (by split <;> rfl)
  refine ⟨hkept.bare, hkept.current, hkept.next, hkept.stopAt, fun hs => ?_, fun hw => ?_, fun hw => (h.whole z hw).2.2, fun hw => ?_⟩
  · exact absurd ((h.service z).symm.trans hs) (by decide)
  · rw [hidle z (h.whole z hw).1]
    rfl
  · obtain ⟨hz, hp, -⟩ := h.whole z hw
    rw [hidle z hz, hidle _ hp]

theorem Entered.not_plays (h : Entered s t) (z : ZoneId) : (t.za.get z).arb.state.plays = false := by
  rw [h.arb]
  split <;> rfl

theorem loadZone_pair (b : List Byte) (z : ZoneId) (paired amp ampPartner : Bool) :
    (loadZone b z paired amp ampPartner).pair = some .whole ↔ paired = true ∧ amp = false ∧ ampPartner = false := by
  cases paired <;> cases amp <;> cases ampPartner <;> simp [loadZone]

theorem loadPaired_partner (v : Nat) (z : ZoneId) : loadPaired v z.partner = loadPaired v z := by
  cases z <;> rfl

theorem modeFor_ne_loading (s : State) (o : LoadOutcome) : s.modeFor o ≠ .loading := by
  unfold State.modeFor
  split
  · split <;> decide
  · decide

theorem goodLoad_entered (s : State) (e : Evac) (q : List Orig) : Entered s ((s.goodLoad.setEvac e).setQueue q) := by
  have hzone : ∀ z, ((s.goodLoad.setEvac e).setQueue q).za.get z = loadZone (zoneBytes (s.areaSection s.sul.image) z) z
      (loadPaired (field8 (s.areaSection s.sul.image) 46) z) (s.za.get z).ampFault (s.za.get z.partner).ampFault := fun z => (goodLoad_zone s z).1
  refine ⟨fun z => by rw [hzone]; rfl, fun z => by rw [hzone]; rfl, fun z => ?_, rfl, rfl, modeFor_ne_loading s .good, rfl⟩
  rw [hzone, hzone, loadZone_pair, loadZone_pair, Idx4.partner_partner, loadPaired_partner]
  exact fun ⟨hp, ha, hb⟩ => ⟨ha, hb, hp, hb, ha⟩

theorem endLoading_entered (s : State) (o : LoadOutcome) : Entered s (s.endLoading o) := by
  by_cases ho : o = .good
  · subst ho
    obtain ⟨e, q, hend, -⟩ := endLoading_good s
    rw [hend]
    exact goodLoad_entered s e q
  · obtain ⟨hframe, hmode, -, -, -, -, -, hzones⟩ := endLoading_entersStoreFault s ho
    have hsul : (s.endLoading o).sul.resetHeld = s.sul.resetHeld := by
      have hmode : s.modeFor o = .storeFault := by cases o <;> first | rfl | exact absurd rfl ho
      rw [endLoading_eq, if_neg (by simp [hmode]), State.loadEnded, if_neg ho, startPm_eq]
      rfl
    refine ⟨fun z => ?_, fun z => (hzones z).2.1, fun z hw => ?_, by rw [hframe], by rw [hframe], by rw [hmode]; decide, hsul⟩
    · rw [(hzones z).2.2.2.2]
      exact (hzones z).1
    · rw [(hzones z).2.2.1] at hw
      cases hw

/-! ### The loader's commands (R178, R181, R182) -/

/-- What a loader's command leaves of the zones and channels: all off, as they stand while LOADING goes on, or as the node enters its mode. -/
inductive LoaderLeaves (s t : State) : Prop where
  | off (zones : ∀ z, (t.za.get z).arb = Arb.bare .outOfService ∧ (t.za.get z).pair = none) (channels : ∀ c, t.rch.get c = none)
      (outputs : ∀ z, t.audio.get z = 0) (mode : t.sul.mode = .loading)
  | same (za : t.za = s.za) (rch : t.rch = s.rch) (audio : t.audio = s.audio)
      (mode : (s.sul.resetHeld = true → s.sul.mode = .loading) →
        (t.sul.mode = .loading → s.sul.mode = .loading) ∧ (t.sul.resetHeld = true → t.sul.mode = .loading))
  | entered (h : Entered s t) (loading : s.sul.mode = .loading) (held : s.sul.resetHeld = false)

theorem loadsNow_iff (s : State) (p : LoadPhase) :
    s.loadsNow p = true ↔ s.sul.resetHeld = false ∧ s.sul.mode = .loading ∧ s.sul.phase = p := by
  simp [State.loadsNow, and_assoc]

theorem startsUp_leaves {c : Instr} (hc : startsUp c = true) : Takes c s (LoaderLeaves s) := by
  have hsame : ∀ t, t = s → LoaderLeaves s t := fun t ht => by
    subst ht
    exact .same rfl rfl rfl fun h => ⟨id, h⟩
  cases c with
  | reset =>
    refine takes_of rfl (.off (fun z => ?_) (fun c => Quad.get_const _ _) (fun z => Quad.get_const _ _) rfl)
    rw [Quad.get_map]
    exact ⟨rfl, rfl⟩
  | leaveReset strap =>
    refine takes_of rfl ?_
    split
    · rename_i hheld
      exact .same rfl rfl rfl fun h => ⟨fun _ => h hheld, fun hn => by cases hn⟩
    · exact hsame _ rfl
  | headerReadDone bytes =>
    refine takes_of rfl ?_
    split
    · rename_i hload
      obtain ⟨hheld, hmode, -⟩ := (loadsNow_iff s _).mp hload
      split
      · exact .entered (endLoading_entered s _) hmode hheld
      · split
        · exact .entered (endLoading_entered s _) hmode hheld
        · exact .same rfl rfl rfl fun _ => ⟨fun _ => hmode, fun _ => hmode⟩
    · exact hsame _ rfl
  | configReadDone bytes =>
    have hend : ∀ (v : Sul) (o : LoadOutcome), v.resetHeld = s.sul.resetHeld → s.sul.mode = .loading → s.sul.resetHeld = false →
        LoaderLeaves s ((s.setSul v).endLoading o) := fun v o hv hmode hheld => by
      obtain ⟨h1, h2, h3, h4, h5, h6, h7⟩ := endLoading_entered (s.setSul v) o
      exact .entered ⟨h1, h2, h3, h4, h5, h6, h7.trans hv⟩ hmode hheld
    refine takes_of rfl ?_
    split
    · rename_i hload
      obtain ⟨hheld, hmode, -⟩ := (loadsNow_iff s _).mp hload
      dsimp only
      split
      · exact .same rfl rfl rfl fun _ => ⟨fun _ => hmode, fun _ => hmode⟩
      · split
        · exact hend _ _ rfl hmode hheld
        · exact hend _ _ rfl hmode hheld
    · exact hsame _ rfl
  | _ => cases hc

theorem zonesKept_of_off (h : ∀ z, (t.za.get z).arb = Arb.bare .outOfService ∧ (t.za.get z).pair = none) : ZonesKept t := fun z => by
  have hkept : (t.za.get z).arb.Kept := by
    rw [(h z).1]
    exact Arb.bare_kept rfl
  have hsingle : (t.za.get z).pair ≠ some .whole := by
    rw [(h z).2]
    decide
  exact ⟨hkept.bare, hkept.current, hkept.next, hkept.stopAt, fun _ => by rw [(h z).1]; rfl, fun hw => absurd hw hsingle,
    fun hw => absurd hw hsingle, fun hw => absurd hw hsingle⟩

theorem LoaderLeaves.zonesKept (h : LoaderLeaves s t) (hs : ZonesKept s) : ZonesKept t := by
  cases h with
  | off zones => exact zonesKept_of_off zones
  | same za => exact (ZonesAlike.of_za za).kept hs
  | entered h => exact h.kept

/-- Channels that are all FREE serve zones none of which plays. -/
theorem channelsServe_of_free (hz : ∀ z, (t.za.get z).arb.state.plays = false) (hc : ∀ c, t.rch.get c = none) (ha : ∀ z, t.audio.get z = 0) :
    ChannelsServe t := by
  have hno : ∀ z c, ¬ t.attachedTo z c := fun z c ⟨ch, hch, _⟩ => by
    rw [hc] at hch
    cases hch
  refine ⟨fun c ch hch => ?_, fun z hp => ?_, fun z c d h => absurd h (hno z c), fun z c h => absurd h (hno z c), fun z c _ h => absurd h (hno z c),
    fun z _ => ha z⟩
  · rw [hc] at hch
    cases hch
  · exact absurd ((hz z).symm.trans hp) (by decide)

theorem LoaderLeaves.channelsServe (h : LoaderLeaves s t) (hl : LoadingKept s) (hs : ChannelsServe s) : ChannelsServe t ∧ LoadingKept t := by
  cases h with
  | off zones channels outputs mode =>
    exact ⟨channelsServe_of_free (fun z => by rw [(zones z).1]; rfl) channels outputs, fun _ => mode, fun _ z => (zones z).1, fun _ => channels,
      fun _ => outputs⟩
  | same za rch audio mode =>
    obtain ⟨mode, held⟩ := mode hl.held
    exact ⟨hs.congr (.of_za za) rch audio, held, fun hm => by rw [za]; exact hl.zones (mode hm), fun hm => by rw [rch]; exact hl.channels (mode hm),
      fun hm => by rw [audio]; exact hl.outputs (mode hm)⟩
  | entered h loading held =>
    have hfree : ∀ c, t.rch.get c = none := fun c => by rw [h.rch]; exact hl.channels loading c
    have hsilent : ∀ z, t.audio.get z = 0 := fun z => by rw [h.audio]; exact hl.outputs loading z
    exact ⟨channelsServe_of_free h.not_plays hfree hsilent, fun hh => absurd ((h.held.trans held).symm.trans hh) (by decide),
      fun hm => absurd hm h.mode, fun hm => absurd hm h.mode, fun hm => absurd hm h.mode⟩

end

/-! ### The statements -/

/-- Settles O57: the loader's commands by what they leave, every other command by what it keeps. -/
theorem zonesStayConsistent : Obligations.ZonesStayConsistent := by
  intro c s t hs hexec
  cases hc : startsUp c with
  | true => exact ((takes_iff hexec).mp (startsUp_leaves hc)).zonesKept hs
  | false =>
    have h : Consistent False False s := ⟨hs, False.elim, False.elim⟩
    exact ((takes_iff hexec).mp (exec_consistent hc h False.elim)).zones

/-- Settles O58: from LOADING on, the loader's commands by what they leave, every other command by what it keeps of zones and channels together. -/
theorem channelsServeThePlayingZones : Obligations.ChannelsServeThePlayingZones := by
  intro c s t hl hs hch hexec
  cases hc : startsUp c with
  | true => exact ((takes_iff hexec).mp (startsUp_leaves hc)).channelsServe hl hch
  | false =>
    have h : Consistent True (s.sul.mode = .loading) s := ⟨hs, fun _ => hch, fun hm => ⟨hl.zones hm, hl.channels hm, hl.outputs hm⟩⟩
    have ht := (takes_iff hexec).mp (exec_consistent hc h id)
    have hsul : t.sul = s.sul := ((takes_iff hexec).mp (exec_keeps s hc)).sul
    have hoff : t.sul.mode = .loading → ZonesOff t := fun hm => ht.off (by rwa [hsul] at hm)
    exact ⟨ht.channels trivial, by rw [hsul]; exact hl.held, fun hm => (hoff hm).zones, fun hm => (hoff hm).channels, fun hm => (hoff hm).outputs⟩

end Sys2Proof.Machine
end

section
/-!
PROOFS. The statement on the waiters: claims whose time has passed leave the wait list, and a next claim whose time has passed leaves its unit.
-/

namespace Sys2Proof.Machine

open Sys2Proof

/-! ### After a settling (R101) -/

theorem ZoneSide.frame {s t : State} (h : ZoneSide s t) :
    t = { s with clt := t.clt, za := t.za, rch := t.rch, audio := t.audio, sp := t.sp, lu := t.lu } := by
  obtain ⟨h1, h2, h3, h4, h5, h6, h7, h8, h9, h10⟩ := h
  rw [← h1, ← h2, ← h3, ← h4, ← h5, ← h6, ← h7, ← h8, ← h9, ← h10]

theorem settle_za (s : State) : s.settle.za = s.za := by rw [(settle_settling s).frame]

theorem settle_lu (s : State) : s.settle.lu = s.lu := by rw [(settle_settling s).frame]

theorem settle_rch (s : State) : s.settle.rch = s.rch := by rw [(settle_settling s).frame]

theorem settle_audio (s : State) : s.settle.audio = s.audio := by rw [(settle_settling s).frame]

/-- What the zones' work and a settling after it leave alone. -/
theorem ZoneSide.settled {s t : State} (h : ZoneSide s t) :
    t.settle = { s with
      lc := t.settle.lc, clt := t.settle.clt, za := t.settle.za, rch := t.settle.rch, audio := t.settle.audio, sp := t.settle.sp,
      lu := t.settle.lu } := by
  rw [(settle_settling t).frame, h.frame]

theorem PlayNoted.settled {s t : State} {y : ZoneId} (h : PlayNoted s t y) : PlayNoted s t.settle y := by
  refine h.then_kept (.of_eq ?_ (settle_za t) (settle_lu t))
  rw [(settle_settling t).frame]

theorem MembersTake.settled {s t : State} {zs : List ZoneId} {id : ClaimId} {d : Disp} (h : MembersTake s t zs id d) (hd : d ≠ .pending) :
    MembersTake s t.settle zs id d := h.then_kept (settle_final t) hd

/-! ### A next claim that leaves (R123) -/

/-- What a unit turned to stays while final dispositions do. -/
theorem NextLeaves.then_kept {s u v : State} {z : ZoneId} {a : Arb} {c : Held} (h : NextLeaves s u z a c) (hza : v.za = u.za) (k : FinalKept u v) :
    NextLeaves s v z a c where
  back hw y hy := by
    rw [hza]
    exact h.back hw y hy
  aims w rest hwait hlt := by
    obtain ⟨hstay, hstop⟩ := h.aims w rest hwait hlt
    have hfinal : (if a.wdPending then Disp.withdrawn else if s.zoneDelivered z then .played else .preempted) ≠ .pending := by
      repeat' split
      all_goals simp
    rw [hza]
    refine ⟨hstay, fun hat hreached y hy => ?_⟩
    obtain ⟨harb, hdisp⟩ := hstop hat hreached y hy
    exact ⟨harb, fun hne e he hp => k.takes (hdisp hne e he hp) hfinal⟩

/-- The next claim's disposition is written before it leaves, which the current claim's entry is apart from. -/
theorem nextLeft_after_write (s : State) (z : ZoneId) {a : Arb} {n c : Held} (hn : a.next = some n) (hc : a.current = some c) (zs : List ZoneId) :
    NextLeaves s ((s.writeDisps n.id zs .missed).nextLeft z a) z a c := by
  have h := nextLeft_leaves (s.writeDisps n.id zs .missed) z hc
  have hfind : n.id ≠ c.id → (s.writeDisps n.id zs .missed).findEntry c.id = s.findEntry c.id := fun hne => by
    rw [findEntry_writeDisps _ _ _ _ _ (by simp)]
    simp [Ne.symm hne]
  have hframe := writeDisps_frame s n.id zs .missed
  have hunit : (s.writeDisps n.id zs .missed).unit z = s.unit z := unit_congr (by rw [hframe]) z
  have hnow : (s.writeDisps n.id zs .missed).now = s.now := by rw [hframe]; rfl
  have hdel : (s.writeDisps n.id zs .missed).zoneDelivered z = s.zoneDelivered z := by rw [hframe]; rfl
  obtain ⟨hback, haims⟩ := h
  rw [hunit] at hback
  refine ⟨hback, fun w rest hwait hlt => ?_⟩
  have haim := haims w rest hwait hlt
  rw [hunit, hnow, hdel] at haim
  obtain ⟨hstay, hstop⟩ := haim
  refine ⟨hstay, fun hat hreached y hy => ?_⟩
  obtain ⟨harb, hdisp⟩ := hstop hat hreached y hy
  exact ⟨harb, fun hne e he => hdisp hne e ((hfind (hne n hn)).trans he)⟩

/-! ### A waiter that is MISSED (R119) -/

theorem missWaiter_settled (s : State) (z : ZoneId) (id : ClaimId) (t : State) (ht : t = (s.missWaiter z id).settle) :
    t = { s with lc := t.lc, clt := t.clt, za := t.za, lu := t.lu } ∧
    (∀ y ∈ s.unit z, (t.za.get y).arb = { (s.za.get z).arb with wait := (s.za.get z).arb.wait.filter (fun h => h.id != id) }) ∧
    MembersTake s t (s.unit z) id .missed := by
  subst ht
  refine ⟨?_, fun y hy => ?_, MembersTake.settled ((writeDisps_members _ id _ (by simp)).of_clt (putArb_clt _ _ _)) (by simp)⟩
  · rw [(settle_settling _).frame, State.missWaiter, writeDisps_frame, putArb_frame]
  · rw [settle_za, State.missWaiter, writeDisps_za, putArb_get, if_pos hy]

/-- A LOOSE claim can no longer begin once its latest start has passed (R113). -/
theorem loose_tooLate_iff (h : Held) (now : Nat) :
    (h.sync == .loose && h.tooLate now) = true ↔ h.sync = .loose ∧ ∃ l, h.latest = some l ∧ l < now := by
  rw [Bool.and_eq_true, beq_iff_eq]
  refine and_congr_right fun hs => ?_
  have hl := tooLate_eq_false h now
  rw [← Bool.not_eq_false, hl, hs]
  simp

/-- Either waiter's command: it misses the claim that waits there and whose time has come, and else does nothing. -/
theorem waiter_missed {c : Instr} {s : State} {z : ZoneId} {id : ClaimId} {p : Held → Bool}
    (hexec : exec c s = .next (if waits (s.za.get z).arb.wait id p then (s.missWaiter z id).settle else s)) :
    ((∃ h ∈ (s.za.get z).arb.wait, h.id = id ∧ p h = true) → Takes c s (fun t => t = (s.missWaiter z id).settle)) ∧
    ((¬ ∃ h ∈ (s.za.get z).arb.wait, h.id = id ∧ p h = true) → Takes c s (fun t => t = s)) :=
  ⟨fun h => takes_of hexec (if_pos ((waits_iff _ id p).mpr h)), fun h => takes_of hexec (if_neg fun hw => h ((waits_iff _ id p).mp hw))⟩

/-- The next claim of a CUTTING unit that is MISSED (R119, R123). -/
theorem exec_nextClaimExpiry {s : State} {z : ZoneId} {n : Held} (hst : (s.za.get z).arb.state = .cutting) (hn : (s.za.get z).arb.next = some n) :
    exec (.nextClaimExpiry z) s = .next (if n.sync == .loose && n.tooLate s.now then
      ((s.writeDisps n.id (s.unit z) .missed).nextLeft z (s.za.get z).arb).settle else s) := by
  change Host.Outcome.next _ = _
  rw [hst, hn]

/-- Settles O42: the two waiters' commands by `waiter_missed`, the next claim's by `nextLeft_after_write`. -/
theorem waitersAreMissed : Obligations.WaitersAreMissed := by
  intro z id s a gone joint loose passed
  have hgone : ∀ t, t = (s.missWaiter z id).settle → gone t := missWaiter_settled s z id
  have hjoint : joint ↔ ∃ h ∈ a.wait, h.id = id ∧ (h.sync == .joint && h.reached s.now) = true := by
    simp [joint, Held.reached]
  have hloose : loose ↔ ∃ h ∈ a.wait, h.id = id ∧ (h.sync == .loose && h.tooLate s.now) = true := by
    simp only [loose_tooLate_iff, loose]
  obtain ⟨jointTakes, jointNot⟩ := waiter_missed (c := .jointWaiterStart z id) (s := s) rfl
  obtain ⟨looseTakes, looseNot⟩ := waiter_missed (c := .looseWaiterExpiry z id) (s := s) rfl
  refine ⟨fun h => ?_, fun h => jointNot (mt hjoint.mpr h), fun h => ?_, fun h => looseNot (mt hloose.mpr h), ?passed, fun hno => ?_, ?turns⟩
  · obtain ⟨t, ht, he⟩ := jointTakes (hjoint.mp h)
    exact ⟨t, ht, hgone t he⟩
  · obtain ⟨t, ht, he⟩ := looseTakes (hloose.mp h)
    exact ⟨t, ht, hgone t he⟩
  case passed =>
    rintro n c ⟨hst, n', l, hn', hsync, hl, hlt⟩ hn hc
    cases hn.symm.trans hn'
    refine takes_of ((exec_nextClaimExpiry hst hn).trans (congrArg _ (if_pos ((loose_tooLate_iff n _).mpr ⟨hsync, l, hl, hlt⟩)))) ⟨?_, ?_, ?_⟩
    · exact ((writeDisps_side s _ _ _).trans (nextLeft_side _ z _)).settled
    · exact MembersTake.settled ((writeDisps_members s n.id _ (by simp)).then_kept (nextLeft_final _ z _) (by simp)) (by simp)
    · exact (nextLeft_after_write s z hn hc _).then_kept (settle_za _) (settle_final _)
  · refine takes_of rfl ?_
    split
    · rename_i n hst hn
      refine if_neg fun hp => hno ?_
      obtain ⟨hsync, l, hl, hlt⟩ := (loose_tooLate_iff n _).mp hp
      exact ⟨hst, n, l, hn, hsync, hl, hlt⟩
    · rfl
  case turns =>
    intro h rest hn hw hstart hj hlo
    have hcan : h.waitedOut s.now = false := (waitedOut_eq_false h s.now).mpr ⟨fun hs => (hj hs).le, hlo⟩
    simp [Arb.choose, hn, turnToWait, hw, takeFirst, hcan, Held.begun, Held.reached, hstart]

end Sys2Proof.Machine
end

section
/-!
SUPPORT. What a level is worked out from, and what working out the levels of some zones leaves (R150 to R156, R151).
-/

namespace Sys2Proof.Machine

open Sys2Proof

/-- `t` has what the levels are worked out from as `s` has it (R150 to R155). -/
structure LevelsAlike (s t : State) : Prop where
  za : t.za = s.za
  sul : t.sul = s.sul
  set : t.sck.isSet = s.sck.isSet
  time : t.sck.time = s.sck.time
  lu : t.lu = { s.lu with zones := t.lu.zones }
  zones : ∀ z, t.lu.zones.get z = { s.lu.zones.get z with level := (t.lu.zones.get z).level, mult := (t.lu.zones.get z).mult }

section

variable {s t u : State}

theorem LevelsAlike.of_eq (hza : t.za = s.za) (hsul : t.sul = s.sul) (hset : t.sck.isSet = s.sck.isSet) (htime : t.sck.time = s.sck.time)
    (hlu : t.lu = s.lu) : LevelsAlike s t := ⟨hza, hsul, hset, htime, by rw [hlu], fun z => by rw [hlu]⟩

theorem LevelsAlike.refl (s : State) : LevelsAlike s s := .of_eq rfl rfl rfl rfl rfl

theorem LevelsAlike.trans (h : LevelsAlike s t) (k : LevelsAlike t u) : LevelsAlike s u :=
  ⟨k.za.trans h.za, k.sul.trans h.sul, k.set.trans h.set, k.time.trans h.time, by rw [k.lu, h.lu], fun z => by rw [k.zones, h.zones]⟩

/-- A level is the same where its sources are. -/
theorem LevelsAlike.levelFor (h : LevelsAlike s t) (z : ZoneId) (p : Held) : t.levelFor z p = s.levelFor z p := by
  obtain ⟨hza, hsul, hset, htime, hlu, hzones⟩ := h
  have hnight : t.nightReduction z p.cls = s.nightReduction z p.cls := by
    unfold State.nightReduction
    rw [hset, htime, hzones, hlu]
  have hspill : t.spillReduction z p = s.spillReduction z p := by
    unfold State.spillReduction State.spilled
    rw [hza, hzones]
  have hfloor : t.floorFor z p.cls = s.floorFor z p.cls := by
    unfold State.floorFor
    rw [hza, hlu]
  have hcomp : compensation (t.lu.zones.get z) = compensation (s.lu.zones.get z) := by rw [hzones]; rfl
  have hclass : t.lu.pclass = s.lu.pclass := by rw [hlu]
  have hraw : t.rawLevel z p = s.rawLevel z p := by
    unfold State.rawLevel
    rw [hnight, hspill, hcomp, hclass, hza]
  unfold State.levelFor State.inStoreFault
  rw [hsul, hfloor, hraw, hza]

end

/-- What a zone's record in the level unit is once the level is worked out for its current claim (R151). -/
def State.levelled (s : State) (z : ZoneId) : LuZone :=
  match (s.za.get z).arb.current with
  | some h => { s.lu.zones.get z with level := s.levelFor z h, mult := multiplier (s.levelFor z h) }
  | none => s.lu.zones.get z

theorem applyLevel_get (s : State) (z y : ZoneId) : (s.applyLevel z).lu.zones.get y = if y = z then s.levelled z else s.lu.zones.get y := by
  unfold State.applyLevel State.levelled
  cases (s.za.get z).arb.current with
  | none =>
    by_cases hy : y = z
    · rw [if_pos hy, hy]
    · rw [if_neg hy]
  | some h => exact Quad.get_set _ _ _ _

theorem applyLevel_alike (s : State) (z : ZoneId) : LevelsAlike s (s.applyLevel z) := by
  have hframe := applyLevel_frame s z
  refine ⟨by rw [hframe], by rw [hframe], by rw [hframe], by rw [hframe], ?_, fun y => ?_⟩
  · unfold State.applyLevel
    split <;> rfl
  · rw [applyLevel_get]
    split
    · rename_i hy
      rw [hy]
      unfold State.levelled
      split <;> rfl
    · rfl

theorem applyLevels_alike (s : State) (zs : List ZoneId) : LevelsAlike s (s.applyLevels zs) :=
  foldl_rel LevelsAlike .refl .trans applyLevel_alike zs s

/-- A level worked out once more is the same. -/
theorem LevelsAlike.levelled {s t : State} (h : LevelsAlike s t) (z : ZoneId)
    (hz : t.lu.zones.get z = s.lu.zones.get z ∨ t.lu.zones.get z = s.levelled z) : t.levelled z = s.levelled z := by
  unfold State.levelled at hz ⊢
  rw [h.za]
  cases hc : (s.za.get z).arb.current with
  | none => rw [hc] at hz; exact hz.elim id id
  | some p =>
    rw [hc] at hz
    dsimp only at hz ⊢
    rw [h.levelFor]
    rcases hz with hz | hz <;> rw [hz]

theorem applyLevels_get (s : State) (zs : List ZoneId) (y : ZoneId) :
    (s.applyLevels zs).lu.zones.get y = if y ∈ zs then s.levelled y else s.lu.zones.get y := by
  induction zs generalizing s with
  | nil => rfl
  | cons z zs ih =>
    have hstep : s.applyLevels (z :: zs) = (s.applyLevel z).applyLevels zs := rfl
    have hget := applyLevel_get s z y
    rw [hstep, ih, hget]
    by_cases hy : y = z
    · subst hy
      rw [if_pos rfl] at hget ⊢
      rw [(applyLevel_alike s y).levelled y (.inr hget), ite_self, if_pos List.mem_cons_self]
    · rw [if_neg hy] at hget ⊢
      rw [(applyLevel_alike s z).levelled y (.inl hget)]
      simp [hy]

/-- The level of a zone that was among those worked out is the level of the claim it plays (R151). -/
theorem applyLevels_level {s : State} {zs : List ZoneId} {y : ZoneId} {h : Held} (hy : y ∈ zs) (hc : (s.za.get y).arb.current = some h) :
    ((s.applyLevels zs).lu.zones.get y).level = s.levelFor y h ∧ ((s.applyLevels zs).lu.zones.get y).mult = multiplier (s.levelFor y h) := by
  rw [applyLevels_get, if_pos hy, State.levelled, hc]
  exact ⟨rfl, rfl⟩

/-- Writing the shared part of a zone leaves what the levels are worked out from, and the levels, as they are. -/
theorem putZoneArb_luZone (s : State) (a : Arb) (z x : ZoneId) : (s.putZoneArb a z).lu.zones.get x =
    { s.lu.zones.get x with
      lastPlayEnd := ((s.putZoneArb a z).lu.zones.get x).lastPlayEnd, window := ((s.putZoneArb a z).lu.zones.get x).window } := by
  by_cases hx : x = z
  · subst hx
    unfold State.putZoneArb
    dsimp only
    split <;> split <;> simp [State.modLu, State.modZone]
  · rw [putZoneArb_lu_ne s a hx]

/-- A zone that neither plays nor is silent notes nothing as it changes its state (R146, R147). -/
theorem putZoneArb_unnoted {s : State} {z : ZoneId} (hp : (s.za.get z).arb.state.plays = false) (hs : (s.za.get z).arb.state.silent = false) (a : Arb) :
    s.putZoneArb a z = s.modZone z (fun r => { r with arb := a }) := by
  unfold State.putZoneArb
  simp [hp, hs]

end Sys2Proof.Machine
end

section
/-!
PROOFS. The statement on amplifier faults and pairs: a zone cleared, a zone returned, a pair re-formed, and the mark a turn leaves.
-/

namespace Sys2Proof.Machine

open Sys2Proof

/-! ### A zone cleared (R125, R127, R146) -/

section

variable (s : State) (z : ZoneId)

/-- Changing a zone's record but for its arbiter notes nothing. -/
theorem modZone_notes {f : Zone → Zone} (hf : ∀ r, (f r).arb = r.arb) (x : ZoneId) : NotesKept s (s.modZone z f) x := by
  refine ⟨rfl, ?_, rfl, rfl⟩
  rw [modZone_get]
  split
  · rename_i hx
    rw [hf, hx]
  · rfl

theorem clearZone_noted (st : ZoneState) (x : ZoneId) : PlayNoted s (s.clearZone z st) x := by
  have hdetached : NotesKept s ((s.faulted z).detachZone z) x := by
    rw [detachZone_frame, faulted_frame]
    refine ⟨rfl, ?_, rfl, rfl⟩
    rw [breakPair_get]
    split <;> rfl
  have hput : PlayNoted s (((s.faulted z).detachZone z).putZoneArb (Arb.bare st) z) x := .after_kept hdetached (putZoneArb_noted _ _ z x)
  rw [clearZone_eq]
  exact (hput.then_kept (modZone_notes _ z (f := fun r => { r with reformDue := false }) (fun _ => rfl) x)).then_kept
    (modZone_notes _ z.partner (f := fun r => { r with reformDue := false }) (fun _ => rfl) x)

variable {s z}

/-- FAULT written for the claims of a list: an entry whose zone is PENDING takes it where the list holds its claim (R94, R125). -/
theorem findEntry_faults (l : List Held) (id : ClaimId) :
    (l.foldl (fun w h => w.writeDisp h.id z .fault) s).findEntry id = (s.findEntry id).map (fun e =>
      if (∃ h ∈ l, h.id = id) ∧ e.disp.get z = .pending then { e with disp := e.disp.set z .fault } else e) := by
  induction l generalizing s with
  | nil =>
    rw [List.foldl_nil]
    cases s.findEntry id <;> simp
  | cons g l ih =>
    rw [List.foldl_cons, ih, findEntry_writeDisp]
    cases s.findEntry id with
    | none => rfl
    | some e =>
      by_cases hg : id = g.id
      · by_cases hp : e.disp.get z = .pending <;> simp [hg, hp]
      · simp [hg, Ne.symm hg]

/-- The claims a zone holds take FAULT as it is cleared (R125). -/
theorem clearZone_takes (s : State) (z : ZoneId) (st : ZoneState) {h : Held} (hh : h ∈ (s.za.get z).arb.held) :
    MembersTake s (s.clearZone z st) [z] h.id .fault := by
  have hheld : ((s.breakPair z).za.get z).arb.held = (s.za.get z).arb.held := by
    rw [breakPair_get]
    split <;> rfl
  have hclt : (s.clearZone z st).clt = (s.faulted z).clt := by rw [clearZone_frame]
  have hbroken : (s.breakPair z).clt = s.clt := by rw [breakPair_frame]
  intro y hy e he hp
  rw [List.mem_singleton.mp hy] at hp ⊢
  refine ⟨{ e with disp := e.disp.set z .fault }, ?_, by simp⟩
  rw [State.findEntry, hclt]
  change (s.faulted z).findEntry h.id = _
  rw [State.faulted, findEntry_faults, State.findEntry, hbroken]
  change Option.map _ (s.findEntry h.id) = _
  rw [he, hheld]
  exact congrArg some (if_pos ⟨⟨h, hh, rfl⟩, hp⟩)

/-- What is left of a zone that is cleared, of its partner, and of the others (R110, R125). -/
theorem clearZone_settled {st : ZoneState} {t : State} (ht : t = (s.clearZone z st).settle) :
    (t.za.get z = { (s.za.get z).cleared (s.whole z) with arb := Arb.bare st }) ∧
    t.za.get z.partner = (s.za.get z.partner).cleared (s.whole z) ∧ (∀ x, x ≠ z → x ≠ z.partner → t.za.get x = s.za.get x) ∧
    (∀ c, ¬ t.attachedTo z c) ∧ t.audio.get z = 0 := by
  have hd := clearZone_detaches s z st
  have hget := fun x => clearZone_get s z x st
  rw [ht, settle_za, settle_audio]
  refine ⟨by rw [hget, if_pos rfl], ?_, fun x hx hp => ?_, fun c hc => ?_, ?_⟩
  · rw [hget, if_neg (Idx4.partner_ne z), if_pos rfl]
  · rw [hget, if_neg hx, if_neg hp]
  · rw [State.attachedTo, settle_rch] at hc
    exact ((hd.attached z c).mp hc).2 (List.mem_singleton_self z)
  · have haudio := hd.audio z
    simpa using haudio

end

/-! ### AMP_FAULT_RISE (R125, R127) -/

/-- The node with the level of a zone's AMP_FAULT recorded. -/
def State.ampRecorded (s : State) (z : ZoneId) (b : Bool) : State := s.modZone z (fun r => { r with ampFault := b })

theorem ampRecorded_get (s : State) (z x : ZoneId) (b : Bool) :
    (s.ampRecorded z b).za.get x = if x = z then { s.za.get z with ampFault := b } else s.za.get x := modZone_get s z x _

theorem ampRecorded_self (s : State) (z : ZoneId) (b : Bool) : (s.ampRecorded z b).za.get z = { s.za.get z with ampFault := b } :=
  (ampRecorded_get s z z b).trans (if_pos rfl)

theorem ampRecorded_ne (s : State) {z x : ZoneId} (b : Bool) (h : x ≠ z) : (s.ampRecorded z b).za.get x = s.za.get x :=
  (ampRecorded_get s z x b).trans (if_neg h)

theorem loaded_iff (s : State) : s.loaded = true ↔ s.sul.mode ≠ .loading := by simp [State.loaded]

/-- A zone that is neither in FAULT nor OUT_OF_SERVICE is in service or REJOINING (R127). -/
theorem inService_iff (st : ZoneState) : (st.serves || st == .rejoining) = true ↔ st ≠ .fault ∧ st ≠ .outOfService := by
  cases st <;> decide

theorem exec_ampFaultRise {s : State} {z : ZoneId} (h : (s.za.get z).ampFault = false) : exec (.ampFaultRise z) s = .next
    (if s.sul.mode ≠ .loading ∧ (s.za.get z).arb.state ≠ .fault ∧ (s.za.get z).arb.state ≠ .outOfService
      then ((s.ampRecorded z true).clearZone z .fault).settle else s.ampRecorded z true) := by
  have harb : ((s.ampRecorded z true).za.get z).arb = (s.za.get z).arb := by rw [ampRecorded_self]
  change Host.Outcome.next _ = _
  rw [h, if_neg Bool.false_ne_true]
  refine congrArg _ (if_congr ?_ rfl rfl)
  change ((s.ampRecorded z true).loaded && (((s.ampRecorded z true).za.get z).arb.state.serves ||
    ((s.ampRecorded z true).za.get z).arb.state == .rejoining)) = true ↔ _
  rw [Bool.and_eq_true, loaded_iff, inService_iff, harb]
  rfl

theorem ampRecorded_notes (s : State) (z x : ZoneId) (b : Bool) : NotesKept s (s.ampRecorded z b) x :=
  modZone_notes s z (f := fun r => { r with ampFault := b }) (fun _ => rfl) x

theorem ampRecorded_whole (s : State) (z x : ZoneId) (b : Bool) : (s.ampRecorded z b).whole x = s.whole x := by
  rw [State.whole, State.whole, ampRecorded_get]
  split
  · rename_i hx
    rw [hx]
  · rfl

/-- What a rise leaves of the zone, its partner, and the others (R125, R127). -/
theorem ampFaultRise_clears {s t : State} {z : ZoneId} (ht : t = ((s.ampRecorded z true).clearZone z .fault).settle) :
    (t.za.get z = { (s.za.get z).cleared (s.whole z) with arb := Arb.bare .fault, ampFault := true }) ∧
    t.za.get z.partner = (s.za.get z.partner).cleared (s.whole z) ∧ (∀ x, x ≠ z → x ≠ z.partner → t.za.get x = s.za.get x) ∧
    (∀ c, ¬ t.attachedTo z c) ∧ t.audio.get z = 0 := by
  obtain ⟨hz, hy, hothers, hatt, haudio⟩ := clearZone_settled ht
  rw [ampRecorded_self, ampRecorded_whole] at hz
  rw [ampRecorded_ne s true (Idx4.partner_ne z), ampRecorded_whole] at hy
  exact ⟨hz, hy, fun x hx hp => (hothers x hx hp).trans (ampRecorded_ne s true hx), hatt, haudio⟩

/-! ### AMP_FAULT_FALL (R126, R127) -/

/-- What a zone in FAULT or OUT_OF_SERVICE becomes as it returns, its partner in the state `st` (R126, R127, R128). -/
def backTo (pair : Option PairState) (st : ZoneState) : ZoneState :=
  if pair ≠ none ∧ st.holdsClaim = true then .rejoining else .idle

theorem returnZone_eq (s : State) (z : ZoneId) : s.returnZone z =
    (if (s.za.get z).pair ≠ none ∧ (s.za.get z.partner).arb.state = .idle then (s.putZoneArb (Arb.bare .idle) z).makeWhole z
     else s.putZoneArb (Arb.bare (backTo (s.za.get z).pair (s.za.get z.partner).arb.state)) z) := by
  unfold State.returnZone backTo
  cases (s.za.get z).pair with
  | none => simp
  | some p => cases (s.za.get z.partner).arb.state <;> simp [ZoneState.holdsClaim]

/-- A zone that returns alone is REJOINING beside a partner of its pair that holds a claim, and IDLE otherwise (R126, R127). -/
theorem backTo_rejoining {p : Option PairState} {st : ZoneState} (hp : p ≠ none) (hst : st = .leadIn ∨ st = .playing ∨ st = .cutting) :
    backTo p st = .rejoining := if_pos ⟨hp, by rcases hst with rfl | rfl | rfl <;> rfl⟩

theorem backTo_idle {p : Option PairState} {st : ZoneState} (h : p = none ∨ st = .fault ∨ st = .outOfService ∨ st = .rejoining) : backTo p st = .idle := by
  refine if_neg fun ⟨hp, hst⟩ => ?_
  rcases h with h | h | h | h
  · exact hp h
  all_goals
    rw [h] at hst
    cases hst

theorem exec_ampFaultFall {s : State} {z : ZoneId} (h : (s.za.get z).ampFault = true) : exec (.ampFaultFall z) s = .next
    (if s.sul.mode ≠ .loading ∧ (s.za.get z).arb.state = .fault then (s.ampRecorded z false).returnZone z else s.ampRecorded z false) := by
  have harb : ((s.ampRecorded z false).za.get z).arb = (s.za.get z).arb := by rw [ampRecorded_self]
  change Host.Outcome.next _ = _
  rw [if_pos h]
  refine congrArg _ (if_congr ?_ rfl rfl)
  change ((s.ampRecorded z false).loaded && ((s.ampRecorded z false).za.get z).arb.state == .fault) = true ↔ _
  rw [Bool.and_eq_true, loaded_iff, harb, beq_iff_eq]
  rfl

theorem makeWhole_notes (s : State) (z x : ZoneId) : NotesKept s (s.makeWhole z) x := by
  refine ⟨rfl, ?_, rfl, rfl⟩
  rw [makeWhole_get]
  split <;> rfl

section

variable (s : State) (z : ZoneId)

/-- A zone returns with no change but to the zones of its pair (R126, R127). -/
theorem returnZone_others {x : ZoneId} (hx : x ≠ z) (hp : x ≠ z.partner) : (s.returnZone z).za.get x = s.za.get x := by
  have hput : ∀ a, (s.putZoneArb a z).za.get x = s.za.get x := fun a => by rw [putZoneArb_za, Quad.get_set_ne _ _ hx]
  rw [returnZone_eq]
  split
  · rw [makeWhole_get, if_neg (not_or.mpr ⟨hx, hp⟩), hput]
  · exact hput _

theorem returnZone_frame : s.returnZone z = { s with za := (s.returnZone z).za, lu := (s.returnZone z).lu } := by
  rw [returnZone_eq]
  split
  · rw [makeWhole_frame, putZoneArb_frame]
  · rw [putZoneArb_frame]

theorem returnZone_noted (x : ZoneId) : PlayNoted s (s.returnZone z) x := by
  rw [returnZone_eq]
  split
  · exact (putZoneArb_noted s _ z x).then_kept (makeWhole_notes _ z x)
  · exact putZoneArb_noted s _ z x

theorem returnZone_k (x : ZoneId) : ((s.returnZone z).lu.zones.get x).k = (s.lu.zones.get x).k := by
  have hput : ∀ a, ((s.putZoneArb a z).lu.zones.get x).k = (s.lu.zones.get x).k := fun a => by rw [putZoneArb_luZone]
  rw [returnZone_eq]
  split
  · exact hput _
  · exact hput _

variable {s z}

/-- A zone that neither played nor was silent returns with nothing noted (R146, R147). -/
theorem returnZone_lu (hp : (s.za.get z).arb.state.plays = false) (hs : (s.za.get z).arb.state.silent = false) : (s.returnZone z).lu = s.lu := by
  rw [returnZone_eq, putZoneArb_unnoted hp hs, putZoneArb_unnoted hp hs]
  split <;> rfl

/-- The members of a pair that becomes WHOLE as one of them returns (R126). -/
theorem returnZone_whole_get (hpair : (s.za.get z).pair ≠ none) (hidle : (s.za.get z.partner).arb.state = .idle) :
    (s.returnZone z).za.get z = { s.za.get z with arb := Arb.bare .idle, pair := some .whole, reformDue := false } ∧
    (s.returnZone z).za.get z.partner = { s.za.get z.partner with pair := some .whole, reformDue := false } := by
  rw [returnZone_eq, if_pos ⟨hpair, hidle⟩, makeWhole_get, makeWhole_get, if_pos (.inl rfl), if_pos (.inr rfl), putZoneArb_za, Quad.get_set_self,
    Quad.get_set_ne _ _ (Idx4.partner_ne z)]
  exact ⟨rfl, rfl⟩

/-- A zone that returns alone (R126, R127). -/
theorem returnZone_alone_get (h : (s.za.get z).pair = none ∨ (s.za.get z.partner).arb.state ≠ .idle) :
    (s.returnZone z).za.get z = { s.za.get z with arb := Arb.bare (backTo (s.za.get z).pair (s.za.get z.partner).arb.state) } ∧
    (s.returnZone z).za.get z.partner = s.za.get z.partner := by
  rw [returnZone_eq, if_neg (fun ⟨hpair, hidle⟩ => h.elim hpair fun hn => hn hidle), putZoneArb_za, Quad.get_set_self,
    Quad.get_set_ne _ _ (Idx4.partner_ne z)]
  exact ⟨rfl, rfl⟩

end

/-- A zone's return changes its arbiter and the states of its pair at most. -/
theorem returnZone_shape (s : State) (z : ZoneId) :
    (∃ a p d, (s.returnZone z).za.get z = { s.za.get z with arb := a, pair := p, reformDue := d }) ∧
    ∃ p d, (s.returnZone z).za.get z.partner = { s.za.get z.partner with pair := p, reformDue := d } := by
  by_cases h : (s.za.get z).pair ≠ none ∧ (s.za.get z.partner).arb.state = .idle
  · obtain ⟨hz, hy⟩ := returnZone_whole_get h.1 h.2
    exact ⟨⟨_, _, _, hz⟩, _, _, hy⟩
  · obtain ⟨hz, hy⟩ := returnZone_alone_get (s := s) (z := z) ((not_and_or.mp h).imp not_not.mp id)
    exact ⟨⟨_, _, _, hz⟩, _, _, hy⟩

/-- What a zone's return leaves of its pair, case by case (R126, R127, R128). -/
theorem returnZone_cases (s : State) (z : ZoneId) :
    let r := s.za.get z
    let p := s.za.get z.partner
    let t := s.returnZone z
    (r.pair = none → t.za.get z = { r with arb := Arb.bare .idle } ∧ t.za.get z.partner = p) ∧
    (r.pair ≠ none → p.arb.state = .idle → t.za.get z = { r with arb := Arb.bare .idle, pair := some .whole, reformDue := false } ∧
      t.za.get z.partner = { p with pair := some .whole, reformDue := false }) ∧
    (r.pair ≠ none → p.arb.state = .leadIn ∨ p.arb.state = .playing ∨ p.arb.state = .cutting →
      t.za.get z = { r with arb := Arb.bare .rejoining } ∧ t.za.get z.partner = p) ∧
    (r.pair ≠ none → p.arb.state = .fault ∨ p.arb.state = .outOfService ∨ p.arb.state = .rejoining →
      t.za.get z = { r with arb := Arb.bare .idle } ∧ t.za.get z.partner = p) := by
  intro r p t
  refine ⟨fun hpair => ?_, fun hpair hidle => returnZone_whole_get hpair hidle, fun hpair hst => ?_, fun hpair hst => ?_⟩
  · have h := returnZone_alone_get (s := s) (.inl hpair)
    rwa [backTo_idle (.inl hpair)] at h
  · have h := returnZone_alone_get (s := s) (z := z) (.inr (by rcases hst with h | h | h <;> rw [h] <;> decide))
    rwa [backTo_rejoining hpair hst] at h
  · have h := returnZone_alone_get (s := s) (z := z) (.inr (by rcases hst with h | h | h <;> rw [h] <;> decide))
    rwa [backTo_idle (.inr hst)] at h

/-! ### PAIR_REFORM (R126) -/

section

variable {s : State} {z : ZoneId}

theorem rejoined_noted (s : State) (z x : ZoneId) : PlayNoted s (s.rejoined z) x := (putZoneArb_noted s _ z x).then_kept (makeWhole_notes _ z x)

theorem rejoined_lu (hst : (s.za.get z).arb.state = .rejoining) : (s.rejoined z).lu = s.lu := by
  rw [State.rejoined, putZoneArb_unnoted (by rw [hst]; rfl) (by rw [hst]; rfl)]
  rfl

/-- A pair that re-forms while its partner plays shares its channel and takes its level (R126, R151). -/
theorem reform_playing (hp : (s.za.get z.partner).arb.state.plays = true) : s.reform z = ((s.rejoined z).joinZone z z.partner).applyLevels [z] :=
  (reform_eq s z).trans (if_pos hp)

theorem reform_resting (hp : (s.za.get z.partner).arb.state.plays = false) : s.reform z = s.rejoined z :=
  (reform_eq s z).trans (if_neg (by rw [hp]; decide))

theorem reform_za (s : State) (z : ZoneId) : (s.reform z).za = (s.rejoined z).za := by
  rw [reform_eq]
  split
  · rw [applyLevel_frame, joinZone_frame]
  · rfl

theorem reform_noted (s : State) (z x : ZoneId) : PlayNoted s (s.reform z) x := by
  have h := rejoined_noted s z x
  rw [reform_eq]
  split
  · refine (h.then_kept ?_).then_kept (applyLevel_notes _ z x)
    rw [joinZone_frame]
    exact .of_eq rfl rfl rfl
  · exact h

theorem reform_lu (hst : (s.za.get z).arb.state = .rejoining) : (s.reform z).lu = { s.lu with zones := (s.reform z).lu.zones } ∧
    ∀ x, x ≠ z → (s.reform z).lu.zones.get x = s.lu.zones.get x := by
  rw [reform_eq]
  split
  · have hjoin : ((s.rejoined z).joinZone z z.partner).lu = s.lu := by rw [joinZone_frame]; exact rejoined_lu hst
    refine ⟨?_, fun x hx => ?_⟩
    · rw [(applyLevel_alike _ z).lu, hjoin]
    · rw [applyLevel_get, if_neg hx, hjoin]
  · rw [rejoined_lu hst]
    exact ⟨rfl, fun _ _ => rfl⟩

theorem reform_frame (hst : (s.za.get z).arb.state = .rejoining) :
    s.reform z = { s with za := (s.reform z).za, rch := (s.reform z).rch, lu := { s.lu with zones := (s.reform z).lu.zones } } := by
  rw [← (reform_lu hst).1, reform_eq]
  split
  · rw [applyLevel_frame, joinZone_frame, rejoined_frame]
  · rw [rejoined_frame]

/-- The zone that re-forms takes the level of the claim its partner plays (R151). -/
theorem reform_level (hp : (s.za.get z.partner).arb.state.plays = true) {h : Held} (hc : (s.za.get z.partner).arb.current = some h) :
    ((s.reform z).lu.zones.get z).level = (s.reform z).levelFor z h ∧
    ((s.reform z).lu.zones.get z).mult = multiplier ((s.reform z).levelFor z h) := by
  have hcur : (((s.rejoined z).joinZone z z.partner).za.get z).arb.current = some h := by
    rw [joinZone_frame]
    change ((s.rejoined z).za.get z).arb.current = _
    rw [rejoined_get, if_pos rfl]
    exact hc
  rw [reform_playing hp, (applyLevels_alike _ [z]).levelFor]
  exact applyLevels_level (List.mem_singleton_self z) hcur

/-- The zone that re-forms is on the channel of its partner (R126). -/
theorem reform_shares (hp : (s.za.get z.partner).arb.state.plays = true) (ha : ∃ c, s.attachedTo z.partner c) :
    ∃ c, (s.reform z).attachedTo z.partner c ∧ (s.reform z).attachedTo z c := by
  have hrch : (s.rejoined z).rch = s.rch := by rw [rejoined_frame]
  have hattached : ∀ x c, (s.rejoined z).attachedTo x c ↔ s.attachedTo x c := fun x c => by rw [State.attachedTo, State.attachedTo, hrch]
  obtain ⟨c₀, hc₀⟩ := ha
  obtain ⟨c, hc⟩ := chanOf_of_attached ((hattached _ c₀).mpr hc₀)
  obtain ⟨old, ch, hold, ht, -, hatt⟩ := joinZone_joins (z := z) hc
  have hch : (s.reform z).rch.get c = some ch := by
    rw [reform_playing hp, applyLevels_frame]
    change ((s.rejoined z).joinZone z z.partner).rch.get c = _
    rw [ht, Quad.get_set_self]
  exact ⟨c, ⟨ch, hch, (hatt _).mpr (.inr (chanOf_attached hc))⟩, ch, hch, (hatt _).mpr (.inl rfl)⟩

end

theorem exec_pairReform (s : State) (z : ZoneId) : exec (.pairReform z) s = .next (if s.reforms z then s.reform z else s) := rfl

/-! ### The mark a turn leaves (R122, R126) -/

theorem markReform_due (s : State) (z : ZoneId) : ((s.markReform z).za.get z.partner).reformDue = true ↔
    (s.za.get z.partner).reformDue = true ∨ ((s.za.get z).pair = some .broken ∧ (s.za.get z.partner).arb.state = .rejoining) := by
  unfold State.markReform
  dsimp only
  split
  · rename_i h
    rw [modZone_get, if_pos rfl]
    exact ⟨fun _ => .inr h, fun _ => rfl⟩
  · rename_i h
    exact ⟨.inl, fun hd => hd.resolve_right h⟩

/-- A zone that has chosen marks its REJOINING partner (R126; log 21). -/
theorem chooseNext_marks (s : State) (z : ZoneId) (a : Arb) : ((s.chooseNext [z] a).za.get z.partner).reformDue = true ↔
    (s.za.get z.partner).reformDue = true ∨ ((s.za.get z).pair = some .broken ∧ (s.za.get z.partner).arb.state = .rejoining) := by
  have hza : (s.enter [z] (a.choose s.now)).za = (s.putArb [z] (a.choose s.now).1).za := enter_za _ _ _
  have hpartner : (s.putArb [z] (a.choose s.now).1).za.get z.partner = s.za.get z.partner := by
    rw [putArb_get, if_neg (by simpa using Idx4.partner_ne z)]
  have hpair : ((s.putArb [z] (a.choose s.now).1).za.get z).pair = (s.za.get z).pair := putArb_pairs s [z] _ z
  change (((s.enter [z] (a.choose s.now)).markReform z).za.get z.partner).reformDue = true ↔ _
  rw [markReform_due, hza, hpartner, hpair]

/-! ### The statement -/

/-- Settles O40: a rise by `ampFaultRise_clears`, a fall by what `returnZone` leaves, PAIR_REFORM by what `reform` leaves. -/
theorem zonesLeaveAndRejoin : Obligations.ZonesLeaveAndRejoin := by
  intro z s r y p inService rec'
  refine ⟨?rises, fun hamp hno => ?_, ?falls, fun hamp hno => ?_, ?reforms, fun hno => ?_, fun a => ⟨?_, ?_, chooseNext_marks s z a⟩⟩
  case rises =>
    intro hamp hmode hin
    refine takes_of ((exec_ampFaultRise hamp).trans (congrArg _ (if_pos ⟨hmode, hin⟩))) ?_
    generalize ht : ((s.ampRecorded z true).clearZone z .fault).settle = t
    obtain ⟨hz, hy, hothers, hatt, haudio⟩ := ampFaultRise_clears ht.symm
    have hside : ZoneSide s ((s.ampRecorded z true).clearZone z .fault) := (modZone_side s z _).trans (clearZone_side _ z _)
    have hframe := hside.settled
    rw [ht] at hframe
    have hnoted : ∀ x, PlayNoted s t x := fun x => by
      rw [← ht]
      exact (PlayNoted.after_kept (ampRecorded_notes s z x true) (clearZone_noted (s.ampRecorded z true) z .fault x)).settled
    have hpair : ∀ q : Zone, (q.cleared (s.whole z)).pair = if r.pair = some .whole then some .broken else q.pair := fun q => by
      rw [Zone.cleared_pair]
      exact if_congr (whole_iff s z) rfl rfl
    have hheld : ((s.ampRecorded z true).za.get z).arb.held = r.arb.held := by rw [ampRecorded_self]
    refine ⟨hframe, by rw [hz], by rw [hz], by rw [hz]; rfl, by rw [hz]; rfl, hatt, haudio, by rw [hy]; rfl, by rw [hz]; exact hpair r,
      by rw [hy]; exact hpair p, hothers, hnoted, fun h e hh he hp => ?_⟩
    have htakes := (clearZone_takes (s.ampRecorded z true) z .fault (by rw [hheld]; exact hh)).settled (by decide)
    rw [ht] at htakes
    exact htakes z (List.mem_singleton_self z) e he hp
  · refine takes_of ((exec_ampFaultRise hamp).trans (congrArg _ (if_neg fun ⟨hm, hin⟩ => ?_))) rfl
    exact hno.elim hm fun hn => hn hin
  case falls =>
    intro hamp hmode hfault
    have hself := ampRecorded_self s z false
    have hpartner := ampRecorded_ne s false (Idx4.partner_ne z)
    have hplays : ((s.ampRecorded z false).za.get z).arb.state.plays = false := by
      rw [hself]
      change r.arb.state.plays = false
      rw [hfault]
      rfl
    have hsilent : ((s.ampRecorded z false).za.get z).arb.state.silent = false := by
      rw [hself]
      change r.arb.state.silent = false
      rw [hfault]
      rfl
    have hframe := returnZone_frame (s.ampRecorded z false) z
    rw [returnZone_lu hplays hsilent] at hframe
    have hcases := returnZone_cases (s.ampRecorded z false) z
    rw [hself, hpartner] at hcases
    exact takes_of ((exec_ampFaultFall hamp).trans (congrArg _ (if_pos ⟨hmode, by rw [show (s.za.get z).arb = _ from hfault]; rfl⟩)))
      ⟨hframe, fun x hx hp => (returnZone_others _ z hx hp).trans (ampRecorded_ne s false hx), hcases⟩
  · refine takes_of ((exec_ampFaultFall hamp).trans (congrArg _ (if_neg fun ⟨hm, hf⟩ => ?_))) rfl
    exact hno.elim hm fun hn => hn hf
  case reforms =>
    intro hst hpair hpartner
    have hget := rejoined_get s z
    refine takes_of ((exec_pairReform s z).trans (congrArg _ (if_pos ((reforms_iff s z).mpr ⟨hst, hpair, hpartner⟩)))) ⟨reform_frame hst, ?_, ?_, fun x hx hp => ?_, reform_noted s z,
      (reform_lu hst).2, fun hrests => ?_, fun hplays => ⟨fun h hc => reform_level hplays hc, reform_shares hplays⟩⟩
    · rw [reform_za, hget, if_pos rfl]
    · rw [reform_za, hget, if_neg (Idx4.partner_ne z), if_pos rfl]
    · rw [reform_za, hget, if_neg hx, if_neg hp]
    · rw [reform_resting hrests, rejoined_lu hst]
      exact ⟨by rw [rejoined_frame], rfl, rfl⟩
  · refine takes_of ((exec_pairReform s z).trans (congrArg _ (if_neg fun hr => ?_))) rfl
    obtain ⟨hst, hpair, hpartner⟩ := (reforms_iff s z).mp hr
    rcases hno with h | h | ⟨hidle, h⟩
    · exact h hst
    · exact h hpair
    · obtain ⟨hdue, hserves⟩ := hpartner.resolve_left hidle
      rcases h with h | h
      · exact Bool.false_ne_true (h.symm.trans hdue)
      · exact Bool.false_ne_true (h.symm.trans hserves)
  · rw [chooseNext_arb, if_pos (List.mem_singleton_self z)]
  · rw [chooseNext_arb, if_neg (by simpa using Idx4.partner_ne z)]

end Sys2Proof.Machine
end

section
/-!
PROOFS. The statement on attributes: what a ZATTR says, what its service flag does, and the attributes applied or staged.
-/

namespace Sys2Proof.Machine

open Sys2Proof

/-! ### What a ZATTR says (R129, R176) -/

theorem idx4_ofNat_iff (n : Nat) (z : ZoneId) : Idx4.ofNat? n = some z ↔ n = z.toNat := by
  constructor
  · intro h
    match n, h with
    | 0, h => cases h; rfl
    | 1, h => cases h; rfl
    | 2, h => cases h; rfl
    | 3, h => cases h; rfl
  · rintro rfl
    exact idx4_ofNat_toNat z

theorem accRow_ext {p q : AccRow} (h : ∀ c, c < 8 → p.code c = q.code c) : p = q := by
  obtain ⟨p0, p1, p2, p3, p4, p5, p6, p7⟩ := p
  obtain ⟨q0, q1, q2, q3, q4, q5, q6, q7⟩ := q
  have h0 := h 0 (by decide)
  have h1 := h 1 (by decide)
  have h2 := h 2 (by decide)
  have h3 := h 3 (by decide)
  have h4 := h 4 (by decide)
  have h5 := h 5 (by decide)
  have h6 := h 6 (by decide)
  have h7 := h 7 (by decide)
  simp only [AccRow.code] at h0 h1 h2 h3 h4 h5 h6 h7
  subst h0 h1 h2 h3 h4 h5 h6 h7
  rfl

/-- A row spells acceptance codes, no reserved one among them, where each pair of bits is the code of its class (R129). -/
theorem row_iff (n : Nat) (r : AccRow) :
    (∀ c, c < 8 → [AccCode.accept, .quiet, .refuse][n / 4 ^ c % 4]? = some (r.code c)) ↔ (∀ c, c < 8 → rowBits n c ≠ 3) ∧ r = accRowOf n := by
  have hread : ∀ m < 4, [AccCode.accept, .quiet, .refuse][m]? = if m = 3 then none else [AccCode.accept, .quiet, .refuse, .refuse][m]? := by decide
  have hbits : ∀ c, rowBits n c < 4 := fun c => Nat.mod_lt _ (by decide)
  have hcode : ∀ c, c < 8 → [AccCode.accept, .quiet, .refuse][rowBits n c]? = if rowBits n c = 3 then none else some ((accRowOf n).code c) := fun c hc => by
    rw [hread _ (hbits c), ← accRowOf_code n hc]
    rfl
  constructor
  · intro h
    have hne : ∀ c, c < 8 → rowBits n c ≠ 3 := fun c hc h3 => by
      have := (hcode c hc).symm.trans (h c hc)
      rw [if_pos h3] at this
      cases this
    refine ⟨hne, accRow_ext fun c hc => ?_⟩
    have := (hcode c hc).symm.trans (h c hc)
    rw [if_neg (hne c hc)] at this
    exact (Option.some.inj this).symm
  · rintro ⟨hne, rfl⟩ c hc
    exact (hcode c hc).trans (if_neg (hne c hc))

theorem readZattr_iff (b : List Byte) (z : ZoneId) (a : StagedAttr) (on : Bool) : readZattr b = some (z, a, on) ↔
    b.length = 6 ∧ field8 b 0 = z.toNat ∧ (∀ c, c < 8 → [AccCode.accept, .quiet, .refuse][field b 1 2 / 4 ^ c % 4]? = some (a.row.code c)) ∧
    a.base = field8 b 3 ∧ a.base ≤ 120 ∧ a.floor = field8 b 4 ∧ a.floor ≤ 120 ∧ on = (field8 b 5).testBit 0 := by
  have hvals : (b.length == 6 && (List.range 8).all (fun c => rowBits (field b 1 2) c != 3) && field8 b 3 ≤ 120 && field8 b 4 ≤ 120) = true ↔
      b.length = 6 ∧ (∀ c, c < 8 → rowBits (field b 1 2) c ≠ 3) ∧ field8 b 3 ≤ 120 ∧ field8 b 4 ≤ 120 := by
    simp [and_assoc]
  rw [row_iff, ← idx4_ofNat_iff]
  unfold readZattr
  cases hz : Idx4.ofNat? (field8 b 0) with
  | none => simp
  | some y =>
    obtain ⟨row, base, floor⟩ := a
    simp only [Option.bind_eq_bind, Option.bind_some]
    split
    · rename_i h
      obtain ⟨hlen, hrow, hbase, hfloor⟩ := hvals.mp h
      constructor
      · intro he
        cases he
        exact ⟨hlen, rfl, ⟨hrow, rfl⟩, rfl, hbase, rfl, hfloor, bitSet_eq _ _⟩
      · rintro ⟨-, hy, ⟨-, hr⟩, hb, -, hf, -, ho⟩
        cases hy
        rw [bitSet_eq, ← ho, ← hr, ← hb, ← hf]
    · rename_i h
      refine ⟨fun he => (by cases he), ?_⟩
      rintro ⟨hlen, -, ⟨hrow, -⟩, hb, hbase, hf, hfloor, -⟩
      exact absurd (hvals.mpr ⟨hlen, hrow, hb ▸ hbase, hf ▸ hfloor⟩) h

/-! ### The frame (R129, R164) -/

theorem exec_zattr (f : RxFrame) (maint : Bool) (s : State) : exec (.zattr f maint) s = .next
    (if s.hears kindZattr f && s.forUsAlone f then
      match s.sul.mode with
      | .running => State.answered f kindZattr (field8 f.body 0) (s.frameEnd.takeZattr f maint)
      | .storeFault => s.frameEnd.answer f kindZattr (field8 f.body 0) .storeFault
      | _ => s.frameEnd
    else s.frameEnd) := rfl

/-- The node with the level of MAINT recorded. -/
def State.maintRecorded (s : State) (maint : Bool) : State := s.setPins { s.pins with maint := maint }

/-! ### The service flag (R128) -/

theorem settleEntry_rx (s : State) (id : ClaimId) : (s.settleEntry id).lc.rx = s.lc.rx := by
  have hlow : ∀ (u : State) b dst, (u.enqueueLow b dst).lc.rx = u.lc.rx := fun u b dst => by
    unfold State.enqueueLow State.lowFail
    dsimp only
    repeat' split
    all_goals rfl
  unfold State.settleEntry
  dsimp only
  repeat' split
  all_goals first
    | rfl
    | exact hlow _ _ _

theorem settle_rx (s : State) : s.settle.lc.rx = s.lc.rx :=
  foldl_rel (fun s t : State => t.lc.rx = s.lc.rx) (fun _ => rfl) (fun h k => k.trans h) settleEntry_rx _ s

/-- The node with a zone's service flag recorded. -/
def State.serviceRecorded (s : State) (z : ZoneId) (on : Bool) : State := s.modZone z (fun r => { r with service := on })

/-- A zone's estimate at its initial value (R128). -/
def State.estimateReset (s : State) (z : ZoneId) : State := s.modLu z (fun u => { u with k := u.initK })

theorem setService_same {s : State} {z : ZoneId} {on : Bool} (h : (s.za.get z).service = on) : s.setService z on = s := if_pos h.symm

theorem setService_off {s : State} {z : ZoneId} (h : (s.za.get z).service = true) :
    s.setService z false = ((s.serviceRecorded z false).clearZone z .outOfService).settle := by
  unfold State.setService
  rw [if_neg (by rw [h]; decide)]
  rfl

theorem setService_on {s : State} {z : ZoneId} (h : (s.za.get z).service = false) :
    s.setService z true = if (s.za.get z).ampFault then ((s.serviceRecorded z true).estimateReset z).putZoneArb (Arb.bare .fault) z
      else ((s.serviceRecorded z true).estimateReset z).returnZone z := by
  have hamp : (((s.serviceRecorded z true).estimateReset z).za.get z).ampFault = (s.za.get z).ampFault := by
    change ((s.serviceRecorded z true).za.get z).ampFault = _
    rw [State.serviceRecorded, modZone_get, if_pos rfl]
  rw [← hamp]
  unfold State.setService
  rw [if_neg (by rw [h]; decide), if_pos rfl]
  rfl

section

variable {s : State} {z : ZoneId}

theorem serviceRecorded_self (s : State) (z : ZoneId) (on : Bool) : (s.serviceRecorded z on).za.get z = { s.za.get z with service := on } :=
  (modZone_get s z z _).trans (if_pos rfl)

theorem serviceRecorded_ne (s : State) {z x : ZoneId} (on : Bool) (h : x ≠ z) : (s.serviceRecorded z on).za.get x = s.za.get x :=
  (modZone_get s z x _).trans (if_neg h)

theorem serviceRecorded_notes (s : State) (z x : ZoneId) (on : Bool) : NotesKept s (s.serviceRecorded z on) x :=
  modZone_notes s z (f := fun r => { r with service := on }) (fun _ => rfl) x

theorem serviceRecorded_whole (s : State) (z : ZoneId) (on : Bool) : (s.serviceRecorded z on).whole z = s.whole z := by
  rw [State.whole, State.whole, serviceRecorded_self]

theorem lc_eq_of_rx {l m : Lc} (h : m.rx = l.rx) : m = { l with tx := m.tx, report := m.report } := by
  rw [← h]

/-- What the zones' work and a settling after it leave of the link. -/
theorem ZoneSide.settled_lc {t : State} (h : ZoneSide s t) : t.settle = { s with
    lc := { s.lc with tx := t.settle.lc.tx, report := t.settle.lc.report }, clt := t.settle.clt, za := t.settle.za, rch := t.settle.rch,
    audio := t.settle.audio, sp := t.settle.sp, lu := t.settle.lu } := by
  rw [← lc_eq_of_rx ((settle_rx t).trans (by rw [h.lc]))]
  exact h.settled

/-- What the service flag leaves alone (R128). -/
theorem setService_frame (s : State) (z : ZoneId) (on : Bool) : s.setService z on = { s with
    lc := { s.lc with tx := (s.setService z on).lc.tx, report := (s.setService z on).lc.report }, clt := (s.setService z on).clt,
    za := (s.setService z on).za, rch := (s.setService z on).rch, audio := (s.setService z on).audio, sp := (s.setService z on).sp,
    lu := (s.setService z on).lu } := by
  have hrecorded : ∀ b, ZoneSide s (s.serviceRecorded z b) := fun b => modZone_side s z _
  have hreset : ZoneSide s ((s.serviceRecorded z true).estimateReset z) := (hrecorded true).trans (modLu_side _ z _)
  have hon : ∀ u, ZoneSide s u → u = { s with
      lc := { s.lc with tx := u.lc.tx, report := u.lc.report }, clt := u.clt, za := u.za, rch := u.rch, audio := u.audio, sp := u.sp, lu := u.lu } :=
    fun u h => by
      rw [← lc_eq_of_rx (show u.lc.rx = s.lc.rx by rw [h.lc]), h.lc]
      exact h.frame
  by_cases h : (s.za.get z).service = on
  · rw [setService_same h]
  · cases on with
    | false =>
      rw [setService_off (by simpa using h)]
      exact ((hrecorded false).trans (clearZone_side _ z _)).settled_lc
    | true =>
      rw [setService_on (by simpa using h)]
      split
      · exact hon _ (hreset.trans (putZoneArb_side _ _ z))
      · exact hon _ (hreset.trans (returnZone_side _ z))

theorem estimateReset_notes (s : State) (z x : ZoneId) : NotesKept s (s.estimateReset z) x := by
  have hget : (s.estimateReset z).lu.zones.get x = if x = z then { s.lu.zones.get z with k := (s.lu.zones.get z).initK } else s.lu.zones.get x :=
    Quad.get_set _ _ _ _
  refine ⟨rfl, rfl, ?_, ?_⟩
  all_goals
    rw [hget]
    split
    · rename_i hx
      rw [hx]
    · rfl

theorem setService_noted (s : State) (z : ZoneId) (on : Bool) (x : ZoneId) : PlayNoted s (s.setService z on) x := by
  by_cases h : (s.za.get z).service = on
  · rw [setService_same h]
    exact .refl s x
  · cases on with
    | false =>
      rw [setService_off (by simpa using h)]
      exact (PlayNoted.after_kept (serviceRecorded_notes s z x false) (clearZone_noted _ z _ x)).settled
    | true =>
      have hreset := (serviceRecorded_notes s z x true).trans (estimateReset_notes _ z x)
      rw [setService_on (by simpa using h)]
      split
      · exact .after_kept hreset (putZoneArb_noted _ _ z x)
      · exact .after_kept hreset (returnZone_noted _ z x)

/-- A zone taken out of service (R125, R128). -/
theorem setService_off_clears (h : (s.za.get z).service = true) :
    (s.setService z false).za.get z = { (s.za.get z).cleared (s.whole z) with arb := Arb.bare .outOfService, service := false } ∧
    (s.setService z false).za.get z.partner = (s.za.get z.partner).cleared (s.whole z) ∧
    (∀ x, x ≠ z → x ≠ z.partner → (s.setService z false).za.get x = s.za.get x) ∧
    (∀ c, ¬ (s.setService z false).attachedTo z c) ∧ (s.setService z false).audio.get z = 0 ∧
    ∀ h, h ∈ (s.za.get z).arb.held → MembersTake s (s.setService z false) [z] h.id .fault := by
  obtain ⟨hz, hy, hothers, hatt, haudio⟩ := clearZone_settled (setService_off h)
  rw [serviceRecorded_self, serviceRecorded_whole] at hz
  rw [serviceRecorded_ne s false (Idx4.partner_ne z), serviceRecorded_whole] at hy
  refine ⟨hz, hy, fun x hx hp => (hothers x hx hp).trans (serviceRecorded_ne s false hx), hatt, haudio, fun p hp => ?_⟩
  rw [setService_off h]
  refine MembersTake.settled (clearZone_takes (s.serviceRecorded z false) z .outOfService ?_) (by decide)
  rw [serviceRecorded_self]
  exact hp

/-- A zone in FAULT at once as it returns to service, or returning by its pair (R126, R128). -/
theorem setService_on_frame (h : (s.za.get z).service = false) :
    s.setService z true = { s with za := (s.setService z true).za, lu := (s.setService z true).lu } ∧
    ((s.setService z true).lu.zones.get z).k = (s.lu.zones.get z).initK ∧
    ∀ x, x ≠ z → x ≠ z.partner → (s.setService z true).za.get x = s.za.get x := by
  have hk : (((s.serviceRecorded z true).estimateReset z).lu.zones.get z).k = (s.lu.zones.get z).initK := by
    rw [State.estimateReset, State.modLu, State.setLu_lu, Quad.get_set_self]
    rfl
  have hza : ∀ x, x ≠ z → ((s.serviceRecorded z true).estimateReset z).za.get x = s.za.get x := fun x hx => serviceRecorded_ne s true hx
  rw [setService_on h]
  split
  · refine ⟨by rw [putZoneArb_frame]; rfl, by rw [putZoneArb_luZone]; exact hk, fun x hx _ => ?_⟩
    rw [putZoneArb_za, Quad.get_set_ne _ _ hx, hza x hx]
  · refine ⟨by rw [returnZone_frame]; rfl, (returnZone_k _ z z).trans hk, fun x hx hp => ?_⟩
    rw [returnZone_others _ z hx hp, hza x hx]

theorem setService_on_fault (h : (s.za.get z).service = false) (hamp : (s.za.get z).ampFault = true) :
    (s.setService z true).za.get z = { s.za.get z with arb := Arb.bare .fault, service := true } ∧
    (s.setService z true).za.get z.partner = s.za.get z.partner := by
  have hself : ((s.serviceRecorded z true).estimateReset z).za.get z = { s.za.get z with service := true } := serviceRecorded_self s z true
  have hpartner : ((s.serviceRecorded z true).estimateReset z).za.get z.partner = s.za.get z.partner := serviceRecorded_ne s true (Idx4.partner_ne z)
  rw [setService_on h, if_pos hamp, putZoneArb_za, Quad.get_set_self, Quad.get_set_ne _ _ (Idx4.partner_ne z), hself, hpartner]
  exact ⟨rfl, rfl⟩

theorem setService_on_returns (h : (s.za.get z).service = false) (hamp : (s.za.get z).ampFault = false) :
    let r := { s.za.get z with service := true }
    let p := s.za.get z.partner
    let t := s.setService z true
    (r.pair = none → t.za.get z = { r with arb := Arb.bare .idle } ∧ t.za.get z.partner = p) ∧
    (r.pair ≠ none → p.arb.state = .idle → t.za.get z = { r with arb := Arb.bare .idle, pair := some .whole, reformDue := false } ∧
      t.za.get z.partner = { p with pair := some .whole, reformDue := false }) ∧
    (r.pair ≠ none → p.arb.state = .leadIn ∨ p.arb.state = .playing ∨ p.arb.state = .cutting →
      t.za.get z = { r with arb := Arb.bare .rejoining } ∧ t.za.get z.partner = p) ∧
    (r.pair ≠ none → p.arb.state = .fault ∨ p.arb.state = .outOfService ∨ p.arb.state = .rejoining →
      t.za.get z = { r with arb := Arb.bare .idle } ∧ t.za.get z.partner = p) := by
  have hself : ((s.serviceRecorded z true).estimateReset z).za.get z = { s.za.get z with service := true } := serviceRecorded_self s z true
  have hpartner : ((s.serviceRecorded z true).estimateReset z).za.get z.partner = s.za.get z.partner := serviceRecorded_ne s true (Idx4.partner_ne z)
  have hcases := returnZone_cases ((s.serviceRecorded z true).estimateReset z) z
  rw [hself, hpartner] at hcases
  rw [setService_on h, if_neg (by rw [hamp]; decide)]
  exact hcases

end

/-- The zones but for what the service flag and a pair's state change: `z` its flag, arbiter and pair, its partner its pair (R125, R126, R128). -/
structure ServiceShape (s q : State) (z : ZoneId) (on : Bool) : Prop where
  self : ∃ a p d, q.za.get z = { s.za.get z with service := on, arb := a, pair := p, reformDue := d }
  partner : ∃ p d, q.za.get z.partner = { s.za.get z.partner with pair := p, reformDue := d }
  others : ∀ x, x ≠ z → x ≠ z.partner → q.za.get x = s.za.get x

theorem setService_shape (s : State) (z : ZoneId) (on : Bool) : ServiceShape s (s.setService z on) z on := by
  by_cases h : (s.za.get z).service = on
  · rw [setService_same h, ← h]
    exact ⟨⟨_, _, _, rfl⟩, ⟨_, _, rfl⟩, fun _ _ _ => rfl⟩
  · cases on with
    | false =>
      obtain ⟨hz, hy, hothers, -⟩ := setService_off_clears (s := s) (z := z) (by simpa using h)
      exact ⟨⟨_, _, _, hz⟩, ⟨_, _, hy⟩, hothers⟩
    | true =>
      have h : (s.za.get z).service = false := by simpa using h
      obtain ⟨-, -, hothers⟩ := setService_on_frame h
      by_cases hamp : (s.za.get z).ampFault = true
      · obtain ⟨hz, hy⟩ := setService_on_fault h hamp
        exact ⟨⟨_, _, _, hz⟩, ⟨_, _, hy⟩, hothers⟩
      · have hself : ((s.serviceRecorded z true).estimateReset z).za.get z = { s.za.get z with service := true } := serviceRecorded_self s z true
        have hpartner : ((s.serviceRecorded z true).estimateReset z).za.get z.partner = s.za.get z.partner :=
          serviceRecorded_ne s true (Idx4.partner_ne z)
        obtain ⟨hz, hy⟩ := returnZone_shape ((s.serviceRecorded z true).estimateReset z) z
        rw [hself] at hz
        rw [hpartner] at hy
        rw [setService_on h, if_neg hamp] at hothers ⊢
        exact ⟨hz, hy, hothers⟩

/-! ### Attributes staged and applied (R129, R130) -/

section

variable {s : State} {z : ZoneId}

theorem applyStaged_idle {a : StagedAttr} (ha : (s.za.get z).staged = some a) (hst : (s.za.get z).arb.state = .idle) :
    s.applyStaged z = { s with za := s.za.set z { s.za.get z with row := a.row, base := a.base, floor := a.floor, staged := none } } := by
  unfold State.applyStaged
  rw [ha]
  exact if_pos hst

theorem applyStaged_kept (h : (s.za.get z).staged = none ∨ (s.za.get z).arb.state ≠ .idle) : s.applyStaged z = s := by
  unfold State.applyStaged
  split
  · rename_i ha
    exact if_neg (h.resolve_left (by rw [ha]; simp))
  · rfl

/-- What the attributes of a ZATTR leave: in an IDLE zone applied, in any other staged, and no other zone touched. -/
theorem attributes_taken (s : State) (z : ZoneId) (a : StagedAttr) (u : State) (hu : u = (s.modZone z (fun r => { r with staged := some a })).applyStaged z) :
    u = { s with za := u.za } ∧ (∀ x, x ≠ z → u.za.get x = s.za.get x) ∧
    ((s.za.get z).arb.state = .idle → u.za.get z = { s.za.get z with row := a.row, base := a.base, floor := a.floor, staged := none }) ∧
    ((s.za.get z).arb.state ≠ .idle → u.za.get z = { s.za.get z with staged := some a }) := by
  have hself : (s.modZone z (fun r => { r with staged := some a })).za.get z = { s.za.get z with staged := some a } := (modZone_get s z z _).trans (if_pos rfl)
  have hother : ∀ x, x ≠ z → (s.modZone z (fun r => { r with staged := some a })).za.get x = s.za.get x := fun x hx =>
    (modZone_get s z x _).trans (if_neg hx)
  by_cases hst : (s.za.get z).arb.state = .idle
  · rw [applyStaged_idle (a := a) (by rw [hself]) (by rw [hself]; exact hst), hself] at hu
    subst hu
    refine ⟨rfl, fun x hx => ?_, fun _ => Quad.get_set_self _ _ _, fun hn => absurd hst hn⟩
    exact (Quad.get_set_ne _ _ hx).trans (hother x hx)
  · rw [applyStaged_kept (.inr (by rw [hself]; exact hst))] at hu
    subst hu
    exact ⟨rfl, hother, fun h => absurd h hst, fun _ => hself⟩

end

/-! ### The statement -/

theorem takeZattr_eq (s : State) (f : RxFrame) (maint : Bool) : s.takeZattr f maint =
    if maint = false then (s.maintRecorded maint, .locked)
    else match readZattr f.body with
      | none => (s.maintRecorded maint, .badValue)
      | some (z, a, on) => ((s.maintRecorded maint).acceptZattr z a on, .done) := by
  cases maint <;> rfl

theorem exec_zattr_running {f : RxFrame} {s : State} (maint : Bool) (hh : s.hears kindZattr f = true) (hus : s.forUsAlone f = true)
    (hm : s.sul.mode = .running) :
    exec (.zattr f maint) s = .next (State.answered f kindZattr (field8 f.body 0) (s.frameEnd.takeZattr f maint)) := by
  rw [exec_zattr, hh, hus, hm]
  rfl

/-- Settles O43: the body by `readZattr_iff`, the service flag by `setService`, the attributes by `attributes_taken`. -/
theorem attributesAreSet : Obligations.AttributesAreSet := by
  refine ⟨readZattr_iff, ?frames, fun f maint s hus => ?_,
    fun z s => ⟨fun a ha hst => takes_of rfl (applyStaged_idle ha hst), fun h => takes_of rfl (applyStaged_kept h)⟩⟩
  case frames =>
    intro f maint s hh hus v w
    refine ⟨fun hm => ?_, fun hm => ?_, fun hm => ⟨fun hlow => ?_, fun hhigh hbad => ?_, ?done⟩⟩
    · refine takesAnswering_of (u := v) ?_ rfl
      rw [exec_zattr, hh, hus, hm]
      rfl
    · refine takes_of (t := v) ?_ rfl
      rw [exec_zattr, hh, hus, hm]
      rfl
    · refine takesAnswering_of (u := w) ?_ rfl
      rw [exec_zattr_running maint hh hus hm, takeZattr_eq, if_pos hlow]
      rfl
    · refine takesAnswering_of (u := w) ?_ rfl
      rw [exec_zattr_running maint hh hus hm, takeZattr_eq, if_neg (by rw [hhigh]; decide), hbad]
      rfl
    case done =>
      intro z a on hhigh hbody
      generalize hu : ((w.setService z on).modZone z (fun r => { r with staged := some a })).applyStaged z = u
      have hexec : exec (.zattr f maint) s = .next (u.answer f kindZattr (field8 f.body 0) .done) := by
        rw [exec_zattr_running maint hh hus hm, takeZattr_eq, if_neg (by rw [hhigh]; decide), hbody, ← hu]
        rfl
      obtain ⟨hframe, hothers, hidle, hstaged⟩ := attributes_taken (w.setService z on) z a u hu.symm
      have hset := setService_frame w z on
      obtain ⟨⟨a', p', d', hself⟩, ⟨py, dy, hpartner⟩, hfar⟩ := setService_shape w z on
      have huy : u.za.get z.partner = (w.setService z on).za.get z.partner := hothers _ (Idx4.partner_ne z)
      have huz : ∃ row base floor staged, u.za.get z =
          { (w.setService z on).za.get z with row := row, base := base, floor := floor, staged := staged } := by
        by_cases hst : ((w.setService z on).za.get z).arb.state = .idle
        · exact ⟨_, _, _, _, hidle hst⟩
        · exact ⟨_, _, _, _, hstaged hst⟩
      obtain ⟨row, base, floor, staged, huz⟩ := huz
      have harb : (u.za.get z).arb = ((w.setService z on).za.get z).arb := by rw [huz]
      have hpair : (u.za.get z).pair = ((w.setService z on).za.get z).pair := by rw [huz]
      have hrch : u.rch = (w.setService z on).rch := by rw [hframe]
      have hclt : u.clt = (w.setService z on).clt := by rw [hframe]
      have haudio : u.audio = (w.setService z on).audio := by rw [hframe]
      have hsp : u.sp = (w.setService z on).sp := by rw [hframe]
      have hlu : u.lu = (w.setService z on).lu := by rw [hframe]
      have hlc : u.lc = (w.setService z on).lc := by rw [hframe]
      refine takesAnswering_of hexec ⟨?_, fun x hx hp => (hothers x hx).trans (hfar x hx hp), fun x => ?_, ?_, ?_, ?_, ?_, ?_, ?_, ?_, fun hst => ?_,
        fun hst => ?_, fun hsame => ?_, fun hwas hoff => ?_, fun hwas hon => ?_⟩
      · refine hframe.trans ?_
        rw [hlc, hclt, hrch, haudio, hsp, hlu]
        exact congrArg (fun q : State => { q with za := u.za }) hset
      · have harbs : (u.za.get x).arb = ((w.setService z on).za.get x).arb := by
          by_cases hx : x = z
          · rw [hx, harb]
          · rw [hothers x hx]
        have hnotes : NotesKept (w.setService z on) u x := ⟨by rw [hframe]; rfl, by rw [harbs], by rw [hlu], by rw [hlu]⟩
        exact (PlayNoted.after_kept (s := s) (t := w) ⟨rfl, rfl, rfl, rfl⟩ (setService_noted w z on x)).then_kept hnotes
      · rw [huy, hpartner]
      · rw [huy, hpartner]
      · rw [huy, hpartner]
      · rw [huy, hpartner]
      · rw [huz, hself]
      · rw [huz, hself]
      · rw [huz, hself]
      · rw [hidle (by rwa [← harb])]
        exact ⟨rfl, rfl, rfl, rfl⟩
      · rw [hstaged (by rwa [← harb]), hself]
        exact ⟨rfl, rfl, rfl, rfl⟩
      · rw [harb, hpair, huy, hlu, hrch, hclt, haudio, hsp, hlc, setService_same (s := w) hsame]
        exact ⟨rfl, rfl, rfl, rfl, rfl, rfl, rfl, rfl, rfl⟩
      · subst hoff
        obtain ⟨hz, hy, -, hatt, hsilent, htakes⟩ := setService_off_clears (s := w) (z := z) hwas
        have hbroken : ∀ q : Zone, (q.cleared (w.whole z)).pair = if (s.za.get z).pair = some .whole then some .broken else q.pair := fun q => by
          rw [Zone.cleared_pair]
          exact if_congr (whole_iff w z) rfl rfl
        rw [harb, hpair, huy, haudio, hz, hy]
        refine ⟨rfl, fun c => ?_, hsilent, hbroken _, hbroken _, fun h e hh he hp => ?_⟩
        · rw [State.attachedTo, hrch]
          exact hatt c
        · rw [State.findEntry, hclt]
          exact htakes h hh z (List.mem_singleton_self z) e he hp
      · subst hon
        obtain ⟨hon, hk, -⟩ := setService_on_frame (s := w) (z := z) hwas
        have hkept : ∀ {α : Type} (g : State → α), g (w.setService z true) = g { w with za := (w.setService z true).za, lu := (w.setService z true).lu } :=
          fun g => congrArg g hon
        rw [harb, hpair, huy, hlu, hrch, hclt, haudio, hsp, hlc]
        refine ⟨hk, hkept (·.rch), hkept (·.clt), hkept (·.audio), hkept (·.sp), hkept (·.lc.tx), fun hamp => ?_, fun hamp => ?_⟩
        · obtain ⟨hz, hy⟩ := setService_on_fault (s := w) hwas hamp
          rw [hz, hy]
          exact ⟨rfl, rfl, rfl⟩
        · obtain ⟨hnone, hidle, hrejoin, hoff⟩ := setService_on_returns (s := w) hwas hamp
          refine ⟨fun hp => ?_, fun hp hst => ?_, fun hp hst => ?_, fun hp hst => ?_⟩
          · obtain ⟨hz, hy⟩ := hnone hp
            rw [hz, hy]
            exact ⟨rfl, hp, rfl⟩
          · obtain ⟨hz, hy⟩ := hidle hp hst
            rw [hz, hy]
            exact ⟨rfl, rfl, rfl⟩
          · obtain ⟨hz, hy⟩ := hrejoin hp hst
            rw [hz, hy]
            exact ⟨rfl, rfl, rfl⟩
          · obtain ⟨hz, hy⟩ := hoff hp hst
            rw [hz, hy]
            exact ⟨rfl, rfl, rfl⟩
  · refine takes_of (t := s.frameEnd) ?_ rfl
    rw [exec_zattr, hus, Bool.and_false]
    rfl

end Sys2Proof.Machine
end

section
/-!
PROOFS. The statement on an offer: the effective code, the order of the wait list, and what a unit does with a claim it is offered.
-/

namespace Sys2Proof.Machine

open Sys2Proof

/-! ### The effective code (R111) -/

theorem stricter_eq (p q : AccCode) : p.stricter q =
    if p = .refuse ∨ q = .refuse then .refuse else if p = .quiet ∨ q = .quiet then .quiet else .accept := by
  cases p <;> cases q <;> rfl

section

variable (s : State) (z : ZoneId) (d : AnnClass)

theorem effCode_fault (h : s.sul.mode = .storeFault) : s.effCode z d = if d = 0 then .accept else .refuse :=
  if_pos (by simp [State.inStoreFault, h])

theorem effCode_loaded (h : s.sul.mode ≠ .storeFault) : s.effCode z d =
    if s.whole z then ((s.za.get z).row.code d).stricter ((s.za.get z.partner).row.code d) else (s.za.get z).row.code d :=
  if_neg (by simp [State.inStoreFault, h])

theorem effCode_single (h : s.sul.mode ≠ .storeFault) (hp : (s.za.get z).pair ≠ some .whole) : s.effCode z d = (s.za.get z).row.code d :=
  (effCode_loaded s z d h).trans (if_neg (mt (whole_iff s z).mp hp))

theorem effCode_whole (h : s.sul.mode ≠ .storeFault) (hp : (s.za.get z).pair = some .whole) :
    s.effCode z d = ((s.za.get z).row.code d).stricter ((s.za.get z.partner).row.code d) :=
  (effCode_loaded s z d h).trans (if_pos ((whole_iff s z).mpr hp))

end

/-! ### The wait list (R117) -/

/-- The place of a claim in a wait list: behind the claims that stand ahead of it (R117). -/
def placed (f : Held → Bool) (w : List Held) (h : Held) : List Held := w.takeWhile f ++ h :: w.dropWhile f

theorem waitEnter_room {ahead : Held → Held → Bool} {w : List Held} {h : Held} (hw : w.length < 4) :
    waitEnter ahead w h = (placed (fun g => ahead g h) w h, none) := if_pos hw

theorem waitEnter_full {ahead : Held → Held → Bool} {p : List Held} {x h : Held} (hw : 4 ≤ (p ++ [x]).length) :
    waitEnter ahead (p ++ [x]) h = if ahead x h then (p ++ [x], some h) else (placed (fun g => ahead g h) p h, some x) := by
  unfold waitEnter
  dsimp only
  rw [if_neg (show ¬ (p ++ [x]).length < Config.maxWait from Nat.not_lt.mpr hw), List.getLast?_concat, List.dropLast_concat]
  rfl

/-- In an ordered list none of the claims behind the place stands ahead. -/
theorem dropWhile_not {f : Held → Bool} {before : Held → Held → Prop} (hmono : ∀ g k, before g k → f k = true → f g = true) {w : List Held}
    (hw : w.Pairwise before) : ∀ g ∈ w.dropWhile f, ¬ f g = true := by
  induction w with
  | nil => simp
  | cons k w ih =>
    obtain ⟨hk, hw⟩ := List.pairwise_cons.mp hw
    by_cases hf : f k = true
    · rw [List.dropWhile_cons_of_pos hf]
      exact ih hw
    · rw [List.dropWhile_cons_of_neg hf]
      intro g hg hfg
      rcases List.mem_cons.mp hg with rfl | hg
      · exact hf hfg
      · exact hf (hmono k g (hk g hg) hfg)

/-- How a claim enters an ordered wait list (R117). -/
theorem waitEnter_ordered {ahead : Held → Held → Bool} {before : Held → Held → Prop} {w : List Held} {h : Held}
    (hmono : ∀ g k, before g k → ahead k h = true → ahead g h = true) (hw : w.Pairwise before) :
    let r := waitEnter ahead w h
    let placed := fun (p : List Held) => ∃ l m, p = l ++ m ∧ r.1 = l ++ h :: m ∧ (∀ g ∈ l, ahead g h = true) ∧ ∀ g ∈ m, ¬ ahead g h = true
    (w.length < 4 → r.2 = none ∧ placed w) ∧
    (4 ≤ w.length → ∀ p x, w = p ++ [x] → (¬ ahead x h = true → r.2 = some x ∧ placed p) ∧ (ahead x h = true → r = (w, some h))) := by
  intro r _
  have hplaced : ∀ p, p.Pairwise before → r.1 = placed (fun g => ahead g h) p h → ∃ l m, p = l ++ m ∧ r.1 = l ++ h :: m ∧
      (∀ g ∈ l, ahead g h = true) ∧ ∀ g ∈ m, ¬ ahead g h = true := fun p hp hr =>
    ⟨p.takeWhile (fun g => ahead g h), p.dropWhile (fun g => ahead g h), List.takeWhile_append_dropWhile.symm, hr,
      fun g hg => List.mem_takeWhile_imp (p := fun g => ahead g h) hg, dropWhile_not hmono hp⟩
  refine ⟨fun hroom => ?_, fun hfull p x hpx => ?_⟩
  · have hr : r = _ := waitEnter_room hroom
    exact ⟨by rw [hr], hplaced w hw (by rw [hr])⟩
  · subst hpx
    have hr : r = _ := waitEnter_full hfull
    refine ⟨fun hx => ?_, fun hx => hr.trans (if_pos hx)⟩
    rw [if_neg hx] at hr
    exact ⟨by rw [hr], hplaced p (List.pairwise_append.mp hw).1 (by rw [hr])⟩

theorem aheadOfOffer_iff (g h : Held) : g.aheadOfOffer h = true ↔ g.cls ≤ h.cls := decide_eq_true_iff

theorem aheadOfDisplaced_iff (g h : Held) : g.aheadOfDisplaced h = true ↔ g.cls < h.cls ∨ (g.cls = h.cls ∧ g.arrival < h.arrival) := by
  simp [Held.aheadOfDisplaced]

/-! ### A claim taken up (R112, R113, R114) -/

theorem tooLate_iff (h : Held) (now : Nat) :
    h.tooLate now = true ↔ (h.sync = .joint ∧ h.start < now) ∨ (h.sync = .loose ∧ ∃ l, h.latest = some l ∧ l < now) := by
  rw [← Bool.not_eq_false, tooLate_eq_false]
  cases h.sync <;> simp

theorem choose_offered (a : Arb) (h : Held) (now : Nat) : ({ a with next := some h } : Arb).choose now =
    if h.tooLate now then ((turnToWait a.wait now).1, h.id :: (turnToWait a.wait now).2) else (h.begun a.wait now, []) := rfl

theorem choose_waiting (a : Arb) (now : Nat) : ({ a with next := none } : Arb).choose now = turnToWait a.wait now := rfl

/-- The claims MISSED on the way to a choice, in the claim table (R94, R122). -/
theorem findEntry_missAll (s : State) (zs : List ZoneId) (ids : List ClaimId) (id : ClaimId) :
    (ids.foldl (fun w i => w.writeDisps i zs .missed) s).findEntry id = (s.findEntry id).map (fun e =>
      if id ∈ ids then { e with disp := Quad.tabulate (fun y => if y ∈ zs ∧ e.disp.get y = .pending then .missed else e.disp.get y) } else e) := by
  induction ids generalizing s with
  | nil =>
    rw [List.foldl_nil]
    cases s.findEntry id <;> simp
  | cons i ids ih =>
    rw [List.foldl_cons, ih, findEntry_writeDisps _ _ _ _ _ (by decide)]
    cases s.findEntry id with
    | none => rfl
    | some e =>
      by_cases hi : id = i
      · subst hi
        by_cases hids : id ∈ ids
        · simp only [Option.map_some, if_pos hids, List.mem_cons_self, if_true, Quad.get_tabulate]
          refine congrArg some (congrArg (fun d => { e with disp := d }) (Quad.ext_get fun y => ?_))
          by_cases hy : y ∈ zs ∧ e.disp.get y = .pending <;> simp [hy]
        · simp [hids]
      · simp [hi]

theorem enter_misses (s : State) (zs : List ZoneId) {r : Arb × List ClaimId} {id : ClaimId} (h : id ∈ r.2) :
    MembersTake s (s.enter zs r) zs id .missed := fun y hy e he hp => by
  have hmissed := findEntry_missAll s zs r.2 id
  rw [he, Option.map_some, if_pos h] at hmissed
  exact ⟨_, (congrArg (List.find? _) (enter_clt s zs r)).trans hmissed, by simp [hy, hp]⟩

/-! ### The offer, case by case (R112) -/

section

variable {s : State} {h : Held} {z : ZoneId}

theorem offerUnit_refused (hc : s.effCode z h.cls = .refuse) : s.offerUnit h z = s.writeDisps h.id (s.unit z) .refusedAttr := if_pos hc

variable (hc : s.effCode z h.cls ≠ .refuse)

include hc

theorem offerUnit_unable (hst : (s.za.get z).arb.state = .fault ∨ (s.za.get z).arb.state = .outOfService ∨ (s.za.get z).arb.state = .rejoining) :
    s.offerUnit h z = s.writeDisps h.id (s.unit z) .fault := by
  unfold State.offerUnit
  dsimp only
  rw [if_neg hc]
  rcases hst with hst | hst | hst <;> rw [hst]

theorem offerUnit_idle (hst : (s.za.get z).arb.state = .idle) :
    s.offerUnit h z = s.enter (s.unit z) (({ (s.za.get z).arb with next := some h } : Arb).choose s.now) := by
  unfold State.offerUnit
  dsimp only
  rw [if_neg hc, hst]

theorem offerUnit_leadIn (hst : (s.za.get z).arb.state = .leadIn) {c : Held} (hcur : (s.za.get z).arb.current = some c) : s.offerUnit h z =
    if h.cls < c.cls then
      (s.writeDisps c.id (s.unit z) .preempted).enter (s.unit z) (({ (s.za.get z).arb with next := some h } : Arb).choose s.now)
    else s.offerWait z (s.za.get z).arb h := by
  unfold State.offerUnit
  dsimp only
  rw [if_neg hc, hst]
  dsimp only
  rw [hcur]

theorem offerUnit_playing (hst : (s.za.get z).arb.state = .playing) {c : Held} (hcur : (s.za.get z).arb.current = some c) : s.offerUnit h z =
    if h.cls < c.cls then s.putCutting z ((s.za.get z).arb.aim h s.now) else s.offerWait z (s.za.get z).arb h := by
  unfold State.offerUnit
  dsimp only
  rw [if_neg hc, hst]
  dsimp only
  rw [hcur]

theorem offerUnit_cutting (hst : (s.za.get z).arb.state = .cutting) {n : Held} (hn : (s.za.get z).arb.next = some n) : s.offerUnit h z =
    if h.cls < n.cls then s.displaceNext z (s.za.get z).arb n h else s.offerWait z (s.za.get z).arb h := by
  unfold State.offerUnit
  dsimp only
  rw [if_neg hc, hst]
  dsimp only
  rw [hn]

/-- A unit without the claim it should hold sends an offer to its wait list. -/
theorem offerUnit_bereft (hno : (((s.za.get z).arb.state = .leadIn ∨ (s.za.get z).arb.state = .playing) ∧ (s.za.get z).arb.current = none) ∨
    ((s.za.get z).arb.state = .cutting ∧ (s.za.get z).arb.next = none)) : s.offerUnit h z = s.offerWait z (s.za.get z).arb h := by
  unfold State.offerUnit
  dsimp only
  rw [if_neg hc]
  rcases hno with ⟨hst | hst, hnone⟩ | ⟨hst, hnone⟩
  all_goals
    rw [hst]
    dsimp only
    rw [hnone]

end

/-- A unit that is aimed at a claim stops at once where the stop instant is reached (R115). -/
theorem putCutting_aim (s : State) (z : ZoneId) (a : Arb) (h : Held) : s.putCutting z (a.aim h s.now) =
    if (h.cls ≤ 1 ∨ h.sync = .joint) ∧ h.start ≤ s.now then (s.putArb (s.unit z) (a.aim h s.now)).stopUnit z .instant
    else s.putArb (s.unit z) (a.aim h s.now) := by
  unfold State.putCutting
  dsimp only
  rw [putArb_now]
  exact if_congr (aim_stopDue a h s.now) rfl rfl

/-- The node once the claim that leaves the wait list for a displaced next claim is MISSED (R116, R117). -/
def State.displaced (s : State) (z : ZoneId) (a : Arb) (o : Held) : State :=
  match (waitEnter Held.aheadOfDisplaced a.wait o).2 with
  | none => s
  | some x => s.writeDisps x.id (s.unit z) .missed

theorem displaced_frame (s : State) (z : ZoneId) (a : Arb) (o : Held) : s.displaced z a o = { s with clt := (s.displaced z a o).clt } := by
  unfold State.displaced
  split
  · rfl
  · exact writeDisps_frame _ _ _ _

theorem displaceNext_eq (s : State) (z : ZoneId) (a : Arb) (o h : Held) : s.displaceNext z a o h =
    (let b := ({ a with wait := (waitEnter Held.aheadOfDisplaced a.wait o).1 } : Arb).aim h s.now
     if (h.cls ≤ 1 ∨ h.sync = .joint) ∧ h.start ≤ s.now then ((s.displaced z a o).putArb (s.unit z) b).stopUnit z .instant
     else (s.displaced z a o).putArb (s.unit z) b) := by
  have hframe := displaced_frame s z a o
  have hnow : (s.displaced z a o).now = s.now := by rw [hframe]; rfl
  have hunit : (s.displaced z a o).unit z = s.unit z := unit_congr (by rw [hframe]) z
  have haim := putCutting_aim (s.displaced z a o) z { a with wait := (waitEnter Held.aheadOfDisplaced a.wait o).1 } h
  rw [hnow, hunit] at haim
  refine Eq.trans ?_ haim
  rw [← hnow]
  rfl

/-! ### What an offer notes (R146, R147) -/

/-- A zone that stays in play notes nothing, whatever it goes on to. -/
theorem PlayNoted.after_playing {s t u : State} {z : ZoneId} (h : PlayNoted s t z) (hnow : t.now = s.now)
    (hs : (s.za.get z).arb.state = .playing ∨ (s.za.get z).arb.state = .cutting)
    (ht : (t.za.get z).arb.state = .playing ∨ (t.za.get z).arb.state = .cutting) (k : PlayNoted t u z) : PlayNoted s u z := by
  have hplays : ∀ {st : ZoneState} {p : Prop}, st = .playing ∨ st = .cutting → ¬ ((st = .idle ∨ st = .leadIn) ∧ p) := by
    rintro st p (rfl | rfl) ⟨hst, -⟩ <;> simp at hst
  obtain ⟨hl, hw⟩ := h
  obtain ⟨kl, kw⟩ := k
  rw [if_neg fun hn => ht.elim hn.2.1 hn.2.2] at hl
  rw [if_neg (hplays hs)] at hw
  rw [if_neg (hplays ht), hw] at kw
  rw [hl, hnow] at kl
  refine ⟨kl.trans (if_congr (and_congr_left fun _ => ⟨fun _ => hs, fun _ => ht⟩) rfl rfl), kw.trans ?_⟩
  rw [if_neg (hplays hs)]

/-- A unit in play that is cut in on (R115). -/
theorem putCutting_plays_noted (s : State) (z : ZoneId) {a : Arb} (hst : a.state = .cutting)
    (h : ∀ y ∈ s.unit z, (s.za.get y).arb.state = .playing) (y : ZoneId) : PlayNoted s (s.putCutting z a) y := by
  have hput := putArb_noted s (s.unit z) a y
  have hnow := putArb_now s (s.unit z) a
  unfold State.putCutting
  dsimp only
  split
  · have hstop := stopUnit_noted (s.putArb (s.unit z) a) z .instant y
    by_cases hy : y ∈ s.unit z
    · exact hput.after_playing hnow (.inl (h y hy)) (.inr (by rw [putArb_get, if_pos hy]; exact hst)) hstop
    · exact hput.trans hstop hnow (congrArg Sck.running (stopUnit_side _ z _).sck) (.inl (by rw [putArb_get, if_neg hy]))
  · exact hput

theorem offerWait_noted (s : State) (z : ZoneId) (a : Arb) (h : Held) (y : ZoneId) : PlayNoted s (s.offerWait z a h) y := by
  unfold State.offerWait
  dsimp only
  split
  · exact putArb_noted s _ _ y
  · exact (putArb_noted s _ _ y).then_kept (writeDisps_notes _ _ _ _ y)

theorem displaceNext_noted (s : State) (z : ZoneId) {a : Arb} (h : ∀ y ∈ s.unit z, (s.za.get y).arb.state = .cutting) (o c : Held) (y : ZoneId) :
    PlayNoted s (s.displaceNext z a o c) y := by
  unfold State.displaceNext
  dsimp only
  split
  · exact putCutting_noted s z _ h y
  · refine .after_kept (writeDisps_notes s _ _ _ y) (putCutting_noted _ z _ (fun x hx => ?_) y)
    rw [unit_congr (writeDisps_za _ _ _ _)] at hx
    rw [writeDisps_za]
    exact h x hx

theorem offerUnit_noted (s : State) (h : Held) (z : ZoneId) (ha : ∀ y ∈ s.unit z, (s.za.get y).arb = (s.za.get z).arb) (y : ZoneId) :
    PlayNoted s (s.offerUnit h z) y := by
  have hwritten := fun id d => writeDisps_notes s id (s.unit z) d y
  have hwait := offerWait_noted s z (s.za.get z).arb h y
  have hstate : ∀ st, (s.za.get z).arb.state = st → ∀ y ∈ s.unit z, (s.za.get y).arb.state = st := fun st hst y hy => by rw [ha y hy, hst]
  have hkept : ∀ id d, PlayNoted s (s.writeDisps id (s.unit z) d) y := fun id d => (PlayNoted.refl s y).then_kept (hwritten id d)
  by_cases hc : s.effCode z h.cls = .refuse
  · rw [offerUnit_refused hc]
    exact hkept _ _
  · cases hst : (s.za.get z).arb.state with
    | fault => rw [offerUnit_unable hc (.inl hst)]; exact hkept _ _
    | outOfService => rw [offerUnit_unable hc (.inr (.inl hst))]; exact hkept _ _
    | rejoining => rw [offerUnit_unable hc (.inr (.inr hst))]; exact hkept _ _
    | idle => rw [offerUnit_idle hc hst]; exact enter_noted s _ _ y
    | leadIn =>
      cases hcur : (s.za.get z).arb.current with
      | none => rw [offerUnit_bereft hc (.inl ⟨.inl hst, hcur⟩)]; exact hwait
      | some c =>
        rw [offerUnit_leadIn hc hst hcur]
        split
        · exact .after_kept (hwritten _ _) (enter_noted _ _ _ y)
        · exact hwait
    | playing =>
      cases hcur : (s.za.get z).arb.current with
      | none => rw [offerUnit_bereft hc (.inl ⟨.inr hst, hcur⟩)]; exact hwait
      | some c =>
        rw [offerUnit_playing hc hst hcur]
        split
        · exact putCutting_plays_noted s z rfl (hstate _ hst) y
        · exact hwait
    | cutting =>
      cases hn : (s.za.get z).arb.next with
      | none => rw [offerUnit_bereft hc (.inr ⟨hst, hn⟩)]; exact hwait
      | some n =>
        rw [offerUnit_cutting hc hst hn]
        split
        · exact displaceNext_noted s z (hstate _ hst) _ _ y
        · exact hwait

/-! ### The statement -/

/-- A unit that takes the claim it is offered: begun by its start instant, or MISSED with the choice going on to the wait list (R113; log 20). -/
theorem enter_takes {s w : State} {h : Held} {zs : List ZoneId} (a : Arb) (hfind : w.findEntry h.id = s.findEntry h.id) :
    let t := w.enter zs (({ a with next := some h } : Arb).choose s.now)
    ∀ y ∈ zs,
      (h.tooLate s.now = true → (t.za.get y).arb = (({ a with next := none } : Arb).choose s.now).1) ∧
      (h.tooLate s.now = false → s.now < h.start → (t.za.get y).arb = { Arb.bare .leadIn with current := some h, wait := a.wait }) ∧
      (h.tooLate s.now = false → h.start ≤ s.now → (t.za.get y).arb = { Arb.bare .playing with current := some h, wait := a.wait }) ∧
      (h.tooLate s.now = true → ∀ e, s.findEntry h.id = some e → e.disp.get y = .pending →
        ∃ e', t.findEntry h.id = some e' ∧ e'.disp.get y = .missed) := by
  intro t y hy
  have harb : (t.za.get y).arb = (({ a with next := some h } : Arb).choose s.now).1 := by
    rw [enter_za, putArb_get, if_pos hy]
  rw [choose_offered] at harb
  refine ⟨fun hl => ?_, fun hl hs => ?_, fun hl hs => ?_, fun hl e he hp => ?_⟩
  · rw [harb, if_pos hl, choose_waiting]
  · rw [harb, hl, if_neg Bool.false_ne_true]
    simp [Held.begun, Held.reached, Nat.not_le.mpr hs]
  · rw [harb, hl, if_neg Bool.false_ne_true]
    simp [Held.begun, Held.reached, hs]
  · refine enter_misses w zs ?_ y hy e (hfind.trans he) hp
    rw [choose_offered, if_pos hl]
    exact List.mem_cons_self

/-- Settles O39: the codes by `effCode_whole` and its like, the wait list by `waitEnter_ordered`, the offer by the state of the unit. -/
theorem offerIsDecided : Obligations.OfferIsDecided := by
  refine ⟨fun s z d => ?codes, fun w h displaced => ?list, fun s h z => ?offer⟩
  case codes =>
    refine ⟨effCode_fault s z d, fun hm => ⟨effCode_single s z d hm, fun hp => ?_⟩⟩
    rw [effCode_whole s z d hm hp, stricter_eq]
  case list =>
    intro before ahead r placed hw
    cases displaced with
    | false =>
      have hmono : ∀ g k, before g k → k.aheadOfOffer h = true → g.aheadOfOffer h = true := fun g k hb hk => by
        rw [aheadOfOffer_iff] at hk ⊢
        exact (hb.elim (·.le) (·.1.le)).trans hk
      have hspec := waitEnter_ordered (h := h) hmono hw
      simp only [aheadOfOffer_iff] at hspec
      exact hspec
    | true =>
      have hmono : ∀ g k, before g k → k.aheadOfDisplaced h = true → g.aheadOfDisplaced h = true := fun g k hb hk => by
        rw [aheadOfDisplaced_iff] at hk ⊢
        rcases hb with hb | ⟨hb, harr⟩
        · exact .inl (hk.elim hb.trans fun hk => hk.1 ▸ hb)
        · exact hk.imp (fun hk => hb ▸ hk) fun ⟨hk, hlt⟩ => ⟨hb.trans hk, harr.trans_lt hlt⟩
      have hspec := waitEnter_ordered (h := h) hmono hw
      simp only [aheadOfDisplaced_iff] at hspec
      exact hspec
  case offer =>
    intro a t zs late taken cut cutsIn waits
    have hlate : late ↔ h.tooLate s.now = true := (tooLate_iff h s.now).symm
    have hnot : ¬ late ↔ h.tooLate s.now = false := by rw [hlate, Bool.not_eq_true]
    have htaken : ∀ w : State, w.findEntry h.id = s.findEntry h.id →
        t = w.enter zs (({ a with next := some h } : Arb).choose s.now) → taken s := fun w hfind ht y hy => by
      obtain ⟨h1, h2, h3, h4⟩ := enter_takes (zs := zs) a hfind y hy
      rw [← ht] at h1 h2 h3 h4
      exact ⟨fun hl => h1 (hlate.mp hl), fun hl => h2 (hnot.mp hl), fun hl => h3 (hnot.mp hl), fun hl => h4 (hlate.mp hl)⟩
    refine ⟨offerUnit_noted s h z, offerUnit_refused, fun hc => ⟨offerUnit_unable hc, fun hidle => ?_, fun c hst hcur _ => ⟨fun hlt hne => ?_, fun hle => ?_⟩,
      fun c hst hcur => ⟨fun hlt => ?_, fun hle => ?_⟩, fun n hst hn => ⟨fun hlt => ?_, fun hle => ?_⟩⟩⟩
    · exact htaken s rfl (offerUnit_idle hc (by rw [show (s.za.get z).arb = _ from hidle]; rfl))
    · have ht : t = _ := (offerUnit_leadIn hc hst hcur).trans (if_pos hlt)
      have hfind : (s.writeDisps c.id zs .preempted).findEntry h.id = s.findEntry h.id := by
        rw [findEntry_writeDisps _ _ _ _ _ (by decide)]
        simp [Ne.symm hne]
      refine ⟨htaken _ hfind ht, ?_⟩
      rw [ht]
      exact (writeDisps_members s c.id zs (by decide)).then_kept (enter_final _ _ _) (by decide)
    · exact (offerUnit_leadIn hc hst hcur).trans (if_neg (Nat.not_lt.mpr hle))
    · exact ((offerUnit_playing hc hst hcur).trans (if_pos hlt)).trans (putCutting_aim s z a h)
    · exact (offerUnit_playing hc hst hcur).trans (if_neg (Nat.not_lt.mpr hle))
    · exact ((offerUnit_cutting hc hst hn).trans (if_pos hlt)).trans (displaceNext_eq s z a n h)
    · exact (offerUnit_cutting hc hst hn).trans (if_neg (Nat.not_lt.mpr hle))

end Sys2Proof.Machine
end

section
/-!
SUPPORT. The walk over the phrase list, the grant of the store port, and what a zone that asks for a channel is given (R134 to R141).
-/

namespace Sys2Proof.Machine

open Sys2Proof

/-! ### The phrase list (R136) -/

theorem nextHeld_first (s : State) (phrases : List Nat) (i : Nat) : FirstHeld s phrases i (s.nextHeld phrases i) := by
  have hwalk : s.nextHeld phrases i = (List.range' i (phrases.length - i)).find? (fun k => (s.dirEntry (phrases.getD k 0)).isSome) := by
    rw [State.nextHeld, List.range_eq_range', List.drop_range', Nat.zero_add, Nat.mul_one]
  constructor
  · intro j hj
    rw [hwalk, List.find?_range'_eq_some] at hj
    obtain ⟨hheld, hmem, hbefore⟩ := hj
    obtain ⟨hlo, hhi⟩ := List.mem_range'_1.mp hmem
    refine ⟨hlo, by omega, by simpa [Option.isSome_iff_ne_none] using hheld, fun m him hm => ?_⟩
    simpa using hbefore m him hm
  · intro hnone m him hm
    rw [hwalk, List.find?_range'_eq_none] at hnone
    simpa using hnone m him (by omega)

/-! ### The grant (R139, R140) -/

theorem requests_iff (s : State) (c : ChanId) : s.requests c = true ↔ ∃ ch, s.rch.get c = some ch ∧ ch.request = true ∧ ch.unread ≠ none := by
  unfold State.requests
  cases s.rch.get c <;> simp [Option.isSome_iff_ne_none]

theorem not_requests {s : State} {c : ChanId} (h : ∀ ch, s.rch.get c = some ch → ch.request = false ∨ ch.unread = none) : s.requests c = false := by
  rw [Bool.eq_false_iff]
  intro hr
  obtain ⟨ch, hch, hreq, hun⟩ := (requests_iff s c).mp hr
  rcases h ch hch with h | h
  · exact Bool.false_ne_true (h.symm.trans hreq)
  · exact hun h

theorem grant_busy {s : State} (h : s.sp.reading ≠ none) : s.grant = s := by
  obtain ⟨r, hr⟩ := Option.ne_none_iff_exists'.mp h
  unfold State.grant
  rw [hr]

theorem grant_none {s : State} (h : (rotation s.sp.pointer).find? s.requests = none) : s.grant = s := by
  unfold State.grant
  rw [h]
  split <;> rfl

theorem grant_reads {s : State} {d : ChanId} {ch : Chan} {b : Nat × Nat} {e : DirEntry} (hidle : s.sp.reading = none)
    (hfind : (rotation s.sp.pointer).find? s.requests = some d) (hch : s.rch.get d = some ch) (hb : ch.unread = some b)
    (he : s.dirEntry (ch.phrases.getD b.1 0) = some e) :
    s.grant = s.setSp { pointer := d, reading := some { chan := d, idx := b.1, pos := b.2, count := min 128 (e.len - b.2), addr := e.addr + 2 * b.2,
                                                        stale := false } } := by
  have hlen : s.phraseLen (ch.phrases.getD b.1 0) = e.len := by rw [State.phraseLen, he]
  unfold State.grant
  rw [hidle, hfind]
  dsimp only
  rw [hch]
  dsimp only
  rw [hb]
  dsimp only
  rw [he, State.blockCount, hlen]
  rfl

theorem granted (s : State) : Granted s s.grant where
  frame := grant_frame s
  busy := grant_busy
  idle h := grant_none (List.find?_eq_none.mpr fun c _ => by rw [not_requests (h c)]; decide)
  grants hidle pre d post hrot hpre ch b e hch hreq hb he := by
    refine congrArg State.sp (grant_reads hidle ?_ hch hb he)
    refine List.find?_eq_some_iff_append.mpr ⟨(requests_iff s d).mpr ⟨ch, hch, hreq, by rw [hb]; simp⟩, pre, post, hrot, fun c hc => ?_⟩
    rw [not_requests (hpre c hc)]
    rfl

/-! ### The channel a zone is given (R134, R141) -/

/-- The lowest number of those that pass a test is the first found. -/
theorem find_lowest {p : Idx4 → Bool} {c : Idx4} (hc : p c = true) (hlow : ∀ d, d.toNat < c.toNat → p d = false) : Idx4.all.find? p = some c := by
  cases c with
  | i0 => simp [Idx4.all, hc]
  | i1 => simp [Idx4.all, hc, hlow .i0 (by decide)]
  | i2 => simp [Idx4.all, hc, hlow .i0 (by decide), hlow .i1 (by decide)]
  | i3 => simp [Idx4.all, hc, hlow .i0 (by decide), hlow .i1 (by decide), hlow .i2 (by decide)]

theorem bindsNow_eq_false {s : State} {id : ClaimId} {c : ChanId} (h : ∀ ch, s.rch.get c = some ch → ch.claim ≠ id ∨ ch.bind16 ≠ s.now16) :
    s.bindsNow id c = false := by
  rw [Bool.eq_false_iff]
  intro hb
  obtain ⟨ch, hch, hclaim, hbind⟩ := (bindsNow_iff s id c).mp hb
  exact (h ch hch).elim (fun hn => hn hclaim) fun hn => hn hbind

/-- The record of a channel newly bound (R133, R134, R141). -/
def State.newChan (s : State) (h : Held) (z : ZoneId) : Chan :=
  let cur := if s.inStoreFault then some 0 else s.nextHeld h.phrases 0
  { claim := h.id, bind16 := s.now16, phrases := h.phrases, cursor := cur, pos := 0, delivered := 0, attached := (Quad.const false).set z true,
    slots := [], unread := if s.inStoreFault then none else cur.map (fun i => (i, 0)), request := !s.inStoreFault && cur.isSome,
    tone := s.inStoreFault }

theorem attaches {s : State} {z : ZoneId} {h : Held} (hc : (s.za.get z).arb.current = some h) : Attaches s (s.attachZone z) z h where
  shares c ch hch hclaim hbind hlow := by
    have hshared : s.sharedChan h.id = some c :=
      find_lowest ((bindsNow_iff s h.id c).mpr ⟨ch, hch, hclaim, hbind⟩) fun d hd => bindsNow_eq_false (hlow d · hd)
    unfold State.attachZone
    simp only [hc, hshared, hch]
    rfl
  binds hno c hfree hlow := by
    have hshared : s.sharedChan h.id = none := List.find?_eq_none.mpr fun d _ => Bool.eq_false_iff.mp (bindsNow_eq_false (hno d))
    have hchan : s.freeChan = some c := find_lowest (by simp [hfree]) fun d hd => by simpa [Option.isSome_iff_ne_none] using hlow d hd
    have ht : s.attachZone z = (s.setChan c (some (s.newChan h z))).grant := by
      unfold State.attachZone
      simp only [hc, hshared, hchan]
      rfl
    rw [ht]
    intro ch
    refine ⟨fun hm => ?_, fun hm => ⟨s.nextHeld h.phrases 0, nextHeld_first s h.phrases 0, ?_⟩⟩
    · have hnew : s.newChan h z = ch := by simp [State.newChan, State.inStoreFault, hm, ch, State.now16]
      rw [hnew]
      exact granted _
    · have hnew : s.newChan h z = { ch with
          cursor := s.nextHeld h.phrases 0, unread := (s.nextHeld h.phrases 0).map (fun i => (i, 0)),
          request := (s.nextHeld h.phrases 0).isSome, tone := false } := by simp [State.newChan, State.inStoreFault, hm, ch, State.now16]
      rw [hnew]
      exact granted _

/-- Zones that ask in turn for the claim of a channel bound now are all attached to it (R134). -/
theorem attachZones_shared {h : Held} {c : ChanId} (zs : List ZoneId) {s : State} (hc : ∀ y ∈ zs, (s.za.get y).arb.current = some h)
    (hs : s.sharedChan h.id = some c) : (zs.foldl State.attachZone s).sharedChan h.id = some c ∧
      ∀ y, y ∈ zs ∨ s.attachedTo y c → (zs.foldl State.attachZone s).attachedTo y c := by
  induction zs generalizing s with
  | nil => exact ⟨hs, fun y hy => hy.resolve_left List.not_mem_nil⟩
  | cons z zs ih =>
    obtain ⟨ch, g⟩ := attachZone_shares (hc z List.mem_cons_self) hs
    have hza : (s.attachZone z).za = s.za := by rw [attachZone_frame]
    obtain ⟨hshared, hatt⟩ := ih (s := s.attachZone z) (fun y hy => by rw [hza]; exact hc y (List.mem_cons_of_mem z hy)) g.shared
    refine ⟨hshared, fun y hy => hatt y ?_⟩
    rw [g.attachedTo]
    rcases hy with hy | hy
    · rcases List.mem_cons.mp hy with rfl | hy
      · exact .inr (.inl ⟨rfl, rfl⟩)
      · exact .inl hy
    · exact .inr (.inr hy)

/-- Where a channel is FREE, zones that ask for one claim are attached to one channel bound to it (R134). -/
theorem attachZones_given {h : Held} {s : State} {z : ZoneId} {zs : List ZoneId} (hc : ∀ y ∈ z :: zs, (s.za.get y).arb.current = some h)
    (hfree : ∃ c, s.rch.get c = none) : ∃ c ch, ((z :: zs).foldl State.attachZone s).rch.get c = some ch ∧ ch.claim = h.id ∧
      ∀ y ∈ z :: zs, ch.attached.get y = true := by
  obtain ⟨c, ch, g⟩ := attachZone_gives (hc z List.mem_cons_self) hfree
  have hza : (s.attachZone z).za = s.za := by rw [attachZone_frame]
  obtain ⟨hshared, hatt⟩ := attachZones_shared zs (s := s.attachZone z) (fun y hy => by rw [hza]; exact hc y (List.mem_cons_of_mem z hy)) g.shared
  obtain ⟨k, hk, hclaim, -⟩ := (bindsNow_iff _ _ _).mp (List.find?_some hshared)
  refine ⟨c, k, hk, hclaim, fun y hy => ?_⟩
  obtain ⟨k', hk', ha⟩ := hatt y (by
    rw [g.attachedTo]
    rcases List.mem_cons.mp hy with rfl | hy
    · exact .inr (.inl ⟨rfl, rfl⟩)
    · exact .inl hy)
  have hkk : k' = k := Option.some.inj (hk'.symm.trans hk)
  rwa [hkk] at ha

/-! ### What the level unit notes has no part in it -/

theorem grant_setLu (s : State) (l : Lu) : (s.setLu l).grant = s.grant.setLu l := by
  have hreq : (s.setLu l).requests = s.requests := rfl
  unfold State.grant
  rw [hreq, State.setLu_sp, State.setLu_rch]
  cases s.sp.reading with
  | some _ => rfl
  | none =>
    cases (rotation s.sp.pointer).find? s.requests with
    | none => rfl
    | some c =>
      dsimp only
      cases s.rch.get c with
      | none => rfl
      | some ch =>
        dsimp only
        cases ch.unread with
        | none => rfl
        | some b => rfl

theorem attachZone_setLu (s : State) (l : Lu) (z : ZoneId) : (s.setLu l).attachZone z = (s.attachZone z).setLu l := by
  have hshared : (s.setLu l).sharedChan = s.sharedChan := rfl
  have hfree : (s.setLu l).freeChan = s.freeChan := rfl
  have hbind : ∀ c h, (s.setLu l).bindChan c h z = (s.bindChan c h z).setLu l := fun c h => grant_setLu (s.setChan c (some (s.newChan h z))) l
  unfold State.attachZone
  rw [hshared, hfree, State.setLu_za, State.setLu_rch]
  simp only [hbind]
  cases (s.za.get z).arb.current with
  | none => rfl
  | some h =>
    dsimp only
    cases s.sharedChan h.id with
    | some c =>
      dsimp only
      cases s.rch.get c with
      | none => rfl
      | some ch => rfl
    | none =>
      dsimp only
      cases s.freeChan with
      | none => rfl
      | some c => rfl

theorem attachZones_setLu (s : State) (l : Lu) (zs : List ZoneId) :
    zs.foldl State.attachZone (s.setLu l) = (zs.foldl State.attachZone s).setLu l := by
  induction zs generalizing s with
  | nil => rfl
  | cons z zs ih => rw [List.foldl_cons, List.foldl_cons, attachZone_setLu, ih]

end Sys2Proof.Machine
end

section
/-!
PROOFS. The statement on the instants: a claim that begins to play, and one that stops at its stop instant, with what the unit turns to.
-/

namespace Sys2Proof.Machine

open Sys2Proof

/-! ### START_INSTANT (R118, R134, R151) -/

section

variable {s : State} {z : ZoneId} {h : Held}

theorem exec_startInstant (hst : (s.za.get z).arb.state = .leadIn) (hc : (s.za.get z).arb.current = some h) (hs : h.start ≤ s.now) :
    exec (.startInstant z) s = .next (s.enter (s.unit z) ({ (s.za.get z).arb with state := .playing }, [])) := by
  change Host.Outcome.next _ = _
  rw [hst]
  dsimp only
  rw [hc]
  dsimp only
  rw [if_pos (show h.reached s.now = true from decide_eq_true hs)]

theorem exec_startInstant_early (hc : (s.za.get z).arb.current = some h) (hno : (s.za.get z).arb.state ≠ .leadIn ∨ s.now < h.start) :
    exec (.startInstant z) s = .next s := by
  refine congrArg Host.Outcome.next ?_
  split
  · rename_i k hst hk
    cases hc.symm.trans hk
    refine if_neg ?_
    rw [Held.reached, decide_eq_true_eq, Nat.not_le]
    exact hno.resolve_left fun hn => hn hst
  · rfl

/-- A unit that enters PLAYING: its members are written, attached, and take their levels (R118, R151). -/
theorem enter_playing (s : State) (zs : List ZoneId) {a : Arb} (ha : a.state.plays = true) :
    s.enter zs (a, []) = (zs.foldl State.attachZone (s.putArb zs a)).applyLevels zs := if_pos ha

/-- What a unit takes as it begins to play (R118, R134, R151). -/
theorem enter_playing_takes {zs : List ZoneId} {a : Arb} (ha : a.state.plays = true) (hc : a.current = some h) (t : State) (ht : t = s.enter zs (a, [])) :
    t = { s with za := t.za, rch := t.rch, sp := t.sp, lu := t.lu } ∧
    (∃ w, w = zs.foldl State.attachZone { s with za := t.za } ∧ t.rch = w.rch ∧ t.sp = w.sp) ∧
    ∀ y ∈ zs, (t.za.get y).arb = a ∧ (t.lu.zones.get y).level = t.levelFor y h ∧ (t.lu.zones.get y).mult = multiplier (t.levelFor y h) ∧
      ((∃ c, s.rch.get c = none) → ∃ c ch, t.rch.get c = some ch ∧ ch.attached.get y = true ∧ ch.claim = h.id) := by
  have hza : t.za = (s.putArb zs a).za := by rw [ht, enter_za]
  have hclt : t.clt = s.clt := by rw [ht, enter_clt]; rfl
  have harb : ∀ y ∈ zs, ((s.putArb zs a).za.get y).arb = a := fun y hy => by rw [putArb_get, if_pos hy]
  have hput : s.putArb zs a = ({ s with za := t.za } : State).setLu (s.putArb zs a).lu := by
    rw [hza]
    exact putArb_frame s zs a
  have hattached := enter_playing s zs ha
  rw [← ht] at hattached
  have hchans : t.rch = (zs.foldl State.attachZone (s.putArb zs a)).rch ∧ t.sp = (zs.foldl State.attachZone (s.putArb zs a)).sp := by
    rw [hattached, applyLevels_frame]
    exact ⟨rfl, rfl⟩
  have hcur : ∀ y ∈ zs, ((zs.foldl State.attachZone (s.putArb zs a)).za.get y).arb.current = some h := fun y hy => by
    rw [attachZones_frame]
    change ((s.putArb zs a).za.get y).arb.current = _
    rw [harb y hy, hc]
  refine ⟨?_, ⟨_, rfl, ?_⟩, fun y hy => ⟨by rw [hza, harb y hy], ?_⟩⟩
  · have hframe := enter_frame s zs (a, [])
    rw [← ht, hclt] at hframe
    exact hframe
  · rw [hput, attachZones_setLu] at hchans
    exact hchans
  · have hlevel := applyLevels_level hy (hcur y hy)
    rw [← hattached, ← (applyLevels_alike _ zs).levelFor, ← hattached] at hlevel
    refine ⟨hlevel.1, hlevel.2, fun hfree => ?_⟩
    obtain ⟨x, xs, hxs⟩ := List.exists_cons_of_ne_nil (List.ne_nil_of_mem hy)
    have hgiven := attachZones_given (s := s.putArb zs a) (h := h) (z := x) (zs := xs) (fun y hy => by rw [harb y (hxs ▸ hy), hc])
      (by rw [putArb_rch]; exact hfree)
    rw [← hxs, ← hchans.1] at hgiven
    obtain ⟨c, ch, hch, hclaim, hall⟩ := hgiven
    exact ⟨c, ch, hch, hall y hy, hclaim⟩

end

/-! ### What a unit turns to (R113, R119, R122) -/

/-- Whether a claim can still begin, a waiter within `slack` of its latest start (R113, R119; log 61). -/
def CanBegin (now slack : Nat) (m : Held) : Prop :=
  (m.sync = .joint → now ≤ m.start) ∧ (m.sync = .loose → ∀ l, m.latest = some l → now ≤ l + slack)

theorem choose_next {a : Arb} {n : Held} {now : Nat} (hn : a.next = some n) (hcan : CanBegin now 0 n) : a.choose now = (n.begun a.wait now, []) := by
  unfold Arb.choose
  rw [hn]
  dsimp only
  rw [(tooLate_eq_false n now).mpr hcan, if_neg Bool.false_ne_true]

/-- A unit with no next claim that can begin: the waiters passed over, and the one taken if there is one (R122). -/
theorem choose_wait_list {a : Arb} {now : Nat} (hno : ∀ n, a.next = some n → ¬ CanBegin now 0 n) :
    ∃ miss rest, a.wait = miss ++ rest ∧ (∀ m ∈ miss, ¬ CanBegin now 1 m) ∧
      (rest = [] → a.choose now = (Arb.bare .idle, (a.next.toList ++ miss).map (·.id))) ∧
      ∀ n r, rest = n :: r → CanBegin now 1 n ∧ a.choose now = (n.begun r now, (a.next.toList ++ miss).map (·.id)) := by
  obtain ⟨miss, rest, hwait, hmiss, hnone, hsome⟩ := takeFirst_cases now a.wait
  have hturn : a.choose now = ((turnToWait a.wait now).1, a.next.toList.map (·.id) ++ (turnToWait a.wait now).2) := by
    unfold Arb.choose
    cases hn : a.next with
    | none => rfl
    | some n =>
      have hlate : n.tooLate now = true := by
        rw [← Bool.not_eq_false, tooLate_eq_false]
        exact hno n hn
      dsimp only
      rw [hlate, if_pos rfl]
      rfl
  refine ⟨miss, rest, hwait, fun m hm hcan => ?_, fun hr => ?_, fun n r hr => ?_⟩
  · exact Bool.false_ne_true (((waitedOut_eq_false m now).mpr hcan).symm.trans (hmiss m hm))
  · rw [hturn, turnToWait, hnone hr, List.map_append]
  · obtain ⟨hcan, htake⟩ := hsome n r hr
    refine ⟨(waitedOut_eq_false n now).mp hcan, ?_⟩
    rw [hturn, turnToWait, htake, List.map_append]

theorem begun_eq (n : Held) (w : List Held) (now : Nat) :
    n.begun w now = { Arb.bare (if n.start ≤ now then .playing else .leadIn) with current := some n, wait := w } := by
  simp [Held.begun, Held.reached]

/-! ### STOP_INSTANT (R115, R121, R122) -/

section

variable {s : State} {z : ZoneId} {h : Held}

theorem stopDue_iff (a : Arb) (now : Nat) : a.stopDue now = true ↔ a.state = .cutting ∧ ∃ i, a.stopAt = some i ∧ i ≤ now := by
  unfold Arb.stopDue
  cases a.stopAt <;> simp

theorem exec_stopInstant (s : State) (z : ZoneId) :
    exec (.stopInstant z) s = .next (if (s.za.get z).arb.stopDue s.now then (s.stopUnit z .instant).settle else s) := rfl

theorem chooseNext_misses (s : State) (zs : List ZoneId) {a : Arb} {id : ClaimId} (hid : id ∈ (a.choose s.now).2) :
    MembersTake s (s.chooseNext zs a) zs id .missed :=
  (enter_misses s zs hid).then_kept (.of_clt (by rw [State.chooseNext, markReforms_frame])) (by decide)

/-- A claim passed over as a unit turns from its stopped claim is MISSED there (R121, R122). -/
theorem stopUnit_misses (cause : StopCause) (hc : (s.za.get z).arb.current = some h) {id : ClaimId} (hid : id ∈ ((s.za.get z).arb.choose s.now).2)
    (hne : id ≠ h.id) : MembersTake s (s.stopUnit z cause) (s.unit z) id .missed := by
  intro y hy e he hp
  have hframe := detachZones_frame s (s.unit z)
  have hnow : ((s.detachZones (s.unit z)).writeDisps h.id (s.unit z) (s.stopDisp z (s.za.get z).arb cause)).now = s.now := by
    rw [State.now, writeDisps_sck, hframe]
    rfl
  have hfind : ((s.detachZones (s.unit z)).writeDisps h.id (s.unit z) (s.stopDisp z (s.za.get z).arb cause)).findEntry id = some e := by
    rw [findEntry_writeDisps _ _ _ _ _ (stopDisp_final _ _ _ _), hframe]
    change Option.map _ (s.findEntry id) = _
    rw [he]
    simp [hne]
  unfold State.stopUnit
  simp only [hc]
  exact chooseNext_misses _ _ (by rw [hnow]; exact hid) y hy e hfind hp

/-- A single zone that stops marks its REJOINING partner (R126; log 21). -/
theorem stopUnit_marks (cause : StopCause) (hc : (s.za.get z).arb.current = some h) (hp : (s.za.get z).pair = some .broken)
    (hst : (s.za.get z.partner).arb.state = .rejoining) : ((s.stopUnit z cause).za.get z.partner).reformDue = true := by
  have hunit : s.unit z = [z] := if_neg (by simp [State.whole, hp])
  have hza : ((s.detachZones [z]).writeDisps h.id [z] (s.stopDisp z (s.za.get z).arb cause)).za = s.za := by
    rw [writeDisps_za, detachZones_frame]
  unfold State.stopUnit
  simp only [hc, hunit]
  rw [chooseNext_marks, hza]
  exact .inr ⟨hp, hst⟩

theorem zoneDelivered_iff {c : ChanId} {ch : Chan} (hc : s.chanOf z = some c) (hch : s.rch.get c = some ch) : s.zoneDelivered z = true ↔
    s.atLast ch = true ∧ s.partDone ch = true ∧ ch.bind16 + ch.delivered ≤ 16 * s.sck.running + s.sck.sub := by
  unfold State.zoneDelivered
  simp only [hc, hch, Bool.and_eq_true, decide_eq_true_eq, and_assoc]
  rfl

theorem stopDisp_instant (s : State) (z : ZoneId) (a : Arb) :
    s.stopDisp z a .instant = if a.wdPending then .withdrawn else if s.zoneDelivered z then .played else .preempted := by
  simp [State.stopDisp]

end

/-! ### The statement -/

/-- Settles O41: a channel's record by `attaches`, a start by `enter_playing_takes`, a stop by what `stopUnit` writes and turns to. -/
theorem instantsAreTaken : Obligations.InstantsAreTaken := by
  refine ⟨fun s z h hc => attaches hc, ?_⟩
  intro z s h a hc
  refine ⟨fun hst hs => ?starts, fun hno => takes_of (exec_startInstant_early hc hno) rfl, fun i hst hi hle => ?stops, fun hno => ?idle⟩
  case starts =>
    obtain ⟨hframe, hchans, htakes⟩ := enter_playing_takes (s := s) (h := h) (zs := s.unit z) (a := { a with state := .playing }) rfl hc _ rfl
    exact takes_of (exec_startInstant hst hc hs) ⟨hframe, enter_noted s _ _, hchans, htakes⟩
  case stops =>
    refine takes_of ((exec_stopInstant s z).trans (congrArg _ (if_pos ((stopDue_iff a s.now).mpr ⟨hst, i, hi, hle⟩)))) ?_
    have htaken : ∀ {id d}, MembersTake s (s.stopUnit z .instant) (s.unit z) id d → d ≠ .pending →
        MembersTake s (s.stopUnit z .instant).settle (s.unit z) id d := fun hm hd => hm.settled hd
    refine ⟨(stopUnit_side s z _).settled, fun y hy => ?_, fun y => (stopUnit_noted s z _ y).settled, fun hp hr => ?_, ?_,
      fun c ch hcz hch => zoneDelivered_iff hcz hch, fun y hy e he hp => ?_⟩
    · rw [settle_za, stopUnit_arb s z y .instant h hc, if_pos hy]
    · rw [settle_za]
      exact stopUnit_marks .instant hc hp hr
    · intro canBegin begun
      have hbegun : ∀ n w, n.begun w s.now = begun n w := fun n w => begun_eq n w s.now
      refine ⟨fun n hn hcan => ?_, fun hno => ?_⟩
      · rw [← hbegun]
        exact choose_next hn hcan
      · obtain ⟨miss, rest, hwait, hmiss, hnone, hsome⟩ := choose_wait_list hno
        have hpassed : (a.choose s.now).2 = (a.next.toList ++ miss).map (·.id) := by
          cases rest with
          | nil => rw [hnone rfl]
          | cons n r => rw [(hsome n r rfl).2]
        refine ⟨miss, rest, hwait, hmiss, hnone, fun n r hr => ?_, fun m hm hne => ?_⟩
        · rw [← hbegun]
          exact hsome n r hr
        · refine htaken (stopUnit_misses .instant hc ?_ hne) (by decide)
          rw [show ((s.za.get z).arb.choose s.now).2 = _ from hpassed]
          exact List.mem_map_of_mem hm
    · obtain ⟨e', he', hd⟩ := htaken (stopUnit_members .instant hc) (stopDisp_final _ _ _ _) y hy e he hp
      rw [stopDisp_instant] at hd
      refine ⟨e', he', fun hw => ?_, fun hw hdel => ?_, fun hw hdel => ?_⟩
      · rw [hd, if_pos hw]
      · rw [hd, if_neg (by rw [show (s.za.get z).arb.wdPending = _ from hw]; decide), if_pos hdel]
      · rw [hd, if_neg (by rw [show (s.za.get z).arb.wdPending = _ from hw]; decide), if_neg (by rw [hdel]; decide)]
  case idle =>
    refine takes_of ((exec_stopInstant s z).trans (congrArg _ (if_neg fun hdue => ?_))) rfl
    obtain ⟨hst, i, hi, hle⟩ := (stopDue_iff _ _).mp hdue
    rcases hno with hn | hn | ⟨j, hj, hlt⟩
    · exact hn hst
    · cases hn.symm.trans hi
    · cases hj.symm.trans hi
      exact Nat.not_le.mpr hlt hle

end Sys2Proof.Machine
end

section
/-!
SUPPORT. The units of zones taken one by one: each zone belongs to one of them, and what the others do passes it by (R110, R124, R134, R135).
-/

namespace Sys2Proof.Machine

open Sys2Proof

/-! ### The units, each by the zone that stands for it (R124) -/

section

variable {s : State}

theorem leads_nodup (s : State) : s.leads.Nodup := List.Nodup.filter _ (by decide)

theorem mem_leads (s : State) (z : ZoneId) : z ∈ s.leads ↔ s.leadOf z = z := by
  simp [State.leads, mem_idx4_all]

theorem leadOf_lead (s : State) (z : ZoneId) : s.leadOf z ∈ s.leads := by
  rw [mem_leads]
  unfold State.leadOf
  have hlead : z.lead.lead = z.lead := by cases z <;> rfl
  by_cases h : s.whole z = true
  · rw [if_pos h, hlead, ite_self]
  · rw [if_neg h, if_neg h]

theorem lead_cases (z : ZoneId) : z.lead = z ∨ z.lead = z.partner := by cases z <;> decide

theorem ZonesKept.mem_leadOf (hs : ZonesKept s) (z : ZoneId) : z ∈ s.unit (s.leadOf z) := by
  unfold State.leadOf
  by_cases h : s.whole z = true
  · rw [if_pos h]
    rcases lead_cases z with hl | hl
    · rw [hl]
      exact self_mem_unit s z
    · rw [hl, mem_unit]
      exact .inr ⟨hs.whole_partner h, (Idx4.partner_partner z).symm⟩
  · rw [if_neg h]
    exact self_mem_unit s z

/-- A zone is in the unit of one of those that stand for units alone. -/
theorem ZonesKept.eq_leadOf (hs : ZonesKept s) {l z : ZoneId} (hl : l ∈ s.leads) (hz : z ∈ s.unit l) : l = s.leadOf z := by
  have hlead := (mem_leads s l).mp hl
  rcases (mem_unit s l z).mp hz with rfl | ⟨hw, rfl⟩
  · exact hlead.symm
  · rw [State.leadOf, if_pos hw] at hlead
    rw [State.leadOf, if_pos (hs.whole_partner hw)]
    rw [← hlead]
    cases l <;> rfl

theorem ZonesKept.leadOf_eq (hs : ZonesKept s) {y z : ZoneId} (hy : y ∈ s.unit (s.leadOf z)) : s.leadOf y = s.leadOf z :=
  (hs.eq_leadOf (leadOf_lead s z) hy).symm

/-- The unit of an attached zone is among those attached to the channel. -/
theorem ZonesKept.leadOf_attached (hs : ZonesKept s) {ch : Chan} {z : ZoneId} (hz : ch.attached.get z = true) : s.leadOf z ∈ s.attachedUnits ch :=
  List.mem_filter.mpr ⟨leadOf_lead s z, List.any_eq_true.mpr ⟨z, hs.mem_leadOf z, hz⟩⟩

theorem attachedUnits_leads {ch : Chan} {l : ZoneId} (hl : l ∈ s.attachedUnits ch) : l ∈ s.leads :=
  List.mem_of_mem_filter (p := fun z => (s.unit z).any (fun y => ch.attached.get y)) hl

/-- Where a unit is among those attached to a channel, no zone of it is in another of them. -/
theorem ZonesKept.attachedUnits_split (hs : ZonesKept s) {ch : Chan} {z : ZoneId} (hz : s.leadOf z ∈ s.attachedUnits ch) :
    ∃ pre post, s.attachedUnits ch = pre ++ s.leadOf z :: post ∧ ∀ l ∈ pre ++ post, ∀ y ∈ s.unit (s.leadOf z), y ∉ s.unit l := by
  obtain ⟨pre, post, hsplit⟩ := List.append_of_mem hz
  have hnodup : (pre ++ s.leadOf z :: post).Nodup := hsplit ▸ (leads_nodup s).filter _
  have hnot : s.leadOf z ∉ pre ++ post := (List.nodup_middle.mp hnodup).notMem
  refine ⟨pre, post, hsplit, fun l hl y hy hyl => hnot ?_⟩
  have hlead : l ∈ s.leads := by
    refine attachedUnits_leads (ch := ch) ?_
    rw [hsplit]
    simp only [List.mem_append, List.mem_cons] at hl ⊢
    exact hl.imp_right .inr
  rwa [← hs.leadOf_eq hy, ← hs.eq_leadOf hlead hyl]

/-- A zone whose unit is not among those attached to the channel is in none of them. -/
theorem ZonesKept.attachedUnits_apart (hs : ZonesKept s) {ch : Chan} {z : ZoneId} (hz : s.leadOf z ∉ s.attachedUnits ch) :
    ∀ l ∈ s.attachedUnits ch, z ∉ s.unit l := fun l hl hzl => hz (by rwa [← hs.eq_leadOf (attachedUnits_leads hl) hzl])

end

/-! ### What passes a zone by -/

/-- What the operations on other zones leave of the zone `z`: its output, its channels, each with its record but for the zones attached, and its
dispositions. -/
structure PassesBy (s t : State) (z : ZoneId) : Prop where
  audio : t.audio.get z = s.audio.get z
  attached : ∀ c, t.attachedTo z c ↔ s.attachedTo z c
  record : ∀ c ch, s.rch.get c = some ch → ch.attached.get z = true → ∃ d, t.rch.get c = some d ∧ d = { ch with attached := d.attached }
  disp : ∀ id e, s.findEntry id = some e → ∃ e', t.findEntry id = some e' ∧ e'.disp.get z = e.disp.get z

section

variable {s t u : State} {z : ZoneId}

theorem PassesBy.refl (s : State) (z : ZoneId) : PassesBy s s z := ⟨rfl, fun _ => Iff.rfl, fun _ ch hch _ => ⟨ch, hch, rfl⟩, fun _ e he => ⟨e, he, rfl⟩⟩

theorem PassesBy.trans (h : PassesBy s t z) (k : PassesBy t u z) : PassesBy s u z := by
  refine ⟨k.audio.trans h.audio, fun c => (k.attached c).trans (h.attached c), fun c ch hch ha => ?_, fun id e he => ?_⟩
  · obtain ⟨d, hd, hdc⟩ := h.record c ch hch ha
    obtain ⟨d', hd', ha'⟩ := (h.attached c).mpr ⟨ch, hch, ha⟩
    cases hd.symm.trans hd'
    obtain ⟨e, he, hec⟩ := k.record c d hd ha'
    exact ⟨e, he, by rw [hec, hdc]⟩
  · obtain ⟨e₁, he₁, hd₁⟩ := h.disp id e he
    obtain ⟨e₂, he₂, hd₂⟩ := k.disp id e₁ he₁
    exact ⟨e₂, he₂, hd₂.trans hd₁⟩

theorem PassesBy.of_eq (haudio : t.audio = s.audio) (hrch : t.rch = s.rch) (hclt : t.clt = s.clt) : PassesBy s t z := by
  refine ⟨by rw [haudio], fun c => by rw [State.attachedTo, State.attachedTo, hrch], fun c ch hch _ => ⟨ch, by rw [hrch]; exact hch, rfl⟩, fun id e he => ?_⟩
  exact ⟨e, (congrArg (List.find? _) hclt).trans he, rfl⟩

theorem Detaches.passesBy {zs : List ZoneId} (d : Detaches zs s t) (hz : z ∉ zs) : PassesBy s t z := by
  have hclt : t.clt = s.clt := by rw [d.frame]
  refine ⟨by rw [d.audio, if_neg hz], fun c => (d.attached z c).trans (and_iff_left hz), fun c ch hch ha => ?_, fun id e he => ?_⟩
  · obtain ⟨k, hk, -⟩ := (d.attached z c).mpr ⟨⟨ch, hch, ha⟩, hz⟩
    obtain ⟨ch', hch', hkc⟩ := d.chans c k hk
    cases hch.symm.trans hch'
    exact ⟨k, hk, hkc⟩
  · exact ⟨e, (congrArg (List.find? _) hclt).trans he, rfl⟩

theorem writeDisps_passesBy (s : State) (id : ClaimId) (zs : List ZoneId) {d : Disp} (hd : d ≠ .pending) (hz : z ∉ zs) :
    PassesBy s (s.writeDisps id zs d) z := by
  have hframe := writeDisps_frame s id zs d
  refine ⟨by rw [hframe], fun c => by rw [hframe]; rfl, fun c ch hch _ => ⟨ch, by rw [hframe]; exact hch, rfl⟩, fun j e he => ?_⟩
  refine ⟨_, by rw [findEntry_writeDisps s id j zs d hd, he]; rfl, ?_⟩
  split
  · simp [hz]
  · rfl

theorem JoinsChannel.passesBy {y : ZoneId} {k : Held} {c : ChanId} {ch : Chan} (g : JoinsChannel s t y k c ch) (hz : z ≠ y) : PassesBy s t z := by
  have hclt : t.clt = s.clt := by rw [g.frame]
  have hget : ∀ d, t.rch.get d = if d = c then some ch else s.rch.get d := fun d => by
    rw [g.frame]
    exact Quad.get_set _ _ _ _
  refine ⟨by rw [g.frame], fun d => ?_, fun d old hd ha => ?_, fun id e he => ⟨e, (congrArg (List.find? _) hclt).trans he, rfl⟩⟩
  · rw [g.attachedTo]
    exact or_iff_right fun h => hz h.1
  · rw [hget]
    split
    · rename_i hdc
      exact ⟨ch, rfl, g.old old (hdc ▸ hd)⟩
    · exact ⟨old, hd, rfl⟩

theorem attachZone_passesBy (s : State) {y : ZoneId} (hz : z ≠ y) : PassesBy s (s.attachZone y) z := by
  cases hc : (s.za.get y).arb.current with
  | none =>
    have ht : s.attachZone y = s := by
      unfold State.attachZone
      rw [hc]
    rw [ht]
    exact .refl s z
  | some k =>
    by_cases hgiven : ∃ c ch, GivesChannel s (s.attachZone y) y k c ch
    · obtain ⟨c, ch, g⟩ := hgiven
      exact g.toJoinsChannel.passesBy hz
    · have hshared : s.sharedChan k.id = none := Option.eq_none_iff_forall_ne_some.mpr fun c hs => hgiven ⟨c, attachZone_shares hc hs⟩
      have hfree : s.freeChan = none := Option.eq_none_iff_forall_ne_some.mpr fun c hf => hgiven
        (attachZone_gives hc ⟨c, by simpa using List.find?_some hf⟩)
      have ht : s.attachZone y = s := by
        unfold State.attachZone
        simp only [hc, hshared, hfree]
      rw [ht]
      exact .refl s z

theorem attachZones_passesBy (zs : List ZoneId) (s : State) (hz : z ∉ zs) : PassesBy s (zs.foldl State.attachZone s) z := by
  induction zs generalizing s with
  | nil => exact .refl s z
  | cons y zs ih =>
    obtain ⟨hy, hzs⟩ := not_or.mp (mt List.mem_cons.mpr hz)
    exact (attachZone_passesBy s hy).trans (ih _ hzs)

theorem missAll_passesBy (ids : List ClaimId) (s : State) {zs : List ZoneId} (hz : z ∉ zs) :
    PassesBy s (ids.foldl (fun w id => w.writeDisps id zs .missed) s) z := by
  induction ids generalizing s with
  | nil => exact .refl s z
  | cons id ids ih => exact (writeDisps_passesBy s id zs (by decide) hz).trans (ih _)

theorem putArb_passesBy (s : State) (zs : List ZoneId) (a : Arb) : PassesBy s (s.putArb zs a) z :=
  .of_eq (putArb_audio s zs a) (putArb_rch s zs a) (putArb_clt s zs a)

theorem applyLevels_passesBy (s : State) (zs : List ZoneId) : PassesBy s (s.applyLevels zs) z := by
  rw [applyLevels_frame]
  exact .of_eq rfl rfl rfl

theorem chooseNext_passesBy (s : State) {zs : List ZoneId} (a : Arb) (hz : z ∉ zs) : PassesBy s (s.chooseNext zs a) z := by
  have hmissed := (putArb_passesBy s zs (a.choose s.now).1 (z := z)).trans (missAll_passesBy (a.choose s.now).2 _ hz)
  have henter : PassesBy s (s.enter zs (a.choose s.now)) z := by
    unfold State.enter
    dsimp only
    split
    · exact (hmissed.trans (attachZones_passesBy zs _ hz)).trans (applyLevels_passesBy _ zs)
    · exact hmissed
  unfold State.chooseNext
  rw [markReforms_frame]
  exact henter.trans (.of_eq rfl rfl rfl)

theorem stopUnit_passesBy (s : State) {l : ZoneId} (cause : StopCause) (hz : z ∉ s.unit l) : PassesBy s (s.stopUnit l cause) z := by
  unfold State.stopUnit
  dsimp only
  split
  · exact .refl s z
  · exact (((detachZones_detaches s _).passesBy hz).trans (writeDisps_passesBy _ _ _ (stopDisp_final _ _ _ _) hz)).trans (chooseNext_passesBy _ _ hz)

end

end Sys2Proof.Machine
end

section
/-!
PROOFS. The statement on the phrase boundary: which units stop at it and which play on, the cursor, and what each unit leaves of the others.
-/

namespace Sys2Proof.Machine

open Sys2Proof

/-! ### One unit at a boundary (R120) -/

section

variable {s t u : State} {z l : ZoneId} {last : Bool}

theorem boundaryUnit_stops (h : last = true ∨ (s.za.get l).arb.phraseEnd = true) : s.boundaryUnit last l = s.stopUnit l .boundary :=
  if_pos (by simpa using h)

theorem boundaryUnit_plays_on (hl : last = false) (h : (s.za.get l).arb.phraseEnd = false) : s.boundaryUnit last l = s.applyLevels (s.unit l) :=
  if_neg (by simp [hl, h])

theorem boundaryUnit_side (s : State) (last : Bool) (l : ZoneId) : ZoneSide s (s.boundaryUnit last l) := by
  unfold State.boundaryUnit
  split
  · exact stopUnit_side s l _
  · exact applyLevels_side s _

theorem boundaryUnit_noted (s : State) (last : Bool) (l y : ZoneId) : PlayNoted s (s.boundaryUnit last l) y := by
  unfold State.boundaryUnit
  split
  · exact stopUnit_noted s l _ y
  · exact (PlayNoted.refl s y).then_kept (applyLevels_notes s _ y)

/-- What units at a boundary leave of a zone of no one of them, and what one that plays on leaves of its own. -/
structure UnitsAside (s t : State) (z : ZoneId) : Prop extends PassesBy s t z where
  pairs : PairsKept s t
  arb : (t.za.get z).arb = (s.za.get z).arb
  side : ZoneSide s t
  notes : NotesKept s t z

theorem UnitsAside.refl (s : State) (z : ZoneId) : UnitsAside s s z := ⟨.refl s z, .refl s, rfl, .refl s, .of_eq rfl rfl rfl⟩

theorem UnitsAside.trans (h : UnitsAside s t z) (k : UnitsAside t u z) : UnitsAside s u z :=
  ⟨h.toPassesBy.trans k.toPassesBy, h.pairs.trans k.pairs, k.arb.trans h.arb, h.side.trans k.side, h.notes.trans k.notes⟩

theorem applyLevels_aside (s : State) (zs : List ZoneId) (z : ZoneId) : UnitsAside s (s.applyLevels zs) z :=
  ⟨applyLevels_passesBy s zs, .of_za (applyLevels_alike s zs).za, by rw [(applyLevels_alike s zs).za], applyLevels_side s zs, applyLevels_notes s zs z⟩

theorem stopUnit_aside (s : State) (cause : StopCause) (hz : z ∉ s.unit l) : UnitsAside s (s.stopUnit l cause) z := by
  have harb : ((s.stopUnit l cause).za.get z).arb = (s.za.get z).arb := by
    cases hc : (s.za.get l).arb.current with
    | none =>
      have ht : s.stopUnit l cause = s := by
        unfold State.stopUnit
        simp only [hc]
      rw [ht]
    | some h => rw [stopUnit_arb s l z cause h hc, if_neg hz]
  have hside := stopUnit_side s l cause
  exact ⟨stopUnit_passesBy s cause hz, stopUnit_pairs s l cause, harb, hside,
    (stopUnit_noted s l cause z).kept (congrArg Sck.running hside.sck) (by rw [harb])⟩

theorem boundaryUnit_aside (s : State) (last : Bool) (hz : z ∉ s.unit l) : UnitsAside s (s.boundaryUnit last l) z := by
  unfold State.boundaryUnit
  split
  · exact stopUnit_aside s _ hz
  · exact applyLevels_aside s _ z

theorem boundaryUnit_pairs (s : State) (last : Bool) (l : ZoneId) : PairsKept s (s.boundaryUnit last l) := by
  unfold State.boundaryUnit
  split
  · exact stopUnit_pairs s l _
  · exact .of_za (applyLevels_alike s _).za

theorem boundaryUnits_aside (last : Bool) (ls : List ZoneId) (s : State) (h : ∀ l ∈ ls, z ∉ s.unit l) :
    UnitsAside s (ls.foldl (State.boundaryUnit last) s) z := by
  induction ls generalizing s with
  | nil => exact .refl s z
  | cons l ls ih =>
    refine (boundaryUnit_aside s last (h l List.mem_cons_self)).trans (ih _ fun k hk => ?_)
    rw [unit_of_pair (boundaryUnit_pairs s last l)]
    exact h k (List.mem_cons_of_mem l hk)

theorem boundaryUnits_side (last : Bool) (ls : List ZoneId) (s : State) : ZoneSide s (ls.foldl (State.boundaryUnit last) s) :=
  ZoneSide.foldl (fun s l => boundaryUnit_side s last l) ls s

/-- The units attached to a channel, taken one by one: the unit of a zone among them acts on what those before it leave, and those after it leave
what it has done. -/
theorem attachedUnits_turn (hs : ZonesKept s) (last : Bool) {ch : Chan} (hz : s.leadOf z ∈ s.attachedUnits ch) :
    ∃ w, (∀ y ∈ s.unit (s.leadOf z), UnitsAside s w y) ∧
      ∀ y ∈ s.unit (s.leadOf z), UnitsAside (w.boundaryUnit last (s.leadOf z)) ((s.attachedUnits ch).foldl (State.boundaryUnit last) s) y := by
  obtain ⟨pre, post, hsplit, hapart⟩ := hs.attachedUnits_split hz
  have hpairs : PairsKept s (pre.foldl (State.boundaryUnit last) s) := foldl_rel PairsKept .refl .trans (fun s l => boundaryUnit_pairs s last l) pre s
  refine ⟨pre.foldl (State.boundaryUnit last) s, fun y hy => boundaryUnits_aside last pre s fun l hl => hapart l (List.mem_append_left _ hl) y hy,
    fun y hy => ?_⟩
  rw [hsplit, List.foldl_append, List.foldl_cons]
  refine boundaryUnits_aside last post _ fun l hl => ?_
  rw [unit_of_pair (hpairs.trans (boundaryUnit_pairs _ last _))]
  exact hapart l (List.mem_append_right _ hl) y hy

/-- What the units attached to a channel note of every zone (R146, R147). -/
theorem attachedUnits_noted (hs : ZonesKept s) (last : Bool) (ch : Chan) (z : ZoneId) :
    PlayNoted s ((s.attachedUnits ch).foldl (State.boundaryUnit last) s) z := by
  by_cases hz : s.leadOf z ∈ s.attachedUnits ch
  · obtain ⟨w, hw, ht⟩ := attachedUnits_turn hs last hz
    have hmem := hs.mem_leadOf z
    exact (PlayNoted.after_kept (hw z hmem).notes (boundaryUnit_noted w last _ z)).then_kept (ht z hmem).notes
  · exact (PlayNoted.refl s z).then_kept (boundaryUnits_aside last _ s (hs.attachedUnits_apart hz)).notes

/-- Units that all play on work their levels out anew, and do nothing else (R120). -/
theorem boundaryUnits_play_on (ls : List ZoneId) (s : State) (h : ∀ l ∈ ls, (s.za.get l).arb.phraseEnd = false) :
    ls.foldl (State.boundaryUnit false) s = s.applyLevels (ls.flatMap s.unit) := by
  induction ls generalizing s with
  | nil => rfl
  | cons l ls ih =>
    have hza := (applyLevels_alike s (s.unit l)).za
    have hunit : (s.applyLevels (s.unit l)).unit = s.unit := funext fun k => unit_congr hza k
    rw [List.foldl_cons, boundaryUnit_plays_on rfl (h l List.mem_cons_self), ih _ (fun k hk => by rw [hza]; exact h k (List.mem_cons_of_mem l hk)),
      hunit, List.flatMap_cons]
    exact (List.foldl_append ..).symm

end

/-! ### The boundary taken (R136, R138) -/

/-- The node as its units take a channel's boundary: the instant reached, and the cursor moved on unless the claim is done (R136, R138). -/
def State.boundaryBegun (s : State) (c : ChanId) (ch : Chan) : State :=
  let s₁ := s.reach16 ch.due16
  if s.atLast ch then s₁ else s₁.setChan c (some { ch with cursor := ch.cursor.bind (s.cursorAfter ch), pos := 0 })

section

variable {s : State} {c : ChanId} {ch : Chan}

theorem reach16_sck (s : State) (t : Nat) : (s.reach16 t).sck = { s.sck with sub := (s.reach16 t).sck.sub } := by
  unfold State.reach16
  split <;> rfl

/-- A due instant within the present millisecond, or before it, is reached (log 7). -/
theorem le_reach16 {t : Nat} (h : t ≤ 16 * s.sck.running + 15) : t ≤ (s.reach16 t).now16 := by
  unfold State.reach16 State.now16
  split
  · rename_i hms
    have hms : t / 16 = s.sck.running := hms
    simp only [State.setSck_sck]
    omega
  · rename_i hms
    have hms : t / 16 ≠ s.sck.running := hms
    omega

theorem boundaryBegun_frame (s : State) (c : ChanId) (ch : Chan) : s.boundaryBegun c ch = { s with
    sck := { s.sck with sub := (s.boundaryBegun c ch).sck.sub },
    rch := if s.atLast ch then s.rch else s.rch.set c (some { ch with cursor := ch.cursor.bind (s.cursorAfter ch), pos := 0 }) } := by
  unfold State.boundaryBegun
  dsimp only
  split
  · conv_lhs => rw [reach16_frame, reach16_sck]
  · conv_lhs => rw [reach16_frame, reach16_sck]
    rfl

theorem exec_phraseBoundary (hch : s.rch.get c = some ch) (hdone : s.partDone ch = true) (hdue : ch.due16 ≤ 16 * s.now + 15) :
    exec (.phraseBoundary c) s =
      .next ((((s.boundaryBegun c ch).attachedUnits ch).foldl (State.boundaryUnit (s.atLast ch)) (s.boundaryBegun c ch)).settle) := by
  have hnext : (s.reach16 ch.due16).cursorAfter ch = s.cursorAfter ch := by rw [reach16_frame]; rfl
  refine congrArg Host.Outcome.next ?_
  rw [hch]
  dsimp only
  rw [if_pos (by rw [hdone, Bool.true_and]; exact decide_eq_true hdue), State.boundary, hnext]
  rfl

theorem exec_phraseBoundary_early (h : ∀ ch, s.rch.get c = some ch → s.partDone ch = false ∨ 16 * s.sck.running + 15 < ch.bind16 + ch.delivered) :
    exec (.phraseBoundary c) s = .next s := by
  refine congrArg Host.Outcome.next ?_
  split
  · rename_i ch hch
    refine if_neg fun hb => ?_
    obtain ⟨hdone, hdue⟩ := (Bool.and_eq_true_iff ..).mp hb
    rcases h ch hch with h | h
    · exact Bool.false_ne_true (h.symm.trans hdone)
    · exact Nat.not_le.mpr h (of_decide_eq_true hdue)
  · rfl

end

end Sys2Proof.Machine
end

section
/-!
PROOFS. The statement on the phrase boundary, from what each unit does at it.
-/

namespace Sys2Proof.Machine

open Sys2Proof

/-! ### The record of the channel at its boundary (R136, R138, R141) -/

/-- The record of a channel as its boundary is taken: its cursor moves on, unless the claim is done. -/
def State.movedOn (s : State) (ch : Chan) : Chan :=
  if s.atLast ch then ch else { ch with cursor := ch.cursor.bind (s.cursorAfter ch), pos := 0 }

section

variable {s t : State} {c : ChanId} {ch : Chan}

theorem movedOn_attached (s : State) (ch : Chan) : (s.movedOn ch).attached = ch.attached := by
  unfold State.movedOn
  split <;> rfl

theorem movedOn_on (h : s.atLast ch = false) : s.movedOn ch = { ch with cursor := ch.cursor.bind (s.cursorAfter ch), pos := 0 } :=
  if_neg (by rw [h]; decide)

theorem atLast_some {i : Nat} (h : ch.cursor = some i) : s.atLast ch = (s.cursorAfter ch i).isNone := by rw [State.atLast, h]

theorem atLast_none (h : ch.cursor = none) : s.atLast ch = true := by rw [State.atLast, h]

/-- Whether a claim is done depends on the configuration, and not on the zones attached. -/
theorem atLast_congr (hcfg : t.cfg = s.cfg) (q : Quad Bool) : t.atLast { ch with attached := q } = s.atLast ch := by
  unfold State.atLast State.cursorAfter State.nextHeld State.dirEntry
  rw [hcfg]

theorem partDone_congr (hcfg : t.cfg = s.cfg) (q : Quad Bool) : t.partDone { ch with attached := q } = s.partDone ch := by
  unfold State.partDone State.partLen State.phraseLen State.dirEntry
  rw [hcfg]

theorem DirectoryInRange.phraseLen_pos (h : DirectoryInRange s) {code : Nat} (hheld : s.dirEntry code ≠ none) : 1 ≤ s.phraseLen code := by
  obtain ⟨e, he⟩ := Option.ne_none_iff_exists'.mp hheld
  rw [State.phraseLen, he]
  refine (h e ?_).1
  have hget : s.cfg.directory.getD (code - 1) none = some e := by
    unfold State.dirEntry at he
    split at he
    · cases he
    · exact he
  obtain hin | hout := Nat.lt_or_ge (code - 1) s.cfg.directory.length
  · rw [List.getD_eq_getElem _ _ hin] at hget
    exact hget ▸ List.getElem_mem hin
  · rw [List.getD_eq_default _ _ hout] at hget
    cases hget

/-- A cursor that has moved on is at the start of a part that has samples (R136, R141). -/
theorem partDone_movedOn (hdir : DirectoryInRange s) (h : s.atLast ch = false) : s.partDone (s.movedOn ch) = false := by
  cases hcur : ch.cursor with
  | none => exact absurd (h.symm.trans (atLast_none hcur)) (by decide)
  | some i =>
    rw [atLast_some hcur, Option.isNone_eq_false_iff] at h
    obtain ⟨j, hj⟩ := Option.isSome_iff_exists.mp h
    have hlen : 1 ≤ s.partLen ch j := by
      unfold State.partLen
      split
      · decide
      · rename_i htone
        rw [State.cursorAfter, if_neg htone] at hj
        obtain ⟨-, -, hheld, -⟩ := (nextHeld_first s ch.phrases (i + 1)).1 j hj
        exact hdir.phraseLen_pos hheld
    rw [movedOn_on (by rw [atLast_some hcur, hj]; rfl), State.partDone]
    simp only [hcur, Option.bind_some, hj]
    exact decide_eq_false (Nat.not_le.mpr hlen)

/-! ### The node as its units take the boundary -/

theorem boundaryBegun_get (hch : s.rch.get c = some ch) (d : ChanId) :
    (s.boundaryBegun c ch).rch.get d = if d = c then some (s.movedOn ch) else s.rch.get d := by
  rw [boundaryBegun_frame, State.movedOn]
  dsimp only
  split
  · split
    · rename_i hd
      rw [hd, hch]
    · rfl
  · exact Quad.get_set _ _ _ _

theorem boundaryBegun_attachedTo (hch : s.rch.get c = some ch) (z : ZoneId) (d : ChanId) :
    (s.boundaryBegun c ch).attachedTo z d ↔ s.attachedTo z d := by
  unfold State.attachedTo
  rw [boundaryBegun_get hch]
  split
  · rename_i hd
    simp only [hd, hch, Option.some.injEq, exists_eq_left', movedOn_attached]
  · rfl

theorem boundaryBegun_za (s : State) (c : ChanId) (ch : Chan) : (s.boundaryBegun c ch).za = s.za := by rw [boundaryBegun_frame]

theorem boundaryBegun_kept (hs : ZonesKept s) : ZonesKept (s.boundaryBegun c ch) := (ZonesAlike.of_za (boundaryBegun_za s c ch)).kept hs

theorem boundaryBegun_notes (s : State) (c : ChanId) (ch : Chan) (z : ZoneId) : NotesKept s (s.boundaryBegun c ch) z := by
  rw [boundaryBegun_frame]
  exact ⟨rfl, rfl, rfl, rfl⟩

theorem boundaryBegun_due (hdue : ch.due16 ≤ 16 * s.sck.running + 15) : ch.due16 ≤ (s.boundaryBegun c ch).now16 := by
  have hnow : (s.boundaryBegun c ch).now16 = (s.reach16 ch.due16).now16 := by
    unfold State.boundaryBegun
    dsimp only
    split <;> rfl
  rw [hnow]
  exact le_reach16 hdue

/-! ### A unit at the boundary -/

variable {z : ZoneId} {h : Held}

/-- The channel of a unit that takes the boundary, as the units before it leave it, is done where the boundary was the claim's last (R121, R138). -/
theorem zoneDelivered_atLast {w : State} {l : ZoneId} (hcs : ChannelsServe s) (hdir : DirectoryInRange s) (hch : s.rch.get c = some ch)
    (hdone : s.partDone ch = true) (hdue : ch.due16 ≤ 16 * s.sck.running + 15) (hl : ch.attached.get l = true)
    (hw : UnitsAside (s.boundaryBegun c ch) w l) : w.zoneDelivered l = s.atLast ch := by
  have hto : ∀ d, w.attachedTo l d ↔ s.attachedTo l d := fun d => (hw.attached d).trans (boundaryBegun_attachedTo hch l d)
  have hat : s.attachedTo l c := ⟨ch, hch, hl⟩
  have hchan : w.chanOf l = some c := by
    obtain ⟨d, hd⟩ := chanOf_of_attached ((hto c).mpr hat)
    rw [hd, hcs.only l d c ((hto d).mp (chanOf_attached hd)) hat]
  obtain ⟨d, hd, hrec⟩ := hw.record c (s.movedOn ch) (by rw [boundaryBegun_get hch, if_pos rfl]) (by rw [movedOn_attached]; exact hl)
  have hcfg : w.cfg = s.cfg := by rw [hw.side.cfg, boundaryBegun_frame]
  have hdel := zoneDelivered_iff hchan hd
  rw [hrec, atLast_congr hcfg, partDone_congr hcfg] at hdel
  cases hlast : s.atLast ch with
  | true =>
    have hmoved : s.movedOn ch = ch := if_pos hlast
    rw [hmoved] at hdel
    refine hdel.mpr ⟨hlast, hdone, ?_⟩
    have hreached := boundaryBegun_due (c := c) hdue
    rw [State.now16, ← hw.side.sck] at hreached
    exact hreached
  | false =>
    rw [Bool.eq_false_iff]
    intro hyes
    obtain ⟨-, hpart, -⟩ := hdel.mp hyes
    exact Bool.false_ne_true ((partDone_movedOn hdir hlast).symm.trans hpart)

theorem leadOf_congr (hza : t.za = s.za) (z : ZoneId) : t.leadOf z = s.leadOf z := by
  unfold State.leadOf State.whole
  rw [hza]

theorem ZonesKept.leadOf_arb (hs : ZonesKept s) (z : ZoneId) : (s.za.get (s.leadOf z)).arb = (s.za.get z).arb := (hs.unit_arb (hs.mem_leadOf z)).symm

theorem ChannelsServe.leadOf_attached (hcs : ChannelsServe s) (hs : ZonesKept s) (hch : s.rch.get c = some ch) (hz : ch.attached.get z = true) :
    ch.attached.get (s.leadOf z) = true := by
  rcases (mem_unit s _ z).mp (hs.mem_leadOf z) with hl | ⟨hw, hl⟩
  · rw [← hl]
    exact hz
  · have hpartner : z.partner = s.leadOf z := (congrArg Idx4.partner hl).trans (Idx4.partner_partner _)
    obtain ⟨k, hk, hat⟩ := hcs.shared z c (by rw [hl]; exact hs.whole_partner hw) ⟨ch, hch, hz⟩
    cases hch.symm.trans hk
    rwa [hpartner] at hat

theorem boundaryBegun_units (s : State) (c : ChanId) (ch : Chan) : (s.boundaryBegun c ch).attachedUnits ch = s.attachedUnits ch := by
  have hza := boundaryBegun_za s c ch
  have hleads : (s.boundaryBegun c ch).leads = s.leads := List.filter_congr fun z _ => by rw [leadOf_congr hza]
  rw [State.attachedUnits, hleads]
  exact List.filter_congr fun z _ => by rw [unit_congr hza]

/-- What the zones attached to a channel make of its boundary, before the claims settle (R120, R138). -/
def State.boundaryTaken (s : State) (c : ChanId) (ch : Chan) : State :=
  ((s.boundaryBegun c ch).attachedUnits ch).foldl (State.boundaryUnit (s.atLast ch)) (s.boundaryBegun c ch)

/-- The turn of an attached zone's unit at a boundary: what those before it leave, what it does, and what those after it leave of it. -/
theorem boundaryTaken_turn (hs : ZonesKept s) (c : ChanId) (hz : ch.attached.get z = true) :
    ∃ w, (∀ y ∈ s.unit (s.leadOf z), UnitsAside (s.boundaryBegun c ch) w y) ∧
      ∀ y ∈ s.unit (s.leadOf z), UnitsAside (w.boundaryUnit (s.atLast ch) (s.leadOf z)) (s.boundaryTaken c ch) y := by
  have hza := boundaryBegun_za s c ch
  have hkept := boundaryBegun_kept (c := c) (ch := ch) hs
  have hturn := attachedUnits_turn hkept (s.atLast ch) (hkept.leadOf_attached hz)
  rwa [leadOf_congr hza, unit_congr hza] at hturn

/-- An attached zone stops at the last boundary and at a phrase end where it is to stop: it takes its disposition, and turns (R120, R121, R122). -/
theorem boundaryTaken_stops (hs : ZonesKept s) (hcs : ChannelsServe s) (hdir : DirectoryInRange s) (hch : s.rch.get c = some ch)
    (hdone : s.partDone ch = true) (hdue : ch.due16 ≤ 16 * s.sck.running + 15) (hz : ch.attached.get z = true)
    (hc : (s.za.get z).arb.current = some h) (hstop : s.atLast ch = true ∨ (s.za.get z).arb.phraseEnd = true) :
    ((s.boundaryTaken c ch).za.get z).arb = ((s.za.get z).arb.choose s.now).1 ∧
      ∀ e, s.findEntry h.id = some e → e.disp.get z = .pending → ∃ e', (s.boundaryTaken c ch).findEntry h.id = some e' ∧
        e'.disp.get z = if (s.za.get z).arb.wdPending then .withdrawn else if s.atLast ch then .played else .preempted := by
  obtain ⟨w, hw, ht⟩ := boundaryTaken_turn hs c hz
  have hbefore := hw z (hs.mem_leadOf z)
  have hafter := ht z (hs.mem_leadOf z)
  have hlead := hw _ (self_mem_unit s _)
  have hza := boundaryBegun_za s c ch
  have harb : (w.za.get (s.leadOf z)).arb = (s.za.get z).arb := by rw [hlead.arb, hza, hs.leadOf_arb]
  have hunit : w.unit (s.leadOf z) = s.unit (s.leadOf z) := (unit_of_pair hlead.pairs _).trans (unit_congr hza _)
  have hcur : (w.za.get (s.leadOf z)).arb.current = some h := by rw [harb, hc]
  have hnow : w.now = s.now := hbefore.notes.now.trans (boundaryBegun_notes s c ch z).now
  have hdel := zoneDelivered_atLast hcs hdir hch hdone hdue (hcs.leadOf_attached hs hch hz) hlead
  have hmem : z ∈ w.unit (s.leadOf z) := by
    rw [hunit]
    exact hs.mem_leadOf z
  rw [boundaryUnit_stops (by rwa [harb])] at hafter
  refine ⟨?_, fun e he hp => ?_⟩
  · rw [hafter.arb, stopUnit_arb w _ z _ h hcur, if_pos hmem, harb, hnow]
  · obtain ⟨e₁, he₁, hd₁⟩ := hbefore.disp h.id e (by rw [boundaryBegun_frame]; exact he)
    obtain ⟨e₂, he₂, hd₂⟩ := stopUnit_takes .boundary hcur he₁ hmem (hd₁.trans hp)
    obtain ⟨e₃, he₃, hd₃⟩ := hafter.disp h.id e₂ he₂
    refine ⟨e₃, he₃, ?_⟩
    rw [hd₃, hd₂, harb, State.stopDisp, hdel]
    simp

/-- An attached zone that does not stop plays on: it keeps its claims, its output and its channel, whose cursor moves on (R120, R138). -/
theorem boundaryTaken_plays_on (hs : ZonesKept s) (hch : s.rch.get c = some ch) (hz : ch.attached.get z = true) (hlast : s.atLast ch = false)
    (hend : (s.za.get z).arb.phraseEnd = false) :
    ((s.boundaryTaken c ch).za.get z).arb = (s.za.get z).arb ∧ (s.boundaryTaken c ch).audio.get z = s.audio.get z ∧
      ∃ d, (s.boundaryTaken c ch).rch.get c = some d ∧ d.attached.get z = true ∧
        d = { ch with cursor := ch.cursor.bind (s.cursorAfter ch), pos := 0, attached := d.attached } := by
  obtain ⟨w, hw, ht⟩ := boundaryTaken_turn hs c hz
  have hza := boundaryBegun_za s c ch
  have hafter := ht z (hs.mem_leadOf z)
  have hlead := hw _ (self_mem_unit s _)
  rw [boundaryUnit_plays_on hlast (by rw [hlead.arb, hza, hs.leadOf_arb, hend])] at hafter
  have haside := ((hw z (hs.mem_leadOf z)).trans (applyLevels_aside w _ z)).trans hafter
  obtain ⟨d, hd, hrec⟩ := haside.record c (s.movedOn ch) (by rw [boundaryBegun_get hch, if_pos rfl]) (by rw [movedOn_attached]; exact hz)
  obtain ⟨k, hk, hat⟩ := (haside.attached c).mpr ((boundaryBegun_attachedTo hch z c).mpr ⟨ch, hch, hz⟩)
  cases hd.symm.trans hk
  refine ⟨by rw [haside.arb, hza], by rw [haside.audio, boundaryBegun_frame], d, hd, hat, ?_⟩
  rw [movedOn_on hlast] at hrec
  exact hrec

/-- Where no attached zone is to stop, the cursor moves on and the levels are worked out anew, and nothing else (R120, R138). -/
theorem boundaryTaken_all_play_on (hs : ZonesKept s) (hlast : s.atLast ch = false)
    (hend : ∀ z, ch.attached.get z = true → (s.za.get z).arb.phraseEnd = false) :
    s.boundaryTaken c ch = (s.boundaryBegun c ch).applyLevels ((s.attachedUnits ch).flatMap s.unit) := by
  have hza := boundaryBegun_za s c ch
  rw [State.boundaryTaken, hlast, boundaryBegun_units, boundaryUnits_play_on, funext (unit_congr hza)]
  intro l hl
  obtain ⟨-, hany⟩ := List.mem_filter.mp hl
  obtain ⟨y, hy, hat⟩ := List.any_eq_true.mp hany
  rw [hza, ← hs.unit_arb hy]
  exact hend y hat

theorem boundaryTaken_levels (hs : ZonesKept s) (hlast : s.atLast ch = false)
    (hend : ∀ z, ch.attached.get z = true → (s.za.get z).arb.phraseEnd = false) (hz : ch.attached.get z = true)
    (hc : (s.za.get z).arb.current = some h) :
    ((s.boundaryTaken c ch).lu.zones.get z).level = s.levelFor z h ∧
      ((s.boundaryTaken c ch).lu.zones.get z).mult = multiplier (s.levelFor z h) := by
  have halike : LevelsAlike s (s.boundaryBegun c ch) := by
    rw [boundaryBegun_frame]
    exact .of_eq rfl rfl rfl rfl rfl
  rw [boundaryTaken_all_play_on hs hlast hend, ← halike.levelFor]
  exact applyLevels_level (List.mem_flatMap.mpr ⟨_, hs.leadOf_attached hz, hs.mem_leadOf z⟩) (by rw [boundaryBegun_za, hc])

/-- What a boundary and the settling after it leave alone. -/
theorem boundarySettled_frame (s : State) (c : ChanId) (ch : Chan) : (s.boundaryTaken c ch).settle = { s with
    lc := (s.boundaryTaken c ch).settle.lc, sck := { s.sck with sub := (s.boundaryTaken c ch).settle.sck.sub },
    clt := (s.boundaryTaken c ch).settle.clt, za := (s.boundaryTaken c ch).settle.za, rch := (s.boundaryTaken c ch).settle.rch,
    audio := (s.boundaryTaken c ch).settle.audio, sp := (s.boundaryTaken c ch).settle.sp, lu := (s.boundaryTaken c ch).settle.lu } := by
  have hside : ZoneSide (s.boundaryBegun c ch) (s.boundaryTaken c ch) := boundaryUnits_side _ _ _
  rw [hside.settled, boundaryBegun_frame]

/-- The node as its units take a boundary, by the clock they leave. -/
theorem boundarySettled_begun (s : State) (c : ChanId) (ch : Chan) : { s with
    sck := (s.boundaryTaken c ch).settle.sck,
    rch := if s.atLast ch then s.rch else s.rch.set c (some { ch with cursor := ch.cursor.bind (s.cursorAfter ch), pos := 0 }) } =
      s.boundaryBegun c ch := by
  have hside : ZoneSide (s.boundaryBegun c ch) (s.boundaryTaken c ch) := boundaryUnits_side _ _ _
  have hsck : (s.boundaryTaken c ch).settle.sck = (s.boundaryBegun c ch).sck := by rw [(settle_settling _).frame, ← hside.sck]
  have hframe := boundaryBegun_frame s c ch
  rw [hsck, hframe]

end

/-! ### The statement -/

/-- A unit that plays on writes its level, worked out for its claim, and that alone (R120, R151). -/
theorem boundaryUnit_levels {w : State} {z : ZoneId} {h : Held} (hend : (w.za.get z).arb.phraseEnd = false)
    (hc : ∀ y ∈ w.unit z, (w.za.get y).arb.current = some h) (u : State) (hu : u = w.boundaryUnit false z) :
    u = { w with lu := { w.lu with zones := u.lu.zones } } ∧ ∀ y, u.lu.zones.get y =
      if y ∈ w.unit z then { w.lu.zones.get y with level := w.levelFor y h, mult := multiplier (w.levelFor y h) } else w.lu.zones.get y := by
  rw [boundaryUnit_plays_on rfl hend] at hu
  subst hu
  refine ⟨?_, fun y => ?_⟩
  · rw [← (applyLevels_alike w _).lu]
    exact applyLevels_frame w _
  · rw [applyLevels_get]
    split
    · rename_i hy
      rw [State.levelled, hc y hy]
    · rfl

/-- Settles O44: each unit's part by `attachedUnits_turn`, those before and after it passing it by. -/
theorem boundaryIsTaken : Obligations.BoundaryIsTaken := by
  refine ⟨fun w z last => ⟨boundaryUnit_stops, fun hlast hend h hc => ?_⟩, fun c s hearly => takes_of (exec_phraseBoundary_early hearly) rfl, ?_⟩
  · subst hlast
    exact boundaryUnit_levels hend hc _ rfl
  intro c s ch hs hcs hdir hch hdone hdue
  refine takes_of (t := (s.boundaryTaken c ch).settle) (exec_phraseBoundary hch hdone hdue) ?_
  intro last next
  refine ⟨boundarySettled_frame s c ch, ?same, fun z => ?notes, fun i hi => ⟨?ends, fun htone => ?held, fun htone => ?tone⟩, atLast_none,
    fun z h hz hc => ⟨fun hstop => ?stops, fun hlast hend => ?on⟩, fun hlast hend => ?all⟩
  case same =>
    rw [boundarySettled_begun, State.boundaryTaken, boundaryBegun_units]
    rfl
  case notes => exact (PlayNoted.after_kept (boundaryBegun_notes s c ch z) (attachedUnits_noted (boundaryBegun_kept hs) _ ch z)).settled
  case ends =>
    change s.atLast ch = true ↔ ch.cursor.bind (s.cursorAfter ch) = none
    rw [atLast_some hi, hi]
    exact Option.isNone_iff_eq_none
  case held =>
    change FirstHeld s ch.phrases (i + 1) (ch.cursor.bind (s.cursorAfter ch))
    rw [hi, Option.bind_some, State.cursorAfter, htone]
    exact nextHeld_first s ch.phrases (i + 1)
  case tone =>
    change ch.cursor.bind (s.cursorAfter ch) = _
    rw [hi, Option.bind_some, State.cursorAfter, if_pos htone]
  case stops =>
    obtain ⟨harb, hdisp⟩ := boundaryTaken_stops hs hcs hdir hch hdone hdue hz hc hstop
    refine ⟨by rw [settle_za, harb], fun e he hp => ?_⟩
    obtain ⟨e', he', hd⟩ := (settle_final _).takes (hdisp e he hp) (by repeat' split; all_goals simp)
    refine ⟨e', he', fun hw => ?_, fun hw hlast => ?_, fun hw hlast => ?_⟩
    · rw [hd, if_pos hw]
    · rw [hd, if_neg (by rw [show (s.za.get z).arb.wdPending = _ from hw]; decide), if_pos hlast]
    · rw [hd, if_neg (by rw [show (s.za.get z).arb.wdPending = _ from hw]; decide), if_neg (by rw [show s.atLast ch = _ from hlast]; decide)]
  case on =>
    rw [settle_za, settle_audio, settle_rch]
    exact boundaryTaken_plays_on hs hch hz hlast hend
  case all =>
    have hmoved : (s.boundaryBegun c ch).rch = s.rch.set c (some { ch with cursor := next, pos := 0 }) := by
      rw [boundaryBegun_frame]
      exact if_neg (by rw [show s.atLast ch = _ from hlast]; decide)
    have hplay := boundaryTaken_all_play_on (c := c) hs hlast hend
    rw [applyLevels_frame] at hplay
    rw [settle_za, settle_audio, settle_rch, settle_lu]
    refine ⟨?_, ?_, ?_, fun z h hz hc => boundaryTaken_levels hs hlast hend hz hc⟩
    · rw [hplay, boundaryBegun_frame]
    · rw [hplay, boundaryBegun_frame]
    · rw [hplay, hmoved]

end Sys2Proof.Machine
end


section
/-!
PROOFS. The statement on the store port's reads: when a channel asks, what samples a block's bytes hold, and what a channel keeps of them.
-/

namespace Sys2Proof.Machine

open Sys2Proof

/-! ### A channel's request (R139) -/

section

variable {s : State} {ch : Chan} {i : Nat}

theorem refresh_eq (ch : Chan) (reading : Bool) : ch.refresh reading = { ch with
    request := ch.request || (!ch.tone && decide (ch.slots.length < 2) && ch.unread.isSome && !reading) } := by
  unfold Chan.refresh
  split
  · rename_i hasks
    rw [hasks, Bool.or_true]
  · rename_i hidle
    rw [Bool.eq_false_iff.mpr hidle, Bool.or_false]

theorem readingFor_iff (s : State) (c : ChanId) : s.readingFor c = true ↔ ∃ r, s.sp.reading = some r ∧ r.chan = c ∧ r.stale = false := by
  unfold State.readingFor
  cases s.sp.reading <;> simp

/-! ### The samples of a block (R139) -/

theorem samplesOf_length (n : Nat) (bytes : List Byte) : (samplesOf n bytes).length = n := by
  induction n generalizing bytes with
  | zero => rfl
  | succ n ih => rw [samplesOf, List.length_cons, ih]

/-- Every sample of a block whose bytes have all come is two of them, most significant first. -/
theorem samplesOf_getD {n k : Nat} {bytes : List Byte} (hk : k < n) (hall : 2 * n ≤ bytes.length) :
    (samplesOf n bytes).getD k 0 = int16 ((bytes.getD (2 * k) 0).toNat * 256 + (bytes.getD (2 * k + 1) 0).toNat) := by
  have hcame : ∀ j d, j < bytes.length → bytes.getD j d = bytes.getD j 0 := fun j d hj => by
    rw [List.getD_eq_getElem bytes d hj, List.getD_eq_getElem bytes 0 hj]
  induction n generalizing k bytes with
  | zero => exact absurd hk k.not_lt_zero
  | succ n ih =>
    cases k with
    | zero => rw [samplesOf, List.getD_cons_zero, hcame 0 255 (by omega), hcame 1 255 (by omega)]
    | succ k =>
      have hskip : ∀ j, (bytes.drop 2).getD j 0 = bytes.getD (j + 2) 0 := fun j => by
        rw [List.getD_eq_getElem?_getD, List.getElem?_drop, Nat.add_comm, ← List.getD_eq_getElem?_getD]
      have hrest : 2 * n ≤ (bytes.drop 2).length := by
        rw [List.length_drop]
        omega
      rw [samplesOf, List.getD_cons_succ, ih (Nat.lt_of_succ_lt_succ hk) hrest fun j d hj => ?_, hskip, hskip]
      · rfl
      · rw [List.getD_eq_getElem _ d hj, List.getD_eq_getElem _ 0 hj]

/-- The samples of a block from `pos` of phrase `idx` on that have fallen due, at a cursor not past that phrase (R139). -/
def Chan.fallenDue (ch : Chan) (idx pos : Nat) : Nat := if ch.cursor = some idx then ch.pos - pos else 0

theorem keep_from {idx : Nat} (hi : ch.cursor = some i) (h : i ≤ idx) (pos : Nat) (l : List Int) :
    ch.keep idx pos l = { idx := idx, pos := pos + ch.fallenDue idx pos, samples := l.drop (ch.fallenDue idx pos) } := by
  unfold Chan.keep Chan.fallenDue
  rw [hi]
  dsimp only
  rw [if_neg h.not_gt]
  by_cases heq : idx = i
  · subst heq
    rw [if_pos rfl, if_pos rfl, Block.mk.injEq]
    exact ⟨rfl, by omega, rfl⟩
  · rw [if_neg heq, if_neg (by simpa using Ne.symm heq)]
    rfl

theorem keep_passed {idx : Nat} (hi : ch.cursor = some i) (h : idx < i) (pos : Nat) (l : List Int) : (ch.keep idx pos l).samples = [] := by
  unfold Chan.keep
  rw [hi]
  dsimp only
  rw [if_pos h]

/-- Nothing is kept of a block of a phrase gone by, of one all of whose samples have fallen due, or of one without samples. -/
theorem keep_nothing {idx pos : Nat} {l : List Int} (hi : ch.cursor = some i)
    (h : idx < i ∨ (i = idx ∧ pos + l.length ≤ ch.pos) ∨ l.length = 0) : (ch.keep idx pos l).samples = [] := by
  obtain hpast | hfrom := Nat.lt_or_ge idx i
  · exact keep_passed hi hpast pos l
  · rw [keep_from hi hfrom, List.drop_eq_nil_iff]
    rcases h with h | ⟨rfl, hlate⟩ | hempty
    · exact absurd h hfrom.not_gt
    · rw [Chan.fallenDue, if_pos hi]
      omega
    · omega

theorem keep_unbound (h : ch.cursor = none) (idx pos : Nat) (l : List Int) : (ch.keep idx pos l).samples = [] := by
  unfold Chan.keep
  rw [h]

/-! ### A block is taken (R139) -/

/-- The slots of a channel with a block that came (R139). -/
def Chan.slotsWith (ch : Chan) (b : Block) : List Block := if b.samples = [] then ch.slots else ch.slots ++ [b]

theorem takeBlock_eq (s : State) (ch : Chan) (idx pos : Nat) (l : List Int) : s.takeBlock ch idx pos l = { ch with
    slots := ch.slotsWith (ch.keep idx pos l), unread := s.blockAfter ch (idx, pos),
    request := !ch.tone && decide ((ch.slotsWith (ch.keep idx pos l)).length < 2) && (s.blockAfter ch (idx, pos)).isSome } := by
  unfold State.takeBlock
  dsimp only
  rw [refresh_eq, Bool.false_or, Bool.not_false, Bool.and_true]
  rfl

theorem slotsWith_nothing {b : Block} (h : b.samples = []) : ch.slotsWith b = ch.slots := if_pos h

/-- What a channel keeps of a block whose bytes have all come, and of whose samples one at least has not fallen due. -/
theorem slotsWith_samplesOf {idx pos n : Nat} {bytes : List Byte} (hi : ch.cursor = some i) (hall : bytes.length = 2 * n) (hn : 1 ≤ n)
    (h : i < idx ∨ (i = idx ∧ ch.pos < pos + n)) :
    let gone := if i = idx then ch.pos - pos else 0
    ∃ b, ch.slotsWith (ch.keep idx pos (samplesOf n bytes)) = ch.slots ++ [b] ∧ b.idx = idx ∧ b.pos = pos + gone ∧ b.samples.length = n - gone ∧
      ∀ k, gone + k < n → b.samples.getD k 0 =
        int16 ((bytes.getD (2 * (gone + k)) 0).toNat * 256 + (bytes.getD (2 * (gone + k) + 1) 0).toNat) := by
  intro gone
  have hgone : ch.fallenDue idx pos = gone := by simp only [Chan.fallenDue, hi, Option.some.injEq, gone]
  have hsome : gone < n := by
    simp only [gone]
    split <;> omega
  have hlen : ((samplesOf n bytes).drop gone).length = n - gone := by rw [List.length_drop, samplesOf_length]
  rw [keep_from hi (by omega), hgone]
  refine ⟨_, if_neg fun hnil => ?_, rfl, rfl, hlen, fun k hk => ?_⟩
  · have hnone : n - gone = 0 := hlen.symm.trans (congrArg List.length hnil)
    omega
  · rw [List.getD_eq_getElem?_getD, List.getElem?_drop, ← List.getD_eq_getElem?_getD, samplesOf_getD hk hall.ge]

/-! ### The port's read ends (R139, R140) -/

/-- The node with the block of its port's read delivered, and the port IDLE (R139, R140). -/
def State.readEnded (s : State) (r : ReadOp) (bytes : List Byte) : State := (s.setSp { s.sp with reading := none }).deliver r bytes

theorem exec_storeReadComplete {r : ReadOp} (h : s.sp.reading = some r) (bytes : List Byte) :
    exec (.storeReadComplete bytes) s = .next (s.readEnded r bytes).grant := by
  refine congrArg Host.Outcome.next ?_
  rw [h]
  rfl

theorem readEnded_frame (s : State) (r : ReadOp) (bytes : List Byte) :
    s.readEnded r bytes = { s with rch := (s.readEnded r bytes).rch, sp := { s.sp with reading := none } } := deliver_frame _ r bytes

theorem readEnded_stale {r : ReadOp} (h : r.stale = true) (bytes : List Byte) : (s.readEnded r bytes).rch = s.rch := by
  unfold State.readEnded State.deliver
  rw [if_pos h]
  rfl

theorem readEnded_rch {r : ReadOp} (h : r.stale = false) (hch : s.rch.get r.chan = some ch) (bytes : List Byte) :
    (s.readEnded r bytes).rch = s.rch.set r.chan (some (s.takeBlock ch r.idx r.pos (samplesOf r.count bytes))) := by
  unfold State.readEnded State.deliver
  rw [if_neg (by rw [h]; decide), State.setSp_rch, hch]
  rfl

/-- Settles O45, by what the channel keeps of its block and the grant that follows. -/
theorem storeReadIsDelivered : Obligations.StoreReadIsDelivered := by
  intro bytes s r hr
  refine takes_of (exec_storeReadComplete hr bytes) ?_
  have hgrant := granted (s.readEnded r bytes)
  have hframe := readEnded_frame s r bytes
  have hafter := hgrant.frame
  generalize (s.readEnded r bytes).grant = t at hgrant hafter
  have hrch : t.rch = (s.readEnded r bytes).rch := by rw [hafter]
  rw [hrch]
  refine ⟨?_, fun hstale => readEnded_stale hstale bytes, fun ch hlive hch => ⟨fun d hd => ?_,
    s.takeBlock ch r.idx r.pos (samplesOf r.count bytes), ?_, ?_⟩, ?_⟩
  · rw [hframe] at hafter
    exact hafter
  · rw [readEnded_rch hlive hch, Quad.get_set_ne _ _ hd]
  · rw [readEnded_rch hlive hch, Quad.get_set_self]
  · rw [takeBlock_eq]
    refine ⟨rfl, rfl, rfl, rfl, rfl, rfl, rfl, fun hnone => slotsWith_nothing (keep_unbound hnone _ _ _), fun i hi hall => ⟨fun hlate => ?_,
      slotsWith_samplesOf hi hall⟩⟩
    exact slotsWith_nothing (keep_nothing hi (by rwa [samplesOf_length]))
  · rwa [← hframe]

end

end Sys2Proof.Machine
end

section
/-!
PROOFS. The statement on a channel's samples: where a sample comes from, what each zone puts out, and what the channel asks for after it.
-/

namespace Sys2Proof.Machine

open Sys2Proof

/-! ### A sample of a channel (R137, R139, R141) -/

section

variable {s : State} {ch : Chan} {i : Nat}

theorem tone_sample (htone : ch.tone = true) (hi : ch.cursor = some i) :
    ch.sample = if i % 2 = 1 then 0 else if ch.pos % 16 < 8 then 8192 else -8192 := by
  unfold Chan.sample
  rw [hi]
  dsimp only
  rw [if_pos htone, toneSample]
  obtain heven | hodd := Nat.mod_two_eq_zero_or_one i
  · rw [if_pos heven, if_neg (show ¬ i % 2 = 1 by omega)]
  · rw [if_neg (by omega), if_pos hodd]

/-- Whether a block holds the sample at the position of phrase `i` where the channel stands. -/
def Chan.holdsSample (ch : Chan) (i : Nat) (b : Block) : Bool := b.idx == i && b.pos ≤ ch.pos && ch.pos < b.pos + b.samples.length

theorem holdsSample_iff (ch : Chan) (i : Nat) (b : Block) :
    ch.holdsSample i b = true ↔ b.idx = i ∧ b.pos ≤ ch.pos ∧ ch.pos < b.pos + b.samples.length := by
  simp [Chan.holdsSample, and_assoc]

theorem store_sample (htone : ch.tone = false) (hi : ch.cursor = some i) :
    ch.sample = ((ch.slots.find? (ch.holdsSample i)).map fun b => b.samples.getD (ch.pos - b.pos) 0).getD 0 := by
  unfold Chan.sample
  rw [hi]
  dsimp only
  rw [if_neg (by rw [htone]; decide)]
  split
  · rename_i b hfound
    rw [show ch.slots.find? (ch.holdsSample i) = some b from hfound]
    rfl
  · rename_i hmissing
    rw [show ch.slots.find? (ch.holdsSample i) = none from hmissing]
    rfl

theorem advance_eq (hi : ch.cursor = some i) : ch.advance = { ch with
    pos := ch.pos + 1, delivered := ch.delivered + 1,
    slots := ch.slots.filter (fun b => !(decide (b.idx = i) && decide (b.pos + b.samples.length ≤ ch.pos + 1))) } := by
  unfold Chan.advance
  rw [hi]
  rfl

theorem output_get (s : State) (ch : Chan) (v : Int) (z : ZoneId) : (s.output ch v).get z =
    if ch.attached.get z = true then Int.fdiv (v * ((s.lu.zones.get z).mult : Int)) 32768 else s.audio.get z := by
  rw [State.output, Quad.get_tabulate, scaleSample, Int.fdiv_eq_ediv_of_nonneg _ (by decide)]

/-! ### A sample is handed out (R137, R139, R157) -/

/-- The node with the sample of a channel handed out, before the port grants (R137, R139, R157). -/
def State.sampleOut (s : State) (c : ChanId) (ch : Chan) : State := { s with
  sck := (s.reach16 ch.due16).sck, audio := s.output ch ch.sample, rch := s.rch.set c (some (ch.advance.refresh (s.readingFor c))) }

theorem handSample_eq (s : State) (c : ChanId) (ch : Chan) : s.handSample c ch = (s.sampleOut c ch).grant := by
  unfold State.handSample
  rw [reach16_frame]
  rfl

theorem exec_sampleDue {c : ChanId} (hch : s.rch.get c = some ch) (hi : ch.cursor = some i) (hleft : ch.pos < s.partLen ch i)
    (hdue : ch.due16 ≤ 16 * s.now + 15) : exec (.sampleDue c) s = .next (s.sampleOut c ch).grant := by
  have hready : s.sampleReady ch = true := by simp [State.sampleReady, State.partDone, hi, hleft, hdue]
  rw [← handSample_eq]
  refine congrArg Host.Outcome.next ?_
  rw [hch]
  exact if_pos hready

/-- Settles O11: the sample by where it comes from, what it changes by `sampleOut`, and the grant that follows. -/
theorem sampleGoesToAttachedZones : Obligations.SampleGoesToAttachedZones := by
  intro c s ch i hch hi hleft hdue here
  refine ⟨fun htone => ⟨if_pos htone, tone_sample htone hi⟩, fun htone => ⟨fun d hd => ?len, fun hnone => ?silent, fun l b m hslots hb hl => ?block⟩,
    takes_of (exec_sampleDue hch hi hleft hdue) ?_⟩
  case len => rw [State.partLen, if_neg (by rw [htone]; decide), State.phraseLen, hd]
  case silent =>
    rw [store_sample htone hi, List.find?_eq_none.mpr fun b hb => (holdsSample_iff ch i b).not.mpr (hnone b hb)]
    rfl
  case block =>
    have hfind : ch.slots.find? (ch.holdsSample i) = some b := List.find?_eq_some_iff_append.mpr
      ⟨(holdsSample_iff ch i b).mpr hb, l, m, hslots, fun x hx => by simpa using (holdsSample_iff ch i x).not.mpr (hl x hx)⟩
    rw [store_sample htone hi, hfind]
    rfl
  have hgrant := granted (s.sampleOut c ch)
  have hframe := hgrant.frame
  generalize (s.sampleOut c ch).grant = t at hgrant hframe
  have hsck : t.sck = (s.reach16 ch.due16).sck := by rw [hframe]; rfl
  have haudio : t.audio = s.output ch ch.sample := by rw [hframe]; rfl
  have hrch : t.rch = s.rch.set c (some (ch.advance.refresh (s.readingFor c))) := by rw [hframe]; rfl
  have hout : s.sampleOut c ch = { s with sck := t.sck, audio := t.audio, rch := t.rch } := by rw [hsck, haudio, hrch]; rfl
  refine ⟨?_, fun z => ?_, fun d hd => ?_, ?_, ch.advance.refresh (s.readingFor c), ?_, ?_⟩
  · have hsub : t.sck = { s.sck with sub := t.sck.sub } := by rw [hsck]; exact reach16_sck s _
    rw [← hsub]
    exact hframe.trans (by rw [hout])
  · rw [haudio, output_get]
  · rw [hrch, Quad.get_set_ne _ _ hd]
  · rwa [← hout]
  · rw [hrch, Quad.get_set_self]
  · rw [refresh_eq, advance_eq hi]
    refine ⟨rfl, rfl, ?_⟩
    simp only [Bool.or_eq_true, Bool.and_eq_true, Bool.not_eq_true', decide_eq_true_eq, Option.isSome_iff_ne_none, and_assoc, ← readingFor_iff,
      Bool.not_eq_true]

end

end Sys2Proof.Machine
end

section
/-!
PROOFS. The statement on the tables and the arithmetic of the level. That a table's entry is a rounded logarithm or a rounded power is brought to an
inequality between powers of natural numbers, which the whole table is tested for.
-/

namespace Sys2Proof.Machine

open Sys2Proof

/-! ### The noise figure (R150) -/

section

variable {a b : Nat} (ha : 0 < a) (hb : 0 < b) (e p n : Nat)

include ha hb

theorem logb_pow_ratio : Real.logb 10 (10 ^ e * a ^ p / b ^ p) = e + p * Real.logb 10 ((a : ℝ) / b) := by
  rw [mul_div_assoc, ← div_pow, Real.logb_mul (by positivity) (by positivity), Real.logb_pow, Real.logb_pow,
    Real.logb_self_eq_one (by norm_num), mul_one]

theorem le_logb_ratio (h : 10 ^ n * b ^ p ≤ 10 ^ e * a ^ p) : (n : ℝ) ≤ e + p * Real.logb 10 ((a : ℝ) / b) := by
  rw [← logb_pow_ratio ha hb, Real.le_logb_iff_rpow_le (by norm_num) (by positivity), Real.rpow_natCast, le_div_iff₀ (by positivity)]
  exact_mod_cast h

theorem logb_ratio_lt (h : 10 ^ e * a ^ p < 10 ^ n * b ^ p) : e + p * Real.logb 10 ((a : ℝ) / b) < n := by
  rw [← logb_pow_ratio ha hb, Real.logb_lt_iff_lt_rpow (by norm_num) (by positivity), Real.rpow_natCast, div_lt_iff₀ (by positivity)]
  exact_mod_cast h

end

/-- The table's entry is within a half of the formula, without its logarithm: 10 to twice the formula is the 80th power of (k + 1)/32. -/
theorem noiseFigure_bounds : ∀ k < 32, 10 ^ (2 * noiseFigure k) * 32 ^ 80 ≤ 10 ^ 121 * (k + 1) ^ 80 ∧
    10 ^ 121 * (k + 1) ^ 80 < 10 ^ (2 * noiseFigure k + 2) * 32 ^ 80 := by decide

/-- The noise figure is the rounded formula of R150. -/
theorem noiseFigure_eq_round {k : Nat} (hk : k < 32) : (noiseFigure k : ℤ) = round (40 * Real.logb 10 (((k : ℝ) + 1) / 32)) + 60 := by
  obtain ⟨hlow, hhigh⟩ := noiseFigure_bounds k hk
  have hge := le_logb_ratio k.succ_pos (by decide) _ _ _ hlow
  have hlt := logb_ratio_lt k.succ_pos (by decide) _ _ _ hhigh
  push_cast at hge hlt
  have hround : round (40 * Real.logb 10 (((k : ℝ) + 1) / 32)) = (noiseFigure k : ℤ) - 60 := by
    rw [round_eq_iff]
    constructor <;> push_cast <;> linarith
  omega

theorem noiseFigure_mono : ∀ k < 32, ∀ k' < 32, k ≤ k' → noiseFigure k ≤ noiseFigure k' := by decide

/-! ### The ambient compensation (R152) -/

theorem compensation_le_cmax (u : LuZone) : compensation u ≤ u.cmax := min_le_left _ _

/-- Subtraction of natural numbers is the excess over the quiet threshold, at least 0. -/
theorem compensation_eq (u : LuZone) : compensation u = min u.cmax ((max 0 ((noiseFigure u.k : ℤ) - (u.q : ℤ))).toNat * u.slope / 4) := by
  have hexcess : (max 0 ((noiseFigure u.k : ℤ) - (u.q : ℤ))).toNat = noiseFigure u.k - u.q := by omega
  rw [hexcess]
  rfl

theorem compensation_off {u : LuZone} (h : u.cmax = 0 ∨ u.slope = 0) : compensation u = 0 := by
  obtain hcmax | hslope := h
  · have hle := compensation_le_cmax u
    omega
  · simp [compensation, hslope]

/-! ### The multiplier (R156) -/

/-- The table's entry is within a half of the formula, both doubled and taken to the 40th power. -/
theorem gainTable_bounds : ∀ j < 12, (2 * gainTable.getD j 0 - 1) ^ 40 * 10 ^ j ≤ 65536 ^ 40 ∧
    65536 ^ 40 < (2 * gainTable.getD j 0 + 1) ^ 40 * 10 ^ j ∧ 1 ≤ gainTable.getD j 0 := by decide

theorem gain_pow (j : Nat) : (65536 * (10 : ℝ) ^ (-(j : ℝ) / 40)) ^ 40 * 10 ^ j = 65536 ^ 40 := by
  have hroot : ((10 : ℝ) ^ (-(j : ℝ) / 40)) ^ 40 * 10 ^ j = 1 := by
    rw [← Real.rpow_natCast, ← Real.rpow_mul (by norm_num), ← Real.rpow_natCast, ← Real.rpow_add (by norm_num), Nat.cast_ofNat,
      div_mul_cancel₀ _ (by norm_num), neg_add_cancel, Real.rpow_zero]
  rw [mul_pow, mul_assoc, hroot, mul_one]

/-- The entry as the statement writes it, of a table of integers. -/
theorem gainTable_int (j : Nat) :
    ([32768, 30935, 29205, 27571, 26029, 24573, 23198, 21900, 20675, 19519, 18427, 17396] : List ℤ).getD j 0 = (gainTable.getD j 0 : ℤ) :=
  List.getD_map gainTable 0 (Nat.cast : ℕ → ℤ)

/-- The gain table is the rounded formula of R156. -/
theorem gainTable_eq_round {j : Nat} (hj : j < 12) : (gainTable.getD j 0 : ℤ) = round (32768 * (10 : ℝ) ^ (-(j : ℝ) / 40)) := by
  obtain ⟨hlow, hhigh, hone⟩ := gainTable_bounds j hj
  have hten : (0 : ℝ) < 10 ^ j := by positivity
  have hge : ((2 * gainTable.getD j 0 - 1 : Nat) : ℝ) ≤ 65536 * (10 : ℝ) ^ (-(j : ℝ) / 40) := by
    refine le_of_pow_le_pow_left₀ (by norm_num : 40 ≠ 0) (by positivity) (le_of_mul_le_mul_right ?_ hten)
    rw [gain_pow]
    exact_mod_cast hlow
  have hlt : 65536 * (10 : ℝ) ^ (-(j : ℝ) / 40) < ((2 * gainTable.getD j 0 + 1 : Nat) : ℝ) := by
    refine lt_of_pow_lt_pow_left₀ 40 (by positivity) (lt_of_mul_lt_mul_right ?_ hten.le)
    rw [gain_pow]
    exact_mod_cast hhigh
  rw [Nat.cast_sub (by omega)] at hge
  push_cast at hge hlt
  symm
  rw [round_eq_iff]
  constructor <;> push_cast <;> linarith

/-! ### The statement -/

/-- Settles O46: each table by its formula, the compensation by its cases, and the multiplier by its table and its range. -/
theorem levelTablesHold : Obligations.LevelTablesHold :=
  ⟨rfl, fun _ hk => noiseFigure_eq_round (Nat.lt_succ_of_le hk),
    fun k k' hle hk' => noiseFigure_mono k (Nat.lt_succ_of_le (hle.trans hk')) k' (Nat.lt_succ_of_le hk') hle,
    fun u => ⟨compensation_eq u, (compensation_le_cmax u).trans, compensation_off⟩, fun j hj => (gainTable_int j).trans (gainTable_eq_round hj),
    fun l _ => ⟨rfl, by omega, multiplier_range l⟩, by decide, by decide⟩

end Sys2Proof.Machine
end

section
/-!
PROOFS. The statement on the level of a zone: when each reduction is taken, what the level is in each case, and the stages put together.
-/

namespace Sys2Proof.Machine

open Sys2Proof

section

variable {s : State} {z : ZoneId} {h : Held}

/-! ### The reductions (R153, R154) -/

theorem inNight_iff (start stop tod : Nat) : inNight start stop tod = true ↔
    (start < stop ∧ start ≤ tod ∧ tod < stop) ∨ (stop < start ∧ (start ≤ tod ∨ tod < stop)) := by
  unfold inNight
  split
  · simp; omega
  · split
    · simp; omega
    · simp; omega

/-- The condition on which the night reduction is taken (R153). -/
def State.TakesNight (s : State) (c : AnnClass) : Prop :=
  s.sck.isSet = true ∧ 2 ≤ c ∧
    ((s.lu.nightStart < s.lu.nightEnd ∧ s.lu.nightStart ≤ s.sck.time % 86400 ∧ s.sck.time % 86400 < s.lu.nightEnd) ∨
      (s.lu.nightEnd < s.lu.nightStart ∧ (s.lu.nightStart ≤ s.sck.time % 86400 ∨ s.sck.time % 86400 < s.lu.nightEnd)))

theorem takesNight_iff (s : State) (c : AnnClass) :
    (s.sck.isSet && inNight s.lu.nightStart s.lu.nightEnd (s.sck.time % 86400) && decide (2 ≤ c)) = true ↔ s.TakesNight c := by
  rw [Bool.and_eq_true, Bool.and_eq_true, inNight_iff, decide_eq_true_iff, and_assoc, and_comm (b := 2 ≤ c)]
  rfl

theorem nightReduction_of (hn : s.TakesNight h.cls) : s.nightReduction z h.cls = (s.lu.zones.get z).dnight := if_pos ((takesNight_iff s _).mpr hn)

theorem nightReduction_of_not (hn : ¬ s.TakesNight h.cls) : s.nightReduction z h.cls = 0 := if_neg ((takesNight_iff s _).not.mpr hn)

/-- A neighbour of the zone plays another claim than `id` (R154). -/
def State.NeighbourPlaysOther (s : State) (z : ZoneId) (id : ClaimId) : Prop :=
  ∃ y g, (s.za.get z).neighbours.get y = true ∧ (s.za.get y).arb.state.plays = true ∧ (s.za.get y).arb.current = some g ∧ g.id ≠ id

theorem spilled_iff (s : State) (z : ZoneId) (id : ClaimId) : s.spilled z id = true ↔ s.NeighbourPlaysOther z id := by
  unfold State.spilled State.NeighbourPlaysOther
  rw [List.any_eq_true]
  refine exists_congr fun y => ?_
  cases hcur : (s.za.get y).arb.current with
  | none => simp
  | some g => simp [mem_idx4_all, and_assoc]

theorem takesSpill_iff (s : State) (z : ZoneId) (h : Held) :
    (decide (3 ≤ h.cls) && s.spilled z h.id) = true ↔ 3 ≤ h.cls ∧ s.NeighbourPlaysOther z h.id := by
  rw [Bool.and_eq_true, decide_eq_true_iff, spilled_iff]

theorem spillReduction_of (hs : 3 ≤ h.cls ∧ s.NeighbourPlaysOther z h.id) : s.spillReduction z h = (s.lu.zones.get z).dspill :=
  if_pos ((takesSpill_iff s z h).mpr hs)

theorem spillReduction_of_not (hs : ¬ (3 ≤ h.cls ∧ s.NeighbourPlaysOther z h.id)) : s.spillReduction z h = 0 :=
  if_neg ((takesSpill_iff s z h).not.mpr hs)

/-! ### The level in each case (R155, R158) -/

theorem inStoreFault_iff (s : State) : s.inStoreFault = true ↔ s.sul.mode = .storeFault := beq_iff_eq

theorem levelFor_storeFault (hf : s.sul.mode = .storeFault) : s.levelFor z h = 108 := if_pos ((inStoreFault_iff s).mpr hf)

theorem levelFor_quiet (hf : s.sul.mode ≠ .storeFault) (hq : (s.za.get z).row.code h.cls = .quiet) : s.levelFor z h = s.floorFor z h.cls :=
  (if_neg ((inStoreFault_iff s).not.mpr hf)).trans (if_pos hq)

/-- The floor is a natural number, so that the held level is none below 0. -/
theorem levelFor_held (hf : s.sul.mode ≠ .storeFault) (hq : (s.za.get z).row.code h.cls ≠ .quiet) :
    (s.levelFor z h : ℤ) = min 120 (max (s.floorFor z h.cls : ℤ) (s.rawLevel z h)) := by
  have hlevel : s.levelFor z h = (min 120 (max (s.floorFor z h.cls : ℤ) (s.rawLevel z h))).toNat :=
    (if_neg ((inStoreFault_iff s).not.mpr hf)).trans (if_neg hq)
  rw [hlevel]
  omega

end

/-! ### The statement -/

/-- Settles O47, by the level in each case and by when each reduction is taken. -/
theorem levelIsWorkedOut : Obligations.LevelIsWorkedOut := by
  intro s z h r u tod night spill floor
  refine ⟨levelFor_storeFault, fun hf => ⟨levelFor_quiet hf, fun hq dn ds hnight hday hspill hclear => ?_⟩⟩
  have hdn : dn = s.nightReduction z h.cls := by
    by_cases hn : s.TakesNight h.cls
    · rw [hnight hn, nightReduction_of hn]
    · rw [hday hn, nightReduction_of_not hn]
  have hds : ds = s.spillReduction z h := by
    by_cases hs : 3 ≤ h.cls ∧ s.NeighbourPlaysOther z h.id
    · rw [hspill hs, spillReduction_of hs]
    · rw [hclear hs, spillReduction_of_not hs]
  rw [hdn, hds]
  exact levelFor_held hf hq

end Sys2Proof.Machine
end

section
/-!
PROOFS. The statement on the tracker's window: how the estimate moves, and the one record that a full window changes.
-/

namespace Sys2Proof.Machine

open Sys2Proof

/-! ### The estimate (R148) -/

section

variable {n : Nat} (k : Nat)

theorem nextK_up (h : 250 ≤ n) : nextK k n = min 31 (k + 1) := if_pos h

theorem nextK_still (hlow : 50 < n) (hhigh : n < 250) : nextK k n = k := (if_neg (by omega)).trans (if_neg (by omega))

theorem nextK_down (h : n ≤ 50) : nextK k n = k - 1 := (if_neg (by omega)).trans (if_pos h)

end

/-! ### TRACKER_WINDOW_COMPLETE (R147, R148) -/

theorem modLu_get (s : State) (z y : ZoneId) (f : LuZone → LuZone) :
    (s.modLu z f).lu.zones.get y = if y = z then f (s.lu.zones.get z) else s.lu.zones.get y := Quad.get_set _ _ _ _

theorem exec_trackerWindowComplete {s : State} {z : ZoneId} {w : TrackWindow} (hw : (s.lu.zones.get z).window = some w) (hfull : 500 ≤ w.taken) :
    exec (.trackerWindowComplete z) s = .next (s.modLu z (fun u => { u with k := nextK u.k w.high, window := none })) := by
  simp only [exec, execTrackerWindowComplete, hw]
  rw [if_pos (show Config.windowSamples ≤ w.taken from hfull)]

/-- Settles O10: the window by the record of its own zone alone, the quiet test by `quiet_iff`. -/
theorem trackerFollowsTheWindow : Obligations.TrackerFollowsTheWindow := by
  intro z s
  refine ⟨fun w hw hfull => takes_of (exec_trackerWindowComplete hw hfull) ⟨rfl, fun y hy => ?others, ?_⟩,
    takes_of rfl ⟨rfl, fun hsilent e he => ?quiet⟩⟩
  case others => rw [modLu_get, if_neg hy]
  case quiet =>
    rw [quiet_iff, and_iff_right hsilent, he]
    simp
  rw [modLu_get, if_pos rfl]
  exact ⟨rfl, nextK_up _, nextK_still _, nextK_down _⟩

end Sys2Proof.Machine
end

section
/-!
PROOFS. The transmit queue: the place where a frame enters, the worst frame of a full queue, and the statement about an arrival.
-/

namespace Sys2Proof.Machine

open Sys2Proof

/-- In a queue in order of tier a frame enters behind every one of its tier or a lower one, and before every one of a higher (R166). -/
theorem txInsert_inItsPlace {q : List TxFrame} (hq : q.Pairwise (fun a b => a.tier ≤ b.tier)) (f : TxFrame) : InItsPlace f q (txInsert q f) := by
  induction q with
  | nil => exact ⟨[], [], rfl, rfl, by simp, by simp⟩
  | cons g q ih =>
    obtain ⟨hg, hq⟩ := List.pairwise_cons.mp hq
    by_cases hle : g.tier ≤ f.tier
    · obtain ⟨l, m, hsplit, hr, hl, hm⟩ := ih hq
      have hcons : txInsert (g :: q) f = g :: txInsert q f := by simp [txInsert, hle]
      exact ⟨g :: l, m, congrArg _ hsplit, hcons.trans (congrArg _ hr), List.forall_mem_cons.mpr ⟨hle, hl⟩, hm⟩
    · have hlt : f.tier < g.tier := Nat.not_le.mp hle
      exact ⟨[], g :: q, rfl, by simp [txInsert, hle], by simp, List.forall_mem_cons.mpr ⟨hlt, fun x hx => hlt.trans_le (hg x hx)⟩⟩

theorem txWorst_eq_none {q : List TxFrame} (h : ∀ g ∈ q, g.underWay = true) : txWorst q = none := by simpa [txWorst] using h

theorem txOffer_room {q : List TxFrame} (h : q.length < 8) (f : TxFrame) : txOffer q f = (txInsert q f, none) := if_pos h

/-- A full queue compares an arrival with its worst frame (R167). -/
theorem txOffer_full {l m : List TxFrame} {w : TxFrame} (h8 : 8 ≤ (l ++ w :: m).length) (hw : w.underWay = false)
    (hm : ∀ g ∈ m, g.underWay = true) (f : TxFrame) :
    txOffer (l ++ w :: m) f = if f.tier < w.tier then (txInsert (l ++ m) f, some w) else (l ++ w :: m, some f) := by
  rw [txOffer, Config.maxTx, if_neg (Nat.not_lt.mpr h8), txWorst_split hw hm, txDropWorst_split hw hm]

theorem txOffer_allUnderWay {q : List TxFrame} (h8 : 8 ≤ q.length) (h : ∀ g ∈ q, g.underWay = true) (f : TxFrame) :
    txOffer q f = (q, some f) := by
  rw [txOffer, Config.maxTx, if_neg (Nat.not_lt.mpr h8), txWorst_eq_none h]

/-- No frame without an attempt under way has a higher tier than the worst frame (R166, R167). -/
theorem tier_le_worst {l m : List TxFrame} {w : TxFrame} (hq : (l ++ w :: m).Pairwise (fun a b => a.tier ≤ b.tier))
    (hm : ∀ g ∈ m, g.underWay = true) : ∀ g ∈ l ++ w :: m, g.underWay = false → g.tier ≤ w.tier := by
  intro g hg hidle
  obtain ⟨-, -, hlast⟩ := List.pairwise_append.mp hq
  rcases List.mem_append.mp hg with hg | hg
  · exact hlast g hg w List.mem_cons_self
  rcases List.mem_cons.mp hg with rfl | hg
  · exact le_rfl
  · exact absurd (hm g hg) (by simp [hidle])

/-- Settles O48: a frame enters a queue with room (`txOffer_room`), and in a full one it meets the worst frame (`txOffer_full`) or, where every frame
has an attempt under way, none (`txOffer_allUnderWay`). -/
theorem transmitQueueTakesAFrame : Obligations.TransmitQueueTakesAFrame := by
  intro q f hq r
  refine ⟨fun hroom => ?room, fun h8 l w m hsplit hw hm => ?full, fun h8 hall => ?none⟩
  case room =>
    have hr : r = _ := txOffer_room hroom f
    rw [hr]
    exact ⟨rfl, txInsert_inItsPlace hq f⟩
  case full =>
    subst hsplit
    have hr : r = _ := txOffer_full h8 hw hm f
    refine ⟨tier_le_worst hq hm, fun hlt => ?_, fun hle => ?_⟩
    · have hrest : (l ++ m).Pairwise (fun a b => a.tier ≤ b.tier) := hq.sublist ((List.sublist_cons_self w m).append_left l)
      rw [hr, if_pos hlt]
      exact ⟨rfl, txInsert_inItsPlace hrest f⟩
    · rw [hr, if_neg (Nat.not_lt.mpr hle)]
      exact ⟨rfl, rfl⟩
  case none =>
    have hr : r = _ := txOffer_allUnderWay h8 hall f
    rw [hr]
    exact ⟨rfl, rfl⟩

end Sys2Proof.Machine
end

section
/-!
PROOFS. The tests of reception and the beginnings of attempts: what each body test asks of the bytes, and the statement.
-/

namespace Sys2Proof.Machine

open Sys2Proof

/-! ### The length of a body for its kind (R163, R176) -/

theorem lengthOk_iff (kind : Nat) (b : List Byte) : lengthOk kind b = true ↔ LengthFits kind b := by
  unfold LengthFits
  split <;> simp_all [lengthOk, kindClaim, kindCede, kindZstat, kindCallset, kindCallamend, kindCallplan, kindCalldrop, kindTrigger, kindHandoff,
    kindQuery, kindReport, kindClock, kindZattr, kindAnswer, and_assoc]

/-! ### The values of a CLAIM (R89, R163) -/

/-- A list of two-byte numbers by its fields (R176). -/
theorem codes16_eq (b : List Byte) : codes16 b = (List.range (b.length / 2)).map (fun i => field b (2 * i) 2) := by
  induction b using codes16.induct with
  | case1 x y b ih =>
    have hlen : (x :: y :: b).length / 2 = b.length / 2 + 1 := by simp only [List.length_cons]; omega
    have hskip : ∀ i, field (x :: y :: b) (2 * (i + 1)) 2 = field b (2 * i) 2 := fun i => by rw [Nat.mul_succ, field_cons_succ, field_cons_succ]
    rw [codes16, ih, hlen, List.range_succ_eq_map, List.map_cons, List.map_map]
    refine congrArg₂ List.cons (by simp [field_succ, field_zero]) (List.map_congr_left fun i _ => ?_)
    rw [Function.comp_apply, Nat.succ_eq_add_one, hskip]
  | case2 b hshort =>
    match b with
    | [] => rfl
    | [x] => simp [codes16]
    | x :: y :: b => exact (hshort x y b rfl).elim

theorem phrases_ok_iff {b : List Byte} {n : Nat} (hlen : b.length = 13 + 2 * n) :
    (∀ c ∈ codes16 (b.drop 13), codeOk c = true) ↔ ∀ i, i < n → 1 ≤ field b (13 + 2 * i) 2 ∧ field b (13 + 2 * i) 2 ≤ 2047 := by
  have hcount : (b.length - 13) / 2 = n := by omega
  simp [codes16_eq, hcount, field_drop, codeOk_iff]

theorem decodeClaim_isSome_iff {b : List Byte} (h : LengthFits kindClaim b) : (decodeClaim b).isSome = true ↔ ValuesFit kindClaim b := by
  have hok : lengthOk kindClaim b = true := (lengthOk_iff _ _).mpr h
  obtain ⟨-, -, hlen⟩ := h
  show _ ↔ ValuesFit 1 b
  cases hb : (field8 b 1).testBit 3 <;> simp [decodeClaim, ValuesFit, bitSet_eq, hb, hok, phrases_ok_iff hlen, and_assoc] <;> tauto

/-! ### The values of a ZSTAT (R101, R163) -/

theorem mapM_isSome_iff {α β : Type} {f : α → Option β} {l : List α} : (l.mapM f).isSome = true ↔ ∀ a ∈ l, (f a).isSome = true := by
  induction l with
  | nil => simp
  | cons a l ih => cases ha : f a <;> cases hl : l.mapM f <;> simp_all

theorem dispOf_isSome_iff (n : Nat) : (dispOf n).isSome = true ↔ 1 ≤ n ∧ n ≤ 8 := by
  unfold dispOf
  split <;> simp_all
  omega

/-- A byte of a ZSTAT names a zone always, and a disposition where its upper half is the code of one (R176). -/
theorem zstatByte_eq (b : Byte) : ∃ z : ZoneId, z.toNat = b.toNat % 4 ∧ zstatByte b = (dispOf (b.toNat / 16)).map (fun d => (z, d)) := by
  have hzone : ∃ z, Idx4.ofNat? (b.toNat % 4) = some z ∧ z.toNat = b.toNat % 4 := by
    have hlt : b.toNat % 4 < 4 := Nat.mod_lt _ (by decide)
    interval_cases b.toNat % 4 <;> exact ⟨_, rfl, rfl⟩
  obtain ⟨z, hz, hn⟩ := hzone
  refine ⟨z, hn, ?_⟩
  rw [zstatByte, hz]
  cases dispOf (b.toNat / 16) <;> rfl

theorem zstatByte_isSome_iff (b : Byte) : (zstatByte b).isSome = true ↔ 1 ≤ b.toNat / 16 ∧ b.toNat / 16 ≤ 8 := by
  obtain ⟨z, -, hb⟩ := zstatByte_eq b
  rw [hb, Option.isSome_map, dispOf_isSome_iff]

theorem zstatByte_zone {b : Byte} {p : ZoneId × Disp} (h : zstatByte b = some p) : p.1.toNat = b.toNat % 4 := by
  obtain ⟨z, hz, hb⟩ := zstatByte_eq b
  obtain ⟨d, -, rfl⟩ := Option.map_eq_some_iff.mp (hb ▸ h)
  exact hz

/-- The zones that the bytes of a ZSTAT name, in their order. -/
theorem zstat_zones {l : List Byte} {zones : List (ZoneId × Disp)} (h : l.mapM zstatByte = some zones) :
    zones.map (fun p => p.1.toNat) = l.map (fun b => b.toNat % 4) := by
  have hall := mapM_eq_some_iff.mp h
  induction hall with
  | nil => rfl
  | cons hb _ ih => rw [List.map_cons, List.map_cons, zstatByte_zone hb, ih (mapM_eq_some_iff.mpr ‹_›)]

/-- Ascending numbers ascend from each to the next. -/
theorem ascending_iff_isChain (l : List Nat) : ascending l = true ↔ l.IsChain (· < ·) := by
  induction l with
  | nil => simp [ascending]
  | cons a l ih => cases l <;> simp_all [ascending]

/-- The bytes from byte `k` of a body on, as numbers. -/
theorem map_toNat_drop {b : List Byte} {k n : Nat} (hlen : b.length = k + n) :
    (b.drop k).map BitVec.toNat = (List.range n).map (fun i => field8 b (k + i)) := by
  refine List.ext_getElem (by simp [hlen]) fun i hi _ => ?_
  have hlt : k + i < b.length := by simpa [hlen] using hi
  simp [field8, hlt]

/-- A ZSTAT of a fitting length is read by its claim id and by the numbers of its bytes. -/
theorem decodeZstat_isSome {b : List Byte} (hok : lengthOk kindZstat b = true) : (decodeZstat b).isSome = true ↔
    (1 ≤ field8 b 0 ∧ field8 b 0 ≤ 48) ∧ (∀ n ∈ (b.drop 3).map BitVec.toNat, 1 ≤ n / 16 ∧ n / 16 ≤ 8) ∧
      (((b.drop 3).map BitVec.toNat).map (· % 4)).IsChain (· < ·) := by
  have hdisp : ((b.drop 3).mapM zstatByte).isSome = true ↔ ∀ n ∈ (b.drop 3).map BitVec.toNat, 1 ≤ n / 16 ∧ n / 16 ≤ 8 := by
    rw [mapM_isSome_iff, List.forall_mem_map]
    exact forall₂_congr fun x _ => zstatByte_isSome_iff x
  rw [← hdisp, ← ascending_iff_isChain, List.map_map]
  cases hm : (b.drop 3).mapM zstatByte with
  | none => simp [decodeZstat, hm]
  | some zones =>
    have hzones : _ = (b.drop 3).map ((· % 4) ∘ BitVec.toNat) := zstat_zones hm
    rw [← hzones]
    simp [decodeZstat, hm, hok, and_assoc]

theorem decodeZstat_isSome_iff {b : List Byte} (h : LengthFits kindZstat b) : (decodeZstat b).isSome = true ↔ ValuesFit kindZstat b := by
  have hok : lengthOk kindZstat b = true := (lengthOk_iff _ _).mpr h
  obtain ⟨-, -, hlen⟩ := h
  have hnext : ∀ i, 3 + (i + 1) = 4 + i := by omega
  show _ ↔ ValuesFit 3 b
  rw [decodeZstat_isSome hok, map_toNat_drop hlen, List.forall_mem_map, List.isChain_iff_getElem]
  simp [ValuesFit, hnext, and_assoc]

/-! ### The values of a CEDE and a QUERY (R100, R163, R173) -/

theorem decodeCede_isSome_iff {b : List Byte} (h : LengthFits kindCede b) : (decodeCede b).isSome = true ↔ ValuesFit kindCede b := by
  have hok : lengthOk kindCede b = true := (lengthOk_iff _ _).mpr h
  show _ ↔ ValuesFit 2 b
  simp [decodeCede, hok, ValuesFit]

theorem queryKindOf_cases (n : Nat) : (4 < n ∧ queryKindOf n = none) ∨ ∃ k, queryKindOf n = some k ∧ n ≤ 4 ∧ (k = .call ↔ n = 4) := by
  rcases n with _ | _ | _ | _ | _ | n <;> simp [queryKindOf]

theorem decodeQuery_isSome_iff {b : List Byte} (h : LengthFits kindQuery b) : (decodeQuery b).isSome = true ↔ ValuesFit kindQuery b := by
  have hok : lengthOk kindQuery b = true := (lengthOk_iff _ _).mpr h
  show _ ↔ ValuesFit 10 b
  obtain ⟨hlt, hk⟩ | ⟨k, hk, hle, hcall⟩ := queryKindOf_cases (field8 b 0)
  · simp [decodeQuery, hk, ValuesFit, Nat.not_le.mpr hlt]
  · simp only [decodeQuery, hk]
    by_cases h4 : field8 b 0 = 4 <;> simp [hok, hcall, h4, ValuesFit, hle]

/-! ### The tests of reception (R163) -/

/-- The value test of a body of a fitting length: the reader of its kind takes it, for the four kinds that are tested (R163, test 7). -/
theorem valuesOk_iff {kind : Nat} {b : List Byte} (h : LengthFits kind b) : valuesOk kind b = true ↔ ValuesFit kind b := by
  by_cases h1 : kind = kindClaim
  · subst h1; exact decodeClaim_isSome_iff h
  by_cases h2 : kind = kindCede
  · subst h2; exact decodeCede_isSome_iff h
  by_cases h3 : kind = kindZstat
  · subst h3; exact decodeZstat_isSome_iff h
  by_cases h10 : kind = kindQuery
  · subst h10; exact decodeQuery_isSome_iff h
  have hother : ValuesFit kind b := by
    unfold ValuesFit
    split <;> simp_all [kindClaim, kindCede, kindZstat, kindQuery]
  simp [valuesOk, h1, h2, h3, h10, hother]

/-- The destination test (R163, test 6). -/
theorem forUs_iff (s : State) (f : RxFrame) : s.forUs f = true ↔ f.dst = 0 ∨ s.nodeNo = some f.dst.toNat := by
  simp [State.forUs]

theorem hears_iff (s : State) (kind : Nat) (f : RxFrame) : s.hears kind f = true ↔
    s.sul.mode ≠ .loading ∧ LengthFits kind f.body ∧ (f.dst = 0 ∨ s.nodeNo = some f.dst.toNat) ∧ ValuesFit kind f.body := by
  simp only [State.hears, Bool.and_eq_true, loaded_iff, lengthOk_iff, forUs_iff, and_assoc]
  exact and_congr_right fun _ => and_congr_right fun hfits => and_congr_right fun _ => valuesOk_iff hfits

/-- Two choices whose tests agree, and which agree where the test fails. -/
theorem else_congr {α : Type} {p q : Prop} [Decidable p] [Decidable q] {x y z : α} (h : p ↔ q) (hne : ¬ q → y = z) :
    (if p then x else y) = if q then x else z := ite_congr (propext h) (fun _ => rfl) hne

/-- A Boolean test that fails where its property does. -/
theorem not_test_iff {t : Bool} {p : Prop} (h : t = true ↔ p) : (!t) = true ↔ ¬ p := by
  rw [← h]
  simp

open Classical in
/-- The tests of reception as one choice between their outcomes, each test as the rules word it (R163). -/
theorem receptionTest_eq (own : Option Nat) (bytes : List Byte) (truncated : Bool) :
    let kind := field8 bytes 0
    let dst := field8 bytes 2
    let len := field8 bytes 3
    let body := (bytes.drop 4).take len
    receptionTest own bytes truncated =
      if ¬ (truncated = false ∧ 6 + len ≤ bytes.length) then some .truncation
      else if ¬ len ≤ 160 then some .lengthRange
      else if ¬ field bytes (4 + len) 2 = (crc (bytes.take (4 + len))).toNat then some .check
      else if ¬ (1 ≤ kind ∧ kind ≤ 14) then some .kind
      else if ¬ LengthFits kind body then some .lengthForKind
      else if ¬ (dst = 0 ∨ own = some dst) then some .destination
      else if ¬ ValuesFit kind body then some .values
      else none := by
  intro kind dst len body
  have hwhole : (truncated || decide (bytes.length < 4 + len + 2)) = true ↔ ¬ (truncated = false ∧ 6 + len ≤ bytes.length) := by
    rw [Bool.or_eq_true, decide_eq_true_iff, not_and_or, Bool.not_eq_false, Nat.not_le, Nat.add_right_comm 4 len 2]
  have hlen : 160 < len ↔ ¬ len ≤ 160 := Nat.not_le.symm
  have hcheck : (field bytes (4 + len) 2 != (crc (bytes.take (4 + len))).toNat) = true ↔
      ¬ field bytes (4 + len) 2 = (crc (bytes.take (4 + len))).toNat := bne_iff_ne
  have hkind := not_test_iff (t := decide (1 ≤ kind) && decide (kind ≤ 14)) (p := 1 ≤ kind ∧ kind ≤ 14) (by simp)
  have hours := not_test_iff (t := dst == 0 || own == some dst) (p := dst = 0 ∨ own = some dst) (by simp)
  exact else_congr hwhole fun _ => else_congr hlen fun _ => else_congr hcheck fun _ => else_congr hkind fun _ =>
    else_congr (not_test_iff (lengthOk_iff kind body)) fun hfits => else_congr hours fun _ =>
    else_congr (not_test_iff (valuesOk_iff (not_not.mp hfits))) fun _ => rfl

/-! ### The beginnings (R163, R169) -/

section Beginning

variable {s : State} {idle : Nat}

theorem sending_eq_false_iff (l : Lc) : l.sending = false ↔ ∀ g ∈ l.tx, g.underWay = false := by
  simp [Lc.sending]

/-- The head's gap, in a node that sends and has a number (R169). -/
theorem gapElapsed_iff {own : Nat} {f : TxFrame} {rest : List TxFrame} (hown : s.nodeNo = some own) (htx : s.lc.tx = f :: rest)
    (hsends : s.sends = true) : s.gapElapsed idle = true ↔ f.gap own ≤ idle := by
  simp [State.gapElapsed, hown, htx, hsends]

theorem gapElapsed_silent (h : s.sends = false ∨ s.nodeNo = none) : s.gapElapsed idle = false := by
  unfold State.gapElapsed
  rcases h with h | h
  · simp only [h]
    split <;> rfl
  · rw [h]

theorem gapElapsed_empty (h : s.lc.tx = []) : s.gapElapsed idle = false := by
  unfold State.gapElapsed
  cases hn : s.nodeNo <;> simp [h]

theorem exec_attemptStart_begins (hgap : s.gapElapsed idle = true) (hrx : s.lc.rx = false) (hsending : s.lc.sending = false) :
    exec (.attemptStart idle) s = .next (s.setTx (startHead s.lc.tx)) :=
  congrArg Host.Outcome.next (if_pos (by simp [hgap, hrx, hsending]))

theorem exec_attemptStart_waits (h : s.gapElapsed idle = false ∨ s.lc.rx = true ∨ s.lc.sending = true) :
    exec (.attemptStart idle) s = .next s :=
  congrArg Host.Outcome.next (if_neg (by rcases h with h | h | h <;> simp [h]))

theorem exec_delimiterHeard_receives (hloaded : s.sul.mode ≠ .loading) (hgap : s.gapElapsed idle = false) (hsending : s.lc.sending = false) :
    exec (.delimiterHeard idle) s = .next (s.setLc { s.lc with rx := true }) :=
  congrArg Host.Outcome.next (if_pos (by simp [(loaded_iff s).mpr hloaded, hgap, hsending]))

theorem exec_frameRejected_discards {bytes : List Byte} {truncated : Bool}
    (h : s.sul.mode = .loading ∨ receptionTest s.nodeNo bytes truncated ≠ none) : exec (.frameRejected bytes truncated) s = .next s.frameEnd :=
  congrArg Host.Outcome.next (if_neg (by simp only [Bool.and_eq_true, loaded_iff, Option.isNone_iff_eq_none]; tauto))

end Beginning

/-- Settles O51: the tests by `receptionTest_eq` and `hears_iff`, an attempt by the head's gap (`gapElapsed_iff`). -/
theorem attemptsBeginInTheGap : Obligations.AttemptsBeginInTheGap := by
  refine ⟨?tests, hears_iff, fun s => ⟨fun idle own f rest hown htx hsends => ?head, fun idle hsilent => ?silent, fun idle hempty => ?empty,
    fun bytes truncated hrejected => takes_of (exec_frameRejected_discards hrejected) rfl⟩⟩
  case tests =>
    intro own bytes truncated
    simp only [receptionTest_eq]
    split_ifs <;> simp_all
  case head =>
    intro gap
    have hgap : s.gapElapsed idle = true ↔ gap ≤ idle := gapElapsed_iff hown htx hsends
    have hearly : idle < gap → s.gapElapsed idle = false := fun h => by rw [Bool.eq_false_iff, ne_eq, hgap]; omega
    refine ⟨fun hle hrx hidle => takes_of (exec_attemptStart_begins (hgap.mpr hle) hrx ((sending_eq_false_iff _).mpr hidle)) ?_,
      fun hwait => takes_of (exec_attemptStart_waits ?_) rfl,
      fun hlt hloaded hidle => takes_of (exec_delimiterHeard_receives hloaded (hearly hlt) ((sending_eq_false_iff _).mpr hidle)) rfl⟩
    · rw [htx]
      rfl
    · refine hwait.imp hearly (Or.imp_right ?_)
      rintro ⟨g, hg, hunder⟩
      exact List.any_eq_true.mpr ⟨g, hg, hunder⟩
  case silent => exact takes_of (exec_attemptStart_waits (.inl (gapElapsed_silent hsilent))) rfl
  case empty =>
    have hgap : s.gapElapsed idle = false := gapElapsed_empty hempty
    have hsending : s.lc.sending = false := (sending_eq_false_iff _).mpr (by simp [hempty])
    exact ⟨takes_of (exec_attemptStart_waits (.inl hgap)) rfl, fun hloaded => takes_of (exec_delimiterHeard_receives hloaded hgap hsending) rfl⟩

end Sys2Proof.Machine
end

section
/-!
PROOFS. The statements about RESET and LEAVE_RESET: the values that each block takes, and the number and the section that a strap value gives.
-/

namespace Sys2Proof.Machine

open Sys2Proof

/-! ### The strap value (R179) -/

section

variable {s : State}

theorem nodeNo_eq_some (h1 : 1 ≤ s.sul.strap.toNat) (h48 : s.sul.strap.toNat ≤ 48) : s.nodeNo = some s.sul.strap.toNat := if_pos ⟨h1, h48⟩

/-- A strap value outside 1 to 48 gives no number. -/
theorem nodeNo_eq_none (h : s.sul.strap.toNat = 0 ∨ 49 ≤ s.sul.strap.toNat) : s.nodeNo = none := if_neg (by omega)

theorem sectionNo_zero (h : s.sul.strap.toNat = 0) : s.sectionNo = 48 := if_pos h

theorem sectionNo_own (h1 : 1 ≤ s.sul.strap.toNat) (h48 : s.sul.strap.toNat ≤ 48) : s.sectionNo = s.sul.strap.toNat :=
  (if_neg (by omega)).trans (if_pos h48)

/-- From 49 on the strap value is that of the shadowed node and 48 more. -/
theorem sectionNo_shadowed (h : 49 ≤ s.sul.strap.toNat) : s.sectionNo = s.sul.strap.toNat - 48 :=
  (if_neg (by omega)).trans (if_neg (by omega))

end

/-! ### LEAVE_RESET (R178, R179, R181) -/

theorem exec_leaveReset (strap : BitVec 6) {s : State} (hheld : s.sul.resetHeld = true) :
    exec (.leaveReset strap) s = .next (s.setSul { Sul.init with resetHeld := false, strap := strap }) := congrArg Host.Outcome.next (if_pos hheld)

/-- Settles O3: the loader's record is rewritten, and the strap value's range decides the number and the section. -/
theorem strapsGiveTheNumber : Obligations.StrapsGiveTheNumber := by
  intro strap s hheld
  exact takes_of (exec_leaveReset strap hheld) ⟨rfl, rfl, rfl, rfl, rfl, fun h1 h48 => ⟨nodeNo_eq_some h1 h48, sectionNo_own h1 h48⟩,
    fun h0 => ⟨nodeNo_eq_none (.inl h0), sectionNo_zero h0⟩, fun h49 => ⟨nodeNo_eq_none (.inr h49), sectionNo_shadowed h49⟩⟩

/-! ### RESET (R178) -/

/-- Settles O2: the platforms and zones keep the levels of their pins (`Plat.init`, `Zone.init`), every other block is that of `State.reset`. -/
theorem resetClearsEveryBlock : Obligations.ResetClearsEveryBlock := by
  intro s
  refine takes_of rfl ⟨?lc, ?sck, ?ct, ?evac, ?clt, ?queue, ?seq, ?templates, ?platforms, ?zones, ?channels, ?audio, ?port, ?levels, ?classes,
    ?floor, ?nightStart, ?nightEnd, ?mode, ?held, ?pins⟩
  case platforms => exact fun p => Duo.get_map _ s.pm p
  case zones =>
    intro z
    have hz : (s.za.map fun r => Zone.init r.ampFault).get z = Zone.init (s.za.get z).ampFault := Quad.get_map _ _ z
    rw [hz]
    exact ⟨rfl, rfl, rfl, rfl, rfl, rfl, rfl, rfl, rfl⟩
  case channels => exact Quad.get_const none
  case audio => exact Quad.get_const 0
  case levels => exact Quad.get_const LuZone.init
  case classes => exact fun n hn => List.eq_of_mem_replicate hn
  all_goals rfl

end Sys2Proof.Machine
end

section
/-!
SUPPORT. What each operation that a command is made of leaves of the queue of waiting commands: all of it. One `@[simp]` lemma for each operation, most
of them a field of its frame, so that a command's own proof is the split into its branches.
-/

namespace Sys2Proof.Machine

open Sys2Proof

variable (s : State)

/-! ### Updates of one part -/

@[simp] theorem modCall_pending (k : Nat) (f : Call → Call) : (s.modCall k f).pending = s.pending := (modCall_side s k f).pending

@[simp] theorem modTimer_pending (k i : Nat) (f : StepTimer → StepTimer) : (s.modTimer k i f).pending = s.pending := (modTimer_side s k i f).pending

@[simp] theorem modPlat_pending (p : PlatId) (f : Plat → Plat) : (s.modPlat p f).pending = s.pending := (modPlat_side s p f).pending

@[simp] theorem setQueue_pending (q : List Orig) : (s.setQueue q).pending = s.pending := (setQueue_side s q).pending

@[simp] theorem removeOrigs_pending (p : Orig → Bool) : (s.removeOrigs p).pending = s.pending := (removeOrigs_side s p).pending

@[simp] theorem modZone_pending (z : ZoneId) (f : Zone → Zone) : (s.modZone z f).pending = s.pending := (modZone_side s z f).pending

@[simp] theorem modLu_pending (z : ZoneId) (f : LuZone → LuZone) : (s.modLu z f).pending = s.pending := (modLu_side s z f).pending

@[simp] theorem modEntry_pending (id : ClaimId) (f : Entry → Entry) : (s.modEntry id f).pending = s.pending := (modEntry_side s id f).pending

@[simp] theorem modOrigin_pending (id : ClaimId) (f : OriginPart → OriginPart) : (s.modOrigin id f).pending = s.pending :=
  (modOrigin_side s id f).pending

@[simp] theorem setChan_pending (c : ChanId) (ch : Option Chan) : (s.setChan c ch).pending = s.pending := (setChan_side s c ch).pending

@[simp] theorem setTx_pending (q : List TxFrame) : (s.setTx q).pending = s.pending := (setTx_side s q).pending

@[simp] theorem setReport_pending (r : Option ReportBuf) : (s.setReport r).pending = s.pending := (setReport_side s r).pending

@[simp] theorem frameEnd_pending : s.frameEnd.pending = s.pending := (frameEnd_side s).pending

/-! ### Calls, steps and platforms -/

/-- Steps taken one by one leave the queue of commands when each does. -/
@[simp] theorem eachStep_pending {f : State → Nat → Nat → State} (h : ∀ u k i, (f u k i).pending = u.pending) (rs : List (Nat × Nat)) :
    (s.eachStep rs f).pending = s.pending :=
  foldl_rel (fun u v => v.pending = u.pending) (fun _ => rfl) (fun h k => k.trans h) (f := fun u (r : Nat × Nat) => f u r.1 r.2)
    (fun u r => h u r.1 r.2) rs s

@[simp] theorem tickStep_pending (adv : Bool) (k i : Nat) : (State.tickStep adv s k i).pending = s.pending := (tickStep_side adv s k i).pending

@[simp] theorem forwardStep_pending (k i : Nat) : (s.forwardStep k i).pending = s.pending := (forwardStep_side s k i).pending

@[simp] theorem backwardStep_pending (k i : Nat) : (s.backwardStep k i).pending = s.pending := (backwardStep_side s k i).pending

@[simp] theorem doorsStep_pending (k i : Nat) : (s.doorsStep k i).pending = s.pending := (doorsStep_side s k i).pending

@[simp] theorem expiryTests_pending : s.expiryTests.pending = s.pending := (expiryTests_side s).pending

@[simp] theorem swapExpiry_pending (c : Call) : (s.swapExpiry c).pending = s.pending := (swapExpiry_side s c).pending

@[simp] theorem pushOrig_pending (o : Orig) : (s.pushOrig o).pending = s.pending := (pushOrig_side s o).pending

@[simp] theorem install_pending (c : Call) : (s.install c).pending = s.pending := (install_side s c).pending

@[simp] theorem stage_pending (k : Nat) (a : Amendment) : (s.stage k a).pending = s.pending := (stage_side s k a).pending

@[simp] theorem replan_pending (k : Nat) (a : Amendment) : (s.replan k a).pending = s.pending := (replan_side s k a).pending

@[simp] theorem leaveService_pending (k : Nat) (st : CallState) : (s.leaveService k st).pending = s.pending := (leaveService_side s k st).pending

@[simp] theorem settleHandoff_pending (k : Nat) : (s.settleHandoff k).pending = s.pending := (settleHandoff_side s k).pending

@[simp] theorem revertHandoff_pending (k : Nat) : (s.revertHandoff k).pending = s.pending := (revertHandoff_side s k).pending

@[simp] theorem occMoved_pending (p : PlatId) : (s.occMoved p).pending = s.pending := (occMoved_side s p).pending

@[simp] theorem acceptOcc_pending (p : PlatId) : (s.acceptOcc p).pending = s.pending := (acceptOcc_side s p).pending

/-! ### Claims, zones and channels -/

@[simp] theorem settle_pending : s.settle.pending = s.pending := (settle_side s).pending

@[simp] theorem writeDisps_pending (id : ClaimId) (zs : List ZoneId) (d : Disp) : (s.writeDisps id zs d).pending = s.pending :=
  (writeDisps_side s id zs d).pending

@[simp] theorem enter_pending (zs : List ZoneId) (r : Arb × List ClaimId) : (s.enter zs r).pending = s.pending := (enter_side s zs r).pending

@[simp] theorem stopUnit_pending (z : ZoneId) (c : StopCause) : (s.stopUnit z c).pending = s.pending := (stopUnit_side s z c).pending

@[simp] theorem missWaiter_pending (z : ZoneId) (id : ClaimId) : (s.missWaiter z id).pending = s.pending := (missWaiter_side s z id).pending

@[simp] theorem nextLeft_pending (z : ZoneId) (a : Arb) : (s.nextLeft z a).pending = s.pending := (nextLeft_side s z a).pending

@[simp] theorem clearZone_pending (z : ZoneId) (st : ZoneState) : (s.clearZone z st).pending = s.pending := (clearZone_side s z st).pending

@[simp] theorem returnZone_pending (z : ZoneId) : (s.returnZone z).pending = s.pending := (returnZone_side s z).pending

@[simp] theorem reform_pending (z : ZoneId) : (s.reform z).pending = s.pending := (reform_side s z).pending

@[simp] theorem applyStaged_pending (z : ZoneId) : (s.applyStaged z).pending = s.pending := (applyStaged_side s z).pending

@[simp] theorem grant_pending : s.grant.pending = s.pending := (grant_side s).pending

@[simp] theorem deliver_pending (r : ReadOp) (bytes : List Byte) : (s.deliver r bytes).pending = s.pending := by rw [deliver_frame]

@[simp] theorem reach16_pending (t : Nat) : (s.reach16 t).pending = s.pending := by rw [reach16_frame]

@[simp] theorem writeBack_pending (src : OrigSource) (id : ClaimId) : (s.writeBack src id).pending = s.pending := by rw [writeBack_eq]

/-! ### The link -/

@[simp] theorem enqueue_pending (b : TxBody) (dst : Nat) : (s.enqueue b dst).pending = s.pending := (enqueue_side s b dst).pending

@[simp] theorem answer_pending (f : RxFrame) (k key : Nat) (c : AnswerCode) : (s.answer f k key c).pending = s.pending := (answer_side s f k key c).pending

@[simp] theorem failFrame_pending (f : TxFrame) : (s.failFrame f).pending = s.pending := (failFrame_side s f).pending

@[simp] theorem takeBack_pending (id : ClaimId) : (s.takeBack id).pending = s.pending := (takeBack_side s id).pending

@[simp] theorem withdrawOwn_pending (cut : Bool) (id : ClaimId) : (s.withdrawOwn cut id).pending = s.pending := (withdrawOwn_side cut s id).pending

@[simp] theorem withdrawCall_pending (k : Nat) : (s.withdrawCall k).pending = s.pending := (withdrawCall_side s k).pending

@[simp] theorem takeCede_pending (src : Nat) (id : ClaimId) (cut : Bool) : (s.takeCede src id cut).pending = s.pending :=
  (takeCede_side s src id cut).pending

@[simp] theorem ownCede_pending (id : ClaimId) (cut : Bool) : (s.ownCede id cut).pending = s.pending := (ownCede_side s id cut).pending

@[simp] theorem ownClaim_pending (c : ClaimFrame) : (s.ownClaim c).pending = s.pending := (ownClaim_side s c).pending

@[simp] theorem peerClaim_pending (src : Nat) (c : ClaimFrame) : (s.peerClaim src c).pending = s.pending := (peerClaim_side s src c).pending

end Sys2Proof.Machine
end

section
/-!
PROOFS. The statement that a step is its command's effect: each command completes and leaves the queue of waiting commands as it was, by its branches.
-/

namespace Sys2Proof.Machine

open Sys2Proof

/-- The command `c` completes on `s` and leaves the queue of waiting commands as it was. -/
def LeavesQueue (c : Instr) (s : State) : Prop := Takes c s (fun t => t.pending = s.pending)

theorem leavesQueue_of {c : Instr} {s t : State} (h : exec c s = .next t) (hp : t.pending = s.pending) : LeavesQueue c s := ⟨t, h, hp⟩

section

variable (s : State)

/-! ### The loader (R177 to R182) -/

theorem fireEvac_pending : s.fireEvac.pending = s.pending := by
  unfold State.fireEvac
  dsimp only
  split <;> simp

theorem loadImage_pending (image : List Byte) : (s.loadImage image).pending = s.pending := by
  simp only [State.loadImage, State.setPm_pending, State.setZa_pending, State.setCmp_pending, State.setLu_pending, State.setCfg_pending]

theorem faultValues_pending : s.faultValues.pending = s.pending := by
  simp only [State.faultValues, State.setZa_pending, State.setCfg_pending]

theorem loadEnded_pending (o : LoadOutcome) : (s.loadEnded o).pending = s.pending := by
  unfold State.loadEnded
  dsimp only
  split
  · rw [loadImage_pending, State.setSul_pending]
  · rw [faultValues_pending, State.setSul_pending]

theorem startPm_pending : s.startPm.pending = s.pending := by simp [State.startPm]

theorem enterRunning_pending : s.enterRunning.pending = s.pending := by
  unfold State.enterRunning
  dsimp only
  split
  · rw [fireEvac_pending]
    rfl
  · rfl

@[simp] theorem endLoading_pending (o : LoadOutcome) : (s.endLoading o).pending = s.pending := by
  have hstarted : (s.loadEnded o).startPm.pending = s.pending := by rw [startPm_pending, loadEnded_pending]
  rw [endLoading_eq]
  split
  · rw [enterRunning_pending, hstarted]
  · exact hstarted

/-- RESET keeps the commands that wait, by the model's choice (log 6). -/
theorem reset_queue : LeavesQueue .reset s := leavesQueue_of rfl rfl

theorem leaveReset_queue (strap : BitVec 6) : LeavesQueue (.leaveReset strap) s := by
  refine leavesQueue_of rfl ?_
  split <;> rfl

theorem headerReadDone_queue (bytes : List Byte) : LeavesQueue (.headerReadDone bytes) s := by
  refine leavesQueue_of rfl ?_
  repeat' split
  all_goals simp

theorem configReadDone_queue (bytes : List Byte) : LeavesQueue (.configReadDone bytes) s := by
  refine leavesQueue_of rfl ?_
  dsimp only
  repeat' split
  all_goals simp

/-! ### The clocks (R6 to R8) -/

theorem secondBoundary_queue : LeavesQueue .secondBoundary s := by
  refine leavesQueue_of rfl ?_
  unfold State.second
  dsimp only
  repeat' split
  all_goals simp

theorem setClock_pending (v : Nat) : (s.setClock v).pending = s.pending := by
  unfold State.setClock
  dsimp only
  repeat' split
  all_goals simp

theorem clock_queue (f : RxFrame) : LeavesQueue (.clock f) s := by
  refine leavesQueue_of rfl ?_
  repeat' split
  all_goals simp [setClock_pending]

theorem samplingInstant_queue (vref : Nat) (envelope : Quad Nat) : LeavesQueue (.samplingInstant vref envelope) s := by
  have hms : s.millisecond.pending = s.pending := rfl
  refine leavesQueue_of rfl ?_
  dsimp only
  repeat' split
  · exact (ZoneSide.foldl (fun u z => sampleZone_side u vref envelope z) Idx4.all s.millisecond).pending.trans hms
  · exact hms
  · rfl

/-! ### Frames for calls (R9 to R14, R33, R56, R57, R69, R70) -/

/-- A call frame leaves the queue of commands where the act on its call does. -/
theorem callFrame_pending (k : Nat) (f : RxFrame) {act : State → State} (h : ∀ u, (act u).pending = u.pending) :
    (s.callFrame k f act).pending = s.pending := by
  unfold State.callFrame
  dsimp only
  repeat' split
  all_goals simp [h]

theorem answered_queue {c : Instr} {k : Nat} {f : RxFrame} {key : Nat} {r : State → State × AnswerCode}
    (hc : exec c s = .next (s.callFrame k f (fun u => State.answered f k key (r u)))) (hr : ∀ u, (r u).1.pending = u.pending) :
    LeavesQueue c s :=
  leavesQueue_of hc (callFrame_pending s k f fun u => (answer_pending _ _ _ _ _).trans (hr u))

theorem callset_queue (f : RxFrame) : LeavesQueue (.callset f) s := by
  refine answered_queue s rfl fun u => ?_
  unfold State.takeCallset
  repeat' split
  all_goals simp

theorem callamend_queue (f : RxFrame) : LeavesQueue (.callamend f) s := by
  refine answered_queue s rfl fun u => ?_
  unfold State.takeAmend
  repeat' split
  all_goals simp

theorem callplan_queue (f : RxFrame) : LeavesQueue (.callplan f) s := by
  refine answered_queue s rfl fun u => ?_
  unfold State.takePlan
  repeat' split
  all_goals simp

theorem calldrop_queue (f : RxFrame) : LeavesQueue (.calldrop f) s := by
  refine answered_queue s rfl fun u => ?_
  unfold State.takeDrop
  repeat' split
  all_goals simp

theorem triggerStep_pending (key i : Nat) (c : Call) (st : Step) : (s.triggerStep key i c st).1.pending = s.pending := by
  unfold State.triggerStep State.triggerFire
  dsimp only
  repeat' split
  all_goals simp

theorem trigger_queue (f : RxFrame) : LeavesQueue (.trigger f) s := by
  refine answered_queue s rfl fun u => ?_
  unfold State.takeTrigger
  repeat' split
  all_goals simp [triggerStep_pending]

theorem handoffFrame_pending (f : RxFrame) : (s.handoffFrame f).pending = s.pending := by
  unfold State.handoffFrame State.answered State.takeHandoff
  dsimp only
  repeat' split
  all_goals simp

theorem answerFrame_queue (f : RxFrame) : LeavesQueue (.answer f) s := by
  refine leavesQueue_of rfl ?_
  unfold State.takeAnswer
  repeat' split
  all_goals simp

theorem handoffTimeout_queue (key : Nat) : LeavesQueue (.handoffTimeout key) s := by
  refine leavesQueue_of rfl ?_
  repeat' split
  all_goals simp

/-! ### The other frames (R95, R96, R99, R102, R129, R163, R173) -/

theorem query_queue (f : RxFrame) (maint : Bool) : LeavesQueue (.query f maint) s := by
  refine leavesQueue_of rfl ?_
  unfold State.takeQuery
  dsimp only
  repeat' split
  all_goals simp

theorem setService_pending (z : ZoneId) (on : Bool) : (s.setService z on).pending = s.pending := by rw [setService_frame]

theorem takeZattr_pending (f : RxFrame) (maint : Bool) : (s.takeZattr f maint).1.pending = s.pending := by
  unfold State.takeZattr State.acceptZattr
  dsimp only
  repeat' split
  all_goals simp [setService_pending]

theorem zattr_queue (f : RxFrame) (maint : Bool) : LeavesQueue (.zattr f maint) s := by
  refine leavesQueue_of rfl ?_
  repeat' split
  all_goals simp [State.answered, takeZattr_pending]

theorem claim_queue (f : RxFrame) : LeavesQueue (.claim f) s := by
  refine leavesQueue_of rfl ?_
  unfold State.takeClaim
  repeat' split
  all_goals simp

theorem cede_queue (f : RxFrame) : LeavesQueue (.cede f) s := by
  refine leavesQueue_of rfl ?_
  repeat' split
  all_goals simp

theorem zstat_queue (f : RxFrame) : LeavesQueue (.zstat f) s := by
  refine leavesQueue_of rfl ?_
  unfold State.takeZstat
  repeat' split
  all_goals simp

theorem frameRejected_queue (bytes : List Byte) (truncated : Bool) : LeavesQueue (.frameRejected bytes truncated) s := by
  refine leavesQueue_of rfl ?_
  split <;> simp

/-! ### The pins (R38 to R44, R52) -/

theorem occChange_queue (p : PlatId) : LeavesQueue (.occChange p) s := by
  refine leavesQueue_of rfl ?_
  split <;> simp

theorem debounceWaitExpiry_queue (p : PlatId) : LeavesQueue (.debounceWaitExpiry p) s := by
  refine leavesQueue_of rfl ?_
  split <;> simp

theorem doorsEdge_pending (p : PlatId) : (s.doorsEdge p).pending = s.pending := by
  unfold State.doorsEdge
  dsimp only
  repeat' split
  all_goals simp

theorem doorsRise_queue (p : PlatId) : LeavesQueue (.doorsRise p) s := by
  refine leavesQueue_of rfl ?_
  split <;> simp [doorsEdge_pending]

theorem doorsFall_queue (p : PlatId) : LeavesQueue (.doorsFall p) s := by
  refine leavesQueue_of rfl ?_
  split <;> simp

theorem fireApproach_pending (p : PlatId) : (s.fireApproach p).pending = s.pending := by
  unfold State.fireApproach
  split <;> simp

theorem approachRise_queue (p : PlatId) : LeavesQueue (.approachRise p) s := by
  refine leavesQueue_of rfl ?_
  dsimp only
  repeat' split
  all_goals simp [fireApproach_pending]

theorem evacRise_queue : LeavesQueue .evacRise s := by
  refine leavesQueue_of rfl ?_
  dsimp only
  repeat' split
  all_goals simp [State.evacEdge, fireEvac_pending]

theorem evacTimerExpiry_queue : LeavesQueue .evacTimerExpiry s := by
  refine leavesQueue_of rfl ?_
  split <;> simp [fireEvac_pending]

theorem withdrawEvac_pending : s.withdrawEvac.pending = s.pending := by
  unfold State.withdrawEvac
  split <;> simp

theorem evacFall_queue : LeavesQueue .evacFall s := by
  refine leavesQueue_of rfl ?_
  dsimp only
  repeat' split
  all_goals simp [State.evacStop, withdrawEvac_pending]

/-! ### Calls and entries that change or leave (R17, R63, R77, R78, R103 to R106) -/

theorem swapPlatform_pending (c : Call) (ch : PlatChange) : (s.swapPlatform c ch).pending = s.pending := by
  cases ch <;> simp [State.swapPlatform]

theorem sendHandoff_pending (key server platform : Nat) : (s.sendHandoff key server platform).pending = s.pending := by
  unfold State.sendHandoff
  split <;> simp

theorem swapState_pending (key : Nat) (ch : PlatChange) : (s.swapState key ch).pending = s.pending := by
  cases ch <;> simp [State.swapState, sendHandoff_pending]

theorem swap_queue (key : Nat) : LeavesQueue (.swap key) s := by
  refine leavesQueue_of rfl ?_
  repeat' split
  all_goals simp [State.swapCall, swapPlatform_pending, swapState_pending]

theorem callRemoval_queue (key : Nat) : LeavesQueue (.callRemoval key) s := by
  refine leavesQueue_of rfl ?_
  repeat' split
  all_goals simp

theorem composeOrig_pending (own : Nat) (o : Orig) : (s.composeOrig own o).pending = s.pending := by
  unfold State.composeOrig
  dsimp only
  split <;> simp

theorem compose_queue : LeavesQueue .compose s := by
  refine leavesQueue_of rfl ?_
  repeat' split
  all_goals simp [composeOrig_pending]

theorem entryRemoval_queue (id : ClaimId) : LeavesQueue (.entryRemoval id) s := by
  refine leavesQueue_of rfl ?_
  repeat' split
  all_goals simp

theorem closeWindow_pending (e : Entry) (o : OriginPart) : (s.closeWindow e o).pending = s.pending := by
  unfold State.closeWindow
  split <;> simp

theorem coverageWindowClose_queue (id : ClaimId) : LeavesQueue (.coverageWindowClose id) s := by
  refine leavesQueue_of rfl ?_
  repeat' split
  all_goals simp [closeWindow_pending]

/-! ### Zones, channels and the store port (R118 to R148) -/

theorem ampFaultRise_queue (z : ZoneId) : LeavesQueue (.ampFaultRise z) s := by
  refine leavesQueue_of rfl ?_
  dsimp only
  repeat' split
  all_goals simp

theorem ampFaultFall_queue (z : ZoneId) : LeavesQueue (.ampFaultFall z) s := by
  refine leavesQueue_of rfl ?_
  dsimp only
  repeat' split
  all_goals simp

theorem startInstant_queue (z : ZoneId) : LeavesQueue (.startInstant z) s := by
  refine leavesQueue_of rfl ?_
  repeat' split
  all_goals simp

theorem stopInstant_queue (z : ZoneId) : LeavesQueue (.stopInstant z) s := by
  refine leavesQueue_of rfl ?_
  split <;> simp

theorem jointWaiterStart_queue (z : ZoneId) (id : ClaimId) : LeavesQueue (.jointWaiterStart z id) s := by
  refine leavesQueue_of rfl ?_
  split <;> simp

theorem looseWaiterExpiry_queue (z : ZoneId) (id : ClaimId) : LeavesQueue (.looseWaiterExpiry z id) s := by
  refine leavesQueue_of rfl ?_
  split <;> simp

theorem nextClaimExpiry_queue (z : ZoneId) : LeavesQueue (.nextClaimExpiry z) s := by
  refine leavesQueue_of rfl ?_
  repeat' split
  all_goals simp

theorem pairReform_queue (z : ZoneId) : LeavesQueue (.pairReform z) s := by
  refine leavesQueue_of rfl ?_
  split <;> simp

theorem trackerWindowComplete_queue (z : ZoneId) : LeavesQueue (.trackerWindowComplete z) s := by
  refine leavesQueue_of rfl ?_
  repeat' split
  all_goals simp

theorem boundary_pending (c : ChanId) (ch : Chan) : (s.boundary c ch).pending = s.pending := by
  have hunits : ∀ (u : State) last, ((u.attachedUnits ch).foldl (State.boundaryUnit last) u).pending = u.pending :=
    fun u last => (boundaryUnits_side last _ u).pending
  unfold State.boundary
  dsimp only
  split <;> simp [hunits]

theorem phraseBoundary_queue (c : ChanId) : LeavesQueue (.phraseBoundary c) s := by
  refine leavesQueue_of rfl ?_
  repeat' split
  all_goals simp [boundary_pending]

theorem storeReadComplete_queue (bytes : List Byte) : LeavesQueue (.storeReadComplete bytes) s := by
  refine leavesQueue_of rfl ?_
  split <;> simp

theorem sampleDue_queue (c : ChanId) : LeavesQueue (.sampleDue c) s := by
  refine leavesQueue_of rfl ?_
  repeat' split
  all_goals simp [State.handSample]

/-! ### The link (R165 to R171) -/

theorem attemptStart_queue (idle : Nat) : LeavesQueue (.attemptStart idle) s := by
  refine leavesQueue_of rfl ?_
  split <;> simp

theorem delimiterHeard_queue (idle : Nat) : LeavesQueue (.delimiterHeard idle) s := by
  refine leavesQueue_of rfl ?_
  split <;> simp

theorem dropUnderWay_pending : s.dropUnderWay.pending = s.pending := setTx_pending s _

theorem reportSent_pending : s.reportSent.pending = s.pending := by
  unfold State.reportSent
  repeat' split
  all_goals simp

theorem frameReturned_pending (f : TxFrame) : (s.frameReturned f).pending = s.pending := by
  unfold State.frameReturned
  split <;> simp [State.handoffSent, reportSent_pending]

theorem frameSent_queue : LeavesQueue .frameSent s := by
  refine leavesQueue_of rfl ?_
  split <;> simp [frameReturned_pending, dropUnderWay_pending]

theorem collide_pending (own : Nat) (f : TxFrame) : (s.collide own f).pending = s.pending := by
  unfold State.collide State.heldTakeBack
  repeat' split
  all_goals simp [dropUnderWay_pending]

theorem collision_queue (bit : Nat) : LeavesQueue (.collision bit) s := by
  refine leavesQueue_of rfl ?_
  repeat' split
  all_goals simp [collide_pending]

/-! ### The statement -/

theorem exec_leavesQueue (c : Instr) : LeavesQueue c s := by
  cases c with
  | reset => exact reset_queue s
  | leaveReset strap => exact leaveReset_queue s strap
  | headerReadDone bytes => exact headerReadDone_queue s bytes
  | configReadDone bytes => exact configReadDone_queue s bytes
  | secondBoundary => exact secondBoundary_queue s
  | clock f => exact clock_queue s f
  | callset f => exact callset_queue s f
  | callamend f => exact callamend_queue s f
  | callplan f => exact callplan_queue s f
  | calldrop f => exact calldrop_queue s f
  | trigger f => exact trigger_queue s f
  | handoff f => exact leavesQueue_of rfl (callFrame_pending s _ f fun u => handoffFrame_pending u f)
  | answer f => exact answerFrame_queue s f
  | handoffTimeout key => exact handoffTimeout_queue s key
  | query f maint => exact query_queue s f maint
  | report f => exact leavesQueue_of rfl (frameEnd_pending s)
  | zattr f maint => exact zattr_queue s f maint
  | claim f => exact claim_queue s f
  | cede f => exact cede_queue s f
  | zstat f => exact zstat_queue s f
  | frameRejected bytes truncated => exact frameRejected_queue s bytes truncated
  | occChange p => exact occChange_queue s p
  | debounceWaitExpiry p => exact debounceWaitExpiry_queue s p
  | doorsRise p => exact doorsRise_queue s p
  | doorsFall p => exact doorsFall_queue s p
  | approachRise p => exact approachRise_queue s p
  | approachFall p => exact leavesQueue_of rfl (modPlat_pending s p _)
  | evacRise => exact evacRise_queue s
  | evacTimerExpiry => exact evacTimerExpiry_queue s
  | evacFall => exact evacFall_queue s
  | ampFaultRise z => exact ampFaultRise_queue s z
  | ampFaultFall z => exact ampFaultFall_queue s z
  | compose => exact compose_queue s
  | swap key => exact swap_queue s key
  | callRemoval key => exact callRemoval_queue s key
  | entryRemoval id => exact entryRemoval_queue s id
  | coverageWindowClose id => exact coverageWindowClose_queue s id
  | startInstant z => exact startInstant_queue s z
  | stopInstant z => exact stopInstant_queue s z
  | jointWaiterStart z id => exact jointWaiterStart_queue s z id
  | looseWaiterExpiry z id => exact looseWaiterExpiry_queue s z id
  | nextClaimExpiry z => exact nextClaimExpiry_queue s z
  | phraseBoundary c => exact phraseBoundary_queue s c
  | storeReadComplete bytes => exact storeReadComplete_queue s bytes
  | hangoverExpiry z => exact leavesQueue_of rfl rfl
  | trackerWindowComplete z => exact trackerWindowComplete_queue s z
  | stagedAttrApply z => exact leavesQueue_of rfl (applyStaged_pending s z)
  | pairReform z => exact pairReform_queue s z
  | attemptStart idle => exact attemptStart_queue s idle
  | delimiterHeard idle => exact delimiterHeard_queue s idle
  | frameSent => exact frameSent_queue s
  | collision bit => exact collision_queue s bit
  | samplingInstant vref envelope => exact samplingInstant_queue s vref envelope
  | sampleDue c => exact sampleDue_queue s c

end

theorem step_front (c : Instr) (rest : List Instr) (s : State) : step (s.setPending (c :: rest)) = exec c (s.setPending rest) := rfl

theorem step_idle {s : State} (h : s.pending = []) : step s = .next s := by rw [step, h]

/-- Settles O1: `step` by the queue's two forms, the queue left by each command in `exec_leavesQueue`. -/
theorem stepTakesFrontCommand : Obligations.StepTakesFrontCommand :=
  ⟨step_front, fun _ h => step_idle h, fun c s => exec_leavesQueue s c⟩

end Sys2Proof.Machine
end
